-- ==== Sys2Proof/Word.lean ====
section
/-! DEFINITION. The word types of the Pilot CORE and the three operand widths (spec/00_scope.md R8, R10;
spec/10_state.md R20, R21). -/

namespace Sys2Proof

/-- A byte of memory (R62). -/
abbrev Byte := BitVec 8

/-- An instruction word (R90). -/
abbrev Word16 := BitVec 16

/-- A 24-bit value on the internal data path (R20). -/
abbrev Data := BitVec 24

/-- A 24-bit byte address (R62). -/
abbrev Addr := BitVec 24

/-- The number of a general register, a 3-bit field (R20). -/
abbrev Reg := Fin 8

/-- The operand widths 8, 16 and 24 (R8). -/
inductive Width where
  | w8 | w16 | w24
deriving DecidableEq, Repr

/-- The width in bits, `W` of R10. -/
def Width.bits : Width → Nat
  | .w8 => 8
  | .w16 => 16
  | .w24 => 24

/-- `bytes(W)` of R10. -/
def Width.bytes : Width → Nat
  | .w8 => 1
  | .w16 => 2
  | .w24 => 3

/-- `M(W) = 2^W` of R10. -/
def Width.modulus : Width → Nat
  | .w8 => 256
  | .w16 => 65536
  | .w24 => 16777216

/-- `trunc_W` into the 24-bit data path, high bits 0 (R11). -/
def Width.trunc (w : Width) (v : Data) : Data := BitVec.ofNat 24 (v.toNat % w.modulus)

/-- `sext_W` to 24 bits (R11). -/
def Width.sext (w : Width) (v : Data) : Data :=
  match w with
  | .w8 => (v.setWidth 8).signExtend 24
  | .w16 => (v.setWidth 16).signExtend 24
  | .w24 => v

/-- The branch predicates of R289, in the order of R125. -/
inductive Cond where
  | t | z | nz | c | nc | s | ns | v | nv
deriving DecidableEq, Repr

end Sys2Proof
end

