-- ==== Sys2Proof/Syntax.lean ====
section
/-! DEFINITION. The instructions of ENC_REF: one constructor of `Instr` for each of the 41 rows of
spec/opcode_table.json (spec/00_scope.md R16, spec/30_encoding.md R120 to R127). Operands are kept as
the instruction means them; the bits an encoding ignores (R115, R124, R125, R126) are no part of an
instruction. -/

namespace Sys2Proof

/-- The addressing modes an RM specifier selects, with their extension words (R124). -/
inductive Rm where
  | reg (b : Reg)                    -- `rb`
  | ind (b : Reg)                    -- `(rb)`
  | postInc (b : Reg)                -- `(rb)+`
  | postDec (b : Reg)                -- `(rb)-`
  | preInc (b : Reg)                 -- `+(rb)`
  | preDec (b : Reg)                 -- `-(rb)`
  | disp (b : Reg) (d : Word16)      -- `(rb+d16)`
  | pc8 (d : Byte)                   -- `(pc+d8)`
  | pc16 (d : Word16)                -- `(pc+d16)`
  | pc24 (d : Data)                  -- `(pc+d24)`
  | abs (a : Addr)                   -- `(a24)`
  | absIdx (a : Addr) (j : Reg)      -- `(a24+rj)`
  | imm (v : Data)                   -- `#imm`
deriving DecidableEq, Repr

/-- The instructions of ENC_REF. A register form ends in `R`, an immediate form in `I`. -/
inductive Instr where
  -- arithmetic-logic group, R311 to R318
  | addR (w : Width) (d s : Reg)
  | addI (w : Width) (d : Reg) (v : Data)
  | adcR (w : Width) (d s : Reg)
  | adcI (w : Width) (d : Reg) (v : Data)
  | subR (w : Width) (d s : Reg)
  | subI (w : Width) (d : Reg) (v : Data)
  | sbcR (w : Width) (d s : Reg)
  | sbcI (w : Width) (d : Reg) (v : Data)
  | andR (w : Width) (d s : Reg)
  | andI (w : Width) (d : Reg) (v : Data)
  | orR (w : Width) (d s : Reg)
  | orI (w : Width) (d : Reg) (v : Data)
  | xorR (w : Width) (d s : Reg)
  | xorI (w : Width) (d : Reg) (v : Data)
  | cmpR (w : Width) (d s : Reg)
  | cmpI (w : Width) (d : Reg) (v : Data)
  -- load/move group, R331 to R334
  | ldRR (w : Width) (r s : Reg)
  | ldRI (w : Width) (r : Reg) (v : Data)
  | ldRM (w : Width) (r : Reg) (rm : Rm)
  | ldMR (w : Width) (r : Reg) (rm : Rm)
  -- branch group, R351 to R356
  | jpAbs (cc : Cond) (a : Addr)
  | jrRel (cc : Cond) (d : Byte)
  | jpReg (cc : Cond) (r : Reg)
  | callAbs (a : Addr)
  | retn
  -- other group, R371 to R386
  | pushR (w : Width) (r : Reg)
  | popR (w : Width) (r : Reg)
  | bitM (w : Width) (n : BitVec 5) (rm : Rm)
  | setM (w : Width) (n : BitVec 5) (rm : Rm)
  | resM (w : Width) (n : BitVec 5) (rm : Rm)
  | shlR (w : Width) (r : Reg)
  | rlR (w : Width) (r : Reg)
  | rolR (w : Width) (r : Reg)
  | shrR (w : Width) (r : Reg)
  | sarR (w : Width) (r : Reg)
  | rrR (w : Width) (r : Reg)
  | rorR (w : Width) (r : Reg)
  | inR (r : Reg) (n : Byte)
  | outR (r : Reg) (n : Byte)
  -- flag-move group, R335 and R336
  | ldRF (r : Reg)
  | ldFR (r : Reg)
deriving DecidableEq, Repr

end Sys2Proof
end

