-- ==== Sys2Proof/Machine/ControlWord.lean ====
section
/-! DEFINITION. The internal formats of spec/30_encoding.md Part 2: Bus Locations, Control Words and
Microcode Descriptors (R105 to R118), and the program of Control Words an instruction stands for
(R101, R102). Types only, with the checks of R107. -/

namespace Sys2Proof.Machine

/-- The Bus Locations, a closed set (R110). -/
inductive BusLoc where
  | reg (i : Reg) (w : Width)
  | rsel (k lsb : Nat) (w : Width)
  | pc
  | iaddr
  | flags
  | mar
  | mdr
  | imm (k : Nat)
  | imm24 (k : Nat)
  | immf (k lsb len : Nat)
  | const (c : Data)
  | zero
deriving DecidableEq, Repr

/-- An ALU source descriptor: location, operand width, sign-extend flag (R105). -/
structure Source where
  loc : BusLoc
  w : Width
  sx : Bool
deriving DecidableEq, Repr

/-- The ALU opcodes (R105, R246). -/
inductive AluOp where
  | pass | add | and | or | xor
deriving DecidableEq, Repr

/-- The shifter modes (R105, R245). -/
inductive Shift where
  | none | l | lc | lb | rl | ra | rc | rb
deriving DecidableEq, Repr

/-- The flag-write mask: a subset of Z, S, V, C (R105). -/
structure FMask where
  z : Bool
  s : Bool
  v : Bool
  c : Bool
deriving DecidableEq, Repr

/-- The empty mask. -/
def FMask.empty : FMask := ⟨false, false, false, false⟩

/-- The mask of Z, S, V and C. -/
def FMask.all : FMask := ⟨true, true, true, true⟩

/-- The mask of Z alone. -/
def FMask.zOnly : FMask := ⟨true, false, false, false⟩

/-- The carry source (R105, R250). -/
inductive CSrc where
  | alu | shift
deriving DecidableEq, Repr

/-- The overflow source (R105, R249). -/
inductive VSrc where
  | arith | parity | shift | clear
deriving DecidableEq, Repr

/-- The memory-latch mode (R105, R106). -/
inductive MemMode where
  | none | h1 | h2 | addr
deriving DecidableEq, Repr

/-- The write-source selector (R105, R281). -/
inductive WSrc where
  | read | src2 | result | held
deriving DecidableEq, Repr

/-- A Control Word (R105). -/
structure ControlWord where
  src0 : Source
  src1 : Source
  dest : BusLoc
  w : Width
  op : AluOp
  addc : Bool
  neg : Bool
  add1 : Bool
  shift : Shift
  fmask : FMask
  csrc : CSrc
  vsrc : VSrc
  cinv : Bool
  mem : MemMode
  wsrc : WSrc
  mwidth : Width
deriving DecidableEq, Repr

/-- The source `(ZERO, 24, 0)` (R203). -/
def Source.zero : Source := ⟨.zero, .w24, false⟩

/-- The field values R203 gives every microcode word unless its row says otherwise; with the
operation's width put in, also the common part of the core words (R310, R330, R350). -/
def ControlWord.base (w mwidth : Width) : ControlWord :=
  { src0 := .zero, src1 := .zero, dest := .zero, w := w, op := .pass
    addc := false, neg := false, add1 := false, shift := .none, fmask := .empty
    csrc := .alu, vsrc := .arith, cinv := false, mem := .none, wsrc := .read, mwidth := mwidth }

/-- The core word of an INVALID record, which does nothing (R172). -/
def ControlWord.nop : ControlWord := .base .w24 .w24

/-- The parameters of a location lie in the ranges of R110. -/
def BusLoc.inRange : BusLoc → Bool
  | .rsel k lsb _ => decide (k ≤ 4) && decide (lsb + 3 ≤ 16)
  | .imm k => decide (k ≤ 4)
  | .imm24 k => decide (1 ≤ k) && decide (k ≤ 3)
  | .immf k lsb len => decide (k ≤ 4) && decide (lsb + len ≤ 16)
  | _ => true

/-- The locations with a write column in R110 (R113). -/
def BusLoc.writable : BusLoc → Bool
  | .iaddr | .imm _ | .imm24 _ | .immf .. | .const _ => false
  | _ => true

/-- The check of R107, made when Execute starts a word (R287). -/
def ControlWord.ok (c : ControlWord) : Bool :=
  (c.mem != .none || c.wsrc == .read)
  && !((c.mem == .h1 || c.mem == .h2) && c.wsrc == .result)
  && c.dest.writable && c.dest.inRange && c.src0.loc.inRange && c.src1.loc.inRange

/-- The microcode entry kinds, a closed set (R201). -/
inductive MuKind where
  | none | ind | postAccess | postUpdate | preAccess | preUpdate | dispAddr | dispAccess
  | pcrel8 | pcrel16 | pcrel24 | abs | absIdx | addrWb | pushPc | io
deriving DecidableEq, Repr

/-- The kinds whose word reads the descriptor's immediate slot (R207, R210 to R212, R221). -/
def MuKind.usesSlot : MuKind → Bool
  | .dispAddr | .pcrel8 | .pcrel16 | .pcrel24 | .abs | .absIdx | .io => true
  | _ => false

/-- The direction of a chain's access (R118). -/
inductive Dir where
  | read | write
deriving DecidableEq, Repr

/-- A Microcode Descriptor (R118), with the direction bit `sg` of the auto-increment modes (R204). -/
structure Desc where
  kind : MuKind
  reg : Reg
  width : Width
  dir : Dir
  slot : Nat
  sg : Bool
deriving DecidableEq, Repr

/-- `MU_NONE`. -/
def Desc.none : Desc := ⟨.none, 0, .w24, .read, 0, false⟩

/-- `desc = MU_NONE`. -/
def Desc.isNone (d : Desc) : Bool := d.kind == .none

/-- A descriptor with a generator (R202), whose words read slots in the range of R110. -/
def Desc.ok (d : Desc) : Bool :=
  d.kind != .none && (!d.kind.usesSlot || (decide (1 ≤ d.slot) && decide (d.slot ≤ 3)))

/-- No chain, or one whose first descriptor is in order. -/
def Desc.chainOk (d : Desc) : Bool := d.isNone || d.ok

/-- The branch-destination kinds (R100). -/
inductive BKind where
  | none | absImm | relImm | reg | stack
deriving DecidableEq, Repr

/-- What the decoder's instruction groups set in a record (R100, R171): the chains, the core word and
the branch fields. -/
structure Program where
  override : Desc
  before : Desc
  core : ControlWord
  after : Desc
  pred : Cond
  bkind : BKind
  static : Bool
deriving DecidableEq, Repr

/-- A program the sequencer runs without a consistency violation (R406): its chains have generators (R202),
its core word is well-formed (R107) and writes PC only in a branch (R282). An override chain never resolves
a branch (R101), so it stands in no branch that Execute is to resolve (R290). -/
def Program.ok (p : Program) : Bool :=
  p.override.chainOk && p.before.chainOk && p.after.chainOk && p.core.ok
    && (p.core.dest != .pc || p.bkind != .none)
    && (p.override.isNone || p.bkind == .none || p.static)

/-- Decode redirects for the branch itself: its predicate is T and its destination is an immediate
literal (R178). -/
def isStatic (p : Cond) (k : BKind) : Bool := p == .t && (k == .absImm || k == .relImm)

/-- The branch fields a decoder sets (R173, R178). -/
def Program.decoded (p : Program) : Bool :=
  p.static == isStatic p.pred p.bkind && (p.bkind != .none || p.pred == .t)

/-- The program of an instruction that is no branch: `pred = T`, `bkind = NONE`, `static = false`
(R173), no override chain (R101). -/
def Program.plain (before : Desc) (core : ControlWord) (after : Desc) : Program :=
  { override := .none, before := before, core := core, after := after
    pred := .t, bkind := .none, static := false }

end Sys2Proof.Machine
end

