-- ==== Sys2Proof/Config.lean ====
section
/-! DEFINITION. The implementation parameters of spec/00_scope.md R8, and the free functions of the model.
The parameters are fixed during a run (R9). Their values at reset are in
Sys2Proof/Machine/ResetConfig.lean. -/

namespace Sys2Proof

/-- `narrow_write` (R22). -/
inductive NarrowWrite where
  | merge | zeroExtend
deriving DecidableEq, Repr

/-- `endian` (R64). -/
inductive Endian where
  | little | big
deriving DecidableEq, Repr

/-- `pc_wrap` (R144). -/
inductive PcWrap where
  | linear24 | bank16
deriving DecidableEq, Repr

/-- `flag_pos`: the bit of F that holds each named flag (R27). -/
structure FlagPos where
  c : Fin 8
  z : Fin 8
  v : Fin 8
  s : Fin 8
  d : Fin 8
deriving DecidableEq, Repr

/-- `flag_pos` maps the five flags to five distinct bits (R27). -/
def FlagPos.distinct (p : FlagPos) : Bool :=
  decide (p.c ≠ p.z ∧ p.c ≠ p.v ∧ p.c ≠ p.s ∧ p.c ≠ p.d ∧ p.z ≠ p.v ∧ p.z ≠ p.s ∧ p.z ≠ p.d
    ∧ p.v ≠ p.s ∧ p.v ≠ p.d ∧ p.s ≠ p.d)

/-- `bcd_adjust` (R256): the default literal reading, or any other function, which is
`Config.bcdCustom`. -/
inductive BcdAdjust where
  | literal | custom
deriving DecidableEq, Repr

/-- `invalid_opcode_action` (R402). -/
inductive InvalidAction where
  | halt
  | trap (vector : Addr)
  | logAndSkip
deriving DecidableEq, Repr

/-- What consuming an unwritten value does. The spec aborts the model (R13, R407); the model's default
reads the value the register holds (DESIGN CHOICE, log 5). -/
inductive UnwrittenRead where
  | value | abort
deriving DecidableEq, Repr

/-- What answers the reads of the Memory Controller (R69): the last write, else the initial contents; or any
other platform, an oracle that sees the writes, which is `Config.platformByte` (log 24). -/
inductive Oracle where
  | lastWrite | platform
deriving DecidableEq, Repr

/-- A write the Memory Controller has completed: its address, its byte count and its value (R66, R69). -/
structure Write where
  addr : Addr
  n : Nat
  value : Data
deriving DecidableEq, Repr

/-- A set of operand widths, for `widths_admitted` (R8, D51). -/
structure WidthSet where
  w8 : Bool
  w16 : Bool
  w24 : Bool
deriving DecidableEq, Repr

/-- The words that equal `value` in the bits of `mask`. -/
structure WordPat where
  mask : Word16
  value : Word16
deriving DecidableEq, Repr

/-- One row of an encoding table (R92, R170): the opcode words it takes, the extension words it takes, as
many as the row's `n_ext`, and the fields the decoder sets in the record (R100, R171). A program reads the
operands from the record's words, through RSEL, IMM, IMM24 and IMMF (R110). -/
structure EncRow where
  op : WordPat
  ext : List WordPat
  prog : Machine.Program
deriving DecidableEq, Repr

/-- `enc`, the encoding table (R8, D47): ENC_REF, or any other table, whose first row that takes the words
is theirs (log 8). A row's program may name an immediate slot that its words do not fill (log 27). -/
inductive Enc where
  | ref
  | table (rows : List EncRow)
deriving DecidableEq, Repr

/-- A row the hardware can have: at most four extension words (R90), a program the sequencer can run, and
branch fields that agree (R173, R178). -/
def EncRow.ok (r : EncRow) : Bool :=
  decide (r.ext.length ≤ 4) && r.prog.ok && r.prog.decoded

/-- Every row of the table is in order. -/
def Enc.ok : Enc → Bool
  | .ref => true
  | .table rows => rows.all EncRow.ok

/-- The parameters of R8 that are not fixed by a type. The latency of the Memory Controller is
`Machine.State.draws`. -/
structure Config where
  narrowWrite : NarrowWrite
  endian : Endian
  pcWrap : PcWrap
  fqDepth : Nat
  flagPos : FlagPos
  parityEven : Bool
  bcd : BcdAdjust
  xformMask : Bool
  regdispSigned : Bool
  spIndex : Reg
  ioBase : Addr
  admitOther : Bool
  invalidAction : InvalidAction
  resetPc : Addr
  enc : Enc
  widthsAdmitted : WidthSet
  oracle : Oracle
  unwrittenRead : UnwrittenRead
deriving DecidableEq, Repr

/-- The constraints R8 and R27 put on the parameters, and an encoding table in order. -/
def Config.valid (c : Config) : Bool := decide (1 ≤ c.fqDepth) && c.flagPos.distinct && c.enc.ok

/-- The corrected result and the four flags Z, S, V, C that a decimal adjustment gives (R256). -/
structure BcdOut where
  result : Data
  z : Bool
  s : Bool
  v : Bool
  c : Bool
deriving DecidableEq, Repr, Inhabited

/-- The free decimal adjustment (R256, D23): `bcd_adjust(a, s, r, cv, W, cw)` of an implementation whose
correction is not the literal reading. It has no body (log 9). -/
opaque Config.bcdCustom (a s r cv : Nat) (w : Width) (cw : Machine.ControlWord) : BcdOut

/-- The free platform (R69): the byte at an address, after these writes, oldest first. With no write it is
the platform's initial contents (R432). It has no body (log 24). -/
opaque Config.platformByte (writes : List Write) (a : Nat) : Byte

/-- The free value that the `k`-th consistency violation carries in ABORTED(kind, value), for which no rule
gives one (R11, R39, R406). It has no body (log 25). -/
opaque Config.violationValue (k : Nat) : Nat

end Sys2Proof
end

