-- ==== Sys2Proof/WellFormed.lean ====
section
/-! DEFINITION. Which instructions ENC_REF can encode (spec/30_encoding.md R115, R122 to R128): an
immediate fits its width, a bit number lies inside its operand, and an immediate is no destination. -/

namespace Sys2Proof

/-- An immediate of width `w` has at most `w` bits (R115). -/
def immFits (w : Width) (v : Data) : Bool := decide (v.toNat < w.modulus)

/-- An immediate RM operand fits the operand's width (R115, R213). -/
def Rm.fits (w : Width) : Rm → Bool
  | .imm v => immFits w v
  | _ => true

/-- `#imm` is Invalid Opcode in a WRITE or RMW role (R213). -/
def Rm.isImm : Rm → Bool
  | .imm _ => true
  | _ => false

/-- The bit number of BIT, SET and RES lies inside the operand (R126, R376). -/
def bitInside (w : Width) (n : BitVec 5) : Bool := decide (n.toNat < w.bits)

/-- The instructions that have an encoding. -/
def wellFormed : Instr → Bool
  | .addI w _ v | .adcI w _ v | .subI w _ v | .sbcI w _ v => immFits w v
  | .andI w _ v | .orI w _ v | .xorI w _ v | .cmpI w _ v => immFits w v
  | .ldRI w _ v => immFits w v
  | .ldRM w _ rm => rm.fits w
  | .ldMR _ _ rm => !rm.isImm
  | .bitM w n rm => bitInside w n && rm.fits w
  | .setM w n rm | .resM w n rm => bitInside w n && !rm.isImm
  | .addR .. | .adcR .. | .subR .. | .sbcR .. | .andR .. | .orR .. | .xorR .. | .cmpR .. => true
  | .ldRR .. | .jpAbs .. | .jrRel .. | .jpReg .. | .callAbs .. | .retn => true
  | .pushR .. | .popR .. => true
  | .shlR .. | .rlR .. | .rolR .. | .shrR .. | .sarR .. | .rrR .. | .rorR .. => true
  | .inR .. | .outR .. | .ldRF .. | .ldFR .. => true

end Sys2Proof
end

