-- ==== Sys2Proof/Decode.lean ====
section
/-! DEFINITION. ENC_REF, the encoding table of spec/30_encoding.md Part 3: the decoder, total on any
words, which rejects by name; the decoder as a function of the parameters, with any other table in its
place (R5, R92); the byte layout of the words; and the encoder written from the tables of ENC_REF. -/

namespace Sys2Proof

/-- Why words are no instruction: the causes of R400, and a word list that ends too early. -/
inductive DecodeError where
  /-- fewer words than the opcode word asks for -/
  | truncated
  /-- R400 cause 1: group 000, 110 or 111 -/
  | reservedGroup
  /-- R400 cause 2: width code 11 -/
  | badWidth
  /-- R400 causes 3 and 8: a must-be-zero field that is not zero -/
  | mustBeZero
  /-- R400 cause 4: condition code 1001 to 1111 -/
  | badCondition
  /-- R400 cause 4: branch kind 0101 to 1111 -/
  | badBranchKind
  /-- R400 cause 4: CALL or RET with a condition -/
  | conditionNotZero
  /-- R400 cause 5: shift mode 111 -/
  | badShiftMode
  /-- R400 cause 6: RM pattern 111 with 110 or 111 -/
  | reservedRm
  /-- R400 cause 7: `#imm` as a destination -/
  | immediateDestination
  /-- R400 cause 9: bit number not below W -/
  | badBitNumber
  /-- R400 cause 10: group 100 with `admit_other = false` -/
  | groupNotAdmitted
  /-- a width that `widths_admitted` leaves out (R8) -/
  | widthNotAdmitted
deriving DecidableEq, Repr

/-- The field of `len` bits from bit `lo` (R10). -/
def fld (w : Word16) (lo len : Nat) : Nat := w.toNat / 2 ^ lo % 2 ^ len

/-- A 3-bit register field. -/
def regOf (n : Nat) : Reg := Fin.ofNat 8 n

/-- The width code (R121). -/
def widthOf : Nat → Except DecodeError Width
  | 0 => .ok .w8
  | 1 => .ok .w16
  | 2 => .ok .w24
  | _ => .error .badWidth

/-- The condition codes (R125). -/
def condOf : Nat → Except DecodeError Cond
  | 0 => .ok .t
  | 1 => .ok .z
  | 2 => .ok .nz
  | 3 => .ok .c
  | 4 => .ok .nc
  | 5 => .ok .s
  | 6 => .ok .ns
  | 7 => .ok .v
  | 8 => .ok .nv
  | _ => .error .badCondition

/-- One extension word. -/
def word1 : List Word16 → Except DecodeError (Word16 × List Word16)
  | x :: xs => .ok (x, xs)
  | [] => .error .truncated

/-- `IMM24`: the high word's bits 7:0 above the low word; the high word comes second (R115). -/
def join24 (lo hi : Word16) : Data := BitVec.ofNat 24 (hi.toNat % 256 * 65536 + lo.toNat)

/-- A 24-bit operand in two extension words (R115). -/
def word24 : List Word16 → Except DecodeError (Data × List Word16)
  | lo :: hi :: xs => .ok (join24 lo hi, xs)
  | _ => .error .truncated

/-- An immediate of width `w` (R115). -/
def immOf (w : Width) (xs : List Word16) : Except DecodeError (Data × List Word16) :=
  match w with
  | .w8 => do let (x, ys) ← word1 xs; return (BitVec.ofNat 24 (x.toNat % 256), ys)
  | .w16 => do let (x, ys) ← word1 xs; return (BitVec.ofNat 24 x.toNat, ys)
  | .w24 => word24 xs

/-- The absolute indexed operand: j is `imm[k0+1][15:13]` (R124). -/
def idxOf : List Word16 → Except DecodeError (Rm × List Word16)
  | lo :: hi :: xs => .ok (.absIdx (join24 lo hi) (regOf (fld hi 13 3)), xs)
  | _ => .error .truncated

/-- The modes of `m = 111`, selected by `b` (R124). -/
def rmSpecial (w : Width) (b : Nat) (xs : List Word16) : Except DecodeError (Rm × List Word16) :=
  match b with
  | 0 => do let (x, ys) ← word1 xs; return (.pc8 (BitVec.ofNat 8 x.toNat), ys)
  | 1 => do let (x, ys) ← word1 xs; return (.pc16 x, ys)
  | 2 => do let (x, ys) ← word24 xs; return (.pc24 x, ys)
  | 3 => do let (x, ys) ← word24 xs; return (.abs x, ys)
  | 4 => idxOf xs
  | 5 => do let (x, ys) ← immOf w xs; return (.imm x, ys)
  | _ => .error .reservedRm

/-- The RM specifier `rm6` with its extension words (R124). -/
def rmOf (w : Width) (rm6 : Nat) (xs : List Word16) : Except DecodeError (Rm × List Word16) :=
  let b := regOf (rm6 % 8)
  match rm6 / 8 with
  | 0 => .ok (.reg b, xs)
  | 1 => .ok (.ind b, xs)
  | 2 => .ok (.postInc b, xs)
  | 3 => .ok (.postDec b, xs)
  | 4 => .ok (.preInc b, xs)
  | 5 => .ok (.preDec b, xs)
  | 6 => do let (x, ys) ← word1 xs; return (.disp b x, ys)
  | _ => rmSpecial w (rm6 % 8) xs

/-- An RM specifier that is a destination: `#imm` is Invalid Opcode (R213). -/
def rmDest (w : Width) (rm6 : Nat) (xs : List Word16) : Except DecodeError (Rm × List Word16) :=
  if rm6 = 61 then .error .immediateDestination else rmOf w rm6 xs

/-- The register form of an arithmetic-logic operation (R122). -/
def aluRegForm (op : Nat) (w : Width) (d s : Reg) : Instr :=
  match op with
  | 0 => .addR w d s
  | 1 => .adcR w d s
  | 2 => .subR w d s
  | 3 => .sbcR w d s
  | 4 => .andR w d s
  | 5 => .orR w d s
  | 6 => .xorR w d s
  | _ => .cmpR w d s

/-- The immediate form of an arithmetic-logic operation (R122). -/
def aluImmForm (op : Nat) (w : Width) (d : Reg) (v : Data) : Instr :=
  match op with
  | 0 => .addI w d v
  | 1 => .adcI w d v
  | 2 => .subI w d v
  | 3 => .sbcI w d v
  | 4 => .andI w d v
  | 5 => .orI w d v
  | 6 => .xorI w d v
  | _ => .cmpI w d v

/-- Group 001 (R122). -/
def decodeAlu (w : Word16) (xs : List Word16) : Except DecodeError (Instr × List Word16) := do
  let ww ← widthOf (fld w 8 2)
  let d := regOf (fld w 5 3)
  if fld w 0 1 ≠ 0 then .error .mustBeZero
  else if fld w 1 1 = 0 then return (aluRegForm (fld w 10 3) ww d (regOf (fld w 2 3)), xs)
  else if fld w 2 3 ≠ 0 then .error .mustBeZero
  else do
    let (v, ys) ← immOf ww xs
    return (aluImmForm (fld w 10 3) ww d v, ys)

/-- Group 010 (R123). -/
def decodeLoad (w : Word16) (xs : List Word16) : Except DecodeError (Instr × List Word16) := do
  let ww ← widthOf (fld w 9 2)
  let r := regOf (fld w 6 3)
  match fld w 11 2 with
  | 0 => if fld w 0 3 ≠ 0 then .error .mustBeZero
         else return (.ldRR ww r (regOf (fld w 3 3)), xs)
  | 1 => if fld w 0 6 ≠ 0 then .error .mustBeZero
         else do let (v, ys) ← immOf ww xs; return (.ldRI ww r v, ys)
  | 2 => do let (rm, ys) ← rmOf ww (fld w 0 6) xs; return (.ldRM ww r rm, ys)
  | _ => do let (rm, ys) ← rmDest ww (fld w 0 6) xs; return (.ldMR ww r rm, ys)

/-- Group 011 (R125). -/
def decodeBranch (w : Word16) (xs : List Word16) : Except DecodeError (Instr × List Word16) :=
  match fld w 9 4 with
  | 0 => do
    let cc ← condOf (fld w 5 4)
    if fld w 0 5 ≠ 0 then .error .mustBeZero
    else do let (a, ys) ← word24 xs; return (.jpAbs cc a, ys)
  | 1 => do
    let cc ← condOf (fld w 5 4)
    if fld w 0 5 ≠ 0 then .error .mustBeZero
    else do let (x, ys) ← word1 xs; return (.jrRel cc (BitVec.ofNat 8 x.toNat), ys)
  | 2 => do
    let cc ← condOf (fld w 5 4)
    if fld w 0 2 ≠ 0 then .error .mustBeZero
    else return (.jpReg cc (regOf (fld w 2 3)), xs)
  | 3 =>
    if fld w 5 4 ≠ 0 then .error .conditionNotZero
    else if fld w 0 5 ≠ 0 then .error .mustBeZero
    else do let (a, ys) ← word24 xs; return (.callAbs a, ys)
  | 4 =>
    if fld w 5 4 ≠ 0 then .error .conditionNotZero
    else if fld w 0 5 ≠ 0 then .error .mustBeZero
    else return (.retn, xs)
  | _ => .error .badBranchKind

/-- The shift instruction of a mode (R126). -/
def shiftForm (mode : Nat) (w : Width) (r : Reg) : Except DecodeError Instr :=
  match mode with
  | 0 => .ok (.shlR w r)
  | 1 => .ok (.rlR w r)
  | 2 => .ok (.rolR w r)
  | 3 => .ok (.shrR w r)
  | 4 => .ok (.sarR w r)
  | 5 => .ok (.rrR w r)
  | 6 => .ok (.rorR w r)
  | _ => .error .badShiftMode

/-- The bit number `imm[1][4:0]`, which must be below W (R126, R376). -/
def bitNumber (w : Width) (x : Word16) : Except DecodeError (BitVec 5) :=
  let n := BitVec.ofNat 5 x.toNat
  if bitInside w n then .ok n else .error .badBitNumber

/-- BIT, SET and RES: the opcode word is checked before the bit number, which is in the first
extension word (R126, R128). -/
def decodeBit (w : Word16) (xs : List Word16) : Except DecodeError (Instr × List Word16) := do
  let ww ← widthOf (fld w 8 2)
  if fld w 0 2 ≠ 0 then .error .mustBeZero
  else do
    let (x, ys) ← word1 xs
    match fld w 10 3 with
    | 2 => do
      let (rm, zs) ← rmOf ww (fld w 2 6) ys
      let n ← bitNumber ww x
      return (.bitM ww n rm, zs)
    | 3 => do
      let (rm, zs) ← rmDest ww (fld w 2 6) ys
      let n ← bitNumber ww x
      return (.setM ww n rm, zs)
    | _ => do
      let (rm, zs) ← rmDest ww (fld w 2 6) ys
      let n ← bitNumber ww x
      return (.resM ww n rm, zs)

/-- Group 100 (R126). -/
def decodeOther (w : Word16) (xs : List Word16) : Except DecodeError (Instr × List Word16) :=
  match fld w 10 3 with
  | 0 => do
    let ww ← widthOf (fld w 8 2)
    if fld w 0 5 ≠ 0 then .error .mustBeZero
    else return (.pushR ww (regOf (fld w 5 3)), xs)
  | 1 => do
    let ww ← widthOf (fld w 8 2)
    if fld w 0 5 ≠ 0 then .error .mustBeZero
    else return (.popR ww (regOf (fld w 5 3)), xs)
  | 5 => do
    let ww ← widthOf (fld w 8 2)
    if fld w 0 2 ≠ 0 then .error .mustBeZero
    else do
      let i ← shiftForm (fld w 2 3) ww (regOf (fld w 5 3))
      return (i, xs)
  | 6 =>
    if fld w 0 7 ≠ 0 then .error .mustBeZero
    else do
      let (x, ys) ← word1 xs
      return (.inR (regOf (fld w 7 3)) (BitVec.ofNat 8 x.toNat), ys)
  | 7 =>
    if fld w 0 7 ≠ 0 then .error .mustBeZero
    else do
      let (x, ys) ← word1 xs
      return (.outR (regOf (fld w 7 3)) (BitVec.ofNat 8 x.toNat), ys)
  | _ => decodeBit w xs

/-- Group 101 (R127). -/
def decodeFlagMove (w : Word16) (xs : List Word16) : Except DecodeError (Instr × List Word16) :=
  if fld w 3 9 ≠ 0 then .error .mustBeZero
  else if fld w 12 1 = 0 then .ok (.ldRF (regOf (fld w 0 3)), xs)
  else .ok (.ldFR (regOf (fld w 0 3)), xs)

/-- The ENC_REF decoder on an opcode word and the words after it (R120, R129); `admitted` is the parameter
`admit_other` (R370). It answers the instruction and the words it leaves. -/
def decodeWords (admitted : Bool) : List Word16 → Except DecodeError (Instr × List Word16)
  | [] => .error .truncated
  | w :: xs =>
    match fld w 13 3 with
    | 1 => decodeAlu w xs
    | 2 => decodeLoad w xs
    | 3 => decodeBranch w xs
    | 4 => if admitted then decodeOther w xs else .error .groupNotAdmitted
    | 5 => decodeFlagMove w xs
    | _ => .error .reservedGroup

/-- ENC_REF's `n_ext`, a function of the opcode word alone (R92): the number of words the decoder takes after
it, and 0 for a word that is Invalid Opcode by itself (R128). Extension words of zeros never raise the
bit-number cause, so they ask only for the opcode word's own form. -/
def encNExt (admitted : Bool) (w : Word16) : Nat :=
  match decodeWords admitted [w, 0, 0, 0, 0] with
  | .ok (_, rest) => 4 - rest.length
  | .error _ => 0

/-! ### The decoder as a function of the parameters -/

/-- The operand width of a sized instruction, which the width code selects (R121, D51). -/
def Instr.width : Instr → Option Width
  | .addR w _ _ | .addI w _ _ | .adcR w _ _ | .adcI w _ _ => some w
  | .subR w _ _ | .subI w _ _ | .sbcR w _ _ | .sbcI w _ _ => some w
  | .andR w _ _ | .andI w _ _ | .orR w _ _ | .orI w _ _ => some w
  | .xorR w _ _ | .xorI w _ _ | .cmpR w _ _ | .cmpI w _ _ => some w
  | .ldRR w _ _ | .ldRI w _ _ | .ldRM w _ _ | .ldMR w _ _ => some w
  | .pushR w _ | .popR w _ => some w
  | .bitM w _ _ | .setM w _ _ | .resM w _ _ => some w
  | .shlR w _ | .rlR w _ | .rolR w _ | .shrR w _ | .sarR w _ | .rrR w _ | .rorR w _ => some w
  | .jpAbs .. | .jrRel .. | .jpReg .. | .callAbs .. | .retn => none
  | .inR .. | .outR .. | .ldRF .. | .ldFR .. => none

/-- The width is in the set. -/
def WidthSet.has (s : WidthSet) : Width → Bool
  | .w8 => s.w8
  | .w16 => s.w16
  | .w24 => s.w24

/-- `widths_admitted` admits the instruction: it has no width code, or an admitted one (R8). -/
def WidthSet.admits (s : WidthSet) (i : Instr) : Bool :=
  match i.width with
  | some w => s.has w
  | none => true

/-- The ENC_REF decoder under the parameters `admit_other` and `widths_admitted` (R8, R370). -/
def decodeRef (c : Config) (ws : List Word16) : Except DecodeError (Instr × List Word16) :=
  match decodeWords c.admitOther ws with
  | .ok (i, rest) => if c.widthsAdmitted.admits i then .ok (i, rest) else .error .widthNotAdmitted
  | .error e => .error e

/-- The word is one of the pattern's. -/
def WordPat.takes (p : WordPat) (w : Word16) : Bool := w &&& p.mask == p.value &&& p.mask

/-- The row's opcode pattern takes the opcode word and its extension patterns take the words after it. -/
def EncRow.takes (r : EncRow) : List Word16 → Bool
  | [] => false
  | w :: xs => r.op.takes w && decide (xs.length = r.ext.length)
      && (r.ext.zip xs).all fun (p, x) => p.takes x

/-- The first row that takes the words, with its number. -/
def findRow (rows : List EncRow) (ws : List Word16) : Option (EncRow × Nat) :=
  rows.zipIdx.find? fun r => r.1.takes ws

/-- `enc.n_ext` of a table: that of the first row whose opcode pattern takes the word; 0 for a word that is
Invalid Opcode by itself (R92, R128). `admit_other` and `widths_admitted` leave it as it is (DESIGN CHOICE,
log 8). -/
def tableNExt (rows : List EncRow) (w : Word16) : Nat :=
  match rows.find? fun r => r.op.takes w with
  | some r => r.ext.length
  | none => 0

/-- `enc.n_ext`, a function of the opcode word alone, under the parameters (R92). -/
def Config.nExt (c : Config) (w : Word16) : Nat :=
  match c.enc with
  | .table rows => tableNExt rows w
  | .ref =>
    match decodeRef c [w, 0, 0, 0, 0] with
    | .ok (_, rest) => 4 - rest.length
    | .error _ => 0

/-! ### The layout of instruction words in memory -/

/-- The bytes of a word at rising addresses (R64). -/
def wordBytes (e : Endian) (w : Word16) : List Byte :=
  match e with
  | .little => [BitVec.ofNat 8 w.toNat, BitVec.ofNat 8 (w.toNat / 256)]
  | .big => [BitVec.ofNat 8 (w.toNat / 256), BitVec.ofNat 8 w.toNat]

/-- The word of two bytes at rising addresses (R64). -/
def byteWord (e : Endian) (b0 b1 : Byte) : Word16 :=
  match e with
  | .little => BitVec.ofNat 16 (b0.toNat + 256 * b1.toNat)
  | .big => BitVec.ofNat 16 (b1.toNat + 256 * b0.toNat)

/-- The instruction words of bytes at rising addresses; an odd last byte is no word (R91). -/
def wordsOfBytes (e : Endian) : List Byte → List Word16
  | b0 :: b1 :: bs => byteWord e b0 b1 :: wordsOfBytes e bs
  | _ => []

/-- The decoder on bytes: the instruction, or why there is none. -/
def decodeBytes (admitted : Bool) (e : Endian) (bs : List Byte) : Except DecodeError Instr :=
  match decodeWords admitted (wordsOfBytes e bs) with
  | .ok (i, _) => .ok i
  | .error x => .error x

/-- The words of an instruction whose bits are `w`, numbered as spec/opcode_table.json numbers them: the
first word is bits 15..0. Bits from `nbits` up are 0, up to five words, the record's slots (R104). -/
def tableWords (nbits w : Nat) : List Word16 :=
  let v := w % 2 ^ nbits
  [BitVec.ofNat 16 v, BitVec.ofNat 16 (v / 2 ^ 16), BitVec.ofNat 16 (v / 2 ^ 32),
   BitVec.ofNat 16 (v / 2 ^ 48), BitVec.ofNat 16 (v / 2 ^ 64)]

/-- The instruction the decoder reads from the words of a row of the opcode table, laid out as bytes in
the default byte order. -/
def decodeTableWord (nbits w : Nat) : Option Instr :=
  match decodeBytes true .little ((tableWords nbits w).flatMap (wordBytes .little)) with
  | .ok i => some i
  | .error _ => none

/-! ### The encoder -/

/-- The width code (R121). -/
def widthCode : Width → Nat
  | .w8 => 0
  | .w16 => 1
  | .w24 => 2

/-- The condition code (R125). -/
def condCode : Cond → Nat
  | .t => 0
  | .z => 1
  | .nz => 2
  | .c => 3
  | .nc => 4
  | .s => 5
  | .ns => 6
  | .v => 7
  | .nv => 8

/-- The two extension words of a 24-bit operand, low word first, ignored bits 0 (R115). -/
def split24 (v : Data) : List Word16 := [BitVec.ofNat 16 v.toNat, BitVec.ofNat 16 (v.toNat / 65536)]

/-- The extension words of an immediate, ignored bits 0 (R115). -/
def immWords (w : Width) (v : Data) : List Word16 :=
  match w with
  | .w8 => [BitVec.ofNat 16 (v.toNat % 256)]
  | .w16 => [BitVec.ofNat 16 v.toNat]
  | .w24 => split24 v

/-- The six bits of an RM specifier (R124). -/
def rmCode : Rm → Nat
  | .reg b => b.val
  | .ind b => 8 + b.val
  | .postInc b => 16 + b.val
  | .postDec b => 24 + b.val
  | .preInc b => 32 + b.val
  | .preDec b => 40 + b.val
  | .disp b _ => 48 + b.val
  | .pc8 _ => 56
  | .pc16 _ => 57
  | .pc24 _ => 58
  | .abs _ => 59
  | .absIdx _ _ => 60
  | .imm _ => 61

/-- The extension words of an RM specifier (R124). -/
def rmWords (w : Width) : Rm → List Word16
  | .reg _ | .ind _ | .postInc _ | .postDec _ | .preInc _ | .preDec _ => []
  | .disp _ d => [d]
  | .pc8 d => [BitVec.ofNat 16 d.toNat]
  | .pc16 d => [d]
  | .pc24 d => split24 d
  | .abs a => split24 a
  | .absIdx a j => [BitVec.ofNat 16 a.toNat, BitVec.ofNat 16 (a.toNat / 65536 + j.val * 8192)]
  | .imm v => immWords w v

/-- The opcode word of group 001, register form (R122). -/
def encAluR (op : Nat) (w : Width) (d s : Reg) : List Word16 :=
  [BitVec.ofNat 16 (0x2000 + op * 1024 + widthCode w * 256 + d.val * 32 + s.val * 4)]

/-- Group 001, immediate form (R122). -/
def encAluI (op : Nat) (w : Width) (d : Reg) (v : Data) : List Word16 :=
  BitVec.ofNat 16 (0x2000 + op * 1024 + widthCode w * 256 + d.val * 32 + 2) :: immWords w v

/-- The opcode word of group 010 (R123). -/
def encLoad (sub : Nat) (w : Width) (r : Reg) (low : Nat) : Word16 :=
  BitVec.ofNat 16 (0x4000 + sub * 2048 + widthCode w * 512 + r.val * 64 + low)

/-- The opcode word of group 011 (R125). -/
def encBranch (kind : Nat) (cc : Cond) (low : Nat) : Word16 :=
  BitVec.ofNat 16 (0x6000 + kind * 512 + condCode cc * 32 + low)

/-- The opcode word of group 100 with a width and a register (R126). -/
def encOther (sub : Nat) (w : Width) (r : Reg) (low : Nat) : Word16 :=
  BitVec.ofNat 16 (0x8000 + sub * 1024 + widthCode w * 256 + r.val * 32 + low)

/-- BIT, SET and RES (R126). -/
def encBit (sub : Nat) (w : Width) (n : BitVec 5) (rm : Rm) : List Word16 :=
  BitVec.ofNat 16 (0x8000 + sub * 1024 + widthCode w * 256 + rmCode rm * 4)
    :: BitVec.ofNat 16 n.toNat :: rmWords w rm

/-- IN and OUT (R126). -/
def encIo (sub : Nat) (r : Reg) (n : Byte) : List Word16 :=
  [BitVec.ofNat 16 (0x8000 + sub * 1024 + r.val * 128), BitVec.ofNat 16 n.toNat]

/-- The words of an instruction, ignored bits 0 (R122 to R127). -/
def encode : Instr → List Word16
  | .addR w d s => encAluR 0 w d s
  | .addI w d v => encAluI 0 w d v
  | .adcR w d s => encAluR 1 w d s
  | .adcI w d v => encAluI 1 w d v
  | .subR w d s => encAluR 2 w d s
  | .subI w d v => encAluI 2 w d v
  | .sbcR w d s => encAluR 3 w d s
  | .sbcI w d v => encAluI 3 w d v
  | .andR w d s => encAluR 4 w d s
  | .andI w d v => encAluI 4 w d v
  | .orR w d s => encAluR 5 w d s
  | .orI w d v => encAluI 5 w d v
  | .xorR w d s => encAluR 6 w d s
  | .xorI w d v => encAluI 6 w d v
  | .cmpR w d s => encAluR 7 w d s
  | .cmpI w d v => encAluI 7 w d v
  | .ldRR w r s => [encLoad 0 w r (s.val * 8)]
  | .ldRI w r v => encLoad 1 w r 0 :: immWords w v
  | .ldRM w r rm => encLoad 2 w r (rmCode rm) :: rmWords w rm
  | .ldMR w r rm => encLoad 3 w r (rmCode rm) :: rmWords w rm
  | .jpAbs cc a => encBranch 0 cc 0 :: split24 a
  | .jrRel cc d => [encBranch 1 cc 0, BitVec.ofNat 16 d.toNat]
  | .jpReg cc r => [encBranch 2 cc (r.val * 4)]
  | .callAbs a => encBranch 3 .t 0 :: split24 a
  | .retn => [encBranch 4 .t 0]
  | .pushR w r => [encOther 0 w r 0]
  | .popR w r => [encOther 1 w r 0]
  | .bitM w n rm => encBit 2 w n rm
  | .setM w n rm => encBit 3 w n rm
  | .resM w n rm => encBit 4 w n rm
  | .shlR w r => [encOther 5 w r 0]
  | .rlR w r => [encOther 5 w r 4]
  | .rolR w r => [encOther 5 w r 8]
  | .shrR w r => [encOther 5 w r 12]
  | .sarR w r => [encOther 5 w r 16]
  | .rrR w r => [encOther 5 w r 20]
  | .rorR w r => [encOther 5 w r 24]
  | .inR r n => encIo 6 r n
  | .outR r n => encIo 7 r n
  | .ldRF r => [BitVec.ofNat 16 (0xA000 + r.val)]
  | .ldFR r => [BitVec.ofNat 16 (0xB000 + r.val)]

end Sys2Proof
end

