-- ==== Sys2Proof/Machine/ResetConfig.lean ====
section
/-! DEFINITION. The parameter values the reset state carries: the simulator defaults of spec/00_scope.md
R8 (log 3), the model's entry point (log 2) and the model's treatment of unwritten values (log 5). -/

namespace Sys2Proof.Machine

/-- C = bit 0, Z = bit 1, V = bit 2, S = bit 3, D = bit 4 (R27). -/
def defaultFlagPos : FlagPos := { c := 0, z := 1, v := 2, s := 3, d := 4 }

/-- The simulator defaults of R8. `reset_pc` has no default there: 0x000100 is the test vectors' value
(DESIGN CHOICE, log 2). -/
def resetConfig : Config :=
  { narrowWrite := .merge
    endian := .little
    pcWrap := .linear24
    fqDepth := 2
    flagPos := defaultFlagPos
    parityEven := true
    bcd := .literal
    xformMask := false
    regdispSigned := false
    spIndex := 7
    ioBase := 0xFFFF00#24
    admitOther := true
    invalidAction := .halt
    resetPc := 0x000100#24
    enc := .ref
    widthsAdmitted := ⟨true, true, true⟩
    oracle := .lastWrite
    unwrittenRead := .value }

end Sys2Proof.Machine
end

