-- ==== Sys2Proof/Machine/State.lean ====
section
/-! DEFINITION. The state of the Pilot CORE (spec/10_state.md): every item of R45, the Memory
Controller's state (spec/20_memory.md R66), the backing store, and the configuration. Plain data. -/

namespace Sys2Proof.Machine

/-- Why a step stops without a next state: for no reason. A halt and an abort are run statuses of a next
state (R39, log 21), and a controller that never completes an access leaves a next state that waits
(R411, log 13). -/
inductive Fault
deriving DecidableEq, Repr

/-- Why an instruction has no meaning. -/
inductive Refusal where
  /-- Raised by no arm of `exec`: every instruction has its meaning. Safe. -/
  | notModelled (mnemonic : String)
deriving DecidableEq, Repr

/-! ### Registers, flags, latches -/

/-- A general register: its 24 bits, and which of its byte lanes 7:0, 15:8, 23:16 have been written
(bit k of `lanes` is lane k) (R20, R25). -/
structure GReg where
  val : Data
  lanes : BitVec 3
deriving DecidableEq, Repr

/-- The flags register F and which of its bits have been written (R26, R29). -/
structure Flags where
  bits : BitVec 8
  written : BitVec 8
deriving DecidableEq, Repr

/-- MAR or MDR: 24 bits, and whether it has been written (R35, R407). -/
structure Latch where
  val : Data
  written : Bool
deriving DecidableEq, Repr

/-! ### Run status and log -/

/-- The named flags (R26). -/
inductive FlagName where
  | z | s | v | c | d
deriving DecidableEq, Repr

/-- A location whose unwritten value was consumed (R407). -/
inductive UnwrittenLoc where
  | reg (i : Reg) (w : Width)
  | flag (f : FlagName)
  | flags
  | mar
  | mdr
  | imm (k : Nat)
deriving DecidableEq, Repr

/-- The kinds of consistency violation (R406). BAD_SEQ_STATE is also raised where the sequencer's state is
of its set but its record, or the word's result, is missing: R406 names no code for that (DESIGN CHOICE,
log 26). -/
inductive Violation where
  | badSeqState
  | noGenerator
  | illFormedCw
  | ownerReassert
  | badPcWrite
  | handoffOverwrite
deriving DecidableEq, Repr

/-- ABORTED's `(kind, value)` (R39): a consistency violation of R406, whose value no rule gives and which is
free here (DESIGN CHOICE, log 25), or the model fault of R407, whose value is the location. -/
inductive Abort where
  | violation (kind : Violation) (value : Nat)
  | unwrittenRead (loc : UnwrittenLoc)
deriving DecidableEq, Repr

/-- The spec's codes of the violations (R406). -/
def Violation.code : Violation → Nat
  | .badSeqState => 0x80
  | .noGenerator => 0x81
  | .illFormedCw => 0x82
  | .ownerReassert => 0x83
  | .badPcWrite => 0x84
  | .handoffOverwrite => 0x85

/-- The spec's codes (R406, R407). -/
def Abort.code : Abort → Nat
  | .violation k _ => k.code
  | .unwrittenRead _ => 0x90

/-- The run status (R39). -/
inductive RunStatus where
  | running
  | haltedInvalid (addr : Addr) (word : Word16)
  | aborted (why : Abort)
deriving DecidableEq, Repr

/-- An entry of `log`: code, address, opcode word (R401). -/
structure LogEntry where
  code : Nat
  addr : Addr
  word : Word16
deriving DecidableEq, Repr

/-! ### The Decoded Instruction Record -/

/-- The instruction class of a record (R100): an instruction of ENC_REF with its operands, a row of another
encoding table by its number (log 8), or INVALID. -/
inductive Cls where
  | instr (i : Instr)
  | row (k : Nat)
  | invalid (addr : Addr) (word : Word16)
deriving DecidableEq, Repr

/-- The Decoded Instruction Record (R100). `words` holds the immediate slots: slot 0 the opcode word,
slots 1 to `n_ext` the extension words; the other slots are unwritten. -/
structure Record where
  words : List Word16
  nExt : Nat
  cls : Cls
  prog : Program
  instrAddr : Addr
  nextAddr : Addr
deriving DecidableEq, Repr

/-- The program of an INVALID record (R172). -/
def Program.invalid : Program := .plain .none .nop .none

/-- An empty record: what the slot holds before any record was published (log 4). -/
def Record.empty : Record :=
  { words := [], nExt := 0, cls := .invalid 0 0, prog := .invalid, instrAddr := 0, nextAddr := 0 }

/-! ### Fetch -/

/-- An instruction word with its address (R32). -/
structure FWord where
  addr : Addr
  word : Word16
deriving DecidableEq, Repr

/-- The outstanding prefetch (R32). -/
structure Prefetch where
  addr : Addr
  stale : Bool
deriving DecidableEq, Repr

/-- Who requested a redirect, and who owns an access (R32, R38). -/
inductive RedirSrc where
  | decode | execute
deriving DecidableEq, Repr

/-- The redirect latch's content (R32). -/
structure Redirect where
  target : Addr
  src : RedirSrc
deriving DecidableEq, Repr

/-- The Fetch stage (R32). -/
structure FetchState where
  fetchAddr : Addr
  queue : List FWord
  out : Option FWord
  pf : Option Prefetch
  redir : Option Redirect
deriving DecidableEq, Repr

/-! ### Decode -/

/-- The states of Decode's machine (R33). -/
inductive DState where
  | waitForSlot | readOpcode | readOperands | dispatch
deriving DecidableEq, Repr

/-- The Decode stage (R33); `held` is its `rec`, the record built, valid in DISPATCH. -/
structure DecodeState where
  dstate : DState
  words : List Word16
  iaddr : Addr
  need : Nat
  held : Option Record
  branchPending : Bool
  awaitRedirect : Bool
deriving DecidableEq, Repr

/-! ### Execute -/

/-- The sequencer's states (R35). -/
inductive SState where
  | waitNext | evalControl | override | before | coreOp | after | final
deriving DecidableEq, Repr

/-- The positions of the half-cycle machine, for observation only (R35, R270). -/
inductive EState where
  | memWait | operandLatch | memPrepare1 | memAssert1
  | resultLatch | memPrepare2 | memAssert2 | advanceSequencer
deriving DecidableEq, Repr

/-- The state of a control word's access (R35). -/
inductive Acc where
  | none | toAssert | accepted
deriving DecidableEq, Repr

/-- Execute's outstanding request: its kind and byte count (R35). -/
structure Pending where
  kind : Dir
  n : Nat
deriving DecidableEq, Repr

/-- The ALU's outputs: the result and the new flag byte (R240). -/
structure AluOut where
  result : Data
  flags : Flags
deriving DecidableEq, Repr

/-- The branch-resolution signal (R35). -/
inductive BrResolve where
  | taken (target : Addr)
  | notTaken
deriving DecidableEq, Repr

/-- The Execute stage (R35), without MAR and MDR. -/
structure ExecState where
  sstate : SState
  cur : Option Record
  cw : Option ControlWord
  desc : Desc
  estate : EState
  v0 : Option Data
  v1 : Option Data
  fl : Option Flags
  acc : Acc
  exPending : Option Pending
  res : Option AluOut
  exWantsMem : Bool
  brResolve : Option BrResolve
deriving DecidableEq, Repr

/-! ### The Memory Controller -/

/-- The owner of the access in flight (R38). -/
inductive Owner where
  | fetch | execute
deriving DecidableEq, Repr

/-- The controller's states (R66). -/
inductive Ctl where
  | ready
  | readBusy (a : Addr) (n : Nat) (o : Owner)
  | writeBusy (a : Addr) (n : Nat) (v : Data) (o : Owner)
  | latched (data : Option Data) (o : Owner)
deriving DecidableEq, Repr

/-- The backing store (R69): the bytes that differ from what an unlisted address reads as, by rising
address. -/
abbrev Memory := List Host.Cell

/-! ### The whole state -/

/-- The state of the CORE, the controller's latch and draws, and the backing store. `draws` are the draws
`done` still to come and `fair` every draw after them (R66, R411, log 7); `writes` are the writes the
controller has completed, oldest first (R69); `freeCount` counts the free values used (log 25). -/
structure State where
  cfg : Config
  regs : Vector GReg 8
  f : Flags
  shadowSelect : Fin 1
  fetch : FetchState
  dec : DecodeState
  ready : Bool
  slot : Record
  ex : ExecState
  mar : Latch
  mdr : Latch
  ctl : Ctl
  draws : List Bool
  fair : Bool
  mem : Memory
  writes : List Write
  status : RunStatus
  log : List LogEntry
  freeCount : Nat
deriving DecidableEq, Repr

/-- Fetch after reset (R45). -/
def FetchState.reset (pc : Addr) : FetchState :=
  { fetchAddr := pc, queue := [], out := none, pf := none, redir := none }

/-- Decode after reset (R45). -/
def DecodeState.reset : DecodeState :=
  { dstate := .waitForSlot, words := [], iaddr := 0, need := 0, held := none
    branchPending := false, awaitRedirect := false }

/-- Execute after reset (R45). -/
def ExecState.reset : ExecState :=
  { sstate := .waitNext, cur := none, cw := none, desc := .none, estate := .memWait
    v0 := none, v1 := none, fl := none, acc := .none, exPending := none, res := none
    exWantsMem := false, brResolve := none }

/-- The machine right after reset under the parameters `c`, with the platform's contents `m` in the backing
store, which reset does not change (R430 to R432). Registers, F, MAR and MDR are unwritten; the values they
hold are the model's (log 4). -/
def State.resetWith (c : Config) (m : Memory) : State :=
  { cfg := c
    regs := Vector.replicate 8 ⟨0, 0⟩
    f := ⟨0, 0⟩
    shadowSelect := 0
    fetch := .reset c.resetPc
    dec := .reset
    ready := false
    slot := .empty
    ex := .reset
    mar := ⟨0, false⟩
    mdr := ⟨0, false⟩
    ctl := .ready
    draws := []
    fair := true
    mem := m
    writes := []
    status := .running
    log := []
    freeCount := 0 }

/-- The machine right after reset, under the parameters of `resetConfig`, with no byte listed (log 6). -/
def State.reset : State := State.resetWith resetConfig []

end Sys2Proof.Machine
end

