-- ==== Sys2Proof/Machine/Ops.lean ====
section
/-! DEFINITION. The named operations every stage and every instruction uses: the backing store, the
registers under `narrow_write`, the Memory Controller's calls and its tick, the run status, and taking
the Invalid Opcode exception with the return from it. -/

namespace Sys2Proof.Machine

/-! ### The backing store (R64, R69) -/

/-- What an address that is not listed reads as (DESIGN CHOICE, log 6). -/
def unlistedByte : Byte := 0

/-- The byte at an address. -/
def Memory.read : Memory → Nat → Byte
  | [], _ => unlistedByte
  | (b, v) :: m, a => if a = b then v else Memory.read m a

/-- Put a byte at an address, keeping the canonical form: rising addresses, no entry equal to what an
unlisted address reads as. -/
def Memory.write : Memory → Nat → Byte → Memory
  | [], a, v => if v = unlistedByte then [] else [(a, v)]
  | (b, u) :: m, a, v =>
    if a < b then (if v = unlistedByte then (b, u) :: m else (a, v) :: (b, u) :: m)
    else if a = b then (if v = unlistedByte then m else (a, v) :: m)
    else (b, u) :: Memory.write m a v

/-- Every listed address is above `lo`, rising, inside the 24-bit space, and its byte is not the
unlisted one. -/
def Memory.wfFrom : Nat → Memory → Bool
  | _, [] => true
  | lo, (a, v) :: m => decide (lo ≤ a) && decide (a < 2 ^ 24) && decide (v ≠ unlistedByte)
      && Memory.wfFrom (a + 1) m

/-- The canonical form. -/
def Memory.wf (m : Memory) : Bool := Memory.wfFrom 0 m

/-- The addresses of an access of `n` bytes at `a`: `(a + k) mod 2^24` (R64). -/
def accessAddrs (a : Addr) (n : Nat) : List Nat := (List.range n).map fun k => (a.toNat + k) % 2 ^ 24

/-- The value of bytes, the first the least significant. -/
def leValue : List Byte → Nat
  | [] => 0
  | b :: bs => b.toNat + 256 * leValue bs

/-- The `n` bytes of a value, the least significant first. -/
def leBytes : Nat → Nat → List Byte
  | 0, _ => []
  | n + 1, v => BitVec.ofNat 8 v :: leBytes n (v / 256)

/-- Bytes at rising addresses in the order of `endian` (R64). -/
def orderBytes (e : Endian) (bs : List Byte) : List Byte :=
  match e with
  | .little => bs
  | .big => bs.reverse

/-- The value of the `n` bytes at `a` that `read` gives, zero-extended to 24 bits (R64, R65). -/
def loadBytes (read : Nat → Byte) (e : Endian) (a : Addr) (n : Nat) : Data :=
  BitVec.ofNat 24 (leValue (orderBytes e ((accessAddrs a n).map read)))

/-- Read `n` bytes at `a` (R64, R65). -/
def Memory.load (m : Memory) (e : Endian) (a : Addr) (n : Nat) : Data := loadBytes m.read e a n

/-- Put bytes at addresses, one after the other. -/
def Memory.writeAll : Memory → List (Nat × Byte) → Memory
  | m, [] => m
  | m, (a, v) :: rest => Memory.writeAll (m.write a v) rest

/-- Store the `n` low bytes of a value at `a` (R64). -/
def Memory.store (m : Memory) (e : Endian) (a : Addr) (n : Nat) (v : Data) : Memory :=
  m.writeAll ((accessAddrs a n).zip (orderBytes e (leBytes n v.toNat)))

/-- The byte the platform answers at an address (R69): what memory holds, the last write or else the
initial contents; or what the oracle gives for the writes so far. -/
def State.readByte (s : State) (a : Nat) : Byte :=
  match s.cfg.oracle with
  | .lastWrite => s.mem.read a
  | .platform => Config.platformByte s.writes a

/-- The `n` bytes at `a` as a completed read samples them (R64 to R66, R69). -/
def State.load (s : State) (a : Addr) (n : Nat) : Data := loadBytes s.readByte s.cfg.endian a n

/-! ### Registers (R20 to R25) -/

/-- `x[i]`, the register at 24 bits (R11). -/
def State.x24 (s : State) (i : Reg) : Data := s.regs[i].val

/-- `xW[i]`, the view of width W (R21). -/
def State.view (s : State) (i : Reg) (w : Width) : Data := w.trunc (s.x24 i)

/-- The lanes of a view (R25). -/
def laneMask : Width → BitVec 3
  | .w8 => 0b001#3
  | .w16 => 0b011#3
  | .w24 => 0b111#3

/-- The register after a write of width `w` (R22, R25). -/
def GReg.put (n : NarrowWrite) (w : Width) (r : GReg) (v : Data) : GReg :=
  match n with
  | .merge =>
    { val := BitVec.ofNat 24 (r.val.toNat / w.modulus * w.modulus + v.toNat % w.modulus)
      lanes := r.lanes ||| laneMask w }
  | .zeroExtend => { val := w.trunc v, lanes := 0b111#3 }

/-- `x[i] <-W v` (R11, R22). -/
def State.setReg (s : State) (i : Reg) (w : Width) (v : Data) : State :=
  { s with regs := s.regs.set i (s.regs[i].put s.cfg.narrowWrite w v) }

/-- Some lane of the view has not been written (R25). -/
def State.regUnwritten (s : State) (i : Reg) (w : Width) : Bool :=
  decide (s.regs[i].lanes &&& laneMask w ≠ laneMask w)

/-! ### Run status (R39, R406, R407) -/

/-- The run status is RUNNING. -/
def State.running (s : State) : Bool := s.status == .running

/-- The run status is ABORTED. -/
def State.hasAborted (s : State) : Bool :=
  match s.status with
  | .aborted _ => true
  | _ => false

/-- Abort with a diagnostic: the run status becomes ABORTED (R406, R407). -/
def State.abort (s : State) (why : Abort) : State := { s with status := .aborted why }

/-- A consistency violation (R406). Its value is free (log 25). -/
def State.violate (s : State) (kind : Violation) : State :=
  { s with
    status := .aborted (.violation kind (Config.violationValue s.freeCount))
    freeCount := s.freeCount + 1 }

/-- Consuming the unwritten locations `locs`, in the order of R408: under `abort` the first one is the
model fault of R407; under `value` the values are used (log 5). -/
def State.consume (s : State) (locs : List UnwrittenLoc) : State :=
  match s.cfg.unwrittenRead, locs with
  | .abort, l :: _ => s.abort (.unwrittenRead l)
  | _, _ => s

/-! ### The Memory Controller (R60, R66 to R68) -/

/-- The owner of the access in flight (R38). -/
def Ctl.owner : Ctl → Option Owner
  | .ready => none
  | .readBusy _ _ o => some o
  | .writeBusy _ _ _ o => some o
  | .latched _ o => some o

/-- `data_ready()` for a stage: the owner's access has completed (R68). -/
def Ctl.dataReady (c : Ctl) (o : Owner) : Bool :=
  match c with
  | .latched _ o' => o == o'
  | _ => false

/-- `read_latched_data()` (R65). Where no data is latched it gives 0 (DESIGN CHOICE, log 29). -/
def Ctl.latchedData : Ctl → Data
  | .latched (some v) _ => v
  | _ => 0

/-- An assert, for a stage, that leaves the controller in `busy`: accepted exactly when READY; by the
owner of the access in flight it is the caller error of R67; else rejected. The Bool is `accepted`. -/
def State.assertBusy (s : State) (o : Owner) (busy : Ctl) : State × Bool :=
  match s.ctl with
  | .ready => ({ s with ctl := busy }, true)
  | c => if c.owner = some o then (s.violate .ownerReassert, false) else (s, false)

/-- `assert_read` (R60, R67). -/
def State.assertRead (s : State) (o : Owner) (a : Addr) (n : Nat) : State × Bool :=
  s.assertBusy o (.readBusy a n o)

/-- `assert_write` (R60, R67). -/
def State.assertWrite (s : State) (o : Owner) (a : Addr) (n : Nat) (v : Data) : State × Bool :=
  s.assertBusy o (.writeBusy a n v o)

/-- The next draw `done`. When the list has run out every draw is `fair`: true for a controller that completes
every access, as R66 assumes, false for one that never does (R411, log 7). -/
def State.drawDone (s : State) : Bool :=
  match s.draws with
  | [] => s.fair
  | d :: _ => d

/-- One tick of the controller (R66). A read samples the backing store and a write stores its bytes at
the tick that completes it; the write is entered in the history (R69). -/
def tick (s : State) : State :=
  match s.ctl with
  | .readBusy a n o =>
    if s.drawDone then
      { s with ctl := .latched (some (s.load a n)) o, draws := s.draws.tail }
    else { s with draws := s.draws.tail }
  | .writeBusy a n v o =>
    if s.drawDone then
      { s with ctl := .latched none o, draws := s.draws.tail
               mem := s.mem.store s.cfg.endian a n v, writes := s.writes ++ [⟨a, n, v⟩] }
    else { s with draws := s.draws.tail }
  | _ => s

/-! ### Instruction addresses -/

/-- `seq` (R144). -/
def seqAddr (p : PcWrap) (a : Addr) : Addr :=
  match p with
  | .linear24 => a + 2
  | .bank16 => BitVec.ofNat 24 (a.toNat / 65536 * 65536 + (a.toNat % 65536 + 2) % 65536)

/-- `seq^n` (R174). -/
def seqIter (p : PcWrap) : Nat → Addr → Addr
  | 0, a => a
  | n + 1, a => seqIter p n (seqAddr p a)

/-! ### Invalid Opcode: taking it, and returning from it (R401 to R405) -/

/-- `EXC_INVALID_OPCODE` (R400). -/
def excInvalidOpcode : Nat := 1

/-- The core word of a branch: the target goes through source 2 to `PC` (R350). -/
def branchCore (src : Source) : ControlWord :=
  { ControlWord.base .w24 .w24 with src1 := src, dest := .pc }

/-- The program of `CALL target` with the target's source given: push `next_addr`, then write PC (R355,
R403). -/
def callProgram (target : Source) (static : Bool) : Program :=
  { override := .none
    before := { Desc.none with kind := .pushPc, dir := .write, sg := true }
    core := branchCore target
    after := .none
    pred := .t, bkind := .absImm, static := static }

/-- `trap_record(cur, vector)` (R403). -/
def trapRecord (cur : Record) (vector : Addr) : Record :=
  { cur with cls := .instr (.callAbs vector), prog := callProgram ⟨.const vector, .w24, false⟩ false }

/-- Taking Invalid Opcode: `invalid_record(cur)` (R401). HANDOFF_OVERWRITE is tested before the log entry
(DESIGN CHOICE, log 31). -/
def takeInvalidOpcode (cur : Record) (s : State) : State :=
  match s.cfg.invalidAction with
  | .halt => { s with status := .haltedInvalid cur.instrAddr (cur.words.headD 0) }
  | .logAndSkip =>
    if s.ex.brResolve.isSome then s.violate .handoffOverwrite
    else
      { s with
        log := s.log ++ [⟨excInvalidOpcode, cur.instrAddr, cur.words.headD 0⟩]
        ex := { s.ex with brResolve := some .notTaken, sstate := .final } }
  | .trap vector =>
    let r := trapRecord cur vector
    { s with ex := { s.ex with cur := some r, desc := r.prog.before, sstate := .before } }

/-- The return, from a call and from the trap alike: pop `next_addr` and continue there; nothing else was
saved, so nothing else is restored (R356, R405). -/
def returnProgram (sp : Reg) : Program :=
  { override := .none
    before := ⟨.postAccess, sp, .w24, .read, 0, false⟩
    core := branchCore ⟨.mdr, .w24, false⟩
    after := .none
    pred := .t, bkind := .stack, static := false }

end Sys2Proof.Machine
end

