-- ==== Sys2Proof/Machine/Flags.lean ====
section
/-! DEFINITION. The flags register: the place of each flag (spec/10_state.md R26 to R29), the write mask
(spec/43_alu.md R255), the flag values the ALU computes (R248 to R251), and the branch predicates
(spec/44_execute.md R289). -/

namespace Sys2Proof.Machine

/-- The bit of F that holds a flag (R27). -/
def flagIndex (p : FlagPos) : FlagName → Fin 8
  | .z => p.z
  | .s => p.s
  | .v => p.v
  | .c => p.c
  | .d => p.d

/-- The flag's value (R26). -/
def Flags.get (f : Flags) (p : FlagPos) (n : FlagName) : Bool := f.bits.getLsbD (flagIndex p n).val

/-- The flag's bit has been written (R29). -/
def Flags.has (f : Flags) (p : FlagPos) (n : FlagName) : Bool := f.written.getLsbD (flagIndex p n).val

/-- A byte with one bit replaced. -/
def putBit (b : BitVec 8) (i : Fin 8) (v : Bool) : BitVec 8 :=
  if v then b ||| BitVec.ofNat 8 (2 ^ i.val) else b &&& ~~~BitVec.ofNat 8 (2 ^ i.val)

/-- Write one flag; its bit becomes written (R29, R255). -/
def Flags.put (f : Flags) (p : FlagPos) (n : FlagName) (v : Bool) : Flags :=
  { bits := putBit f.bits (flagIndex p n) v, written := putBit f.written (flagIndex p n) true }

/-- Write one flag if its bit is set in the write mask (R255). -/
def Flags.putIf (f : Flags) (p : FlagPos) (n : FlagName) (on : Bool) (v : Bool) : Flags :=
  if on then f.put p n v else f

/-- Values for the four flags the ALU derives. -/
structure FlagVals where
  z : Bool
  s : Bool
  v : Bool
  c : Bool
deriving DecidableEq, Repr

/-- The masked update: each flag of the mask takes its new value, every other bit keeps its value
(R255). -/
def Flags.update (f : Flags) (p : FlagPos) (m : FMask) (n : FlagVals) : Flags :=
  (((f.putIf p .z m.z n.z).putIf p .s m.s n.s).putIf p .v m.v n.v).putIf p .c m.c n.c

/-- The four flags as they stand. -/
def Flags.vals (f : Flags) (p : FlagPos) : FlagVals :=
  ⟨f.get p .z, f.get p .s, f.get p .v, f.get p .c⟩

/-- Bit W-1 of an exact integer (R248, R249). -/
def signBit (w : Width) (n : Nat) : Bool := n.testBit (w.bits - 1)

/-- An odd number of one bits in a byte. -/
def oddOnes (n : Nat) : Bool :=
  n.testBit 0 ^^ n.testBit 1 ^^ n.testBit 2 ^^ n.testBit 3 ^^ n.testBit 4 ^^ n.testBit 5
    ^^ n.testBit 6 ^^ n.testBit 7

/-- `parity(byte)` of the low byte, in the sense of `parity_even` (R251). -/
def parityOf (even : Bool) (n : Nat) : Bool := if even then !oddOnes n else oddOnes n

/-- Overflow by the adder's operands: same signs in, the other sign out (R249). -/
def arithOverflow (w : Width) (a s r : Nat) : Bool :=
  signBit w a == signBit w s && signBit w r != signBit w a

/-- The flag a predicate reads (R289). -/
def condFlag : Cond → Option FlagName
  | .t => none
  | .z | .nz => some .z
  | .c | .nc => some .c
  | .s | .ns => some .s
  | .v | .nv => some .v

/-- The branch predicates (R289). -/
def condHolds (p : FlagPos) (f : Flags) : Cond → Bool
  | .t => true
  | .z => f.get p .z
  | .nz => !f.get p .z
  | .c => f.get p .c
  | .nc => !f.get p .c
  | .s => f.get p .s
  | .ns => !f.get p .s
  | .v => f.get p .v
  | .nv => !f.get p .v

/-- The flag as an unwritten location, when its bit has not been written (R29, R407). -/
def unwrittenFlag (p : FlagPos) (f : Flags) (n : FlagName) : List UnwrittenLoc :=
  if f.has p n then [] else [.flag n]

/-- The unwritten locations a predicate consumes (R289). -/
def unwrittenCond (p : FlagPos) (f : Flags) (cc : Cond) : List UnwrittenLoc :=
  match condFlag cc with
  | none => []
  | some n => unwrittenFlag p f n

end Sys2Proof.Machine
end

