-- ==== Sys2Proof/Machine/Alu.lean ====
section
/-! DEFINITION. The ALU (spec/43_alu.md R240 to R256): a pure function of the Control Word, the latched
operands and the latched flag byte, over exact integers. -/

namespace Sys2Proof.Machine

/-- `Cin`: the C flag as 0 or 1 (R243). -/
def carryIn (p : FlagPos) (f : Flags) : Nat := (f.get p .c).toNat

/-- The reduction after each transform under `xform_mask` (R243). -/
def maskStep (mask : Bool) (w : Width) (t : Nat) : Nat := if mask then t % w.modulus else t

/-- Step 2: add-carry, negate, add-1, each if its flag is set (R243). -/
def transform (mask : Bool) (cw : ControlWord) (b cin : Nat) : Nat :=
  let t := if cw.addc then maskStep mask cw.w (b + cin) else b
  let t := if cw.neg then maskStep mask cw.w (cw.w.modulus - t) else t
  if cw.add1 then maskStep mask cw.w (t + 1) else t

/-- Bit W-1 of a value of W bits, as 0 or 1. -/
def msb (w : Width) (x : Nat) : Nat := x / 2 ^ (w.bits - 1) % 2

/-- Step 3, a shifter mode on `x` of W bits: the shifted value and the bit shifted out (R245). The injected
bit takes a place the shift has left 0, so adding it is the table's `or`. -/
def shifter (mode : Shift) (w : Width) (x cin : Nat) : Nat × Nat :=
  match mode with
  | .none => (x, 0)
  | .l => (x * 2 % w.modulus, msb w x)
  | .lc => ((x * 2 + cin) % w.modulus, msb w x)
  | .lb => ((x * 2 + msb w x) % w.modulus, msb w x)
  | .rl => (x / 2, x % 2)
  | .ra => (x / 2 + msb w x * 2 ^ (w.bits - 1), x % 2)
  | .rc => (x / 2 + cin * 2 ^ (w.bits - 1), x % 2)
  | .rb => (x / 2 + x % 2 * 2 ^ (w.bits - 1), x % 2)

/-- Steps 2 and 3: source 2 after the transforms and the shifter, and the shifter carry (R243, R244). -/
def secondOperand (mask : Bool) (cw : ControlWord) (b cin : Nat) : Nat × Nat :=
  let t := transform mask cw b cin
  match cw.shift with
  | .none => (t, 0)
  | mode => shifter mode cw.w (t % cw.w.modulus) cin

/-- Step 4: the core opcode (R246). -/
def aluCore (op : AluOp) (w : Width) (a s : Nat) : Nat :=
  match op with
  | .pass => s
  | .add => a + s
  | .and => a &&& s % w.modulus
  | .or => a ||| s % w.modulus
  | .xor => a ^^^ s % w.modulus

/-- The carry-out (R246). -/
def carryOut (op : AluOp) (w : Width) (r : Nat) : Bool :=
  match op with
  | .pass | .add => decide (w.modulus ≤ r)
  | .and | .or | .xor => false

/-- Overflow, by `vsrc` (R249). -/
def overflowOf (even : Bool) (cw : ControlWord) (a s result sc : Nat) : Bool :=
  match cw.vsrc with
  | .arith => arithOverflow cw.w a (s % cw.w.modulus) result
  | .parity => parityOf even result
  | .shift => sc == 1
  | .clear => false

/-- Carry, by `csrc` and `cinv` (R250). -/
def carryOf (cw : ControlWord) (r sc : Nat) : Bool :=
  let c := match cw.csrc with
    | .alu => carryOut cw.op cw.w r
    | .shift => sc == 1
  c ^^ cw.cinv

/-- The result and the new flag values before any decimal adjustment (R246, R248 to R250). -/
structure RawOut where
  a : Nat
  s : Nat
  r : Nat
  result : Nat
  vals : FlagVals
deriving DecidableEq, Repr

/-- Steps 1 to 4 and the flags (R242 to R250). -/
def aluRaw (c : Config) (cw : ControlWord) (v0 v1 : Data) (f : Flags) : RawOut :=
  let a := v0.toNat % cw.w.modulus
  let b := v1.toNat % cw.w.modulus
  let (s, sc) := secondOperand c.xformMask cw b (carryIn c.flagPos f)
  let r := aluCore cw.op cw.w a s
  let result := r % cw.w.modulus
  { a := a, s := s, r := r, result := result
    vals :=
      { z := result == 0
        s := signBit cw.w result
        v := overflowOf c.parityEven cw a s result sc
        c := carryOf cw r sc } }

/-- The condition under which the decimal adjustment applies, but for D (R252, R256). -/
def decimalWord (cw : ControlWord) : Bool := cw.op == .add && cw.fmask.c

/-- `bcd_adjust`: the literal reading adds 6 when the nibble carry `cv[4]` is set and takes Z and S from
the adjusted result; any other adjustment is free (R247, R256). -/
def bcdAdjust (c : Config) (cw : ControlWord) (o : RawOut) : Nat × FlagVals :=
  let cv := o.a ^^^ o.s ^^^ o.r
  match c.bcd with
  | .literal =>
    let result := if cv.testBit 4 then (o.result + 6) % cw.w.modulus else o.result
    (result, { o.vals with z := result == 0, s := signBit cw.w result })
  | .custom =>
    let out := Config.bcdCustom o.a o.s o.r cv cw.w cw
    (out.result.toNat % cw.w.modulus, ⟨out.z, out.s, out.v, out.c⟩)

/-- The ALU with its outputs as exact integers: the result below M and the four flag values. -/
def aluVals (c : Config) (cw : ControlWord) (v0 v1 : Data) (f : Flags) : Nat × FlagVals :=
  let o := aluRaw c cw v0 v1 f
  if decimalWord cw && f.get c.flagPos .d then bcdAdjust c cw o else (o.result, o.vals)

/-- `alu(cw, v0, v1, F)` (R240, R253, R255). -/
def alu (c : Config) (cw : ControlWord) (v0 v1 : Data) (f : Flags) : AluOut :=
  let (result, vals) := aluVals c cw v0 v1 f
  { result := BitVec.ofNat 24 result, flags := f.update c.flagPos cw.fmask vals }

/-- The word reads C: `addc`, or a carry-rotate (R252). -/
def readsCarry (cw : ControlWord) : Bool := cw.addc || cw.shift == .lc || cw.shift == .rc

/-- The unwritten flags the ALU consumes: C, then D (R252, R407). -/
def aluUnwritten (c : Config) (cw : ControlWord) (f : Flags) : List UnwrittenLoc :=
  (if readsCarry cw then unwrittenFlag c.flagPos f .c else []) ++
    (if decimalWord cw then unwrittenFlag c.flagPos f .d else [])

end Sys2Proof.Machine
end

