-- ==== Sys2Proof/Machine/Operands.lean ====
section
/-! DEFINITION. Reading and writing Bus Locations (spec/30_encoding.md R110 to R116), and the resolver
that turns an RM operand into a location or a microcode chain (spec/42_microcode.md R200, R205 to
R216). -/

namespace Sys2Proof.Machine

/-! ### Bus Locations -/

/-- `imm[k]` (R100). A slot the record has not written holds 0 (DESIGN CHOICE, log 27). -/
def slotWord (ws : List Word16) (k : Nat) : Word16 := ws.getD k 0

/-- `IMM24(k) = {imm[k+1][7:0], imm[k]}` (R110, R115). -/
def slotData (ws : List Word16) (k : Nat) : Data := join24 (slotWord ws k) (slotWord ws (k + 1))

/-- The register a 3-bit field of an immediate word selects (R110). -/
def selectedReg (ws : List Word16) (k lsb : Nat) : Reg := regOf (fld (slotWord ws k) lsb 3)

/-- The read column of R110, for the record `cur`. -/
def readLoc (s : State) (cur : Record) : BusLoc → Data
  | .reg i w => s.view i w
  | .rsel k lsb w => s.view (selectedReg cur.words k lsb) w
  | .pc => cur.nextAddr
  | .iaddr => cur.instrAddr
  | .flags => BitVec.ofNat 24 s.f.bits.toNat
  | .mar => s.mar.val
  | .mdr => s.mdr.val
  | .imm k => BitVec.ofNat 24 (slotWord cur.words k).toNat
  | .imm24 k => slotData cur.words k
  | .immf k lsb len => BitVec.ofNat 24 (fld (slotWord cur.words k) lsb len)
  | .const c => c
  | .zero => 0

/-- `read((loc, w, sx))` (R111). -/
def readSource (s : State) (cur : Record) (src : Source) : Data :=
  if src.sx then src.w.sext (readLoc s cur src.loc) else src.w.trunc (readLoc s cur src.loc)

/-- The immediate slot `k` of the record is unwritten (R100). -/
def slotUnwritten (ws : List Word16) (k : Nat) : List UnwrittenLoc :=
  if k < ws.length then [] else [.imm k]

/-- The unwritten locations a read of a location consumes (R13, R25, R29, R407): all of the location, also
where the source takes fewer bits of it (DESIGN CHOICE, log 28). -/
def unwrittenLoc (s : State) (cur : Record) : BusLoc → List UnwrittenLoc
  | .reg i w => if s.regUnwritten i w then [.reg i w] else []
  | .rsel k lsb w =>
    slotUnwritten cur.words k ++
      (if s.regUnwritten (selectedReg cur.words k lsb) w
       then [.reg (selectedReg cur.words k lsb) w] else [])
  | .flags => if s.f.written = 0xFF#8 then [] else [.flags]
  | .mar => if s.mar.written then [] else [.mar]
  | .mdr => if s.mdr.written then [] else [.mdr]
  | .imm k => slotUnwritten cur.words k
  | .imm24 k => slotUnwritten cur.words k ++ slotUnwritten cur.words (k + 1)
  | .immf k _ _ => slotUnwritten cur.words k
  | .pc | .iaddr | .const _ | .zero => []

/-- `write(dest, W, v)` (R112). A write to `PC` is the branch action, which Execute performs (R282), and
a location without a write column never gets here (R107). The selector of an RSEL destination raises no
UNWRITTEN_READ (DESIGN CHOICE, log 27). -/
def writeLoc (s : State) (cur : Record) (l : BusLoc) (v : Data) : State :=
  match l with
  | .reg i w => s.setReg i w v
  | .rsel k lsb w => s.setReg (selectedReg cur.words k lsb) w v
  | .flags => { s with f := ⟨BitVec.ofNat 8 v.toNat, 0xFF#8⟩ }
  | .mar => { s with mar := ⟨v, true⟩ }
  | .mdr => { s with mdr := ⟨v, true⟩ }
  | .pc | .iaddr | .imm _ | .imm24 _ | .immf .. | .const _ | .zero => s

/-! ### The resolver -/

/-- The role of an RM operand (R200). -/
inductive Role where
  | read | write | rmw
deriving DecidableEq, Repr

/-- What `resolve` answers: the operand as a source and as a destination of the core word, and the
chains for the record's `before` and `after` (R200, R215). -/
structure Resolved where
  src : Source
  dst : BusLoc
  before : Desc
  after : Desc
deriving DecidableEq, Repr

/-- The source of an immediate of width `w` in the slots from `k` (R213). -/
def immSource (w : Width) (k : Nat) : Source :=
  match w with
  | .w24 => ⟨.imm24 k, .w24, false⟩
  | _ => ⟨.imm k, w, false⟩

/-- `d(m, dir)`: the first descriptor of a memory mode (R215); the register-direct and immediate modes
have none. `sg` is the direction bit of the auto-increment modes (R204). -/
def firstDesc (rm : Rm) (dir : Dir) (w : Width) (k : Nat) : Desc :=
  match rm with
  | .reg _ => .none
  | .ind b => ⟨.ind, b, w, dir, k, false⟩
  | .postInc b => ⟨.postAccess, b, w, dir, k, false⟩
  | .postDec b => ⟨.postAccess, b, w, dir, k, true⟩
  | .preInc b => ⟨.preAccess, b, w, dir, k, false⟩
  | .preDec b => ⟨.preAccess, b, w, dir, k, true⟩
  | .disp b _ => ⟨.dispAddr, b, w, dir, k, false⟩
  | .pc8 _ => ⟨.pcrel8, 0, w, dir, k, false⟩
  | .pc16 _ => ⟨.pcrel16, 0, w, dir, k, false⟩
  | .pc24 _ => ⟨.pcrel24, 0, w, dir, k, false⟩
  | .abs _ => ⟨.abs, 0, w, dir, k, false⟩
  | .absIdx _ _ => ⟨.absIdx, 0, w, dir, k, false⟩
  | .imm _ => .none

/-- The chains of a memory mode under a role (R215). -/
def resolveMem (rm : Rm) (role : Role) (w : Width) (k : Nat) : Resolved :=
  match role with
  | .read => ⟨⟨.mdr, w, false⟩, .mdr, firstDesc rm .read w k, .none⟩
  | .write => ⟨⟨.mdr, w, false⟩, .mdr, .none, firstDesc rm .write w k⟩
  | .rmw => ⟨⟨.mdr, w, false⟩, .mdr, firstDesc rm .read w k, ⟨.addrWb, 0, w, .write, k, false⟩⟩

/-- `resolve(rm, role, W, k0)` (R200, R215); none for an immediate in a WRITE or RMW role, which is
Invalid Opcode (R213). -/
def resolve (rm : Rm) (role : Role) (w : Width) (k : Nat) : Option Resolved :=
  match rm with
  | .reg b => some ⟨⟨.reg b w, w, false⟩, .reg b w, .none, .none⟩
  | .imm _ =>
    match role with
    | .read => some ⟨immSource w k, .zero, .none, .none⟩
    | .write | .rmw => none
  | _ => some (resolveMem rm role w k)

end Sys2Proof.Machine
end

