-- ==== Sys2Proof/Machine/Programs.lean ====
section
/-! DEFINITION. What the decoder's group routines put into a record: the chains, the core word and the
branch fields of every instruction (spec/41_decode.md R171 to R173, R178; spec/45_arith_logic.md R310 to
R319; spec/46_load_move.md R330 to R336; spec/47_branch.md R350 to R356; spec/48_other.md R370 to R386).
A program is none where the resolver raises Invalid Opcode (R213) or the bit number is outside the
operand (R376). -/

namespace Sys2Proof.Machine

/-- Register i at width W as a source (R310). -/
def regSource (i : Reg) (w : Width) : Source := ⟨.reg i w, w, false⟩

/-! ### Arithmetic-logic (R310, R319) -/

/-- The core word of R310 with the fields of R319. -/
def aluWord (w : Width) (d : Reg) (src : Source) (op : AluOp) (addc neg : Bool) (vsrc : VSrc)
    (cinv : Bool) (dest : BusLoc) : ControlWord :=
  { ControlWord.base w w with
    src0 := regSource d w, src1 := src, dest := dest, op := op, addc := addc, neg := neg
    fmask := .all, vsrc := vsrc, cinv := cinv }

/-- A program of the core word alone. -/
def coreOnly (cw : ControlWord) : Program := .plain .none cw .none

/-- ADD from a source (R311). -/
def addFrom (w : Width) (d : Reg) (src : Source) : Program :=
  coreOnly (aluWord w d src .add false false .arith false (.reg d w))

/-- ADC from a source (R312). -/
def adcFrom (w : Width) (d : Reg) (src : Source) : Program :=
  coreOnly (aluWord w d src .add true false .arith false (.reg d w))

/-- SUB from a source (R313). -/
def subFrom (w : Width) (d : Reg) (src : Source) : Program :=
  coreOnly (aluWord w d src .add false true .arith true (.reg d w))

/-- SBC from a source (R314). -/
def sbcFrom (w : Width) (d : Reg) (src : Source) : Program :=
  coreOnly (aluWord w d src .add true true .arith true (.reg d w))

/-- AND from a source (R315). -/
def andFrom (w : Width) (d : Reg) (src : Source) : Program :=
  coreOnly (aluWord w d src .and false false .parity false (.reg d w))

/-- OR from a source (R316). -/
def orFrom (w : Width) (d : Reg) (src : Source) : Program :=
  coreOnly (aluWord w d src .or false false .parity false (.reg d w))

/-- XOR from a source (R317). -/
def xorFrom (w : Width) (d : Reg) (src : Source) : Program :=
  coreOnly (aluWord w d src .xor false false .parity false (.reg d w))

/-- CMP from a source: SUB with `dest = ZERO` (R318). -/
def cmpFrom (w : Width) (d : Reg) (src : Source) : Program :=
  coreOnly (aluWord w d src .add false true .arith true .zero)

/-! ### Load and move (R330) -/

/-- The move word of R330. -/
def moveWord (w : Width) (src : Source) (dest : BusLoc) : ControlWord :=
  { ControlWord.base w w with src1 := src, dest := dest }

/-- `LD rd, rs` (R331). -/
def progLdRR (w : Width) (r s : Reg) : Program := coreOnly (moveWord w (regSource s w) (.reg r w))

/-- `LD rd, #imm` (R332). -/
def progLdRI (w : Width) (r : Reg) : Program := coreOnly (moveWord w (immSource w 1) (.reg r w))

/-- `LD rd, rm` (R333). -/
def progLdRM (w : Width) (r : Reg) (rm : Rm) : Option Program :=
  (resolve rm .read w 1).map fun x => .plain x.before (moveWord w x.src (.reg r w)) .none

/-- `LD rm, rs` (R334). -/
def progLdMR (w : Width) (r : Reg) (rm : Rm) : Option Program :=
  (resolve rm .write w 1).map fun x => .plain .none (moveWord w (regSource r w) x.dst) x.after

/-- `LD r, F` (R335). -/
def progLdRF (r : Reg) : Program := coreOnly (moveWord .w8 ⟨.flags, .w8, false⟩ (.reg r .w8))

/-- `LD F, r` (R336). -/
def progLdFR (r : Reg) : Program := coreOnly (moveWord .w8 (regSource r .w8) .flags)

/-! ### Branches (R350) -/

/-- A branch of the core word alone (R350). -/
def branchProgram (cc : Cond) (k : BKind) (core : ControlWord) : Program :=
  { override := .none, before := .none, core := core, after := .none
    pred := cc, bkind := k, static := isStatic cc k }

/-- `JP cc, a24` (R351). -/
def progJpAbs (cc : Cond) : Program := branchProgram cc .absImm (branchCore ⟨.imm24 1, .w24, false⟩)

/-- `JR cc, d8` (R352). -/
def progJrRel (cc : Cond) : Program :=
  branchProgram cc .relImm
    { branchCore ⟨.imm 1, .w8, true⟩ with src0 := ⟨.iaddr, .w24, false⟩, op := .add }

/-- `JP cc, (r)` (R353). -/
def progJpReg (cc : Cond) (r : Reg) : Program :=
  branchProgram cc .reg (branchCore (regSource r .w24))

/-- `CALL a24` (R355). -/
def progCall : Program := callProgram ⟨.imm24 1, .w24, false⟩ true

/-- `RET` (R356). -/
def progRet (sp : Reg) : Program := returnProgram sp

/-! ### Stack (R371, R372) -/

/-- `PUSH r` (R371). -/
def progPush (sp : Reg) (w : Width) (r : Reg) : Program :=
  .plain .none (moveWord w (regSource r w) .mdr) ⟨.preAccess, sp, w, .write, 0, true⟩

/-- `POP r` (R372). -/
def progPop (sp : Reg) (w : Width) (r : Reg) : Program :=
  .plain ⟨.postAccess, sp, w, .read, 0, false⟩ (moveWord w ⟨.mdr, w, false⟩ (.reg r w)) .none

/-! ### Bit operations (R373 to R376) -/

/-- `CONST(2^n)` (R373). -/
def bitConst (n : BitVec 5) : Source := ⟨.const (BitVec.ofNat 24 (2 ^ n.toNat)), .w24, false⟩

/-- `CONST((2^W - 1) - 2^n)` (R375). -/
def maskConst (w : Width) (n : BitVec 5) : Source :=
  ⟨.const (BitVec.ofNat 24 (w.modulus - 1 - 2 ^ n.toNat)), .w24, false⟩

/-- The core word of a bit operation: the operand as source 0, the constant as source 1 (R373 to
R375). -/
def bitWord (w : Width) (opnd : Source) (k : Source) (op : AluOp) (dest : BusLoc) (m : FMask) :
    ControlWord :=
  { ControlWord.base w w with src0 := opnd, src1 := k, dest := dest, op := op, fmask := m }

/-- `BIT n, rm` (R373). -/
def progBit (w : Width) (n : BitVec 5) (rm : Rm) : Option Program :=
  if bitInside w n then
    (resolve rm .read w 2).map fun x =>
      .plain x.before (bitWord w x.src (bitConst n) .and .zero .zOnly) .none
  else none

/-- `SET n, rm` (R374). -/
def progSet (w : Width) (n : BitVec 5) (rm : Rm) : Option Program :=
  if bitInside w n then
    (resolve rm .rmw w 2).map fun x =>
      .plain x.before (bitWord w x.src (bitConst n) .or x.dst .empty) x.after
  else none

/-- `RES n, rm` (R375). -/
def progRes (w : Width) (n : BitVec 5) (rm : Rm) : Option Program :=
  if bitInside w n then
    (resolve rm .rmw w 2).map fun x =>
      .plain x.before (bitWord w x.src (maskConst w n) .and x.dst .empty) x.after
  else none

/-! ### Shifts (R377 to R384) -/

/-- The program of a shift mode (R377). -/
def shiftProgram (mode : Shift) (w : Width) (r : Reg) : Program :=
  coreOnly { ControlWord.base w w with
    src1 := regSource r w, dest := .reg r w, shift := mode, fmask := .all
    csrc := .shift, vsrc := .clear }

/-! ### I/O (R385, R386) -/

/-- `IN r, (n)` (R385). -/
def progIn (r : Reg) : Program :=
  .plain ⟨.io, 0, .w8, .read, 1, false⟩ (moveWord .w8 ⟨.mdr, .w8, false⟩ (.reg r .w8)) .none

/-- `OUT (n), r` (R386). -/
def progOut (r : Reg) : Program :=
  .plain .none (moveWord .w8 (regSource r .w8) .mdr) ⟨.io, 0, .w8, .write, 1, false⟩

/-- The program of an instruction (R171). -/
def programOf (c : Config) : Instr → Option Program
  | .addR w d s => some (addFrom w d (regSource s w))
  | .addI w d _ => some (addFrom w d (immSource w 1))
  | .adcR w d s => some (adcFrom w d (regSource s w))
  | .adcI w d _ => some (adcFrom w d (immSource w 1))
  | .subR w d s => some (subFrom w d (regSource s w))
  | .subI w d _ => some (subFrom w d (immSource w 1))
  | .sbcR w d s => some (sbcFrom w d (regSource s w))
  | .sbcI w d _ => some (sbcFrom w d (immSource w 1))
  | .andR w d s => some (andFrom w d (regSource s w))
  | .andI w d _ => some (andFrom w d (immSource w 1))
  | .orR w d s => some (orFrom w d (regSource s w))
  | .orI w d _ => some (orFrom w d (immSource w 1))
  | .xorR w d s => some (xorFrom w d (regSource s w))
  | .xorI w d _ => some (xorFrom w d (immSource w 1))
  | .cmpR w d s => some (cmpFrom w d (regSource s w))
  | .cmpI w d _ => some (cmpFrom w d (immSource w 1))
  | .ldRR w r s => some (progLdRR w r s)
  | .ldRI w r _ => some (progLdRI w r)
  | .ldRM w r rm => progLdRM w r rm
  | .ldMR w r rm => progLdMR w r rm
  | .jpAbs cc _ => some (progJpAbs cc)
  | .jrRel cc _ => some (progJrRel cc)
  | .jpReg cc r => some (progJpReg cc r)
  | .callAbs _ => some progCall
  | .retn => some (progRet c.spIndex)
  | .pushR w r => some (progPush c.spIndex w r)
  | .popR w r => some (progPop c.spIndex w r)
  | .bitM w n rm => progBit w n rm
  | .setM w n rm => progSet w n rm
  | .resM w n rm => progRes w n rm
  | .shlR w r => some (shiftProgram .l w r)
  | .rlR w r => some (shiftProgram .lc w r)
  | .rolR w r => some (shiftProgram .lb w r)
  | .shrR w r => some (shiftProgram .rl w r)
  | .sarR w r => some (shiftProgram .ra w r)
  | .rrR w r => some (shiftProgram .rc w r)
  | .rorR w r => some (shiftProgram .rb w r)
  | .inR r _ => some (progIn r)
  | .outR r _ => some (progOut r)
  | .ldRF r => some (progLdRF r)
  | .ldFR r => some (progLdFR r)

end Sys2Proof.Machine
end

