-- ==== Sys2Proof/Machine/DecodeStage.lean ====
section
/-! DEFINITION. The Decode stage: the record the decoder builds and the two half-steps (spec/41_decode.md
R170 to R180). -/

namespace Sys2Proof.Machine

/-- A record with its addresses stamped (R174): `instr_addr` and `next_addr` (R91). -/
def mkRecord (c : Config) (ws : List Word16) (iaddr : Addr) (cls : Cls) (p : Program) : Record :=
  let n := ws.length - 1
  { words := ws, nExt := n, cls := cls, prog := p, instrAddr := iaddr
    nextAddr := seqIter c.pcWrap (1 + n) iaddr }

/-- The INVALID record (R172). -/
def invalidRecord (c : Config) (ws : List Word16) (iaddr : Addr) : Record :=
  mkRecord c ws iaddr (.invalid iaddr (ws.headD 0)) .invalid

/-- The record of ENC_REF's decoder (R171). -/
def refRecord (c : Config) (ws : List Word16) (iaddr : Addr) : Record :=
  match decodeRef c ws with
  | .error _ => invalidRecord c ws iaddr
  | .ok (i, _) =>
    match programOf c i with
    | none => invalidRecord c ws iaddr
    | some p => mkRecord c ws iaddr (.instr i) p

/-- The record of another table's decoder: the first row that takes the words gives its fields (R100,
R170). `admit_other` and `widths_admitted` refuse no row (DESIGN CHOICE, log 8). -/
def tableRecord (c : Config) (rows : List EncRow) (ws : List Word16) (iaddr : Addr) : Record :=
  match findRow rows ws with
  | none => invalidRecord c ws iaddr
  | some (row, k) => mkRecord c ws iaddr (.row k) row.prog

/-- `decode(enc, words, instr_addr)`: a function of the table, the words and the address (R5, R170). -/
def decodeRecord (c : Config) (ws : List Word16) (iaddr : Addr) : Record :=
  match c.enc with
  | .ref => refRecord c ws iaddr
  | .table rows => tableRecord c rows ws iaddr

/-- The class is `INVALID` (R172). -/
def Record.isInvalid (r : Record) : Bool :=
  match r.cls with
  | .invalid _ _ => true
  | .instr _ | .row _ => false

/-- The record is a branch (R173). -/
def Record.isBranch (r : Record) : Bool := r.prog.bkind != .none

/-- The target of a static branch, a function of the words and the address (R178). A slot past the record's
words holds 0 and raises no UNWRITTEN_READ (DESIGN CHOICE, log 27). -/
def staticTarget (r : Record) : Addr :=
  match r.prog.bkind with
  | .relImm => r.instrAddr + Width.sext .w8 (BitVec.ofNat 24 (slotWord r.words 1).toNat)
  | _ => slotData r.words 1

/-- Decode half1: handle the branch-resolution signal, and nothing else (R175). -/
def decodeHalf1 (s : State) : State :=
  if s.running then
    match s.ex.brResolve with
    | none => s
    | some (.taken _) =>
      { s with
        dec := { s.dec with
          branchPending := false, dstate := .waitForSlot, words := [], need := 0, held := none
          awaitRedirect := true }
        ex := { s.ex with brResolve := none } }
    | some .notTaken =>
      { s with
        dec := { s.dec with branchPending := false }
        ex := { s.ex with brResolve := none } }
  else s

/-- Publishing the held record (R174): write the slot, then ask for a static branch's redirect, or hold
the younger records behind any other branch and behind an INVALID record. Writing a full slot is the
consistency violation of R406, tested before any of it (DESIGN CHOICE, log 31). -/
def publish (r : Record) (s : State) : State :=
  if s.ready then s.violate .handoffOverwrite
  else
    let st := r.isBranch && r.prog.static
    { s with
      slot := r, ready := true
      fetch :=
        if st && s.fetch.redir.isNone then
          { s.fetch with redir := some ⟨staticTarget r, .decode⟩ }
        else s.fetch
      dec := { s.dec with
        awaitRedirect := s.dec.awaitRedirect || st
        branchPending := s.dec.branchPending || (!st && (r.isBranch || r.isInvalid))
        dstate := .waitForSlot, words := [], held := none } }

/-- DISPATCH: the record is built, and held while an earlier branch is unresolved (R174, R179). -/
def decDispatch (s : State) : State :=
  let r := decodeRecord s.cfg s.dec.words s.dec.iaddr
  if s.dec.branchPending then
    { s with dec := { s.dec with dstate := .dispatch, held := some r } }
  else publish r s

/-- READ_OPERANDS (R174). -/
def decOperands (s : State) : State :=
  match s.fetch.out with
  | none => { s with dec := { s.dec with dstate := .readOperands } }
  | some w =>
    let s := { s with
      fetch := { s.fetch with out := none }
      dec := { s.dec with
        dstate := .readOperands, words := s.dec.words ++ [w.word], need := s.dec.need - 1 } }
    if s.dec.need > 0 then s else decDispatch s

/-- READ_OPCODE (R174). -/
def decOpcode (s : State) : State :=
  match s.fetch.out with
  | none => { s with dec := { s.dec with dstate := .readOpcode } }
  | some w =>
    let need := s.cfg.nExt w.word
    let s := { s with
      fetch := { s.fetch with out := none }
      dec := { s.dec with iaddr := w.addr, words := [w.word], need := need } }
    if need > 0 then { s with dec := { s.dec with dstate := .readOperands } } else decDispatch s

/-- The loop of R174 from the state Decode is in. -/
def decRun (s : State) : State :=
  match s.dec.dstate with
  | .waitForSlot => if s.ready then s else decOpcode s
  | .readOpcode => decOpcode s
  | .readOperands => decOperands s
  | .dispatch => decDispatch s

/-- Decode half2: wait for a requested redirect to be serviced, then run the state machine (R174,
R180). -/
def decodeHalf2 (s : State) : State :=
  if s.running then
    if s.dec.awaitRedirect && s.fetch.redir.isSome then s
    else decRun { s with dec := { s.dec with awaitRedirect := false } }
  else s

end Sys2Proof.Machine
end

