-- ==== Sys2Proof/Machine/Microcode.lean ====
section
/-! DEFINITION. The microcode generator (spec/42_microcode.md R201 to R214, R221): one descriptor to one
Control Word and the next descriptor. -/

namespace Sys2Proof.Machine

/-- `acc(dir)`: a READ chain reads into MDR, a WRITE chain writes MDR (R204). -/
def accOf : Dir → WSrc
  | .read => .read
  | .write => .held

/-- `CONST(bytes(W))` as a source (R204). -/
def stepSource (w : Width) : Source := ⟨.const (BitVec.ofNat 24 w.bytes), .w24, false⟩

/-- The base register of a descriptor as a source (R206). -/
def Desc.baseSource (d : Desc) : Source := ⟨.reg d.reg .w24, .w24, false⟩

/-- The fields every microcode word has unless its row says otherwise (R203). -/
def Desc.word (d : Desc) : ControlWord := .base .w24 d.width

/-- A word that makes the descriptor's access, at `src0` (R206, R211). -/
def Desc.accessH1 (d : Desc) (src : Source) : ControlWord :=
  { d.word with src0 := src, mem := .h1, wsrc := accOf d.dir }

/-- A word that makes the descriptor's access at the sum of two sources (R207, R209, R212). -/
def Desc.accessSum (d : Desc) (src0 src1 : Source) (neg : Bool) : ControlWord :=
  { d.word with src0 := src0, src1 := src1, op := .add, neg := neg, mem := .h2, wsrc := accOf d.dir }

/-- The address of I/O register n: `(io_base + n) mod 2^24` (R221). -/
def ioAddr (c : Config) (n : Byte) : Addr := c.ioBase + BitVec.ofNat 24 n.toNat

/-- `gen(desc, rec)`, from the descriptor, the record's words and the configuration (R202). None for
`MU_NONE`, which has no generator (R406). The slot of MU_IO raises no UNWRITTEN_READ: past the record's words
it holds 0 (R221; DESIGN CHOICE, log 27). -/
def gen (c : Config) (ws : List Word16) (d : Desc) : Option (ControlWord × Desc) :=
  match d.kind with
  | .none => none
  | .ind => some (d.accessH1 d.baseSource, .none)
  | .pcrel8 => some (d.accessSum ⟨.iaddr, .w24, false⟩ ⟨.imm d.slot, .w8, true⟩ false, .none)
  | .pcrel16 => some (d.accessSum ⟨.iaddr, .w24, false⟩ ⟨.imm d.slot, .w16, false⟩ false, .none)
  | .pcrel24 => some (d.accessSum ⟨.iaddr, .w24, false⟩ ⟨.imm24 d.slot, .w24, false⟩ false, .none)
  | .postAccess => some (d.accessH1 d.baseSource, { d with kind := .postUpdate })
  | .postUpdate =>
    some ({ d.word with src0 := d.baseSource, src1 := stepSource d.width, neg := d.sg, op := .add
                        dest := .reg d.reg .w24 }, .none)
  | .preAccess =>
    some (d.accessSum d.baseSource (stepSource d.width) d.sg, { d with kind := .preUpdate })
  | .preUpdate =>
    some ({ d.word with src1 := ⟨.mar, .w24, false⟩, dest := .reg d.reg .w24 }, .none)
  | .dispAddr =>
    some ({ d.word with src0 := d.baseSource, src1 := ⟨.imm d.slot, .w16, c.regdispSigned⟩
                        op := .add, dest := .mar }, { d with kind := .dispAccess })
  | .dispAccess => some ({ d.word with mem := .addr, wsrc := accOf d.dir }, .none)
  | .abs => some (d.accessH1 ⟨.imm24 d.slot, .w24, false⟩, .none)
  | .absIdx =>
    some (d.accessSum ⟨.imm24 d.slot, .w24, false⟩ ⟨.rsel (d.slot + 1) 13 .w24, .w24, false⟩ false,
      .none)
  | .addrWb => some ({ d.word with mem := .addr, wsrc := .held }, .none)
  | .pushPc =>
    some ({ d.word with src1 := ⟨.pc, .w24, false⟩, dest := .mdr },
      ⟨.preAccess, c.spIndex, .w24, .write, d.slot, true⟩)
  | .io =>
    some ({ d.accessH1 ⟨.const (ioAddr c (BitVec.ofNat 8 (slotWord ws d.slot).toNat)), .w24, false⟩
            with mwidth := .w8 }, .none)

/-- The number of words of a chain, followed for at most `fuel` steps (R217). -/
def chainLen (c : Config) (ws : List Word16) : Nat → Desc → Nat
  | 0, _ => 0
  | n + 1, d =>
    match gen c ws d with
    | none => 0
    | some (_, d') => 1 + chainLen c ws n d'

end Sys2Proof.Machine
end

