-- ==== Sys2Proof/Machine/Execute.lean ====
section
/-! DEFINITION. The Execute stage: the sequencer, the half-cycle machine and branch resolution
(spec/44_execute.md R270 to R292). -/

namespace Sys2Proof.Machine

/-! ### The sequencer -/

/-- `start(c)`, with the check R287 makes of each word (R107, R272). -/
def startWord (c : ControlWord) (s : State) : State :=
  if c.ok then
    { s with
      ex := { s.ex with
        cw := some c, v0 := none, v1 := none, fl := none, res := none
        acc := if c.mem = .none then .none else .toAssert } }
  else s.violate .illFormedCw

/-- The states of `select` that start a word (R272). A chain or a core word without a record is BAD_SEQ_STATE
(DESIGN CHOICE, log 26). -/
def selectWord (s : State) : State :=
  match s.ex.cur, s.ex.sstate with
  | some r, .coreOp => startWord r.prog.core s
  | some r, .override | some r, .before | some r, .after =>
    match gen s.cfg r.words s.ex.desc with
    | some (c, _) => startWord c s
    | none => s.violate .noGenerator
  | _, _ => s.violate .badSeqState

/-- EVAL_CONTROL (R272): an INVALID record takes its exception (R401). -/
def selectEval (r : Record) (s : State) : State :=
  if r.isInvalid then takeInvalidOpcode r s
  else if !r.prog.override.isNone then
    selectWord { s with ex := { s.ex with desc := r.prog.override, sstate := .override } }
  else if !r.prog.before.isNone then
    selectWord { s with ex := { s.ex with desc := r.prog.before, sstate := .before } }
  else selectWord { s with ex := { s.ex with sstate := .coreOp } }

/-- WAIT_NEXT_INSTRUCTION: take the record from the slot (R34, R272). -/
def selectNext (s : State) : State :=
  if s.ready then
    selectEval s.slot
      { s with ready := false, ex := { s.ex with cur := some s.slot, sstate := .evalControl } }
  else s

/-- `select()` (R272). EVAL_CONTROL without a record is BAD_SEQ_STATE (DESIGN CHOICE, log 26). -/
def select (s : State) : State :=
  match s.ex.sstate with
  | .final => selectNext { s with ex := { s.ex with cur := none, sstate := .waitNext } }
  | .waitNext => selectNext s
  | .evalControl =>
    match s.ex.cur with
    | some r => selectEval r s
    | none => s.violate .badSeqState
  | .override | .before | .after | .coreOp => selectWord s

/-- The sequencer state after a chain's next descriptor (R273). -/
def afterChain (d : Desc) (here done : SState) : SState := if d.isNone then done else here

/-- Leave the control word (R273). -/
def ExecState.leave (e : ExecState) (sstate : SState) (desc : Desc) : ExecState :=
  { e with sstate := sstate, desc := desc, cw := none, acc := .none, estate := .advanceSequencer }

/-- ADVANCE_SEQUENCER (R273). Without a record it is BAD_SEQ_STATE (DESIGN CHOICE, log 26). -/
def advance (s : State) : State :=
  match s.ex.cur with
  | none => s.violate .badSeqState
  | some r =>
    match s.ex.sstate with
    | .coreOp =>
      if r.prog.after.isNone then { s with ex := s.ex.leave .final s.ex.desc }
      else { s with ex := s.ex.leave .after r.prog.after }
    | .override =>
      match gen s.cfg r.words s.ex.desc with
      | some (_, d) => { s with ex := s.ex.leave (afterChain d .override .final) d }
      | none => s.violate .noGenerator
    | .before =>
      match gen s.cfg r.words s.ex.desc with
      | some (_, d) => { s with ex := s.ex.leave (afterChain d .before .coreOp) d }
      | none => s.violate .noGenerator
    | .after =>
      match gen s.cfg r.words s.ex.desc with
      | some (_, d) => { s with ex := s.ex.leave (afterChain d .after .final) d }
      | none => s.violate .noGenerator
    | _ => s.violate .badSeqState

/-! ### The access of a control word -/

/-- `data(wsrc)` (R281). -/
def writeData (cw : ControlWord) (s : State) : Data :=
  match cw.wsrc with
  | .src2 => s.ex.v1.getD 0
  | .result => (s.ex.res.map AluOut.result).getD 0
  | .held => s.mdr.val
  | .read => 0

/-- The unwritten locations an assert consumes: the address in MAR, then the datum in MDR (R280, R281,
R408). For an H1 assert that is before the flags of the same word (DESIGN CHOICE, log 30). -/
def assertUnwritten (cw : ControlWord) (s : State) : List UnwrittenLoc :=
  (if cw.mem = .addr then (if s.mar.written then [] else [.mar]) else []) ++
    (if cw.wsrc = .held then (if s.mdr.written then [] else [.mdr]) else [])

/-- What an accepted access leaves in Execute: `acc`, `ex_pending` and, for H1 and H2, `MAR` (R278). -/
def acceptAccess (cw : ControlWord) (a : Addr) (kind : Dir) (s : State) : State :=
  { s with
    ex := { s.ex with acc := .accepted, exPending := some ⟨kind, cw.mwidth.bytes⟩ }
    mar := if cw.mem = .addr then s.mar else ⟨a, true⟩ }

/-- The kind of a word's access (R278). -/
def ControlWord.kind (cw : ControlWord) : Dir := if cw.wsrc = .read then .read else .write

/-- The controller's call for a word's access: a read, or a write of the datum's low bytes (R278). -/
def callAccess (cw : ControlWord) (a : Addr) (s : State) : State × Bool :=
  match cw.wsrc with
  | .read => s.assertRead .execute a cw.mwidth.bytes
  | _ => s.assertWrite .execute a cw.mwidth.bytes (cw.mwidth.trunc (writeData cw s))

/-- `assert_access(a)` (R278). A rejected assert changes nothing and is made again. -/
def assertAccess (cw : ControlWord) (a : Addr) (s : State) : State :=
  let s := s.consume (assertUnwritten cw s)
  if s.running then
    let (s', accepted) := callAccess cw a s
    if accepted then acceptAccess cw a cw.kind s' else s'
  else s

/-! ### Half1 -/

/-- MEM_WAIT: collect Execute's completed access (R275, R276). The word is still blocked afterwards
exactly when `ex_pending` is still set. -/
def memWait (s : State) : State :=
  if s.running then
    match s.ex.exPending with
    | none => s
    | some p =>
      if s.ctl.dataReady .execute then
        { s with
          mdr := if p.kind = .read then ⟨s.ctl.latchedData, true⟩ else s.mdr
          ctl := .ready
          ex := { s.ex with exPending := none } }
      else s
  else s

/-- OPERAND_LATCH, once for each word (R275). Without a record it is BAD_SEQ_STATE (DESIGN CHOICE, log 26). -/
def latchOperands (cw : ControlWord) (s : State) : State :=
  match s.ex.cur with
  | none => s.violate .badSeqState
  | some r =>
    let s := s.consume (unwrittenLoc s r cw.src0.loc ++ unwrittenLoc s r cw.src1.loc)
    if s.running then
      { s with
        ex := { s.ex with
          v0 := some (readSource s r cw.src0), v1 := some (readSource s r cw.src1), fl := some s.f
          estate := .operandLatch } }
    else s

/-- The latch-at-half1 assert, at the value of source 0 (R275, R278). -/
def assertH1 (cw : ControlWord) (s : State) : State :=
  if cw.mem = .h1 ∧ s.ex.acc = .toAssert then
    assertAccess cw (s.ex.v0.getD 0) { s with ex := { s.ex with estate := .memAssert1 } }
  else s

/-- The rest of half1 for a live word (R275, R277). An H1 assert consumes MDR here, before half2 consumes the
flags (R408; DESIGN CHOICE, log 30). -/
def executeWord (cw : ControlWord) (s : State) : State :=
  let s := if s.ex.v0.isNone then latchOperands cw s else s
  if s.running then
    let s := assertH1 cw s
    if s.running then { s with ex := { s.ex with exWantsMem := s.ex.acc == .toAssert } } else s
  else s

/-- Execute half1 after MEM_WAIT (R275). -/
def executeStart (s : State) : State :=
  if s.running then
    if s.ex.exPending.isSome then
      { s with ex := { s.ex with exWantsMem := true, estate := .memWait } }
    else
      let s := if s.ex.cw.isNone then select s else s
      if s.hasAborted then s
      else
        match s.ex.cw with
        | none => { s with ex := { s.ex with exWantsMem := false } }
        | some cw => if s.running then executeWord cw s else s
  else s

/-- Execute half1 (R275). -/
def executeHalf1 (s : State) : State := executeStart (memWait s)

/-! ### Half2 -/

/-- RESULT_LATCH, once for each word (R284). -/
def latchResult (cw : ControlWord) (v0 v1 : Data) (fl : Flags) (s : State) : State :=
  if s.ex.res.isSome then s
  else
    let s := s.consume (aluUnwritten s.cfg cw fl)
    if s.running then
      { s with ex := { s.ex with res := some (alu s.cfg cw v0 v1 fl), estate := .resultLatch } }
    else s

/-- The asserts of half2: H2 at the ALU result, ADDR at MAR (R279, R280, R284). -/
def assertHalf2 (cw : ControlWord) (s : State) : State :=
  if s.ex.acc = .toAssert then
    match cw.mem with
    | .h2 =>
      assertAccess cw ((s.ex.res.map AluOut.result).getD 0)
        { s with ex := { s.ex with estate := .memAssert2 } }
    | .addr => assertAccess cw s.mar.val { s with ex := { s.ex with estate := .memAssert2 } }
    | _ => s
  else s

/-- One flag of the mask copied from the new flag byte (R284). -/
def copyFlag (p : FlagPos) (new : Flags) (n : FlagName) (on : Bool) (f : Flags) : Flags :=
  f.putIf p n on (new.get p n)

/-- `F <- res.F'`: only the bits of the mask change (R255, R284). -/
def commitFlags (p : FlagPos) (m : FMask) (new f : Flags) : Flags :=
  copyFlag p new .c m.c (copyFlag p new .v m.v (copyFlag p new .s m.s (copyFlag p new .z m.z f)))

/-- `resolve_branch()` (R290). Writing a signal that was not consumed is the violation of R406, tested before
the redirect (DESIGN CHOICE, log 31). -/
def resolveBranch (r : Record) (target : Addr) (fl : Flags) (s : State) : State :=
  if r.prog.static then s
  else
    let s := s.consume (unwrittenCond s.cfg.flagPos fl r.prog.pred)
    if s.running then
      if s.ex.brResolve.isSome then s.violate .handoffOverwrite
      else if condHolds s.cfg.flagPos fl r.prog.pred then
        { s with
          fetch := { s.fetch with redir := some ⟨target, .execute⟩ }
          ex := { s.ex with brResolve := some (.taken target) } }
      else { s with ex := { s.ex with brResolve := some .notTaken } }
    else s

/-- A write to PC is legal only in the core word of a branch record (R282). -/
def pcWriteOk (cw : ControlWord) (r : Record) (st : SState) : Bool :=
  cw.dest != .pc || (st == .coreOp && r.isBranch)

/-- The commit of a word: its destination, its flags, its branch action, and the advance (R283, R284). -/
def commit (cw : ControlWord) (r : Record) (fl : Flags) (out : AluOut) (s : State) : State :=
  if pcWriteOk cw r s.ex.sstate then
    let s := writeLoc s r cw.dest out.result
    let s := { s with f := commitFlags s.cfg.flagPos cw.fmask out.flags s.f }
    let s :=
      if s.ex.sstate = .coreOp ∧ r.isBranch then resolveBranch r out.result fl s else s
    if s.running then advance s else s
  else s.violate .badPcWrite

/-- The end of half2: the commit, unless an assert was rejected and is to be made again (R283, R284). Without
a record or a result it is BAD_SEQ_STATE (DESIGN CHOICE, log 26). -/
def commitUnlessBlocked (cw : ControlWord) (fl : Flags) (s : State) : State :=
  if s.running && s.ex.acc != .toAssert then
    match s.ex.cur, s.ex.res with
    | some r, some out => commit cw r fl out s
    | _, _ => s.violate .badSeqState
  else s

/-- Half2 of a live word with its operands latched (R284). -/
def finishWord (cw : ControlWord) (v0 v1 : Data) (fl : Flags) (s : State) : State :=
  let s := latchResult cw v0 v1 fl s
  if s.running then commitUnlessBlocked cw fl (assertHalf2 cw s) else s

/-- Execute half2 (R284). -/
def executeHalf2 (s : State) : State :=
  if s.running then
    match s.ex.cw, s.ex.v0, s.ex.v1, s.ex.fl with
    | some cw, some v0, some v1, some fl => finishWord cw v0 v1 fl s
    | _, _, _, _ => s
  else s

end Sys2Proof.Machine
end

