-- ==== Sys2Proof/Machine/Fetch.lean ====
section
/-! DEFINITION. The Fetch stage's two half-steps (spec/40_fetch.md R140 to R148). -/

namespace Sys2Proof.Machine

/-- Half1, step 1: collect a completed prefetch; a stale word is dropped (R142). -/
def fetchCollect (s : State) : State :=
  match s.fetch.pf with
  | none => s
  | some p =>
    if s.ctl.dataReady .fetch then
      let w : FWord := ⟨p.addr, BitVec.ofNat 16 s.ctl.latchedData.toNat⟩
      { s with
        ctl := .ready
        fetch := { s.fetch with
          queue := if p.stale then s.fetch.queue else s.fetch.queue ++ [w]
          pf := none } }
    else s

/-- Half1, step 2: shift the oldest word into the empty output latch, unless a redirect waits (R143). -/
def fetchShift (s : State) : State :=
  match s.fetch.redir, s.fetch.out, s.fetch.queue with
  | none, none, w :: q => { s with fetch := { s.fetch with out := some w, queue := q } }
  | _, _, _ => s

/-- Fetch half1 (R141 to R143). -/
def fetchHalf1 (s : State) : State := if s.running then fetchShift (fetchCollect s) else s

/-- Half2, step 1: service a redirect; the read in flight becomes stale (R145). -/
def fetchRedirect (s : State) : State :=
  match s.fetch.redir with
  | none => s
  | some r =>
    { s with
      fetch :=
        { fetchAddr := r.target, queue := [], out := none
          pf := s.fetch.pf.map fun p => { p with stale := true }
          redir := none } }

/-- Half2, step 2: issue a prefetch read when none is outstanding, Execute does not want the port and the
queue has room (R147, R148). -/
def fetchIssue (s : State) : State :=
  if s.fetch.pf.isNone && !s.ex.exWantsMem && decide (s.fetch.queue.length < s.cfg.fqDepth) then
    let (s', accepted) := s.assertRead .fetch s.fetch.fetchAddr 2
    if accepted then
      { s' with
        fetch := { s'.fetch with
          pf := some ⟨s.fetch.fetchAddr, false⟩
          fetchAddr := seqAddr s.cfg.pcWrap s.fetch.fetchAddr } }
    else s'
  else s

/-- Fetch half2 (R141, R145, R147). -/
def fetchHalf2 (s : State) : State := if s.running then fetchIssue (fetchRedirect s) else s

end Sys2Proof.Machine
end

