-- ==== Sys2Proof/Machine/Pipeline.lean ====
section
/-! DEFINITION. The clock: the order of the six half-steps and the controller's tick in a cycle
(spec/10_state.md R50), and running one instruction's record to its end in whole cycles (log 1). -/

namespace Sys2Proof.Machine

/-- One clock cycle, from its half1 on (R50): the three stages in half1, the three stages in half2, then
the Memory Controller's tick. -/
def cycle (s : State) : State :=
  tick (executeHalf2 (decodeHalf2 (fetchHalf2
    (executeHalf1 (decodeHalf1 (fetchHalf1 s))))))

/-- The part of half1 that comes before Execute takes a record: the Fetch and Decode half-steps and
Execute's MEM_WAIT. -/
def half1Front (s : State) : State := memWait (decodeHalf1 (fetchHalf1 s))

/-- One clock cycle, cut right after MEM_WAIT: the rest of half1, half2, the tick, and the front of the
next half1. The model's steps begin and end at this cut, where Execute can take a record (log 1). -/
def turn (s : State) : State :=
  half1Front (tick (executeHalf2 (decodeHalf2 (fetchHalf2 (executeStart s)))))

/-- Execute has run its record to the end: the sequencer is in FINAL and its last access has been
collected (R273, R276). -/
def State.finished (s : State) : Bool :=
  s.ex.sstate == .final && s.ex.cw.isNone && s.ex.exPending.isNone

/-- The passage through FINAL, which takes no cycle (R272, R273). -/
def State.retire (s : State) : State :=
  { s with ex := { s.ex with cur := none, sstate := .waitNext } }

/-- Execute waits for a record, with nothing of an earlier one in flight (R272). -/
def State.waiting (s : State) : Bool :=
  s.ex.sstate == .waitNext && s.ex.cw.isNone && s.ex.exPending.isNone

/-- Run cycles until Execute has finished its record or the run status is not RUNNING, `n` of them at most: a
machine that still waits then stays as it is, and the next step goes on (R411, log 13). -/
def runTurns : Nat → State → State
  | 0, s => if s.running && s.finished then s.retire else s
  | n + 1, s => if !s.running then s else if s.finished then s.retire else runTurns n (turn s)

/-- Run cycles until a record is in the slot or the run status is not RUNNING, `n` of them at most (log 13). -/
def fillTurns : Nat → State → State
  | 0, s => s
  | n + 1, s => if !s.running || s.ready then s else fillTurns n (turn s)

/-- The bound of cycles of one run: every draw in the list may keep an access waiting, and 64 more cycles are
enough for any record or any fetch when the draws after the list are true (log 13). -/
def State.fuel (s : State) : Nat := s.draws.length + 64

/-- The words the instruction is executed with: those of the slot's record when ENC_REF's decoder reads `i`
from them (R100, R170), else the encoding of `i`, every ignored bit 0 (log 10). -/
def State.wordsFor (s : State) (i : Instr) : List Word16 :=
  match s.cfg.enc, decodeRef s.cfg s.slot.words with
  | .ref, .ok (j, []) => if s.ready && j == i then s.slot.words else encode i
  | _, _ => encode i

/-- The record of `i`, with its words, at an address: its class and its program. An instruction without a
program has the record that ENC_REF's decoder gives its words, an INVALID one (log 16). -/
def recordOf (c : Config) (i : Instr) (p : Option Program) (ws : List Word16) (a : Addr) : Record :=
  match p with
  | some q => mkRecord c ws a (.instr i) q
  | none => refRecord c ((encode i).take (1 + encNExt c.admitOther ((encode i).headD 0))) a

/-- Execute the instruction `i`, whose program is `p`, from the handoff slot at the address the slot has:
the meaning of every instruction (R271 to R274, R283, R284). A core that is not RUNNING takes no half-step (R39). -/
def runProgram (i : Instr) (p : Option Program) (s : State) : Host.Outcome State Fault Refusal :=
  if s.running then
    .next (runTurns s.fuel
      { s with slot := recordOf s.cfg i p (s.wordsFor i) s.slot.instrAddr, ready := true })
  else .next s

/-- The address of the instruction the next step runs: the oldest word the machine holds, or the
redirect or fetch address when it holds none (R30, R154, R156). -/
def State.pc (s : State) : Addr :=
  if s.ready then s.slot.instrAddr
  else
    match s.fetch.redir, s.dec.words with
    | some r, _ => r.target
    | none, _ :: _ => s.dec.iaddr
    | none, [] =>
      match s.fetch.out, s.fetch.queue, s.fetch.pf with
      | some w, _, _ => w.addr
      | none, w :: _, _ => w.addr
      | none, [], some ⟨a, false⟩ => a
      | none, [], _ => s.fetch.fetchAddr

/-- Store instruction words from an address on, by `seq` (R91, R144). -/
def storeWords (c : Config) : List Word16 → Addr → Memory → Memory
  | [], _, m => m
  | w :: ws, a, m =>
    storeWords c ws (seqAddr c.pcWrap a) (m.store c.endian a 2 (BitVec.ofNat 24 w.toNat))

/-- A front end that holds no word and fetches next at `a`: a read in flight is stale (R145). -/
def State.flushTo (s : State) (a : Addr) : State :=
  { s with
    fetch :=
      { fetchAddr := a, queue := [], out := none
        pf := s.fetch.pf.map fun p => { p with stale := true }
        redir := none }
    dec := .reset
    ready := false }

end Sys2Proof.Machine
end

