-- ==== Sys2Proof/Machine/ArithLogic.lean ====
section
/-! DEFINITION. The arithmetic-logic instructions (spec/45_arith_logic.md R310 to R322). -/

namespace Sys2Proof.Machine

/-- `ADD.W rd, rs`: `xW[d] <- (a + b) mod M` (R311). -/
def execAddR (w : Width) (d s : Reg) (st : State) : Host.Outcome State Fault Refusal :=
  runProgram (.addR w d s) (some (addFrom w d (regSource s w))) st

/-- `ADD.W rd, #imm`: `xW[d] <- (a + b) mod M` (R311). -/
def execAddI (w : Width) (d : Reg) (v : Data) (st : State) : Host.Outcome State Fault Refusal :=
  runProgram (.addI w d v) (some (addFrom w d (immSource w 1))) st

/-- `ADC.W rd, rs`: `xW[d] <- (a + b + C) mod M` (R312). -/
def execAdcR (w : Width) (d s : Reg) (st : State) : Host.Outcome State Fault Refusal :=
  runProgram (.adcR w d s) (some (adcFrom w d (regSource s w))) st

/-- `ADC.W rd, #imm`: `xW[d] <- (a + b + C) mod M` (R312). -/
def execAdcI (w : Width) (d : Reg) (v : Data) (st : State) : Host.Outcome State Fault Refusal :=
  runProgram (.adcI w d v) (some (adcFrom w d (immSource w 1))) st

/-- `SUB.W rd, rs`: `xW[d] <- (a - b) mod M`, C the borrow (R313). -/
def execSubR (w : Width) (d s : Reg) (st : State) : Host.Outcome State Fault Refusal :=
  runProgram (.subR w d s) (some (subFrom w d (regSource s w))) st

/-- `SUB.W rd, #imm`: `xW[d] <- (a - b) mod M`, C the borrow (R313). -/
def execSubI (w : Width) (d : Reg) (v : Data) (st : State) : Host.Outcome State Fault Refusal :=
  runProgram (.subI w d v) (some (subFrom w d (immSource w 1))) st

/-- `SBC.W rd, rs`: `xW[d] <- (a - b - C) mod M`, C the borrow (R314). -/
def execSbcR (w : Width) (d s : Reg) (st : State) : Host.Outcome State Fault Refusal :=
  runProgram (.sbcR w d s) (some (sbcFrom w d (regSource s w))) st

/-- `SBC.W rd, #imm`: `xW[d] <- (a - b - C) mod M`, C the borrow (R314). -/
def execSbcI (w : Width) (d : Reg) (v : Data) (st : State) : Host.Outcome State Fault Refusal :=
  runProgram (.sbcI w d v) (some (sbcFrom w d (immSource w 1))) st

/-- `AND.W rd, rs`: `xW[d] <- a and b`, V the parity, C = 0 (R315). -/
def execAndR (w : Width) (d s : Reg) (st : State) : Host.Outcome State Fault Refusal :=
  runProgram (.andR w d s) (some (andFrom w d (regSource s w))) st

/-- `AND.W rd, #imm`: `xW[d] <- a and b`, V the parity, C = 0 (R315). -/
def execAndI (w : Width) (d : Reg) (v : Data) (st : State) : Host.Outcome State Fault Refusal :=
  runProgram (.andI w d v) (some (andFrom w d (immSource w 1))) st

/-- `OR.W rd, rs`: `xW[d] <- a or b`, V the parity, C = 0 (R316). -/
def execOrR (w : Width) (d s : Reg) (st : State) : Host.Outcome State Fault Refusal :=
  runProgram (.orR w d s) (some (orFrom w d (regSource s w))) st

/-- `OR.W rd, #imm`: `xW[d] <- a or b`, V the parity, C = 0 (R316). -/
def execOrI (w : Width) (d : Reg) (v : Data) (st : State) : Host.Outcome State Fault Refusal :=
  runProgram (.orI w d v) (some (orFrom w d (immSource w 1))) st

/-- `XOR.W rd, rs`: `xW[d] <- a xor b`, V the parity, C = 0 (R317). -/
def execXorR (w : Width) (d s : Reg) (st : State) : Host.Outcome State Fault Refusal :=
  runProgram (.xorR w d s) (some (xorFrom w d (regSource s w))) st

/-- `XOR.W rd, #imm`: `xW[d] <- a xor b`, V the parity, C = 0 (R317). -/
def execXorI (w : Width) (d : Reg) (v : Data) (st : State) : Host.Outcome State Fault Refusal :=
  runProgram (.xorI w d v) (some (xorFrom w d (immSource w 1))) st

/-- `CMP.W rd, rs`: the flags of SUB, no register (R318). -/
def execCmpR (w : Width) (d s : Reg) (st : State) : Host.Outcome State Fault Refusal :=
  runProgram (.cmpR w d s) (some (cmpFrom w d (regSource s w))) st

/-- `CMP.W rd, #imm`: the flags of SUB, no register (R318). -/
def execCmpI (w : Width) (d : Reg) (v : Data) (st : State) : Host.Outcome State Fault Refusal :=
  runProgram (.cmpI w d v) (some (cmpFrom w d (immSource w 1))) st

end Sys2Proof.Machine
end

