-- ==== Sys2Proof/Machine/Branch.lean ====
section
/-! DEFINITION. The branch, call and return instructions (spec/47_branch.md R350 to R361). -/

namespace Sys2Proof.Machine

/-- `JP cc, a24` (R351). -/
def execJpAbs (cc : Cond) (a : Addr) (st : State) : Host.Outcome State Fault Refusal :=
  runProgram (.jpAbs cc a) (some (progJpAbs cc)) st

/-- `JR cc, d8` (R352). -/
def execJrRel (cc : Cond) (d : Byte) (st : State) : Host.Outcome State Fault Refusal :=
  runProgram (.jrRel cc d) (some (progJrRel cc)) st

/-- `JP cc, (r)` (R353). -/
def execJpReg (cc : Cond) (r : Reg) (st : State) : Host.Outcome State Fault Refusal :=
  runProgram (.jpReg cc r) (some (progJpReg cc r)) st

/-- `CALL a24` (R355). -/
def execCallAbs (a : Addr) (st : State) : Host.Outcome State Fault Refusal :=
  runProgram (.callAbs a) (some progCall) st

/-- `RET` (R356), which is the return from an Invalid Opcode trap too (R405). -/
def execRetn (st : State) : Host.Outcome State Fault Refusal :=
  runProgram .retn (some (progRet st.cfg.spIndex)) st

end Sys2Proof.Machine
end

