-- ==== Sys2Proof/Machine/LoadMove.lean ====
section
/-! DEFINITION. The load and move instructions (spec/46_load_move.md R330 to R341). -/

namespace Sys2Proof.Machine

/-- `LD.W rd, rs` (R331). -/
def execLdRR (w : Width) (r s : Reg) (st : State) : Host.Outcome State Fault Refusal :=
  runProgram (.ldRR w r s) (some (progLdRR w r s)) st

/-- `LD.W rd, #imm` (R332). -/
def execLdRI (w : Width) (r : Reg) (v : Data) (st : State) : Host.Outcome State Fault Refusal :=
  runProgram (.ldRI w r v) (some (progLdRI w r)) st

/-- `LD.W rd, rm` (R333). -/
def execLdRM (w : Width) (r : Reg) (rm : Rm) (st : State) : Host.Outcome State Fault Refusal :=
  runProgram (.ldRM w r rm) (progLdRM w r rm) st

/-- `LD.W rm, rs` (R334). -/
def execLdMR (w : Width) (r : Reg) (rm : Rm) (st : State) : Host.Outcome State Fault Refusal :=
  runProgram (.ldMR w r rm) (progLdMR w r rm) st

/-- `LD r, F` (R335). -/
def execLdRF (r : Reg) (st : State) : Host.Outcome State Fault Refusal :=
  runProgram (.ldRF r) (some (progLdRF r)) st

/-- `LD F, r` (R336). -/
def execLdFR (r : Reg) (st : State) : Host.Outcome State Fault Refusal :=
  runProgram (.ldFR r) (some (progLdFR r)) st

end Sys2Proof.Machine
end

