-- ==== Sys2Proof/Machine/Other.lean ====
section
/-! DEFINITION. The stack, bit, shift and I/O instructions (spec/48_other.md R370 to R388). -/

namespace Sys2Proof.Machine

/-- `PUSH.W r` (R371). -/
def execPushR (w : Width) (r : Reg) (st : State) : Host.Outcome State Fault Refusal :=
  runProgram (.pushR w r) (some (progPush st.cfg.spIndex w r)) st

/-- `POP.W r` (R372). -/
def execPopR (w : Width) (r : Reg) (st : State) : Host.Outcome State Fault Refusal :=
  runProgram (.popR w r) (some (progPop st.cfg.spIndex w r)) st

/-- `BIT.W n, rm` (R373). -/
def execBitM (w : Width) (n : BitVec 5) (rm : Rm) (st : State) : Host.Outcome State Fault Refusal :=
  runProgram (.bitM w n rm) (progBit w n rm) st

/-- `SET.W n, rm` (R374). -/
def execSetM (w : Width) (n : BitVec 5) (rm : Rm) (st : State) : Host.Outcome State Fault Refusal :=
  runProgram (.setM w n rm) (progSet w n rm) st

/-- `RES.W n, rm` (R375). -/
def execResM (w : Width) (n : BitVec 5) (rm : Rm) (st : State) : Host.Outcome State Fault Refusal :=
  runProgram (.resM w n rm) (progRes w n rm) st

/-- `SHL.W r` (R378). -/
def execShlR (w : Width) (r : Reg) (st : State) : Host.Outcome State Fault Refusal :=
  runProgram (.shlR w r) (some (shiftProgram .l w r)) st

/-- `RL.W r` (R379). -/
def execRlR (w : Width) (r : Reg) (st : State) : Host.Outcome State Fault Refusal :=
  runProgram (.rlR w r) (some (shiftProgram .lc w r)) st

/-- `ROL.W r` (R380). -/
def execRolR (w : Width) (r : Reg) (st : State) : Host.Outcome State Fault Refusal :=
  runProgram (.rolR w r) (some (shiftProgram .lb w r)) st

/-- `SHR.W r` (R381). -/
def execShrR (w : Width) (r : Reg) (st : State) : Host.Outcome State Fault Refusal :=
  runProgram (.shrR w r) (some (shiftProgram .rl w r)) st

/-- `SAR.W r` (R382). -/
def execSarR (w : Width) (r : Reg) (st : State) : Host.Outcome State Fault Refusal :=
  runProgram (.sarR w r) (some (shiftProgram .ra w r)) st

/-- `RR.W r` (R383). -/
def execRrR (w : Width) (r : Reg) (st : State) : Host.Outcome State Fault Refusal :=
  runProgram (.rrR w r) (some (shiftProgram .rc w r)) st

/-- `ROR.W r` (R384). -/
def execRorR (w : Width) (r : Reg) (st : State) : Host.Outcome State Fault Refusal :=
  runProgram (.rorR w r) (some (shiftProgram .rb w r)) st

/-- `IN r, (n)` (R385). -/
def execInR (r : Reg) (n : Byte) (st : State) : Host.Outcome State Fault Refusal :=
  runProgram (.inR r n) (some (progIn r)) st

/-- `OUT (n), r` (R386). -/
def execOutR (r : Reg) (n : Byte) (st : State) : Host.Outcome State Fault Refusal :=
  runProgram (.outR r n) (some (progOut r)) st

end Sys2Proof.Machine
end

