-- ==== Sys2Proof/Machine/Dispatch.lean ====
section
/-! DEFINITION. The dispatch of every instruction to its meaning. -/

namespace Sys2Proof.Machine

/-- The meaning of each instruction, taken from the handoff slot. -/
def exec (i : Instr) (s : State) : Host.Outcome State Fault Refusal :=
  match i with
  | .addR w d r2 => Sys2Proof.Machine.execAddR w d r2 s
  | .addI w d v => Sys2Proof.Machine.execAddI w d v s
  | .adcR w d r2 => Sys2Proof.Machine.execAdcR w d r2 s
  | .adcI w d v => Sys2Proof.Machine.execAdcI w d v s
  | .subR w d r2 => Sys2Proof.Machine.execSubR w d r2 s
  | .subI w d v => Sys2Proof.Machine.execSubI w d v s
  | .sbcR w d r2 => Sys2Proof.Machine.execSbcR w d r2 s
  | .sbcI w d v => Sys2Proof.Machine.execSbcI w d v s
  | .andR w d r2 => Sys2Proof.Machine.execAndR w d r2 s
  | .andI w d v => Sys2Proof.Machine.execAndI w d v s
  | .orR w d r2 => Sys2Proof.Machine.execOrR w d r2 s
  | .orI w d v => Sys2Proof.Machine.execOrI w d v s
  | .xorR w d r2 => Sys2Proof.Machine.execXorR w d r2 s
  | .xorI w d v => Sys2Proof.Machine.execXorI w d v s
  | .cmpR w d r2 => Sys2Proof.Machine.execCmpR w d r2 s
  | .cmpI w d v => Sys2Proof.Machine.execCmpI w d v s
  | .ldRR w r r2 => Sys2Proof.Machine.execLdRR w r r2 s
  | .ldRI w r v => Sys2Proof.Machine.execLdRI w r v s
  | .ldRM w r rm => Sys2Proof.Machine.execLdRM w r rm s
  | .ldMR w r rm => Sys2Proof.Machine.execLdMR w r rm s
  | .jpAbs cc a => Sys2Proof.Machine.execJpAbs cc a s
  | .jrRel cc d => Sys2Proof.Machine.execJrRel cc d s
  | .jpReg cc r => Sys2Proof.Machine.execJpReg cc r s
  | .callAbs a => Sys2Proof.Machine.execCallAbs a s
  | .retn => Sys2Proof.Machine.execRetn s
  | .pushR w r => Sys2Proof.Machine.execPushR w r s
  | .popR w r => Sys2Proof.Machine.execPopR w r s
  | .bitM w n rm => Sys2Proof.Machine.execBitM w n rm s
  | .setM w n rm => Sys2Proof.Machine.execSetM w n rm s
  | .resM w n rm => Sys2Proof.Machine.execResM w n rm s
  | .shlR w r => Sys2Proof.Machine.execShlR w r s
  | .rlR w r => Sys2Proof.Machine.execRlR w r s
  | .rolR w r => Sys2Proof.Machine.execRolR w r s
  | .shrR w r => Sys2Proof.Machine.execShrR w r s
  | .sarR w r => Sys2Proof.Machine.execSarR w r s
  | .rrR w r => Sys2Proof.Machine.execRrR w r s
  | .rorR w r => Sys2Proof.Machine.execRorR w r s
  | .inR r n => Sys2Proof.Machine.execInR r n s
  | .outR r n => Sys2Proof.Machine.execOutR r n s
  | .ldRF r => Sys2Proof.Machine.execLdRF r s
  | .ldFR r => Sys2Proof.Machine.execLdFR r s

end Sys2Proof.Machine
end

