-- ==== Sys2Proof/Machine/Step.lean ====
section
/-! DEFINITION. One step: the record the pipeline delivers is run to its end (log 1). And where step
fetches its next instruction. -/

namespace Sys2Proof.Machine

/-- What runs the record in the slot: its instruction's meaning; the record of another encoding table is run
as it stands (log 8), and an INVALID record has no meaning, and Execute takes its exception (R401). -/
def runSlot (s : State) : Host.Outcome State Fault Refusal :=
  match s.slot.cls with
  | .instr i => exec i s
  | .row _ | .invalid _ _ => .next (runTurns s.fuel s)

/-- One step. The clock runs until Decode has published a record, then until Execute has finished it; a step
that finds a record in Execute, which a memory access has kept waiting, goes on with it (log 1, log 13). A core
that is not RUNNING takes no half-step, and only the Memory Controller ticks (R39, R288, log 12). -/
def step (s : State) : Host.Outcome State Fault Refusal :=
  if !s.running then .next (tick s)
  else if s.waiting then
    let s1 := fillTurns s.fuel s
    if s1.running && s1.ready then runSlot s1 else .next s1
  else .next (runTurns s.fuel s)

/-- The longest instruction of ENC_REF has four words (R122 to R127). -/
def longestInstr : Nat := 4

/-- `s` with an instruction stored where step fetches its next one, and a front end that holds no older
word (log 17). -/
def State.withFetchWord (s : State) (nbits w : Nat) : State :=
  { s.flushTo s.pc with
    mem := storeWords s.cfg ((tableWords nbits w).take longestInstr) s.pc s.mem }

end Sys2Proof.Machine
end

