-- ==== Sys2Proof/Safety.lean ====
section
/-! DEFINITION. The terms the statements speak in: where an instruction can start, which operands can be
read, what an addressing mode names, what a store leaves in memory, and what counts as a machine in order.
None of it is part of the machine. -/

namespace Sys2Proof.Machine

/-! ### Where an instruction starts -/

/-- The controller is READY and no prefetch is outstanding, or it is busy with the prefetch (R66, R142). -/
def portFree (c : Ctl) (f : FetchState) : Bool :=
  match c, f.pf with
  | .ready, none => true
  | .readBusy _ _ .fetch, some _ => true
  | _, _ => false

/-- Execute waits for an instruction: it is RUNNING, in WAIT_NEXT_INSTRUCTION, with no word, no access and
no resolution signal in flight (R272), and the port is free or taken by the prefetch. -/
def State.idle (s : State) : Bool :=
  s.status == .running && s.ex.sstate == .waitNext && s.ex.cw.isNone && s.ex.exPending.isNone
    && s.ex.brResolve.isNone && portFree s.ctl s.fetch

/-- Execute waits for an instruction, and Decode waits for the slot to be emptied, as it does whenever the
slot is full (R34, R174). This is where `step` calls `exec`. -/
def State.atBoundary (s : State) : Bool := s.idle && s.dec.dstate == .waitForSlot

/-- The machine is in order between two steps (R34, R66, R272). -/
def State.inOrder (s : State) : Bool := s.idle && (!s.ready || s.dec.dstate == .waitForSlot)

/-! ### Operands that can be read (R13, R25, R29) -/

/-- Reading the view of register `i` raises no UNWRITTEN_READ. -/
def usableReg (s : State) (i : Reg) (w : Width) : Bool :=
  s.cfg.unwrittenRead == .value || !s.regUnwritten i w

/-- Reading the flag raises no UNWRITTEN_READ. -/
def usableFlag (s : State) (n : FlagName) : Bool :=
  s.cfg.unwrittenRead == .value || s.f.has s.cfg.flagPos n

/-- Reading all of F raises no UNWRITTEN_READ. -/
def usableF (s : State) : Bool := s.cfg.unwrittenRead == .value || s.f.written == 0xFF#8

/-- The predicate's flag can be read (R289). -/
def usableCond (s : State) (cc : Cond) : Bool :=
  match condFlag cc with
  | none => true
  | some n => usableFlag s n

/-! ### Addressing modes (R205 to R213) -/

/-- The mode names memory. -/
def rmIsMem : Rm → Bool
  | .reg _ | .imm _ => false
  | _ => true

/-- The operand width in bytes, as an address increment (R204). -/
def stepOf (w : Width) : Data := BitVec.ofNat 24 w.bytes

/-- The displacement of `(rb+d16)` (R116, R210). -/
def dispOf (c : Config) (d : Word16) : Data :=
  if c.regdispSigned then d.signExtend 24 else d.setWidth 24

/-- The address a memory mode names, from the state before the instruction and the instruction's address
`ia` (R206 to R212). -/
def rmAddr (s : State) (ia : Addr) (w : Width) : Rm → Addr
  | .reg _ | .imm _ => 0
  | .ind b | .postInc b | .postDec b => s.x24 b
  | .preInc b => s.x24 b + stepOf w
  | .preDec b => s.x24 b - stepOf w
  | .disp b d => s.x24 b + dispOf s.cfg d
  | .pc8 d => ia + d.signExtend 24
  | .pc16 d => ia + d.setWidth 24
  | .pc24 d => ia + d
  | .abs a => a
  | .absIdx a j => a + s.x24 j

/-- The state with the mode's register update made (R208, R209). -/
def rmStep (s : State) (w : Width) : Rm → State
  | .postInc b | .preInc b => s.setReg b .w24 (s.x24 b + stepOf w)
  | .postDec b | .preDec b => s.setReg b .w24 (s.x24 b - stepOf w)
  | _ => s

/-- The registers the mode reads can be read. -/
def usableRm (s : State) (w : Width) : Rm → Bool
  | .reg b => usableReg s b w
  | .ind b | .postInc b | .postDec b | .preInc b | .preDec b | .disp b _ => usableReg s b .w24
  | .absIdx _ j => usableReg s j .w24
  | .pc8 _ | .pc16 _ | .pc24 _ | .abs _ | .imm _ => true

/-- The operand's value: a register's view, an immediate, or the bytes at the mode's address. -/
def rmValue (s : State) (ia : Addr) (w : Width) (rm : Rm) : Data :=
  match rm with
  | .reg b => s.view b w
  | .imm v => w.trunc v
  | _ => s.load (rmAddr s ia w rm) w.bytes

/-! ### Memory -/

/-- Byte `k` of a value of `n` bytes as it lies in memory (R64). -/
def byteAt (e : Endian) (n : Nat) (v : Data) (k : Nat) : Byte :=
  match e with
  | .little => BitVec.ofNat 8 (v.toNat / 256 ^ k)
  | .big => BitVec.ofNat 8 (v.toNat / 256 ^ (n - 1 - k))

/-- Nothing was written: every byte of memory is as before, every address answers as before, and the history
of writes is as it was (R69). -/
def SameMem (s t : State) : Prop :=
  (∀ x, t.mem.read x = s.mem.read x) ∧ (∀ x, t.readByte x = s.readByte x) ∧ t.writes = s.writes

/-- One write was made: the `n` bytes of memory at `a` hold the low bytes of `v`, every other byte is as
before, and the history of writes has this one more (R64, R69). -/
def Stored (s t : State) (a : Addr) (n : Nat) (v : Data) : Prop :=
  (∀ k, k < n → t.mem.read ((a.toNat + k) % 2 ^ 24) = byteAt s.cfg.endian n v k) ∧
    (∀ x, x ∉ accessAddrs a n → t.mem.read x = s.mem.read x) ∧ t.writes = s.writes ++ [⟨a, n, v⟩]

/-! ### What an instruction leaves -/

/-- What `t` holds after `s`: these registers, flags, MAR and MDR; the machine is in order for the next
instruction; the configuration, the shadow index and the log are unchanged, and so are the model's own
`fair` and `freeCount`. -/
def Leaves (s t : State) (regs : Vector GReg 8) (f : Flags) (mar mdr : Latch) : Prop :=
  t.inOrder = true ∧ t.regs = regs ∧ t.f = f ∧ t.mar = mar ∧ t.mdr = mdr ∧ t.cfg = s.cfg ∧
    t.shadowSelect = s.shadowSelect ∧ t.log = s.log ∧ t.fair = s.fair ∧ t.freeCount = s.freeCount

/-! ### Where the program goes on (R30, R144, R150, R154) -/

/-- The addresses of the words Fetch holds or has asked for, oldest first, and then the address it asks for
next (R150). -/
def FetchState.held (f : FetchState) : List Addr :=
  f.out.toList.map FWord.addr ++ f.queue.map FWord.addr ++
    (match f.pf with
     | some ⟨a, false⟩ => [a]
     | _ => []) ++ [f.fetchAddr]

/-- Each address is followed by its sequential successor (R144). -/
def consecutive (p : PcWrap) : List Addr → Bool
  | a :: b :: l => b == seqAddr p a && consecutive p (b :: l)
  | _ => true

/-- The address of the instruction after the one in the slot: that of the oldest word the machine holds
besides the slot's record. -/
def State.nextPc (s : State) : Addr := { s with ready := false }.pc

/-- Where the decoder continues after a record: at a static branch's target, else at `next_addr` (R178,
R174). -/
def Record.follow (r : Record) : Addr :=
  if r.isBranch && r.prog.static then staticTarget r else r.nextAddr

/-- Fetch's words are consecutive (R150). -/
def State.chained (s : State) : Bool := consecutive s.cfg.pcWrap s.fetch.held

/-- The front end holds one unbroken run of the program: Fetch's words are consecutive, they follow the
words Decode has read, Decode has read none in a state in which it has none, and what follows the slot's
record is where that record continues. -/
def State.frontOk (s : State) : Bool :=
  s.chained
    && (s.fetch.redir.isNone || s.dec.words.isEmpty)
    && (s.dec.words.isEmpty == (s.dec.dstate == .waitForSlot || s.dec.dstate == .readOpcode))
    && (s.dec.words.isEmpty
        || s.fetch.held.head? == some (seqIter s.cfg.pcWrap s.dec.words.length s.dec.iaddr))
    && (!s.ready || s.nextPc == s.slot.follow)

/-- The program goes on with the instruction the front end holds next. -/
def GoesOn (s t : State) : Prop :=
  s.frontOk = true → t.frontOk = true ∧ t.pc = s.nextPc

/-- The program goes on at `a`, through Execute's redirect: Decode, which holds the younger records behind
a branch that Execute resolves, drops them (R290, R175, R179). -/
def GoesTo (s t : State) (a : Addr) : Prop :=
  t.fetch.redir = some ⟨a, .execute⟩ ∧
    (s.frontOk = true → s.dec.branchPending = true → t.frontOk = true ∧ t.pc = a)

/-! ### The instruction words in memory (R91, R92) -/

/-- The instruction word at an address (R64, R65). -/
def State.wordAt (s : State) (a : Addr) : Word16 := BitVec.ofNat 16 (s.load a 2).toNat

/-- The `n` words from an address on, by `seq` (R91, R144). -/
def State.wordsFrom (s : State) : Nat → Addr → List Word16
  | 0, _ => []
  | n + 1, a => s.wordAt a :: s.wordsFrom n (seqAddr s.cfg.pcWrap a)

/-- The words of the instruction at an address: the opcode word and the extension words it asks for. -/
def State.instrWords (s : State) (a : Addr) : List Word16 :=
  s.wordsFrom (1 + s.cfg.nExt (s.wordAt a)) a

/-- The word Fetch holds is the one that memory holds now. -/
def State.current (s : State) (w : FWord) : Bool := w.word == s.wordAt w.addr

/-- Every word the front end holds is the one that memory holds now: no store has gone to a word already
fetched (R77, R441). -/
def State.fresh (s : State) : Bool :=
  s.fetch.out.toList.all s.current && s.fetch.queue.all s.current
    && s.dec.words == s.wordsFrom s.dec.words.length s.dec.iaddr
    && (!s.ready
        || s.slot == decodeRecord s.cfg (s.instrWords s.slot.instrAddr) s.slot.instrAddr)

/-! ### The machine's order between two steps -/

/-- Decode holds the younger records behind this one: it is a branch that Execute resolves, or INVALID
(R174, R179). -/
def Record.holds (r : Record) : Bool := (r.isBranch && !r.prog.static) || r.isInvalid

/-- The prefetch in flight will fill a place of the queue. -/
def FetchState.coming (f : FetchState) : Nat :=
  match f.pf with
  | some ⟨_, false⟩ => 1
  | _ => 0

/-- The queue has room for every word asked for (R149). -/
def State.roomy (s : State) : Bool := decide (s.fetch.queue.length + s.fetch.coming ≤ s.cfg.fqDepth)

/-- Decode holds as many words as its state says: none while it waits for an opcode word; the opcode word
and some of its extension words, with `need` still to come; all of them at DISPATCH (R33, R174). -/
def State.counted (s : State) : Bool :=
  match s.dec.dstate, s.dec.words with
  | .waitForSlot, [] => true
  | .readOpcode, [] => true
  | .readOperands, w :: ws =>
    decide (0 < s.dec.need) && ws.length + s.dec.need == s.cfg.nExt w
  | .dispatch, w :: ws => ws.length == s.cfg.nExt w
  | _, _ => false

/-- The read in flight for Fetch is the one Fetch has recorded, of an instruction word (R142, R147). -/
def State.asked (s : State) : Bool :=
  match s.ctl, s.fetch.pf with
  | .readBusy a n .fetch, some p => a == p.addr && n == 2
  | _, _ => true

/-- The port is free or has the prefetch, or it has Execute's access (R38, R61). -/
def State.portOk (s : State) : Bool :=
  match s.ex.exPending with
  | none => portFree s.ctl s.fetch
  | some _ => s.ctl.owner == some .execute && s.fetch.pf.isNone

/-- The record in Execute is a branch that Execute has still to resolve (R290). -/
def ExecState.holds (e : ExecState) : Bool :=
  match e.cur with
  | some r => (e.sstate == .before || e.sstate == .coreOp) && r.isBranch && !r.prog.static
  | none => false

/-- The record in Execute has a program in order (R406). -/
def ExecState.progOk (e : ExecState) : Bool :=
  match e.cur with
  | some r => r.prog.ok
  | none => false

/-- The sequencer is in a state of its set, with a record and a descriptor in order (R272, R406). It passes
through EVAL_CONTROL within a half-step. -/
def ExecState.placed (e : ExecState) : Bool :=
  match e.sstate with
  | .waitNext | .final => e.cw.isNone
  | .evalControl => false
  | .coreOp => e.progOk
  | .override | .before | .after => e.progOk && e.desc.ok

/-- The word the sequencer's place selects (R272). -/
def wordOf (c : Config) (r : Record) (st : SState) (d : Desc) : Option ControlWord :=
  match st with
  | .coreOp => some r.prog.core
  | .override | .before | .after => (gen c r.words d).map Prod.fst
  | _ => none

/-- A word between two cycles is the one the sequencer selects, with its operands latched and its access
still to be asserted (R283). -/
def State.wordOk (s : State) : Bool :=
  match s.ex.cw, s.ex.cur with
  | none, _ => true
  | some cw, some r =>
    wordOf s.cfg r s.ex.sstate s.ex.desc == some cw && s.ex.v0.isSome && s.ex.v1.isSome
      && s.ex.fl.isSome && s.ex.acc == .toAssert && s.ex.exPending.isNone
  | some _, none => false

/-- A RUNNING machine where a step begins and ends: the handshakes and the port are in order (R34, R66); the
front end holds one unbroken run of the program (R150) within its queue (R149); Decode holds younger records
exactly while the record in the slot or in Execute asks for it (R174, R179); the slot's record is the
decoder's (R170); and Execute waits, or runs a record whose access the controller keeps waiting (R272,
R276). -/
structure State.Ordered (s : State) : Prop where
  front : s.frontOk = true
  room : s.roomy = true
  asked : s.asked = true
  counted : s.counted = true
  port : s.portOk = true
  resolved : s.ex.brResolve = none
  placed : s.ex.placed = true
  word : s.wordOk = true
  pending : s.dec.branchPending = ((s.ready && s.slot.holds) || s.ex.holds)
  hand : s.ready = true → s.dec.dstate = .waitForSlot ∧ s.ex.holds = false
  slot : s.ready = true → ∃ ws a, s.slot = decodeRecord s.cfg ws a

/-- The invariant of the machine: the parameters keep their constraints (R8, R27), memory its canonical
form, no consistency violation has happened (R406), and a RUNNING machine is in order. -/
structure Inv (s : State) : Prop where
  cfg : s.cfg.valid = true
  mem : s.mem.wf = true
  lawful : ∀ a, s.status = .aborted a → ∃ l, a = .unwrittenRead l
  ordered : s.status = .running → s.Ordered

/-! ### How an instruction completes -/

/-- `i` completes from `s`: it leaves these registers, flags, MAR and MDR, it changes no byte of memory, and
the program goes on. -/
def Completes (s : State) (i : Instr) (regs : Vector GReg 8) (f : Flags) (mar mdr : Latch) : Prop :=
  ∃ t, exec i s = .next t ∧ Leaves s t regs f mar mdr ∧ SameMem s t ∧ GoesOn s t

/-- `i` completes from `s` with the `n` low bytes of `v` stored at `a` and no other byte of memory changed. -/
def Stores (s : State) (i : Instr) (regs : Vector GReg 8) (f : Flags) (mar mdr : Latch) (a : Addr)
    (n : Nat) (v : Data) : Prop :=
  ∃ t, exec i s = .next t ∧ Leaves s t regs f mar mdr ∧ Stored s t a n v ∧ GoesOn s t

/-- `i` completes from `s`, changes nothing but the program's course, and goes to `a` when `taken`. -/
def Branches (s : State) (i : Instr) (taken : Bool) (a : Addr) : Prop :=
  ∃ t, exec i s = .next t ∧ Leaves s t s.regs s.f s.mar s.mdr ∧ SameMem s t ∧
    if taken then GoesTo s t a else GoesOn s t

/-- The slot holds the record that the decoder makes of words that ENC_REF reads as `i`, and the front end is
in order behind it. -/
def State.delivered (s : State) (i : Instr) : Prop :=
  s.ready = true ∧ s.cfg.enc = .ref ∧ s.frontOk = true ∧
    ∃ ws, decodeRef s.cfg ws = .ok (i, []) ∧ s.slot = decodeRecord s.cfg ws s.slot.instrAddr

/-- `i` completes from `s` and the program goes on at `a`, to which Decode has redirected Fetch if it has
delivered `i` (R178). -/
def BranchesStatically (s : State) (i : Instr) (a : Addr) : Prop :=
  ∃ t, exec i s = .next t ∧ Leaves s t s.regs s.f s.mar s.mdr ∧ SameMem s t ∧ GoesOn s t ∧
    (s.delivered i → t.pc = a)

/-! ### The arithmetic-logic forms (R310, R319) -/

/-- `i` is the register form, with a register that can be read, or the immediate form, and `b` is the value
of its source 2 (R310). -/
def SourceTwo (s : State) (w : Width) (regForm : Reg → Instr) (immForm : Data → Instr) (i : Instr)
    (b : Nat) : Prop :=
  (∃ r, i = regForm r ∧ usableReg s r w = true ∧ b = (s.view r w).toNat) ∨
    ∃ v, i = immForm v ∧ b = v.toNat % w.modulus

/-- The instructions whose core word has `op = ADD` (R319). -/
inductive SumOp where
  | add | adc | sub | sbc | cmp
deriving DecidableEq, Repr

/-- The register form. -/
def SumOp.regForm : SumOp → Width → Reg → Reg → Instr
  | .add => .addR
  | .adc => .adcR
  | .sub => .subR
  | .sbc => .sbcR
  | .cmp => .cmpR

/-- The immediate form. -/
def SumOp.immForm : SumOp → Width → Reg → Data → Instr
  | .add => .addI
  | .adc => .adcI
  | .sub => .subI
  | .sbc => .sbcI
  | .cmp => .cmpI

/-- `neg` and `cinv` are set (R319). -/
def SumOp.subtracts : SumOp → Bool
  | .sub | .sbc | .cmp => true
  | .add | .adc => false

/-- `addc` is set (R319). -/
def SumOp.carries : SumOp → Bool
  | .adc | .sbc => true
  | .add | .sub | .cmp => false

/-- Source 2 after the transforms, each reduced modulo M when `mask` is set (R243). -/
def SumOp.addend (o : SumOp) (mask : Bool) (w : Width) (b cin : Nat) : Nat :=
  let reduced := fun n => if mask then n % w.modulus else n
  let t := if o.carries then reduced (b + cin) else b
  if o.subtracts then reduced (w.modulus - t) else t

/-- The registers after the instruction: the destination written, but for CMP (R318). -/
def SumOp.regs (o : SumOp) (s : State) (w : Width) (d : Reg) (r : Nat) : Vector GReg 8 :=
  if o = .cmp then s.regs else (s.setReg d w (BitVec.ofNat 24 r)).regs

/-! ### What an instruction consumes (R25, R29, R252, R408) -/

/-- The view of a register, when a lane of it is unwritten. -/
def lackReg (s : State) (i : Reg) (w : Width) : List UnwrittenLoc :=
  if s.regUnwritten i w then [.reg i w] else []

/-- The flag, when it is unwritten. -/
def lackFlag (s : State) (n : FlagName) : List UnwrittenLoc :=
  if s.f.has s.cfg.flagPos n then [] else [.flag n]

/-- The flag a predicate reads, when it is unwritten. -/
def lackCond (s : State) (cc : Cond) : List UnwrittenLoc :=
  match condFlag cc with
  | none => []
  | some n => lackFlag s n

/-- The register that an operand of width `w` reads, when it is unwritten. -/
def lackRm (s : State) (w : Width) : Rm → List UnwrittenLoc
  | .reg b => lackReg s b w
  | .ind b | .postInc b | .postDec b | .preInc b | .preDec b | .disp b _ => lackReg s b .w24
  | .absIdx _ j => lackReg s j .w24
  | .pc8 _ | .pc16 _ | .pc24 _ | .abs _ | .imm _ => []

/-- The unwritten registers and flags an instruction consumes, in the order in which it does (R408). -/
def lacks (s : State) : Instr → List UnwrittenLoc
  | .addR w d r | .subR w d r | .cmpR w d r => lackReg s d w ++ lackReg s r w ++ lackFlag s .d
  | .addI w d _ | .subI w d _ | .cmpI w d _ => lackReg s d w ++ lackFlag s .d
  | .adcR w d r | .sbcR w d r => lackReg s d w ++ lackReg s r w ++ lackFlag s .c ++ lackFlag s .d
  | .adcI w d _ | .sbcI w d _ => lackReg s d w ++ lackFlag s .c ++ lackFlag s .d
  | .andR w d r | .orR w d r | .xorR w d r => lackReg s d w ++ lackReg s r w
  | .andI w d _ | .orI w d _ | .xorI w d _ => lackReg s d w
  | .ldRR w _ r => lackReg s r w
  | .ldRI _ _ _ => []
  | .ldRM w _ rm => lackRm s w rm
  | .ldMR w r rm => lackReg s r w ++ if rmIsMem rm then lackRm s w rm else []
  | .jpAbs cc _ | .jrRel cc _ => lackCond s cc
  | .jpReg cc r => lackReg s r .w24 ++ lackCond s cc
  | .callAbs _ | .retn | .popR _ _ => lackReg s s.cfg.spIndex .w24
  | .pushR w r => lackReg s r w ++ lackReg s s.cfg.spIndex .w24
  | .bitM w _ rm | .setM w _ rm | .resM w _ rm => lackRm s w rm
  | .shlR w r | .rolR w r | .shrR w r | .sarR w r | .rorR w r => lackReg s r w
  | .rlR w r | .rrR w r => lackReg s r w ++ lackFlag s .c
  | .inR _ _ => []
  | .outR r _ => lackReg s r .w8
  | .ldRF _ => if s.f.written = 0xFF#8 then [] else [.flags]
  | .ldFR r => lackReg s r .w8

/-- MDR when the instruction meets the first of them: a store to memory whose datum can be read, and a call,
have put the datum there before they read the register of the address (R214, R334, R371). -/
def mdrLeft (s : State) : Instr → Latch
  | .ldMR w r rm => if rmIsMem rm && !s.regUnwritten r w then ⟨s.view r w, true⟩ else s.mdr
  | .pushR w r => if !s.regUnwritten r w then ⟨s.view r w, true⟩ else s.mdr
  | .callAbs _ => ⟨seqIter s.cfg.pcWrap 3 s.slot.instrAddr, true⟩
  | _ => s.mdr

/-! ### Chains (R217) -/

/-- The steps of an addressing mode (R217). -/
def modeSteps : Rm → Nat
  | .reg _ | .imm _ => 0
  | .ind _ | .pc8 _ | .pc16 _ | .pc24 _ | .abs _ | .absIdx _ _ => 1
  | .postInc _ | .postDec _ | .preInc _ | .preDec _ | .disp _ _ => 2

end Sys2Proof.Machine
end

