-- ==== Sys2Proof/Certificates/Slice0/Obligations.lean ====
section
/-! DEFINITION. The statements for the provers, each from the numbered rules of spec/. -/

open Sys2Proof Sys2Proof.Machine

/-! ### Reset -/

/-- R431, R432: what reset leaves, under every setting of the parameters and with every content of the
backing store, which it keeps. The values that unwritten registers and latches hold are the model's (log 4)
and no part of this statement. -/
def Obligations.ResetState : Prop :=
  ∀ (c : Config) (m : Memory),
    let s := State.resetWith c m
    (∀ i : Reg, s.regs[i].lanes = 0#3) ∧ s.f.written = 0#8 ∧ s.mar.written = false ∧
      s.mdr.written = false ∧ s.fetch.queue = [] ∧ s.fetch.out = none ∧ s.fetch.pf = none ∧
      s.fetch.redir = none ∧ s.dec.words = [] ∧ s.ready = false ∧ s.ex.brResolve = none ∧
      s.dec.dstate = .waitForSlot ∧ s.ex.sstate = .waitNext ∧ s.dec.branchPending = false ∧
      s.dec.awaitRedirect = false ∧ s.ex.exPending = none ∧ s.ex.exWantsMem = false ∧
      s.ctl = .ready ∧ s.status = .running ∧ s.log = [] ∧ s.shadowSelect = 0 ∧
      s.fetch.fetchAddr = c.resetPc ∧ s.mem = m ∧ s.writes = [] ∧ s.cfg = c

/-- The invariant holds at reset. -/
def Obligations.ResetInv : Prop := Machine.Inv State.reset

/-- Every step keeps the invariant, from every state that has it. -/
def Obligations.StepKeepsInv : Prop := ∀ s t : State, Machine.Inv s → step s = .next t → Machine.Inv t

/-! ### The encoding -/

/-- R122 to R127: the words of every well-formed instruction decode to it, whatever follows them, and the
opcode word alone says how many words follow it (R92). -/
def Obligations.RoundTrip : Prop :=
  ∀ (i : Instr) (rest : List Word16), wellFormed i = true →
    decodeWords true (encode i ++ rest) = .ok (i, rest) ∧
      (encode i).length = 1 + encNExt true ((encode i).headD 0)

/-- What the decoder answers is well-formed, its own words decode to it, and as many words are taken as the
encoding has. -/
def Obligations.DecodedWellFormed : Prop :=
  ∀ (admitted : Bool) (ws : List Word16) (i : Instr) (rest : List Word16),
    decodeWords admitted ws = .ok (i, rest) →
      wellFormed i = true ∧ decodeWords admitted (encode i) = .ok (i, []) ∧
        ws.length = (encode i).length + rest.length

/-- R400: the opcode words, with the first extension word, that are Invalid Opcode: exactly the causes the
rule lists. -/
def Obligations.InvalidCauses : Prop :=
  ∀ (admitted : Bool) (w x : Word16) (ws : List Word16), 3 ≤ ws.length →
    ((∃ e, decodeWords admitted (w :: x :: ws) = .error e) ↔
      -- 1: a reserved group
      fld w 13 3 = 0 ∨ fld w 13 3 = 6 ∨ fld w 13 3 = 7 ∨
      -- 2: the width code 11
      (fld w 13 3 = 1 ∧ fld w 8 2 = 3) ∨ (fld w 13 3 = 2 ∧ fld w 9 2 = 3) ∨
      (fld w 13 3 = 4 ∧ fld w 10 3 ≤ 5 ∧ fld w 8 2 = 3) ∨
      -- 3 and 8: a must-be-zero field that is not zero
      (fld w 13 3 = 1 ∧ (fld w 0 1 ≠ 0 ∨ (fld w 1 1 = 1 ∧ fld w 2 3 ≠ 0))) ∨
      (fld w 13 3 = 2 ∧ ((fld w 11 2 = 0 ∧ fld w 0 3 ≠ 0) ∨ (fld w 11 2 = 1 ∧ fld w 0 6 ≠ 0))) ∨
      (fld w 13 3 = 3 ∧ ((fld w 9 4 ∈ [0, 1, 3, 4] ∧ fld w 0 5 ≠ 0) ∨ (fld w 9 4 = 2 ∧ fld w 0 2 ≠ 0))) ∨
      (fld w 13 3 = 4 ∧ ((fld w 10 3 ≤ 1 ∧ fld w 0 5 ≠ 0) ∨
        (2 ≤ fld w 10 3 ∧ fld w 10 3 ≤ 5 ∧ fld w 0 2 ≠ 0) ∨ (6 ≤ fld w 10 3 ∧ fld w 0 7 ≠ 0))) ∨
      (fld w 13 3 = 5 ∧ fld w 3 9 ≠ 0) ∨
      -- 4: a reserved condition code or branch kind, or a condition on CALL or RET
      (fld w 13 3 = 3 ∧ ((fld w 9 4 ≤ 2 ∧ 9 ≤ fld w 5 4) ∨ 5 ≤ fld w 9 4 ∨
        ((fld w 9 4 = 3 ∨ fld w 9 4 = 4) ∧ fld w 5 4 ≠ 0))) ∨
      -- 5: the reserved shift mode
      (fld w 13 3 = 4 ∧ fld w 10 3 = 5 ∧ fld w 2 3 = 7) ∨
      -- 6: a reserved RM pattern
      (fld w 13 3 = 2 ∧ 2 ≤ fld w 11 2 ∧ 62 ≤ fld w 0 6) ∨
      (fld w 13 3 = 4 ∧ 2 ≤ fld w 10 3 ∧ fld w 10 3 ≤ 4 ∧ 62 ≤ fld w 2 6) ∨
      -- 7: an immediate as a destination
      (fld w 13 3 = 2 ∧ fld w 11 2 = 3 ∧ fld w 0 6 = 61) ∨
      (fld w 13 3 = 4 ∧ (fld w 10 3 = 3 ∨ fld w 10 3 = 4) ∧ fld w 2 6 = 61) ∨
      -- 9: a bit number outside the operand
      (fld w 13 3 = 4 ∧ 2 ≤ fld w 10 3 ∧ fld w 10 3 ≤ 4 ∧ 8 * (fld w 8 2 + 1) ≤ fld x 0 5) ∨
      -- 10: group 100 when it is not admitted
      (fld w 13 3 = 4 ∧ admitted = false))

/-- Words of the spec's examples decode to their instructions (R322, R339 to R341, R361, R388). -/
def Obligations.KnownWords : Prop :=
  decodeWords true [0x2004] = .ok (.addR .w8 0 1, []) ∧
  decodeWords true [0x2002, 0x0001] = .ok (.addI .w8 0 1, []) ∧
  decodeWords true [0x294C] = .ok (.subR .w16 2 3, []) ∧
  decodeWords true [0x3E82, 0x0010, 0x0000] = .ok (.cmpI .w24 4 0x10, []) ∧
  decodeWords true [0x5211] = .ok (.ldRM .w16 0 (.postInc 1), []) ∧
  decodeWords true [0x5CAF] = .ok (.ldMR .w24 2 (.preDec 7), []) ∧
  decodeWords true [0x50F5, 0xFFFE] = .ok (.ldRM .w8 3 (.disp 5 0xFFFE), []) ∧
  decodeWords true [0x6040, 0x2345, 0x0001] = .ok (.jpAbs .nz 0x012345, []) ∧
  decodeWords true [0x6200, 0x00FE] = .ok (.jrRel .t 0xFE, []) ∧
  decodeWords true [0x6404] = .ok (.jpReg .t 1, []) ∧
  decodeWords true [0x6600, 0x1000, 0x0000] = .ok (.callAbs 0x001000, []) ∧
  decodeWords true [0x6800] = .ok (.retn, []) ∧
  decodeWords true [0x9430] = .ok (.sarR .w8 1, []) ∧
  decodeWords true [0x8240] = .ok (.pushR .w24 2, []) ∧
  decodeWords true [0x8D28, 0x000F] = .ok (.setM .w16 15 (.ind 2), []) ∧
  decodeWords true [0x9880, 0x0010] = .ok (.inR 1 0x10, []) ∧
  decodeWords true [0xB003] = .ok (.ldFR 3, [])

/-! ### Steps -/

/-- A step runs the decoded instruction, from a state in which Execute waits for it and the controller
completes its accesses (R66): it is what the record does that Decode publishes, which is `exec i` when
ENC_REF reads the words at the program counter as `i` (R174). Until then only the pipeline's own state moves,
and the record has its address and the address after its last word (R91, R153). -/
def Obligations.StepRunsDecoded : Prop :=
  ∀ s : State, Machine.Inv s → s.status = .running → s.waiting = true → s.fair = true → s.fresh = true →
    ∃ s1, step s = runSlot s1 ∧ s1.atBoundary = true ∧ s1.ready = true ∧ s1.frontOk = true ∧
      s1.fresh = true ∧ s1.slot = decodeRecord s.cfg (s.instrWords s.pc) s.pc ∧
      s1.slot.instrAddr = s.pc ∧
      s1.slot.nextAddr = seqIter s.cfg.pcWrap (s.instrWords s.pc).length s.pc ∧
      s1.dec.branchPending = s1.slot.holds ∧ s1.cfg = s.cfg ∧ s1.regs = s.regs ∧ s1.f = s.f ∧
      s1.mar = s.mar ∧ s1.mdr = s.mdr ∧ s1.mem = s.mem ∧ s1.writes = s.writes ∧ s1.log = s.log ∧
      s1.fair = s.fair ∧
      ∀ i rest, s.cfg.enc = .ref → decodeRef s.cfg (s.instrWords s.pc) = .ok (i, rest) →
        step s = exec i s1

/-- A record in the slot is run by the instruction's meaning. -/
def Obligations.StepRunsSlot : Prop :=
  ∀ (s : State) (i : Instr), s.atBoundary = true → s.ready = true → s.slot.cls = .instr i →
    step s = exec i s

/-- R39, R288: a core that is not RUNNING takes no half-step: nothing of it changes but the Memory
Controller (R66), where an access in flight waits for its draw and completes with it, and a completed access
is never collected (R157). That a step of such a core is one tick of the controller is the model's reading
(log 12). -/
def Obligations.StoppedCore : Prop :=
  ∀ s : State, s.status ≠ .running →
    ∃ t, step s = .next t ∧ t.status = s.status ∧ t.regs = s.regs ∧ t.f = s.f ∧ t.mar = s.mar ∧
      t.mdr = s.mdr ∧ t.shadowSelect = s.shadowSelect ∧ t.fetch = s.fetch ∧ t.dec = s.dec ∧
      t.ready = s.ready ∧ t.slot = s.slot ∧ t.ex = s.ex ∧ t.log = s.log ∧ t.cfg = s.cfg ∧
      t.fair = s.fair ∧ t.freeCount = s.freeCount ∧
      ((∀ a n v o, s.ctl ≠ .writeBusy a n v o) → t.mem = s.mem ∧ t.writes = s.writes) ∧
      (s.drawDone = false → t.ctl = s.ctl ∧ t.mem = s.mem ∧ t.writes = s.writes) ∧
      (s.ctl = .ready → t.ctl = s.ctl) ∧
      (∀ d o, s.ctl = .latched d o → t.ctl = s.ctl) ∧
      (∀ a n o, s.ctl = .readBusy a n o → s.drawDone = true → t.ctl = .latched (some (s.load a n)) o) ∧
      ∀ a n v o, s.ctl = .writeBusy a n v o → s.drawDone = true →
        t.ctl = .latched none o ∧ t.mem = s.mem.store s.cfg.endian a n v ∧
          t.writes = s.writes ++ [⟨a, n, v⟩]

/-! ### Invalid Opcode and unwritten values -/

/-- R401, R402: under `halt` the run status becomes HALTED_INVALID with the instruction's address and opcode
word, and nothing of the instruction is executed. -/
def Obligations.InvalidHalts : Prop :=
  ∀ s : State, s.atBoundary = true → s.ready = true → s.slot.isInvalid = true →
    s.cfg.invalidAction = .halt →
      ∃ t, step s = .next t ∧ t.status = .haltedInvalid s.slot.instrAddr (s.slot.words.headD 0) ∧
        t.regs = s.regs ∧ t.f = s.f ∧ t.mar = s.mar ∧ t.mdr = s.mdr ∧ t.mem = s.mem ∧
        t.writes = s.writes ∧ t.log = s.log

/-- R401, R402: under `log_and_skip` one entry is appended to `log`, and the program goes on at the next
instruction. -/
def Obligations.InvalidLogged : Prop :=
  ∀ s : State, s.atBoundary = true → s.ready = true → s.slot.isInvalid = true →
    s.cfg.invalidAction = .logAndSkip →
      ∃ t, step s = .next t ∧ t.inOrder = true ∧
        t.log = s.log ++ [⟨1, s.slot.instrAddr, s.slot.words.headD 0⟩] ∧
        t.regs = s.regs ∧ t.f = s.f ∧ t.mar = s.mar ∧ t.mdr = s.mdr ∧ t.mem = s.mem ∧
        t.writes = s.writes ∧ GoesOn s t

/-- R403: under `trap(vector)` the address of the next instruction is pushed, the stack pointer goes down by
3, and the program goes on at the vector; nothing else is saved. -/
def Obligations.InvalidTraps : Prop :=
  ∀ (s : State) (vector : Addr), s.atBoundary = true → s.ready = true → s.slot.isInvalid = true →
    s.cfg.invalidAction = .trap vector → usableReg s s.cfg.spIndex .w24 = true → s.mem.wf = true →
    s.fair = true →
      let a := s.x24 s.cfg.spIndex - 3
      ∃ t, step s = .next t ∧
        Leaves s t (s.setReg s.cfg.spIndex .w24 a).regs s.f ⟨a, true⟩ ⟨s.slot.nextAddr, true⟩ ∧
        Stored s t a 3 s.slot.nextAddr ∧ GoesTo s t vector

/-- R407, R408: under `unwritten_read = abort` (log 5) an instruction that would consume an unwritten register
or flag aborts, with the first one in the order in which it consumes them: for a word source 0, source 1, C,
D; for the instruction its words in their order. Nothing is committed but the datum of a store or of a call,
which is in MDR before the register of its address is read. -/
def Obligations.UnwrittenAborts : Prop :=
  ∀ (s : State) (i : Instr) (l : UnwrittenLoc) (ls : List UnwrittenLoc), s.atBoundary = true →
    s.cfg.unwrittenRead = .abort → wellFormed i = true → lacks s i = l :: ls →
      ∃ t, exec i s = .next t ∧ t.status = .aborted (.unwrittenRead l) ∧ t.regs = s.regs ∧ t.f = s.f ∧
        t.mar = s.mar ∧ t.mdr = mdrLeft s i ∧ t.mem = s.mem ∧ t.writes = s.writes ∧ t.log = s.log

/-! ### Arithmetic-logic -/

/-- R319: the control-word fields of the group, for both forms of every instruction. -/
def Obligations.AluTable : Prop :=
  ∀ (c : Config) (w : Width) (d r : Reg) (v : Data),
    let row := fun (i : Instr) (op : AluOp) (addc neg : Bool) (vsrc : VSrc) (cinv : Bool) (dest : BusLoc) =>
      (programOf c i).map (fun p =>
        (p.core.op, p.core.addc, p.core.neg, p.core.vsrc, p.core.cinv, p.core.dest)) =
          some (op, addc, neg, vsrc, cinv, dest) ∧
      (programOf c i).map (fun p => (p.core.add1, p.core.fmask, p.core.csrc)) = some (false, .all, .alu)
    row (.addR w d r) .add false false .arith false (.reg d w) ∧
    row (.addI w d v) .add false false .arith false (.reg d w) ∧
    row (.adcR w d r) .add true false .arith false (.reg d w) ∧
    row (.adcI w d v) .add true false .arith false (.reg d w) ∧
    row (.subR w d r) .add false true .arith true (.reg d w) ∧
    row (.subI w d v) .add false true .arith true (.reg d w) ∧
    row (.sbcR w d r) .add true true .arith true (.reg d w) ∧
    row (.sbcI w d v) .add true true .arith true (.reg d w) ∧
    row (.andR w d r) .and false false .parity false (.reg d w) ∧
    row (.andI w d v) .and false false .parity false (.reg d w) ∧
    row (.orR w d r) .or false false .parity false (.reg d w) ∧
    row (.orI w d v) .or false false .parity false (.reg d w) ∧
    row (.xorR w d r) .xor false false .parity false (.reg d w) ∧
    row (.xorI w d v) .xor false false .parity false (.reg d w) ∧
    row (.cmpR w d r) .add false true .arith true .zero ∧
    row (.cmpI w d v) .add false true .arith true .zero

/-- R311: ADD, both forms, with D clear. -/
def Obligations.AddResultAndFlags : Prop :=
  ∀ (s : State) (w : Width) (d : Reg) (i : Instr) (b : Nat),
    SourceTwo s w (.addR w d) (.addI w d) i b → s.atBoundary = true → usableReg s d w = true →
    usableFlag s .d = true → s.f.get s.cfg.flagPos .d = false →
      let a := (s.view d w).toNat
      let r := (a + b) % w.modulus
      Completes s i (s.setReg d w (BitVec.ofNat 24 r)).regs
        (s.f.update s.cfg.flagPos .all
          ⟨r == 0, signBit w r, arithOverflow w a b r, decide (w.modulus ≤ a + b)⟩) s.mar s.mdr

/-- R312: ADC, both forms, with D clear and unreduced transforms. -/
def Obligations.AdcResultAndFlags : Prop :=
  ∀ (s : State) (w : Width) (d : Reg) (i : Instr) (b : Nat),
    SourceTwo s w (.adcR w d) (.adcI w d) i b → s.atBoundary = true → usableReg s d w = true →
    usableFlag s .c = true → usableFlag s .d = true → s.f.get s.cfg.flagPos .d = false →
    s.cfg.xformMask = false →
      let a := (s.view d w).toNat
      let t := b + (s.f.get s.cfg.flagPos .c).toNat
      let r := (a + t) % w.modulus
      Completes s i (s.setReg d w (BitVec.ofNat 24 r)).regs
        (s.f.update s.cfg.flagPos .all
          ⟨r == 0, signBit w r, arithOverflow w a (t % w.modulus) r, decide (w.modulus ≤ a + t)⟩)
        s.mar s.mdr

/-- R313: SUB, both forms, with D clear and unreduced transforms; C is the borrow. -/
def Obligations.SubResultAndFlags : Prop :=
  ∀ (s : State) (w : Width) (d : Reg) (i : Instr) (b : Nat),
    SourceTwo s w (.subR w d) (.subI w d) i b → s.atBoundary = true → usableReg s d w = true →
    usableFlag s .d = true → s.f.get s.cfg.flagPos .d = false → s.cfg.xformMask = false →
      let a := (s.view d w).toNat
      let r := (a + (w.modulus - b)) % w.modulus
      Completes s i (s.setReg d w (BitVec.ofNat 24 r)).regs
        (s.f.update s.cfg.flagPos .all
          ⟨r == 0, signBit w r, arithOverflow w a ((w.modulus - b) % w.modulus) r, decide (a < b)⟩)
        s.mar s.mdr

/-- R314: SBC, both forms, with D clear and unreduced transforms; C enters and leaves as a borrow. -/
def Obligations.SbcResultAndFlags : Prop :=
  ∀ (s : State) (w : Width) (d : Reg) (i : Instr) (b : Nat),
    SourceTwo s w (.sbcR w d) (.sbcI w d) i b → s.atBoundary = true → usableReg s d w = true →
    usableFlag s .c = true → usableFlag s .d = true → s.f.get s.cfg.flagPos .d = false →
    s.cfg.xformMask = false →
      let a := (s.view d w).toNat
      let t := b + (s.f.get s.cfg.flagPos .c).toNat
      let r := (a + (w.modulus - t)) % w.modulus
      Completes s i (s.setReg d w (BitVec.ofNat 24 r)).regs
        (s.f.update s.cfg.flagPos .all
          ⟨r == 0, signBit w r, arithOverflow w a ((w.modulus - t) % w.modulus) r, decide (a < t)⟩)
        s.mar s.mdr

/-- R318: CMP, both forms, with D clear and unreduced transforms: the flags of SUB, no register. -/
def Obligations.CmpFlagsOnly : Prop :=
  ∀ (s : State) (w : Width) (d : Reg) (i : Instr) (b : Nat),
    SourceTwo s w (.cmpR w d) (.cmpI w d) i b → s.atBoundary = true → usableReg s d w = true →
    usableFlag s .d = true → s.f.get s.cfg.flagPos .d = false → s.cfg.xformMask = false →
      let a := (s.view d w).toNat
      let r := (a + (w.modulus - b)) % w.modulus
      Completes s i s.regs
        (s.f.update s.cfg.flagPos .all
          ⟨r == 0, signBit w r, arithOverflow w a ((w.modulus - b) % w.modulus) r, decide (a < b)⟩)
        s.mar s.mdr

/-- R315: AND, both forms. -/
def Obligations.AndResultAndFlags : Prop :=
  ∀ (s : State) (w : Width) (d : Reg) (i : Instr) (b : Nat),
    SourceTwo s w (.andR w d) (.andI w d) i b → s.atBoundary = true → usableReg s d w = true →
      let r := (s.view d w).toNat &&& b
      Completes s i (s.setReg d w (BitVec.ofNat 24 r)).regs
        (s.f.update s.cfg.flagPos .all ⟨r == 0, signBit w r, parityOf s.cfg.parityEven r, false⟩)
        s.mar s.mdr

/-- R316: OR, both forms. -/
def Obligations.OrResultAndFlags : Prop :=
  ∀ (s : State) (w : Width) (d : Reg) (i : Instr) (b : Nat),
    SourceTwo s w (.orR w d) (.orI w d) i b → s.atBoundary = true → usableReg s d w = true →
      let r := (s.view d w).toNat ||| b
      Completes s i (s.setReg d w (BitVec.ofNat 24 r)).regs
        (s.f.update s.cfg.flagPos .all ⟨r == 0, signBit w r, parityOf s.cfg.parityEven r, false⟩)
        s.mar s.mdr

/-- R317: XOR, both forms. -/
def Obligations.XorResultAndFlags : Prop :=
  ∀ (s : State) (w : Width) (d : Reg) (i : Instr) (b : Nat),
    SourceTwo s w (.xorR w d) (.xorI w d) i b → s.atBoundary = true → usableReg s d w = true →
      let r := (s.view d w).toNat ^^^ b
      Completes s i (s.setReg d w (BitVec.ofNat 24 r)).regs
        (s.f.update s.cfg.flagPos .all ⟨r == 0, signBit w r, parityOf s.cfg.parityEven r, false⟩)
        s.mar s.mdr

/-- R320, R256: with D set, under the literal reading, 6 is added to the result when the nibble carry is
set; Z and S are of the adjusted result, V and C of the unadjusted computation. -/
def Obligations.DecimalMode : Prop :=
  ∀ (s : State) (o : SumOp) (w : Width) (d : Reg) (i : Instr) (b : Nat),
    SourceTwo s w (o.regForm w d) (o.immForm w d) i b → s.atBoundary = true → usableReg s d w = true →
    (o.carries = true → usableFlag s .c = true) → usableFlag s .d = true →
    s.f.get s.cfg.flagPos .d = true → s.cfg.bcd = .literal →
      let a := (s.view d w).toNat
      let t := o.addend s.cfg.xformMask w b (s.f.get s.cfg.flagPos .c).toNat
      let x := (a + t) % w.modulus
      let r := if (a ^^^ t ^^^ (a + t)).testBit 4 then (x + 6) % w.modulus else x
      Completes s i (o.regs s w d r)
        (s.f.update s.cfg.flagPos .all
          ⟨r == 0, signBit w r, arithOverflow w a (t % w.modulus) x,
            decide (w.modulus ≤ a + t) ^^ o.subtracts⟩) s.mar s.mdr

/-- R256, D23: with D set, under any other correction, the result and the flags are that correction's, a
function the model leaves free (log 9). -/
def Obligations.DecimalFree : Prop :=
  ∀ (s : State) (o : SumOp) (w : Width) (d : Reg) (i : Instr) (b : Nat) (p : Program),
    SourceTwo s w (o.regForm w d) (o.immForm w d) i b → s.atBoundary = true → usableReg s d w = true →
    (o.carries = true → usableFlag s .c = true) → usableFlag s .d = true →
    s.f.get s.cfg.flagPos .d = true → s.cfg.bcd = .custom → programOf s.cfg i = some p →
      let a := (s.view d w).toNat
      let t := o.addend s.cfg.xformMask w b (s.f.get s.cfg.flagPos .c).toNat
      let out := Config.bcdCustom a t (a + t) (a ^^^ t ^^^ (a + t)) w p.core
      Completes s i (o.regs s w d (out.result.toNat % w.modulus))
        (s.f.update s.cfg.flagPos .all ⟨out.z, out.s, out.v, out.c⟩) s.mar s.mdr

/-- R243 with `xform_mask = true`: the transforms' results are reduced to W bits, with D clear. -/
def Obligations.MaskedTransforms : Prop :=
  ∀ (s : State) (o : SumOp) (w : Width) (d : Reg) (i : Instr) (b : Nat),
    SourceTwo s w (o.regForm w d) (o.immForm w d) i b → s.atBoundary = true → usableReg s d w = true →
    (o.carries = true → usableFlag s .c = true) → usableFlag s .d = true →
    s.f.get s.cfg.flagPos .d = false → s.cfg.xformMask = true →
      let a := (s.view d w).toNat
      let u := if o.carries then (b + (s.f.get s.cfg.flagPos .c).toNat) % w.modulus else b
      let t := if o.subtracts then (w.modulus - u) % w.modulus else u
      let r := (a + t) % w.modulus
      Completes s i (o.regs s w d r)
        (s.f.update s.cfg.flagPos .all
          ⟨r == 0, signBit w r, arithOverflow w a t r, decide (w.modulus ≤ a + t) ^^ o.subtracts⟩)
        s.mar s.mdr

/-- R257: the add identity, for every control word that adds without transforms or shift and every pair of
operands. -/
def Obligations.AddIdentity : Prop :=
  ∀ (c : Config) (cw : ControlWord) (v0 v1 : Data) (f : Flags), cw.op = .add → cw.addc = false →
    cw.neg = false → cw.add1 = false → cw.shift = .none → cw.csrc = .alu → cw.cinv = false →
    (cw.fmask.c && f.get c.flagPos .d) = false →
      let a := v0.toNat % cw.w.modulus
      let b := v1.toNat % cw.w.modulus
      (aluVals c cw v0 v1 f).1 = (a + b) % cw.w.modulus ∧
        (aluVals c cw v0 v1 f).2.c = decide (cw.w.modulus ≤ a + b)

/-- R258: the subtraction identity: negation is `~b + 1` unreduced, the raw carry is 1 exactly when there is
no borrow, `cinv` turns it into the borrow, and CMP writes no destination. -/
def Obligations.SubtractIdentity : Prop :=
  ∀ (c : Config) (cw : ControlWord) (v0 v1 : Data) (f : Flags), cw.op = .add → cw.addc = false →
    cw.neg = true → cw.add1 = false → cw.shift = .none → cw.csrc = .alu → c.xformMask = false →
    (cw.fmask.c && f.get c.flagPos .d) = false →
      let a := v0.toNat % cw.w.modulus
      let b := v1.toNat % cw.w.modulus
      (aluVals c cw v0 v1 f).1 = (a + (cw.w.modulus - 1 - b) + 1) % cw.w.modulus ∧
        (aluVals c cw v0 v1 f).2.c = (decide (b ≤ a) ^^ cw.cinv) ∧
        ∀ (w : Width) (d r : Reg), (programOf c (.cmpR w d r)).map (fun p => p.core.dest) = some .zero

/-- R255: the write mask: each flag of the mask takes its new value and becomes written; every other bit of
F keeps its value and its writtenness. -/
def Obligations.WriteMask : Prop :=
  ∀ (f : Flags) (p : FlagPos) (m : FMask) (n : FlagVals), p.distinct = true →
    let g := f.update p m n
    (m.z = true → g.get p .z = n.z ∧ g.has p .z = true) ∧
    (m.s = true → g.get p .s = n.s ∧ g.has p .s = true) ∧
    (m.v = true → g.get p .v = n.v ∧ g.has p .v = true) ∧
    (m.c = true → g.get p .c = n.c ∧ g.has p .c = true) ∧
    ∀ j : Fin 8, (m.z = true → j ≠ p.z) → (m.s = true → j ≠ p.s) → (m.v = true → j ≠ p.v) →
      (m.c = true → j ≠ p.c) →
        g.bits.getLsbD j.val = f.bits.getLsbD j.val ∧ g.written.getLsbD j.val = f.written.getLsbD j.val

/-! ### Load and move -/

/-- R331: a register's view into a register. -/
def Obligations.MoveRegister : Prop :=
  ∀ (s : State) (w : Width) (d r : Reg), s.atBoundary = true → usableReg s r w = true →
    Completes s (.ldRR w d r) (s.setReg d w (s.view r w)).regs s.f s.mar s.mdr

/-- R332: an immediate into a register. -/
def Obligations.MoveImmediate : Prop :=
  ∀ (s : State) (w : Width) (d : Reg) (v : Data), s.atBoundary = true → immFits w v = true →
    Completes s (.ldRI w d v) (s.setReg d w v).regs s.f s.mar s.mdr

/-- R333: the value of every RM operand into a register, with the mode's register update made before the
destination is written. -/
def Obligations.LoadOperand : Prop :=
  ∀ (s : State) (w : Width) (d : Reg) (rm : Rm), s.atBoundary = true → usableRm s w rm = true →
    (rmIsMem rm = true → s.fair = true) →
    let ia := s.slot.instrAddr
    let v := rmValue s ia w rm
    Completes s (.ldRM w d rm) ((rmStep s w rm).setReg d w v).regs s.f
      (if rmIsMem rm then ⟨rmAddr s ia w rm, true⟩ else s.mar)
      (if rmIsMem rm then ⟨v, true⟩ else s.mdr)

/-- R334: a register's view to every RM destination: a register, or the bytes at the mode's address. The
value is the register's before the mode's update. -/
def Obligations.StoreOperand : Prop :=
  ∀ (s : State) (w : Width) (r : Reg) (rm : Rm), s.atBoundary = true → usableReg s r w = true →
    (∀ b, rm = .reg b → Completes s (.ldMR w r rm) (s.setReg b w (s.view r w)).regs s.f s.mar s.mdr) ∧
    (rmIsMem rm = true → usableRm s w rm = true → s.mem.wf = true → s.fair = true →
      let a := rmAddr s s.slot.instrAddr w rm
      Stores s (.ldMR w r rm) (rmStep s w rm).regs s.f ⟨a, true⟩ ⟨s.view r w, true⟩ a w.bytes
        (s.view r w))

/-- R335: all eight bits of F into the low byte of a register. -/
def Obligations.ReadFlags : Prop :=
  ∀ (s : State) (r : Reg), s.atBoundary = true → usableF s = true →
    Completes s (.ldRF r) (s.setReg r .w8 (s.f.bits.setWidth 24)).regs s.f s.mar s.mdr

/-- R336: the low byte of a register into all of F, every bit of which becomes written. -/
def Obligations.WriteFlags : Prop :=
  ∀ (s : State) (r : Reg), s.atBoundary = true → usableReg s r .w8 = true →
    Completes s (.ldFR r) s.regs ⟨(s.x24 r).setWidth 8, 0xFF#8⟩ s.mar s.mdr

/-! ### Branches -/

/-- R351: `JP cc, a24`: with T by Decode's redirect, with any other condition by Execute's. -/
def Obligations.JumpAbsolute : Prop :=
  ∀ (s : State) (cc : Cond) (a : Addr), s.atBoundary = true → usableCond s cc = true →
    (cc = .t → BranchesStatically s (.jpAbs cc a) a) ∧
    (cc ≠ .t → Branches s (.jpAbs cc a) (condHolds s.cfg.flagPos s.f cc) a)

/-- R352: `JR cc, d8`: the target is the branch's own address plus a signed byte. -/
def Obligations.JumpRelative : Prop :=
  ∀ (s : State) (cc : Cond) (d : Byte), s.atBoundary = true → usableCond s cc = true →
    let a := s.slot.instrAddr + d.signExtend 24
    (cc = .t → BranchesStatically s (.jrRel cc d) a) ∧
    (cc ≠ .t → Branches s (.jrRel cc d) (condHolds s.cfg.flagPos s.f cc) a)

/-- R353: `JP cc, (r)`, always by Execute's redirect. -/
def Obligations.JumpRegister : Prop :=
  ∀ (s : State) (cc : Cond) (r : Reg), s.atBoundary = true → usableReg s r .w24 = true →
    usableCond s cc = true →
    Branches s (.jpReg cc r) (condHolds s.cfg.flagPos s.f cc) (s.x24 r)

/-- R355: `CALL a24`: the address after the instruction is pushed, and the program goes on at the target, to
which Decode has redirected Fetch. -/
def Obligations.CallPushesLink : Prop :=
  ∀ (s : State) (target : Addr), s.atBoundary = true → usableReg s s.cfg.spIndex .w24 = true →
    s.mem.wf = true → s.fair = true →
    let sp := s.x24 s.cfg.spIndex - 3
    let link := seqIter s.cfg.pcWrap 3 s.slot.instrAddr
    ∃ t, exec (.callAbs target) s = .next t ∧
      Leaves s t (s.setReg s.cfg.spIndex .w24 sp).regs s.f ⟨sp, true⟩ ⟨link, true⟩ ∧
      Stored s t sp 3 link ∧ GoesOn s t ∧ (s.delivered (.callAbs target) → t.pc = target)

/-- R356: `RET`: three bytes are popped, and the program goes on at the address they hold. -/
def Obligations.ReturnPopsLink : Prop :=
  ∀ s : State, s.atBoundary = true → usableReg s s.cfg.spIndex .w24 = true → s.fair = true →
    let sp := s.x24 s.cfg.spIndex
    let v := s.load sp 3
    ∃ t, exec .retn s = .next t ∧
      Leaves s t (s.setReg s.cfg.spIndex .w24 (sp + 3)).regs s.f ⟨sp, true⟩ ⟨v, true⟩ ∧
      SameMem s t ∧ GoesTo s t v

/-- R289: the predicates. -/
def Obligations.Predicates : Prop :=
  ∀ (p : FlagPos) (f : Flags),
    condHolds p f .t = true ∧
    (condHolds p f .z = true ↔ f.bits.getLsbD p.z.val = true) ∧
    (condHolds p f .nz = true ↔ f.bits.getLsbD p.z.val = false) ∧
    (condHolds p f .c = true ↔ f.bits.getLsbD p.c.val = true) ∧
    (condHolds p f .nc = true ↔ f.bits.getLsbD p.c.val = false) ∧
    (condHolds p f .s = true ↔ f.bits.getLsbD p.s.val = true) ∧
    (condHolds p f .ns = true ↔ f.bits.getLsbD p.s.val = false) ∧
    (condHolds p f .v = true ↔ f.bits.getLsbD p.v.val = true) ∧
    (condHolds p f .nv = true ↔ f.bits.getLsbD p.v.val = false)

/-! ### Stack, bits, shifts, I/O -/

/-- R371: PUSH: the old value of the register at the new stack pointer. -/
def Obligations.PushStoresOldValue : Prop :=
  ∀ (s : State) (w : Width) (r : Reg), s.atBoundary = true → usableReg s r w = true →
    usableReg s s.cfg.spIndex .w24 = true → s.mem.wf = true → s.fair = true →
    let a := s.x24 s.cfg.spIndex - stepOf w
    Stores s (.pushR w r) (s.setReg s.cfg.spIndex .w24 a).regs s.f ⟨a, true⟩ ⟨s.view r w, true⟩ a
      w.bytes (s.view r w)

/-- R372: POP: the stack pointer goes up first, so a popped stack pointer keeps the popped value. -/
def Obligations.PopTakesStackValue : Prop :=
  ∀ (s : State) (w : Width) (r : Reg), s.atBoundary = true →
    usableReg s s.cfg.spIndex .w24 = true → s.fair = true →
    let a := s.x24 s.cfg.spIndex
    let v := s.load a w.bytes
    Completes s (.popR w r) ((s.setReg s.cfg.spIndex .w24 (a + stepOf w)).setReg r w v).regs s.f
      ⟨a, true⟩ ⟨v, true⟩

/-- R373: BIT: Z is 1 exactly when bit n of the operand is 0; no other flag changes. -/
def Obligations.TestBit : Prop :=
  ∀ (s : State) (w : Width) (n : BitVec 5) (rm : Rm), s.atBoundary = true → bitInside w n = true →
    usableRm s w rm = true → (rmIsMem rm = true → s.fair = true) →
    let ia := s.slot.instrAddr
    let v := rmValue s ia w rm
    Completes s (.bitM w n rm) (rmStep s w rm).regs
      (s.f.put s.cfg.flagPos .z (!v.getLsbD n.toNat))
      (if rmIsMem rm then ⟨rmAddr s ia w rm, true⟩ else s.mar)
      (if rmIsMem rm then ⟨v, true⟩ else s.mdr)

/-- R374: SET: bit n of the operand becomes 1, in a register or in memory, where the operand is written back
at the address it was read from; no flag is written. -/
def Obligations.SetBit : Prop :=
  ∀ (s : State) (w : Width) (n : BitVec 5) (rm : Rm), s.atBoundary = true → bitInside w n = true →
    usableRm s w rm = true →
    let ia := s.slot.instrAddr
    let v := rmValue s ia w rm ||| BitVec.ofNat 24 (2 ^ n.toNat)
    (∀ b, rm = .reg b → Completes s (.setM w n rm) (s.setReg b w v).regs s.f s.mar s.mdr) ∧
    (rmIsMem rm = true → s.mem.wf = true → s.fair = true →
      let a := rmAddr s ia w rm
      Stores s (.setM w n rm) (rmStep s w rm).regs s.f ⟨a, true⟩ ⟨v, true⟩ a w.bytes v)

/-- R375: RES: bit n of the operand becomes 0, as SET. -/
def Obligations.ResetBit : Prop :=
  ∀ (s : State) (w : Width) (n : BitVec 5) (rm : Rm), s.atBoundary = true → bitInside w n = true →
    usableRm s w rm = true →
    let ia := s.slot.instrAddr
    let v := rmValue s ia w rm &&& ~~~BitVec.ofNat 24 (2 ^ n.toNat)
    (∀ b, rm = .reg b → Completes s (.resM w n rm) (s.setReg b w v).regs s.f s.mar s.mdr) ∧
    (rmIsMem rm = true → s.mem.wf = true → s.fair = true →
      let a := rmAddr s ia w rm
      Stores s (.resM w n rm) (rmStep s w rm).regs s.f ⟨a, true⟩ ⟨v, true⟩ a w.bytes v)

/-- R377 to R380: the left shift and rotates: C is the bit shifted out, V is 0. The bit shifted out is from
the shifter table, which the spec marks as general knowledge (log 22). -/
def Obligations.ShiftsLeft : Prop :=
  ∀ (s : State) (w : Width) (r : Reg) (i : Instr) (injected : Nat), s.atBoundary = true →
    usableReg s r w = true →
    let x := (s.view r w).toNat
    let out := x / 2 ^ (w.bits - 1)
    (i = .shlR w r ∧ injected = 0) ∨
      (i = .rlR w r ∧ usableFlag s .c = true ∧ injected = (s.f.get s.cfg.flagPos .c).toNat) ∨
      (i = .rolR w r ∧ injected = out) →
    let y := 2 * x % w.modulus + injected
    Completes s i (s.setReg r w (BitVec.ofNat 24 y)).regs
      (s.f.update s.cfg.flagPos .all ⟨y == 0, signBit w y, false, out == 1⟩) s.mar s.mdr

/-- R377, R381 to R384: the right shifts and rotates: C is the bit shifted out, V is 0. The bit shifted out
and the bit SAR puts in are from the shifter table, which the spec marks as general knowledge (log 22). -/
def Obligations.ShiftsRight : Prop :=
  ∀ (s : State) (w : Width) (r : Reg) (i : Instr) (injected : Nat), s.atBoundary = true →
    usableReg s r w = true →
    let x := (s.view r w).toNat
    (i = .shrR w r ∧ injected = 0) ∨
      (i = .sarR w r ∧ injected = x / 2 ^ (w.bits - 1)) ∨
      (i = .rrR w r ∧ usableFlag s .c = true ∧ injected = (s.f.get s.cfg.flagPos .c).toNat) ∨
      (i = .rorR w r ∧ injected = x % 2) →
    let y := x / 2 + injected * 2 ^ (w.bits - 1)
    Completes s i (s.setReg r w (BitVec.ofNat 24 y)).regs
      (s.f.update s.cfg.flagPos .all ⟨y == 0, signBit w y, false, x % 2 == 1⟩) s.mar s.mdr

/-- R385: IN: the byte at `io_base + n` into the low byte of a register. -/
def Obligations.InputByte : Prop :=
  ∀ (s : State) (r : Reg) (n : Byte), s.atBoundary = true → s.fair = true →
    let a := s.cfg.ioBase + n.setWidth 24
    let v := s.load a 1
    Completes s (.inR r n) (s.setReg r .w8 v).regs s.f ⟨a, true⟩ ⟨v, true⟩

/-- R386: OUT: the low byte of a register at `io_base + n`. -/
def Obligations.OutputByte : Prop :=
  ∀ (s : State) (r : Reg) (n : Byte), s.atBoundary = true → usableReg s r .w8 = true →
    s.mem.wf = true → s.fair = true →
    let a := s.cfg.ioBase + n.setWidth 24
    Stores s (.outR r n) s.regs s.f ⟨a, true⟩ ⟨s.view r .w8, true⟩ a 1 (s.view r .w8)

/-! ### Registers and memory -/

/-- R22: a write of width W replaces the low W bits; the bits above are kept under `merge` and 0 under
`zero_extend`, and no other register changes; `merge` is the default. With the lanes the write marks
written (R25). -/
def Obligations.RegisterWrite : Prop :=
  ∀ (s : State) (i : Reg) (w : Width) (v : Data),
    let t := s.setReg i w v
    t.view i w = w.trunc v ∧
    (s.cfg.narrowWrite = .merge →
      (t.x24 i).toNat / w.modulus = (s.x24 i).toNat / w.modulus ∧
      ∀ k : Fin 3, t.regs[i].lanes.getLsbD k.val = (s.regs[i].lanes.getLsbD k.val || decide (k.val < w.bytes))) ∧
    (s.cfg.narrowWrite = .zeroExtend →
      (t.x24 i).toNat / w.modulus = 0 ∧ ∀ k : Fin 3, t.regs[i].lanes.getLsbD k.val = true) ∧
    t.regUnwritten i w = false ∧ (∀ j, j ≠ i → t.regs[j] = s.regs[j]) ∧
      State.reset.cfg.narrowWrite = .merge

/-- R64: the bytes of an access, at addresses modulo 2^24, in the order of `endian`; a store writes those
bytes and no other, and a load after it gives the value back. -/
def Obligations.MemoryBytes : Prop :=
  ∀ (m : Memory) (a : Addr) (n : Nat) (v : Data), m.wf = true → n ≤ 3 →
    let byte := fun k => (m.read ((a.toNat + k) % 2 ^ 24)).toNat
    (m.load .little a n).toNat = ((List.range n).map fun k => byte k * 2 ^ (8 * k)).sum ∧
    (m.load .big a n).toNat = ((List.range n).map fun k => byte k * 2 ^ (8 * (n - 1 - k))).sum ∧
    ∀ e : Endian,
      (∀ k, k < n → (m.store e a n v).read ((a.toNat + k) % 2 ^ 24) = byteAt e n v k) ∧
      (∀ x, x ∉ accessAddrs a n → (m.store e a n v).read x = m.read x) ∧
      ((m.store e a n v).load e a n).toNat = v.toNat % 256 ^ n

/-- Every store keeps memory's canonical form, and equal contents are equal memories (log 6). -/
def Obligations.MemoryCanonical : Prop :=
  (∀ (m : Memory) (e : Endian) (a : Addr) (n : Nat) (v : Data), m.wf = true → (m.store e a n v).wf = true) ∧
    ∀ m1 m2 : Memory, m1.wf = true → m2.wf = true → (∀ x, m1.read x = m2.read x) → m1 = m2

/-! ### Microcode and pipeline -/

/-- R217: the lengths of the chains that an operand, the push of the program counter and an I/O access
give; every chain ends by itself. -/
def Obligations.ChainLengths : Prop :=
  ∀ (c : Config) (ws : List Word16) (rm : Rm) (w : Width) (k n : Nat),
    (∀ x, resolve rm .read w k = some x →
      chainLen c ws (n + 3) x.before = modeSteps rm ∧ chainLen c ws (n + 3) x.after = 0) ∧
    (∀ x, resolve rm .write w k = some x →
      chainLen c ws (n + 3) x.before = 0 ∧ chainLen c ws (n + 3) x.after = modeSteps rm) ∧
    (∀ x, resolve rm .rmw w k = some x →
      chainLen c ws (n + 3) x.before = modeSteps rm ∧
        chainLen c ws (n + 3) x.after = if rmIsMem rm then 1 else 0) ∧
    (∀ d, chainLen c ws (n + 3) { Desc.none with kind := .pushPc, dir := d, sg := true } = 3) ∧
    ∀ d, chainLen c ws (n + 3) ⟨.io, 0, .w8, d, 1, false⟩ = 1

/-- R178: the branches that Decode redirects for, and where, whatever words ENC_REF reads as them; every
other branch holds the younger records until Execute resolves it (R179). -/
def Obligations.StaticTargets : Prop :=
  ∀ (c : Config) (ws : List Word16) (ia : Addr) (i : Instr), c.enc = .ref →
    decodeRef c ws = .ok (i, []) →
      let r := decodeRecord c ws ia
      (∀ a, i = .jpAbs .t a ∨ i = .callAbs a → r.follow = a ∧ r.holds = false) ∧
      (∀ d, i = .jrRel .t d → r.follow = ia + d.signExtend 24 ∧ r.holds = false) ∧
      (∀ cc a d, cc ≠ .t → i = .jpAbs cc a ∨ i = .jrRel cc d → r.holds = true) ∧
      ∀ cc q, i = .jpReg cc q ∨ i = .retn → r.holds = true

/-- R145: a redirect empties the queue and the output latch, makes the read in flight stale and sets the
fetch address; the read that may be issued in the same half2 is the one at the target (R147). -/
def Obligations.RedirectFlushes : Prop :=
  ∀ (s : State) (r : Redirect), s.status = .running → s.fetch.redir = some r →
    let f := (fetchHalf2 s).fetch
    f.queue = [] ∧ f.out = none ∧ f.redir = none ∧
      ((f.fetchAddr = r.target ∧ f.pf = s.fetch.pf.map fun p => { p with stale := true }) ∨
        (s.fetch.pf = none ∧ f.pf = some ⟨r.target, false⟩ ∧
          f.fetchAddr = seqAddr s.cfg.pcWrap r.target))

/-- R148: Fetch asserts no read while Execute wants the port. -/
def Obligations.FetchBacksOff : Prop :=
  ∀ s : State, s.ex.exWantsMem = true →
    (fetchHalf2 s).ctl = s.ctl ∧ (fetchHalf2 s).fetch.pf.isSome = s.fetch.pf.isSome ∧
      (fetchHalf2 s).status = s.status

/-- R67: an assert is accepted exactly when the controller is READY, and then it is busy with that access for
that stage; else an assert changes nothing, but for the owner of the access in flight it aborts. -/
def Obligations.AssertProtocol : Prop :=
  ∀ (s : State) (o : Owner) (a : Addr) (n : Nat) (v : Data),
    (s.ctl = .ready →
      s.assertRead o a n = ({ s with ctl := .readBusy a n o }, true) ∧
        s.assertWrite o a n v = ({ s with ctl := .writeBusy a n v o }, true)) ∧
    (s.ctl ≠ .ready → s.ctl.owner ≠ some o →
      s.assertRead o a n = (s, false) ∧ s.assertWrite o a n v = (s, false)) ∧
    (s.ctl.owner = some o →
      s.assertRead o a n = (s.violate .ownerReassert, false) ∧
        s.assertWrite o a n v = (s.violate .ownerReassert, false))

/-- R151, R37: Fetch and Decode write no register, no flag, not MAR, not MDR and no memory. -/
def Obligations.FrontEndFrame : Prop :=
  ∀ (s t : State),
    t = fetchHalf1 s ∨ t = fetchHalf2 s ∨ t = decodeHalf1 s ∨ t = decodeHalf2 s →
      t.regs = s.regs ∧ t.f = s.f ∧ t.mar = s.mar ∧ t.mdr = s.mdr ∧ t.mem = s.mem ∧
        t.writes = s.writes ∧ t.log = s.log ∧ t.cfg = s.cfg ∧ t.shadowSelect = s.shadowSelect

/-- R285: while a word's assert is rejected, Execute's cycle changes nothing but `ex_wants_mem`, which is
true, and `estate`. R276, R411: while an access of Execute is not done, and a controller that never completes
it never says so, Execute waits: a step leaves it, the access and all the program sees as they are. -/
def Obligations.StallStable : Prop :=
  (∀ (s : State) (cw : ControlWord), s.status = .running → s.ex.exPending = none → s.ex.cw = some cw →
    s.ex.v0.isSome = true → s.ex.v1.isSome = true → s.ex.fl.isSome = true → s.ex.res.isSome = true →
    s.ex.acc = .toAssert → cw.mem ≠ .none → s.ctl ≠ .ready → s.ctl.owner ≠ some .execute →
    s.cfg.unwrittenRead = .value ∨ assertUnwritten cw s = [] →
      ∃ e, executeHalf2 (executeHalf1 s) = { s with ex := { s.ex with exWantsMem := true, estate := e } }) ∧
  ∀ s : State, Machine.Inv s → s.status = .running → s.ex.exPending.isSome = true →
    (∀ d o, s.ctl ≠ .latched d o) → s.draws = [] → s.fair = false →
      ∃ t, step s = .next t ∧ t.status = .running ∧ t.ex.exPending = s.ex.exPending ∧ t.ctl = s.ctl ∧
        t.ex.cur = s.ex.cur ∧ t.ex.sstate = s.ex.sstate ∧ t.regs = s.regs ∧ t.f = s.f ∧ t.mar = s.mar ∧
        t.mdr = s.mdr ∧ t.mem = s.mem ∧ t.writes = s.writes ∧ t.log = s.log
end

