-- ==== Sys2Proof/Laws/Flags.lean ====
section
/-! SUPPORT. The flag byte: writing one flag, the masked update, and its commit (R29, R255). -/

namespace Sys2Proof.Machine

theorem one_hot (i j : Fin 8) :
    (BitVec.ofNat 8 (2 ^ i.val)).getLsbD j.val = decide (j = i) := by
  revert i j
  decide

theorem putBit_bit (b : BitVec 8) (i j : Fin 8) (v : Bool) :
    (putBit b i v).getLsbD j.val = if j = i then v else b.getLsbD j.val := by
  unfold putBit
  have hj := j.isLt
  cases v
  · simp only [Bool.false_eq_true, if_false, BitVec.getLsbD_and, BitVec.getLsbD_not, one_hot, hj,
      decide_true, Bool.true_and]
    by_cases h : j = i <;> simp [h]
  · simp only [if_true, BitVec.getLsbD_or, one_hot]
    by_cases h : j = i <;> simp [h]

theorem byte_ext {a b : BitVec 8} (h : ∀ j : Fin 8, a.getLsbD j.val = b.getLsbD j.val) : a = b :=
  BitVec.eq_of_getLsbD_eq fun j hj => h ⟨j, hj⟩

theorem flags_ext {f g : Flags} (h1 : ∀ j : Fin 8, f.bits.getLsbD j.val = g.bits.getLsbD j.val)
    (h2 : ∀ j : Fin 8, f.written.getLsbD j.val = g.written.getLsbD j.val) : f = g := by
  have e1 := byte_ext h1
  have e2 := byte_ext h2
  cases f
  cases g
  simp only at e1 e2
  rw [e1, e2]

/-- One bit of F after a conditional write of one flag. -/
theorem putIf_bit (f : Flags) (p : FlagPos) (n : FlagName) (on v : Bool) (j : Fin 8) :
    (f.putIf p n on v).bits.getLsbD j.val =
      if on = true ∧ j = flagIndex p n then v else f.bits.getLsbD j.val := by
  unfold Flags.putIf Flags.put
  cases on
  · simp only [Bool.false_eq_true, if_false, false_and]
  · simp only [if_true, putBit_bit, true_and]

theorem putIf_written (f : Flags) (p : FlagPos) (n : FlagName) (on v : Bool) (j : Fin 8) :
    (f.putIf p n on v).written.getLsbD j.val =
      if on = true ∧ j = flagIndex p n then true else f.written.getLsbD j.val := by
  unfold Flags.putIf Flags.put
  cases on
  · simp only [Bool.false_eq_true, if_false, false_and]
  · simp only [if_true, putBit_bit, true_and]

theorem get_bit (f : Flags) (p : FlagPos) (n : FlagName) :
    f.get p n = f.bits.getLsbD (flagIndex p n).val := rfl

/-- Committing the ALU's flag byte is the masked update itself (R255, R284). -/
theorem commit_update (p : FlagPos) (m : FMask) (v : FlagVals) (f : Flags) :
    commitFlags p m (f.update p m v) f = f.update p m v := by
  apply flags_ext
  · intro j
    simp only [commitFlags, copyFlag, Flags.update, putIf_bit, get_bit, flagIndex]
    obtain ⟨a, b, c, d⟩ := m
    by_cases h1 : j = p.c <;> by_cases h2 : j = p.v <;> by_cases h3 : j = p.s <;>
      by_cases h4 : j = p.z <;> simp_all
  · intro j
    simp only [commitFlags, copyFlag, Flags.update, putIf_written, flagIndex]

end Sys2Proof.Machine
end

