-- ==== Sys2Proof/Laws/Encoding.lean ====
section
/-! SUPPORT. The fields of the encoded words, and how the decoder's parts read them back
(spec/30_encoding.md R115, R121 to R127). -/

namespace Sys2Proof

theorem fld_ofNat (n lo len : Nat) (h : lo + len ≤ 16) :
    fld (BitVec.ofNat 16 n) lo len = n / 2 ^ lo % 2 ^ len := by
  unfold fld
  rw [BitVec.toNat_ofNat]
  obtain ⟨k, hk⟩ : ∃ k, 16 = lo + (len + k) := ⟨16 - lo - len, by omega⟩
  rw [hk, Nat.pow_add 2 lo, Nat.mod_mul_right_div_self, Nat.pow_add 2 len, Nat.mod_mul_right_mod]

theorem regOf_val (r : Reg) : regOf r.val = r := by
  unfold regOf
  exact Fin.ext (Nat.mod_eq_of_lt r.isLt)

theorem widthOf_code (w : Width) : widthOf (widthCode w) = .ok w := by cases w <;> rfl

theorem widthCode_lt (w : Width) : widthCode w < 3 := by cases w <;> decide

theorem condOf_code (cc : Cond) : condOf (condCode cc) = .ok cc := by cases cc <;> rfl

theorem condCode_lt (cc : Cond) : condCode cc < 9 := by cases cc <;> decide

theorem join24_split (v : Data) :
    join24 (BitVec.ofNat 16 v.toNat) (BitVec.ofNat 16 (v.toNat / 65536)) = v := by
  apply BitVec.eq_of_toNat_eq
  have := v.isLt
  simp only [join24, BitVec.toNat_ofNat]
  omega

theorem word24_split (v : Data) (rest : List Word16) : word24 (split24 v ++ rest) = .ok (v, rest) := by
  simp only [split24, List.cons_append, List.nil_append, word24, join24_split]

theorem ofNat16_8 (d : Byte) : BitVec.ofNat 8 (BitVec.ofNat 16 d.toNat).toNat = d := by
  apply BitVec.eq_of_toNat_eq
  have := d.isLt
  simp only [BitVec.toNat_ofNat]
  omega

/-- An immediate reads back (R115). -/
theorem immOf_words {w : Width} {v : Data} (h : immFits w v = true) (rest : List Word16) :
    immOf w (immWords w v ++ rest) = .ok (v, rest) := by
  have hv : v.toNat < w.modulus := by simpa [immFits] using h
  have hlt := v.isLt
  cases w with
  | w8 =>
    have : BitVec.ofNat 24 ((BitVec.ofNat 16 (v.toNat % 256)).toNat % 256) = v := by
      apply BitVec.eq_of_toNat_eq
      simp only [BitVec.toNat_ofNat, Width.modulus] at hv ⊢
      omega
    simp only [immOf, immWords, List.cons_append, List.nil_append, word1, bind, Except.bind, pure,
      Except.pure, this]
  | w16 =>
    have : BitVec.ofNat 24 (BitVec.ofNat 16 v.toNat).toNat = v := by
      apply BitVec.eq_of_toNat_eq
      simp only [BitVec.toNat_ofNat, Width.modulus] at hv ⊢
      omega
    simp only [immOf, immWords, List.cons_append, List.nil_append, word1, bind, Except.bind, pure,
      Except.pure, this]
  | w24 => exact word24_split v rest

/-- An RM specifier reads back (R124). -/
theorem rmOf_words {w : Width} {rm : Rm} (h : rm.fits w = true) (rest : List Word16) :
    rmOf w (rmCode rm) (rmWords w rm ++ rest) = .ok (rm, rest) := by
  have key : ∀ (k : Nat) (b : Reg), (k * 8 + b.val) / 8 = k ∧ (k * 8 + b.val) % 8 = b.val := by
    intro k b
    have := b.isLt
    omega
  cases rm with
  | reg b =>
    obtain ⟨h1, h2⟩ := key 0 b
    simp only [Nat.zero_mul, Nat.zero_add] at h1 h2
    simp only [rmOf, rmCode, h1, h2, regOf_val, rmWords, List.nil_append]
  | ind b => simp only [rmOf, rmCode, (key 1 b).1, (key 1 b).2, regOf_val, rmWords, List.nil_append]
  | postInc b => simp only [rmOf, rmCode, (key 2 b).1, (key 2 b).2, regOf_val, rmWords, List.nil_append]
  | postDec b => simp only [rmOf, rmCode, (key 3 b).1, (key 3 b).2, regOf_val, rmWords, List.nil_append]
  | preInc b => simp only [rmOf, rmCode, (key 4 b).1, (key 4 b).2, regOf_val, rmWords, List.nil_append]
  | preDec b => simp only [rmOf, rmCode, (key 5 b).1, (key 5 b).2, regOf_val, rmWords, List.nil_append]
  | disp b d =>
    simp only [rmOf, rmCode, (key 6 b).1, (key 6 b).2, regOf_val, rmWords, List.cons_append,
      List.nil_append, word1, bind, Except.bind, pure, Except.pure]
  | pc8 d =>
    simp only [rmOf, rmCode, rmSpecial, rmWords, List.cons_append, List.nil_append, word1, bind,
      Except.bind, pure, Except.pure, ofNat16_8]
    rfl
  | pc16 d =>
    simp only [rmOf, rmCode, rmSpecial, rmWords, List.cons_append, List.nil_append, word1, bind,
      Except.bind, pure, Except.pure]
    rfl
  | pc24 d =>
    simp only [rmOf, rmCode, rmSpecial, rmWords, word24_split, bind, Except.bind, pure, Except.pure]
    rfl
  | abs a =>
    simp only [rmOf, rmCode, rmSpecial, rmWords, word24_split, bind, Except.bind, pure, Except.pure]
    rfl
  | absIdx a j =>
    have hj := j.isLt
    have ha := a.isLt
    have h1 : join24 (BitVec.ofNat 16 a.toNat) (BitVec.ofNat 16 (a.toNat / 65536 + j.val * 8192)) = a := by
      apply BitVec.eq_of_toNat_eq
      simp only [join24, BitVec.toNat_ofNat]
      omega
    have h2 : fld (BitVec.ofNat 16 (a.toNat / 65536 + j.val * 8192)) 13 3 = j.val := by
      rw [fld_ofNat _ _ _ (by omega)]
      omega
    simp only [rmOf, rmCode, rmSpecial, rmWords, List.cons_append, List.nil_append, idxOf, h1, h2, regOf_val]
    rfl
  | imm v =>
    simp only [rmOf, rmCode, rmSpecial, rmWords, immOf_words h rest, bind, Except.bind, pure, Except.pure]
    rfl

theorem rmCode_lt (rm : Rm) : rmCode rm < 62 := by
  cases rm <;> simp only [rmCode] <;> omega

theorem rmCode_imm {rm : Rm} (h : rm.isImm = false) : rmCode rm ≠ 61 := by
  cases rm <;> simp only [rmCode] <;> first | omega | cases h

/-- A destination reads back (R124, R213). -/
theorem rmDest_words {w : Width} {rm : Rm} (h : rm.isImm = false) (rest : List Word16) :
    rmDest w (rmCode rm) (rmWords w rm ++ rest) = .ok (rm, rest) := by
  have hf : rm.fits w = true := by
    cases rm <;> first | rfl | cases h
  unfold rmDest
  rw [if_neg (rmCode_imm h), rmOf_words hf]

/-- A bit number reads back (R126). -/
theorem bitNumber_word {w : Width} {n : BitVec 5} (h : bitInside w n = true) :
    bitNumber w (BitVec.ofNat 16 n.toNat) = .ok n := by
  have : BitVec.ofNat 5 (BitVec.ofNat 16 n.toNat).toNat = n := by
    apply BitVec.eq_of_toNat_eq
    have := n.isLt
    simp only [BitVec.toNat_ofNat]
    omega
  simp only [bitNumber, this, h, if_true]

/-- Group 001, register form. -/
theorem decode_aluR (op : Nat) (w : Width) (d s : Reg) (rest : List Word16) (h : op < 8) :
    decodeWords true (encAluR op w d s ++ rest) = .ok (aluRegForm op w d s, rest) := by
  have h1 := widthCode_lt w
  have h2 := d.isLt
  have h3 := s.isLt
  generalize hn : 0x2000 + op * 1024 + widthCode w * 256 + d.val * 32 + s.val * 4 = n
  have f1 : fld (BitVec.ofNat 16 n) 13 3 = 1 := by rw [fld_ofNat _ _ _ (by omega)]; omega
  have f2 : fld (BitVec.ofNat 16 n) 10 3 = op := by rw [fld_ofNat _ _ _ (by omega)]; omega
  have f3 : fld (BitVec.ofNat 16 n) 8 2 = widthCode w := by rw [fld_ofNat _ _ _ (by omega)]; omega
  have f4 : fld (BitVec.ofNat 16 n) 5 3 = d.val := by rw [fld_ofNat _ _ _ (by omega)]; omega
  have f5 : fld (BitVec.ofNat 16 n) 2 3 = s.val := by rw [fld_ofNat _ _ _ (by omega)]; omega
  have f6 : fld (BitVec.ofNat 16 n) 1 1 = 0 := by rw [fld_ofNat _ _ _ (by omega)]; omega
  have f7 : fld (BitVec.ofNat 16 n) 0 1 = 0 := by rw [fld_ofNat _ _ _ (by omega)]; omega
  simp [encAluR, hn, decodeWords, f1, decodeAlu, f2, f3, f4, f5, f6, f7, widthOf_code, regOf_val,
    bind, Except.bind, pure, Except.pure]

/-- Group 001, immediate form. -/
theorem decode_aluI (op : Nat) (w : Width) (d : Reg) (v : Data) (rest : List Word16) (h : op < 8)
    (hv : immFits w v = true) :
    decodeWords true (encAluI op w d v ++ rest) = .ok (aluImmForm op w d v, rest) := by
  have h1 := widthCode_lt w
  have h2 := d.isLt
  generalize hn : 0x2000 + op * 1024 + widthCode w * 256 + d.val * 32 + 2 = n
  have f1 : fld (BitVec.ofNat 16 n) 13 3 = 1 := by rw [fld_ofNat _ _ _ (by omega)]; omega
  have f2 : fld (BitVec.ofNat 16 n) 10 3 = op := by rw [fld_ofNat _ _ _ (by omega)]; omega
  have f3 : fld (BitVec.ofNat 16 n) 8 2 = widthCode w := by rw [fld_ofNat _ _ _ (by omega)]; omega
  have f4 : fld (BitVec.ofNat 16 n) 5 3 = d.val := by rw [fld_ofNat _ _ _ (by omega)]; omega
  have f5 : fld (BitVec.ofNat 16 n) 2 3 = 0 := by rw [fld_ofNat _ _ _ (by omega)]; omega
  have f6 : fld (BitVec.ofNat 16 n) 1 1 = 1 := by rw [fld_ofNat _ _ _ (by omega)]; omega
  have f7 : fld (BitVec.ofNat 16 n) 0 1 = 0 := by rw [fld_ofNat _ _ _ (by omega)]; omega
  simp [encAluI, hn, decodeWords, f1, decodeAlu, f2, f3, f4, f5, f6, f7, widthOf_code, regOf_val,
    bind, Except.bind, pure, Except.pure, immOf_words hv]

/-- Group 010: the fields of its opcode word. -/
theorem load_fields (sub : Nat) (w : Width) (r : Reg) (low : Nat) (h : sub < 4) (hl : low < 64) :
    fld (encLoad sub w r low) 13 3 = 2 ∧ fld (encLoad sub w r low) 11 2 = sub ∧
      fld (encLoad sub w r low) 9 2 = widthCode w ∧ fld (encLoad sub w r low) 6 3 = r.val ∧
      fld (encLoad sub w r low) 0 6 = low ∧ fld (encLoad sub w r low) 3 3 = low / 8 ∧
      fld (encLoad sub w r low) 0 3 = low % 8 := by
  have h1 := widthCode_lt w
  have h2 := r.isLt
  unfold encLoad
  refine ⟨?_, ?_, ?_, ?_, ?_, ?_, ?_⟩ <;> rw [fld_ofNat _ _ _ (by omega)] <;> omega

/-- Group 011: the fields of its opcode word. -/
theorem branch_fields (kind : Nat) (cc : Cond) (low : Nat) (h : kind < 16) (hl : low < 32) :
    fld (encBranch kind cc low) 13 3 = 3 ∧ fld (encBranch kind cc low) 9 4 = kind ∧
      fld (encBranch kind cc low) 5 4 = condCode cc ∧ fld (encBranch kind cc low) 0 5 = low ∧
      fld (encBranch kind cc low) 2 3 = low / 4 ∧ fld (encBranch kind cc low) 0 2 = low % 4 := by
  have h1 := condCode_lt cc
  unfold encBranch
  refine ⟨?_, ?_, ?_, ?_, ?_, ?_⟩ <;> rw [fld_ofNat _ _ _ (by omega)] <;> omega

/-- Group 100: the fields of its opcode word. -/
theorem other_fields (sub : Nat) (w : Width) (r : Reg) (low : Nat) (h : sub < 8) (hl : low < 32) :
    fld (encOther sub w r low) 13 3 = 4 ∧ fld (encOther sub w r low) 10 3 = sub ∧
      fld (encOther sub w r low) 8 2 = widthCode w ∧ fld (encOther sub w r low) 5 3 = r.val ∧
      fld (encOther sub w r low) 0 5 = low ∧ fld (encOther sub w r low) 2 3 = low / 4 ∧
      fld (encOther sub w r low) 0 2 = low % 4 := by
  have h1 := widthCode_lt w
  have h2 := r.isLt
  unfold encOther
  refine ⟨?_, ?_, ?_, ?_, ?_, ?_, ?_⟩ <;> rw [fld_ofNat _ _ _ (by omega)] <;> omega

/-- PUSH and POP. -/
theorem decode_stack (sub : Nat) (w : Width) (r : Reg) (rest : List Word16) (h : sub < 2) :
    decodeWords true ([encOther sub w r 0] ++ rest) =
      .ok (if sub = 0 then .pushR w r else .popR w r, rest) := by
  obtain ⟨f1, f2, f3, f4, f5, f6, f7⟩ := other_fields sub w r 0 (by omega) (by omega)
  have : sub = 0 ∨ sub = 1 := by omega
  rcases this with rfl | rfl <;>
    simp [decodeWords, f1, decodeOther, f2, f3, f4, f5, widthOf_code, regOf_val, bind, Except.bind, pure,
      Except.pure]

/-- The shifts and rotates. -/
theorem decode_shift (mode : Nat) (w : Width) (r : Reg) (i : Instr) (rest : List Word16) (h : mode < 7)
    (hi : shiftForm mode w r = .ok i) :
    decodeWords true ([encOther 5 w r (mode * 4)] ++ rest) = .ok (i, rest) := by
  obtain ⟨f1, f2, f3, f4, f5, f6, f7⟩ := other_fields 5 w r (mode * 4) (by omega) (by omega)
  have h1 : mode * 4 % 4 = 0 := by omega
  have h2 : mode * 4 / 4 = mode := by omega
  rw [h1] at f7
  rw [h2] at f6
  simp [decodeWords, f1, decodeOther, f2, f3, f4, f6, f7, widthOf_code, regOf_val, bind, Except.bind, pure,
    Except.pure, hi]

/-- BIT, SET and RES: the fields of the opcode word. -/
theorem bit_fields (sub : Nat) (w : Width) (rm : Rm) (h : sub < 8) :
    let x := BitVec.ofNat 16 (0x8000 + sub * 1024 + widthCode w * 256 + rmCode rm * 4)
    fld x 13 3 = 4 ∧ fld x 10 3 = sub ∧ fld x 8 2 = widthCode w ∧ fld x 2 6 = rmCode rm ∧ fld x 0 2 = 0 := by
  have h1 := widthCode_lt w
  have h2 := rmCode_lt rm
  refine ⟨?_, ?_, ?_, ?_, ?_⟩ <;> rw [fld_ofNat _ _ _ (by omega)] <;> omega

/-- IN and OUT: the fields of the opcode word. -/
theorem io_fields (sub : Nat) (r : Reg) (h : sub < 8) :
    let x := BitVec.ofNat 16 (0x8000 + sub * 1024 + r.val * 128)
    fld x 13 3 = 4 ∧ fld x 10 3 = sub ∧ fld x 7 3 = r.val ∧ fld x 0 7 = 0 := by
  have h2 := r.isLt
  refine ⟨?_, ?_, ?_, ?_⟩ <;> rw [fld_ofNat _ _ _ (by omega)] <;> omega

end Sys2Proof
end

