-- ==== Sys2Proof/Laws/Alu.lean ====
section
/-! SUPPORT. The widths, and the ALU on the words of the microcode and on the moves. -/

namespace Sys2Proof

theorem Width.modulus_dvd (w : Width) : w.modulus ∣ 2 ^ 24 := by cases w <;> decide

theorem Width.modulus_pos (w : Width) : 0 < w.modulus := by cases w <;> decide

theorem Width.modulus_le (w : Width) : w.modulus ≤ 2 ^ 24 := by cases w <;> decide

theorem Width.modulus_eq (w : Width) : w.modulus = 2 ^ w.bits := by cases w <;> rfl

theorem Width.modulus_bytes (w : Width) : w.modulus = 256 ^ w.bytes := by cases w <;> rfl

@[simp] theorem Width.trunc_toNat (w : Width) (v : Data) : (w.trunc v).toNat = v.toNat % w.modulus := by
  unfold Width.trunc
  rw [BitVec.toNat_ofNat]
  exact Nat.mod_eq_of_lt (lt_of_lt_of_le (Nat.mod_lt _ w.modulus_pos) w.modulus_le)

theorem Width.trunc_trunc (w : Width) (v : Data) : w.trunc (w.trunc v) = w.trunc v := by
  apply BitVec.eq_of_toNat_eq
  simp

@[simp] theorem Width.trunc_w24 (v : Data) : Width.w24.trunc v = v := by
  apply BitVec.eq_of_toNat_eq
  rw [Width.trunc_toNat]
  exact Nat.mod_eq_of_lt v.isLt

end Sys2Proof

namespace Sys2Proof.Machine

theorem update_empty (f : Flags) (p : FlagPos) (n : FlagVals) : f.update p .empty n = f := rfl

/-- A pass-through word that writes no flag (R246, R255). -/
theorem alu_pass {c : Config} {cw : ControlWord} (v0 v1 : Data) (f : Flags) (h1 : cw.op = .pass)
    (h2 : cw.addc = false) (h3 : cw.neg = false) (h4 : cw.add1 = false) (h5 : cw.shift = .none)
    (h6 : cw.fmask = .empty) : alu c cw v0 v1 f = ⟨cw.w.trunc v1, f⟩ := by
  have hr : (aluVals c cw v0 v1 f).1 = v1.toNat % cw.w.modulus := by
    simp [aluVals, decimalWord, h1, aluRaw, secondOperand, transform, h2, h3, h4, h5, aluCore]
  simp only [alu, h6, update_empty, hr]
  rfl

/-- The 24-bit sum of two sources, with no flag written: the address arithmetic of R206 to R212. -/
theorem alu_add24 {c : Config} {cw : ControlWord} (v0 v1 : Data) (f : Flags) (h0 : cw.w = .w24)
    (h1 : cw.op = .add) (h2 : cw.addc = false) (h3 : cw.neg = false) (h4 : cw.add1 = false)
    (h5 : cw.shift = .none) (h6 : cw.fmask = .empty) : alu c cw v0 v1 f = ⟨v0 + v1, f⟩ := by
  have hr : (aluVals c cw v0 v1 f).1 = (v0.toNat + v1.toNat) % 16777216 := by
    have := v0.isLt
    have := v1.isLt
    simp [aluVals, decimalWord, h6, FMask.empty, h1, aluRaw, secondOperand, transform, h2, h3, h4, h5, aluCore, h0,
      Width.modulus]
  simp only [alu, h6, update_empty, hr]
  congr 1
  apply BitVec.eq_of_toNat_eq
  simp [BitVec.toNat_add]

/-- The 24-bit difference of two sources, with no flag written. -/
theorem alu_sub24 {c : Config} {cw : ControlWord} (v0 v1 : Data) (f : Flags) (h0 : cw.w = .w24)
    (h1 : cw.op = .add) (h2 : cw.addc = false) (h3 : cw.neg = true) (h4 : cw.add1 = false)
    (h5 : cw.shift = .none) (h6 : cw.fmask = .empty) : alu c cw v0 v1 f = ⟨v0 - v1, f⟩ := by
  have hb := v1.isLt
  have hr : (aluVals c cw v0 v1 f).1 = (v0.toNat + (16777216 - v1.toNat)) % 16777216 := by
    have e1 : v0.toNat % 16777216 = v0.toNat := Nat.mod_eq_of_lt v0.isLt
    have e2 : v1.toNat % 16777216 = v1.toNat := Nat.mod_eq_of_lt v1.isLt
    simp only [aluVals, decimalWord, h6, FMask.empty, h1, aluRaw, secondOperand, transform, h2, h3, h4, h5, aluCore,
      h0, Width.modulus, maskStep, e1, e2]
    cases c.xformMask <;> simp
  simp only [alu, h6, update_empty, hr]
  congr 1
  apply BitVec.eq_of_toNat_eq
  simp only [BitVec.toNat_sub, BitVec.toNat_ofNat]
  omega

end Sys2Proof.Machine
end

