-- ==== Sys2Proof/Laws/Memory.lean ====
section
/-! SUPPORT. The laws of the backing store: what a read gives after a write, that every operation keeps the
canonical form, and what a store leaves (spec/20_memory.md R64, R69). -/

namespace Sys2Proof.Machine

/-! ### One byte -/

theorem wfFrom_le {lo lo' : Nat} {m : Memory} (h : lo' ≤ lo) (hw : Memory.wfFrom lo m = true) :
    Memory.wfFrom lo' m = true := by
  cases m with
  | nil => rfl
  | cons c m =>
    obtain ⟨a, v⟩ := c
    simp only [Memory.wfFrom, Bool.and_eq_true, decide_eq_true_eq] at hw ⊢
    exact ⟨⟨⟨by omega, hw.1.1.2⟩, hw.1.2⟩, hw.2⟩

/-- Below its lowest entry a canonical memory is unlisted. -/
theorem read_below {lo a : Nat} {m : Memory} (hw : Memory.wfFrom lo m = true) (h : a < lo) :
    Memory.read m a = unlistedByte := by
  induction m generalizing lo with
  | nil => rfl
  | cons c m ih =>
    obtain ⟨b, v⟩ := c
    simp only [Memory.wfFrom, Bool.and_eq_true, decide_eq_true_eq] at hw
    simp only [Memory.read]
    rw [if_neg (by omega)]
    exact ih hw.2 (by omega)

/-- A write keeps the canonical form. -/
theorem wfFrom_write {lo : Nat} {m : Memory} {a : Nat} (v : Byte) (ha : a < 2 ^ 24) (hlo : lo ≤ a)
    (hw : Memory.wfFrom lo m = true) : Memory.wfFrom lo (Memory.write m a v) = true := by
  induction m generalizing lo with
  | nil =>
    simp only [Memory.write]
    split
    · rfl
    · simp only [Memory.wfFrom, Bool.and_eq_true, decide_eq_true_eq, and_true]
      exact ⟨⟨hlo, ha⟩, by assumption⟩
  | cons c m ih =>
    obtain ⟨b, u⟩ := c
    have hw' := hw
    simp only [Memory.wfFrom, Bool.and_eq_true, decide_eq_true_eq] at hw'
    obtain ⟨⟨⟨h1, h2⟩, h3⟩, h4⟩ := hw'
    simp only [Memory.write]
    split
    · split
      · exact hw
      · simp only [Memory.wfFrom, Bool.and_eq_true, decide_eq_true_eq]
        exact ⟨⟨⟨hlo, ha⟩, by assumption⟩, ⟨⟨by omega, h2⟩, h3⟩, h4⟩
    · split
      · split
        · exact wfFrom_le (by omega) h4
        · simp only [Memory.wfFrom, Bool.and_eq_true, decide_eq_true_eq]
          exact ⟨⟨⟨hlo, ha⟩, by assumption⟩, by subst_vars; exact h4⟩
      · simp only [Memory.wfFrom, Bool.and_eq_true, decide_eq_true_eq]
        exact ⟨⟨⟨h1, h2⟩, h3⟩, ih (by omega) h4⟩

theorem wf_write {m : Memory} {a : Nat} (v : Byte) (ha : a < 2 ^ 24) (hw : m.wf = true) :
    (m.write a v).wf = true := wfFrom_write v ha (Nat.zero_le a) hw

theorem read_writeFrom {lo : Nat} {m : Memory} (a : Nat) (v : Byte) (x : Nat)
    (hw : Memory.wfFrom lo m = true) :
    Memory.read (Memory.write m a v) x = if x = a then v else Memory.read m x := by
  induction m generalizing lo with
  | nil =>
    simp only [Memory.write]
    split
    · simp only [Memory.read]
      split <;> simp_all
    · rfl
  | cons c m ih =>
    obtain ⟨b, u⟩ := c
    have hw' := hw
    simp only [Memory.wfFrom, Bool.and_eq_true, decide_eq_true_eq] at hw'
    obtain ⟨⟨⟨h1, h2⟩, h3⟩, h4⟩ := hw'
    simp only [Memory.write]
    split
    · rename_i hab
      split
      · rename_i hv
        split
        · rename_i hx
          subst hx
          simp only [Memory.read]
          rw [if_neg (by omega), read_below h4 (by omega), hv]
        · rfl
      · rfl
    · rename_i hab
      split
      · rename_i hab'
        subst hab'
        split
        · rename_i hv
          split
          · rename_i hx
            subst hx
            rw [read_below h4 (by omega), hv]
          · rename_i hx
            simp only [Memory.read]
            rw [if_neg hx]
        · simp only [Memory.read]
          split <;> rfl
      · rename_i hne
        simp only [Memory.read]
        split
        · rename_i hx
          rw [if_neg (by omega)]
        · exact ih h4

/-- A read after a write (R69). -/
theorem read_write {m : Memory} (hw : m.wf = true) (a : Nat) (v : Byte) (x : Nat) :
    (m.write a v).read x = if x = a then v else m.read x := read_writeFrom a v x hw

/-! ### Accesses of several bytes -/

theorem accessAddrs_lt {a : Addr} {n x : Nat} (h : x ∈ accessAddrs a n) : x < 2 ^ 24 := by
  simp only [accessAddrs, List.mem_map] at h
  obtain ⟨k, -, rfl⟩ := h
  exact Nat.mod_lt _ (by norm_num)

theorem wf_writeAll {l : List (Nat × Byte)} : ∀ {m : Memory}, m.wf = true →
    (∀ p ∈ l, p.1 < 2 ^ 24) → (m.writeAll l).wf = true := by
  induction l with
  | nil => intro m h _; exact h
  | cons p l ih =>
    intro m h hp
    exact ih (wf_write _ (hp p (by simp)) h) fun q hq => hp q (by simp [hq])

/-- A store keeps the canonical form. -/
theorem wf_store {m : Memory} (e : Endian) (a : Addr) (n : Nat) (v : Data) (h : m.wf = true) :
    (m.store e a n v).wf = true :=
  wf_writeAll h fun _ hp => accessAddrs_lt (List.of_mem_zip hp).1

/-- A write of several bytes leaves every other byte alone. -/
theorem read_writeAll_other {l : List (Nat × Byte)} {x : Nat} : ∀ {m : Memory}, m.wf = true →
    (∀ p ∈ l, p.1 < 2 ^ 24) → (∀ p ∈ l, p.1 ≠ x) → (m.writeAll l).read x = m.read x := by
  induction l with
  | nil => intro m _ _ _; rfl
  | cons p l ih =>
    intro m h hp hx
    have h1 := hp p (by simp)
    have h2 := hx p (by simp)
    rw [Memory.writeAll, ih (wf_write _ h1 h) (fun q hq => hp q (by simp [hq]))
      (fun q hq => hx q (by simp [hq])), read_write h, if_neg (fun h => h2 h.symm)]

theorem leBytes_length (n v : Nat) : (leBytes n v).length = n := by
  induction n generalizing v with
  | zero => rfl
  | succ n ih => simp [leBytes, ih]

theorem orderBytes_length (e : Endian) (l : List Byte) : (orderBytes e l).length = l.length := by
  cases e <;> simp [orderBytes]

theorem leBytes_get (n v k : Nat) (h : k < (leBytes n v).length) :
    (leBytes n v)[k] = BitVec.ofNat 8 (v / 256 ^ k) := by
  induction n generalizing v k with
  | zero => exact absurd h (by simp [leBytes])
  | succ n ih =>
    cases k with
    | zero => simp [leBytes]
    | succ k =>
      simp only [leBytes, List.getElem_cons_succ]
      rw [ih, Nat.div_div_eq_div_mul, Nat.pow_succ, Nat.mul_comm]

theorem orderBytes_get (e : Endian) (n : Nat) (v : Data) (k : Nat)
    (h : k < (orderBytes e (leBytes n v.toNat)).length) :
    (orderBytes e (leBytes n v.toNat))[k] = byteAt e n v k := by
  cases e with
  | little => exact leBytes_get n v.toNat k _
  | big =>
    simp only [orderBytes, byteAt, List.getElem_reverse, leBytes_length]
    exact leBytes_get n v.toNat _ _

/-- The addresses of an access of at most 3 bytes are distinct. -/
theorem accessAddr_inj {a : Addr} {j k : Nat} (hj : j < 3) (hk : k < 3)
    (h : (a.toNat + j) % 2 ^ 24 = (a.toNat + k) % 2 ^ 24) : j = k := by
  omega

theorem mem_accessAddrs {a : Addr} {n k : Nat} (hk : k < n) :
    (a.toNat + k) % 2 ^ 24 ∈ accessAddrs a n := by
  simp only [accessAddrs, List.mem_map, List.mem_range]
  exact ⟨k, hk, rfl⟩

/-- Pairs at distinct addresses are all read back. -/
theorem read_writeAll_nodup {l : List (Nat × Byte)} {p : Nat × Byte} : ∀ {m : Memory}, m.wf = true →
    (∀ q ∈ l, q.1 < 2 ^ 24) → (l.map Prod.fst).Nodup → p ∈ l → (m.writeAll l).read p.1 = p.2 := by
  induction l with
  | nil => intro m _ _ _ h; cases h
  | cons q l ih =>
    intro m h hq hn hp
    rw [List.map_cons, List.nodup_cons] at hn
    have hw := wf_write q.2 (hq q (by simp)) h
    rw [Memory.writeAll]
    rcases List.mem_cons.1 hp with rfl | hp
    · rw [read_writeAll_other hw (fun r hr => hq r (by simp [hr])), read_write h, if_pos rfl]
      intro r hr he
      exact hn.1 (he ▸ List.mem_map_of_mem hr)
    · exact ih hw (fun r hr => hq r (by simp [hr])) hn.2 hp

theorem accessAddrs_nodup (a : Addr) {n : Nat} (hn : n ≤ 3) : (accessAddrs a n).Nodup := by
  unfold accessAddrs
  refine List.Nodup.map_on ?_ List.nodup_range
  intro j hj k hk h
  rw [List.mem_range] at hj hk
  exact accessAddr_inj (by omega) (by omega) h

/-- What a store of at most 3 bytes leaves (R64). -/
theorem store_reads {m : Memory} (h : m.wf = true) (e : Endian) (a : Addr) {n : Nat} (hn : n ≤ 3)
    (v : Data) :
    (∀ k, k < n → (m.store e a n v).read ((a.toNat + k) % 2 ^ 24) = byteAt e n v k) ∧
      ∀ x, x ∉ accessAddrs a n → (m.store e a n v).read x = m.read x := by
  have hb : ∀ q ∈ (accessAddrs a n).zip (orderBytes e (leBytes n v.toNat)), q.1 < 2 ^ 24 :=
    fun q hq => accessAddrs_lt (List.of_mem_zip hq).1
  have hl : (accessAddrs a n).length = n := by simp [accessAddrs]
  have hl2 : (orderBytes e (leBytes n v.toNat)).length = n := by rw [orderBytes_length, leBytes_length]
  refine ⟨fun k hk => ?_, fun x hx => ?_⟩
  · have hp : ((a.toNat + k) % 2 ^ 24, byteAt e n v k) ∈
        (accessAddrs a n).zip (orderBytes e (leBytes n v.toNat)) := by
      rw [List.mem_iff_getElem]
      refine ⟨k, by rw [List.length_zip, hl, hl2]; omega, ?_⟩
      rw [List.getElem_zip, orderBytes_get e n v k]
      simp [accessAddrs]
    refine read_writeAll_nodup h hb ?_ hp
    rw [List.map_fst_zip (by rw [hl, hl2])]
    exact accessAddrs_nodup a hn
  · refine read_writeAll_other h hb fun p hp he => hx ?_
    exact he ▸ (List.of_mem_zip hp).1

/-- A load gives the value of the bytes it reads (R64, R65). -/
theorem load_congr {m m' : Memory} (h : ∀ x, m'.read x = m.read x) (e : Endian) (a : Addr) (n : Nat) :
    m'.load e a n = m.load e a n := by
  unfold Memory.load
  have : m'.read = m.read := funext h
  rw [this]

/-- `storeWords` keeps the canonical form. -/
theorem wf_storeWords (c : Config) (ws : List Word16) : ∀ (a : Addr) (m : Memory), m.wf = true →
    (storeWords c ws a m).wf = true := by
  induction ws with
  | nil => intro a m h; exact h
  | cons w ws ih => intro a m h; exact ih _ _ (wf_store _ _ _ _ h)

/-- The controller's tick keeps the canonical form (R66). -/
theorem wf_tick {s : State} (h : s.mem.wf = true) : (tick s).mem.wf = true := by
  unfold tick
  split
  · split
    · exact h
    · exact h
  · split
    · exact wf_store _ _ _ _ h
    · exact h
  · exact h

theorem wf_reset (c : Config) {m : Memory} (h : m.wf = true) : (State.resetWith c m).mem.wf = true := h

/-! ### The value of a load -/

theorem leValue_lt (l : List Byte) : leValue l < 256 ^ l.length := by
  induction l with
  | nil => simp [leValue]
  | cons b l ih =>
    have := b.isLt
    simp only [leValue, List.length_cons, Nat.pow_succ]
    omega

/-- The value of a load, exactly (R64, R65). -/
theorem loadBytes_toNat (read : Nat → Byte) (e : Endian) (a : Addr) {n : Nat} (hn : n ≤ 3) :
    (loadBytes read e a n).toNat = leValue (orderBytes e ((accessAddrs a n).map read)) := by
  unfold loadBytes
  rw [BitVec.toNat_ofNat]
  refine Nat.mod_eq_of_lt (lt_of_lt_of_le (leValue_lt _) ?_)
  have : (orderBytes e ((accessAddrs a n).map read)).length = n := by
    rw [orderBytes_length]
    simp [accessAddrs]
  rw [this]
  calc 256 ^ n ≤ 256 ^ 3 := Nat.pow_le_pow_right (by decide) hn
    _ = 2 ^ 24 := by decide

/-- A load of a width has no bits above it. -/
theorem State.load_trunc (s : State) (a : Addr) (w : Width) :
    w.trunc (s.load a w.bytes) = s.load a w.bytes := by
  apply BitVec.eq_of_toNat_eq
  rw [Width.trunc_toNat]
  refine Nat.mod_eq_of_lt ?_
  have hb : w.bytes ≤ 3 := by cases w <;> decide
  have hl : (orderBytes s.cfg.endian ((accessAddrs a w.bytes).map s.readByte)).length = w.bytes := by
    rw [orderBytes_length]
    simp [accessAddrs]
  have h := leValue_lt (orderBytes s.cfg.endian ((accessAddrs a w.bytes).map s.readByte))
  rw [hl] at h
  unfold State.load
  rw [loadBytes_toNat _ _ _ hb]
  have : w.modulus = 256 ^ w.bytes := by cases w <;> rfl
  rw [this]
  exact h

end Sys2Proof.Machine
end

