-- ==== Sys2Proof/Laws/State.lean ====
section
/-! SUPPORT. The small lemmas of the state's updates: what each leaves in each field. -/

namespace Sys2Proof.Machine

/-! ### A write of a register (R22) -/

@[simp] theorem State.setReg_cfg (s : State) (i : Reg) (w : Width) (v : Data) :
    (s.setReg i w v).cfg = s.cfg := rfl

@[simp] theorem State.setReg_regs (s : State) (i : Reg) (w : Width) (v : Data) :
    (s.setReg i w v).regs = s.regs.set i (s.regs[i].put s.cfg.narrowWrite w v) := rfl

@[simp] theorem State.setReg_f (s : State) (i : Reg) (w : Width) (v : Data) :
    (s.setReg i w v).f = s.f := rfl

@[simp] theorem State.setReg_shadowSelect (s : State) (i : Reg) (w : Width) (v : Data) :
    (s.setReg i w v).shadowSelect = s.shadowSelect := rfl

@[simp] theorem State.setReg_fetch (s : State) (i : Reg) (w : Width) (v : Data) :
    (s.setReg i w v).fetch = s.fetch := rfl

@[simp] theorem State.setReg_dec (s : State) (i : Reg) (w : Width) (v : Data) :
    (s.setReg i w v).dec = s.dec := rfl

@[simp] theorem State.setReg_ready (s : State) (i : Reg) (w : Width) (v : Data) :
    (s.setReg i w v).ready = s.ready := rfl

@[simp] theorem State.setReg_slot (s : State) (i : Reg) (w : Width) (v : Data) :
    (s.setReg i w v).slot = s.slot := rfl

@[simp] theorem State.setReg_ex (s : State) (i : Reg) (w : Width) (v : Data) :
    (s.setReg i w v).ex = s.ex := rfl

@[simp] theorem State.setReg_mar (s : State) (i : Reg) (w : Width) (v : Data) :
    (s.setReg i w v).mar = s.mar := rfl

@[simp] theorem State.setReg_mdr (s : State) (i : Reg) (w : Width) (v : Data) :
    (s.setReg i w v).mdr = s.mdr := rfl

@[simp] theorem State.setReg_ctl (s : State) (i : Reg) (w : Width) (v : Data) :
    (s.setReg i w v).ctl = s.ctl := rfl

@[simp] theorem State.setReg_draws (s : State) (i : Reg) (w : Width) (v : Data) :
    (s.setReg i w v).draws = s.draws := rfl

@[simp] theorem State.setReg_mem (s : State) (i : Reg) (w : Width) (v : Data) :
    (s.setReg i w v).mem = s.mem := rfl

@[simp] theorem State.setReg_status (s : State) (i : Reg) (w : Width) (v : Data) :
    (s.setReg i w v).status = s.status := rfl

@[simp] theorem State.setReg_log (s : State) (i : Reg) (w : Width) (v : Data) :
    (s.setReg i w v).log = s.log := rfl

@[simp] theorem State.setReg_fair (s : State) (i : Reg) (w : Width) (v : Data) :
    (s.setReg i w v).fair = s.fair := rfl

@[simp] theorem State.setReg_writes (s : State) (i : Reg) (w : Width) (v : Data) :
    (s.setReg i w v).writes = s.writes := rfl

@[simp] theorem State.setReg_freeCount (s : State) (i : Reg) (w : Width) (v : Data) :
    (s.setReg i w v).freeCount = s.freeCount := rfl

/-- What an address answers depends on the parameters, the backing store and the history of writes (R69). -/
theorem State.readByte_congr {s t : State} (h1 : t.cfg = s.cfg) (h2 : t.mem = s.mem)
    (h3 : t.writes = s.writes) : t.readByte = s.readByte := by
  funext a
  unfold State.readByte
  rw [h1, h2, h3]

/-- The same of a read of several bytes (R64, R69). -/
theorem State.load_congr {s t : State} (h1 : t.cfg = s.cfg) (h2 : t.mem = s.mem)
    (h3 : t.writes = s.writes) : t.load = s.load := by
  funext a n
  unfold State.load
  rw [h1, State.readByte_congr h1 h2 h3]

@[simp] theorem State.setReg_load (s : State) (i : Reg) (w : Width) (v : Data) (a : Addr) (n : Nat) :
    (s.setReg i w v).load a n = s.load a n := rfl

/-! ### An abort (R406) -/

@[simp] theorem State.abort_cfg (s : State) (a : Abort) : (s.abort a).cfg = s.cfg := rfl

@[simp] theorem State.abort_regs (s : State) (a : Abort) : (s.abort a).regs = s.regs := rfl

@[simp] theorem State.abort_f (s : State) (a : Abort) : (s.abort a).f = s.f := rfl

@[simp] theorem State.abort_shadowSelect (s : State) (a : Abort) :
    (s.abort a).shadowSelect = s.shadowSelect := rfl

@[simp] theorem State.abort_fetch (s : State) (a : Abort) : (s.abort a).fetch = s.fetch := rfl

@[simp] theorem State.abort_dec (s : State) (a : Abort) : (s.abort a).dec = s.dec := rfl

@[simp] theorem State.abort_ready (s : State) (a : Abort) : (s.abort a).ready = s.ready := rfl

@[simp] theorem State.abort_slot (s : State) (a : Abort) : (s.abort a).slot = s.slot := rfl

@[simp] theorem State.abort_ex (s : State) (a : Abort) : (s.abort a).ex = s.ex := rfl

@[simp] theorem State.abort_mar (s : State) (a : Abort) : (s.abort a).mar = s.mar := rfl

@[simp] theorem State.abort_mdr (s : State) (a : Abort) : (s.abort a).mdr = s.mdr := rfl

@[simp] theorem State.abort_ctl (s : State) (a : Abort) : (s.abort a).ctl = s.ctl := rfl

@[simp] theorem State.abort_draws (s : State) (a : Abort) : (s.abort a).draws = s.draws := rfl

@[simp] theorem State.abort_mem (s : State) (a : Abort) : (s.abort a).mem = s.mem := rfl

@[simp] theorem State.abort_status (s : State) (a : Abort) : (s.abort a).status = .aborted a := rfl

@[simp] theorem State.abort_log (s : State) (a : Abort) : (s.abort a).log = s.log := rfl

@[simp] theorem State.abort_fair (s : State) (a : Abort) :
    (s.abort a).fair = s.fair := rfl

@[simp] theorem State.abort_writes (s : State) (a : Abort) :
    (s.abort a).writes = s.writes := rfl

@[simp] theorem State.abort_freeCount (s : State) (a : Abort) :
    (s.abort a).freeCount = s.freeCount := rfl

/-! ### A consistency violation (R406) -/

@[simp] theorem State.violate_cfg (s : State) (k : Violation) : (s.violate k).cfg = s.cfg := rfl

@[simp] theorem State.violate_regs (s : State) (k : Violation) : (s.violate k).regs = s.regs := rfl

@[simp] theorem State.violate_f (s : State) (k : Violation) : (s.violate k).f = s.f := rfl

@[simp] theorem State.violate_shadowSelect (s : State) (k : Violation) : (s.violate k).shadowSelect = s.shadowSelect := rfl

@[simp] theorem State.violate_fetch (s : State) (k : Violation) : (s.violate k).fetch = s.fetch := rfl

@[simp] theorem State.violate_dec (s : State) (k : Violation) : (s.violate k).dec = s.dec := rfl

@[simp] theorem State.violate_ready (s : State) (k : Violation) : (s.violate k).ready = s.ready := rfl

@[simp] theorem State.violate_slot (s : State) (k : Violation) : (s.violate k).slot = s.slot := rfl

@[simp] theorem State.violate_ex (s : State) (k : Violation) : (s.violate k).ex = s.ex := rfl

@[simp] theorem State.violate_mar (s : State) (k : Violation) : (s.violate k).mar = s.mar := rfl

@[simp] theorem State.violate_mdr (s : State) (k : Violation) : (s.violate k).mdr = s.mdr := rfl

@[simp] theorem State.violate_ctl (s : State) (k : Violation) : (s.violate k).ctl = s.ctl := rfl

@[simp] theorem State.violate_draws (s : State) (k : Violation) : (s.violate k).draws = s.draws := rfl

@[simp] theorem State.violate_fair (s : State) (k : Violation) : (s.violate k).fair = s.fair := rfl

@[simp] theorem State.violate_mem (s : State) (k : Violation) : (s.violate k).mem = s.mem := rfl

@[simp] theorem State.violate_writes (s : State) (k : Violation) : (s.violate k).writes = s.writes := rfl

@[simp] theorem State.violate_status (s : State) (k : Violation) :
    (s.violate k).status = .aborted (.violation k (Config.violationValue s.freeCount)) := rfl

@[simp] theorem State.violate_log (s : State) (k : Violation) : (s.violate k).log = s.log := rfl

@[simp] theorem State.violate_freeCount (s : State) (k : Violation) :
    (s.violate k).freeCount = s.freeCount + 1 := rfl

/-! ### The passage through FINAL (R273) -/

@[simp] theorem State.retire_cfg (s : State) : (s.retire).cfg = s.cfg := rfl

@[simp] theorem State.retire_regs (s : State) : (s.retire).regs = s.regs := rfl

@[simp] theorem State.retire_f (s : State) : (s.retire).f = s.f := rfl

@[simp] theorem State.retire_shadowSelect (s : State) : (s.retire).shadowSelect = s.shadowSelect := rfl

@[simp] theorem State.retire_fetch (s : State) : (s.retire).fetch = s.fetch := rfl

@[simp] theorem State.retire_dec (s : State) : (s.retire).dec = s.dec := rfl

@[simp] theorem State.retire_ready (s : State) : (s.retire).ready = s.ready := rfl

@[simp] theorem State.retire_slot (s : State) : (s.retire).slot = s.slot := rfl

@[simp] theorem State.retire_ex (s : State) :
    (s.retire).ex = { s.ex with cur := none, sstate := .waitNext } := rfl

@[simp] theorem State.retire_mar (s : State) : (s.retire).mar = s.mar := rfl

@[simp] theorem State.retire_mdr (s : State) : (s.retire).mdr = s.mdr := rfl

@[simp] theorem State.retire_ctl (s : State) : (s.retire).ctl = s.ctl := rfl

@[simp] theorem State.retire_draws (s : State) : (s.retire).draws = s.draws := rfl

@[simp] theorem State.retire_mem (s : State) : (s.retire).mem = s.mem := rfl

@[simp] theorem State.retire_status (s : State) : (s.retire).status = s.status := rfl

@[simp] theorem State.retire_log (s : State) : (s.retire).log = s.log := rfl

@[simp] theorem State.retire_fair (s : State) :
    (s.retire).fair = s.fair := rfl

@[simp] theorem State.retire_writes (s : State) :
    (s.retire).writes = s.writes := rfl

@[simp] theorem State.retire_freeCount (s : State) :
    (s.retire).freeCount = s.freeCount := rfl

/-! ### An empty front end -/

@[simp] theorem State.flushTo_cfg (s : State) (a : Addr) : (s.flushTo a).cfg = s.cfg := rfl

@[simp] theorem State.flushTo_regs (s : State) (a : Addr) : (s.flushTo a).regs = s.regs := rfl

@[simp] theorem State.flushTo_f (s : State) (a : Addr) : (s.flushTo a).f = s.f := rfl

@[simp] theorem State.flushTo_shadowSelect (s : State) (a : Addr) :
    (s.flushTo a).shadowSelect = s.shadowSelect := rfl

@[simp] theorem State.flushTo_fetch (s : State) (a : Addr) :
    (s.flushTo a).fetch =
      { fetchAddr := a, queue := [], out := none, redir := none
        pf := s.fetch.pf.map fun p => { p with stale := true } } := rfl

@[simp] theorem State.flushTo_dec (s : State) (a : Addr) : (s.flushTo a).dec = .reset := rfl

@[simp] theorem State.flushTo_ready (s : State) (a : Addr) : (s.flushTo a).ready = false := rfl

@[simp] theorem State.flushTo_slot (s : State) (a : Addr) : (s.flushTo a).slot = s.slot := rfl

@[simp] theorem State.flushTo_ex (s : State) (a : Addr) : (s.flushTo a).ex = s.ex := rfl

@[simp] theorem State.flushTo_mar (s : State) (a : Addr) : (s.flushTo a).mar = s.mar := rfl

@[simp] theorem State.flushTo_mdr (s : State) (a : Addr) : (s.flushTo a).mdr = s.mdr := rfl

@[simp] theorem State.flushTo_ctl (s : State) (a : Addr) : (s.flushTo a).ctl = s.ctl := rfl

@[simp] theorem State.flushTo_draws (s : State) (a : Addr) : (s.flushTo a).draws = s.draws := rfl

@[simp] theorem State.flushTo_mem (s : State) (a : Addr) : (s.flushTo a).mem = s.mem := rfl

@[simp] theorem State.flushTo_status (s : State) (a : Addr) : (s.flushTo a).status = s.status := rfl

@[simp] theorem State.flushTo_log (s : State) (a : Addr) : (s.flushTo a).log = s.log := rfl

@[simp] theorem State.flushTo_fair (s : State) (a : Addr) :
    (s.flushTo a).fair = s.fair := rfl

@[simp] theorem State.flushTo_writes (s : State) (a : Addr) :
    (s.flushTo a).writes = s.writes := rfl

@[simp] theorem State.flushTo_freeCount (s : State) (a : Addr) :
    (s.flushTo a).freeCount = s.freeCount := rfl

/-! ### An instruction where step fetches its next one -/

@[simp] theorem State.withFetchWord_cfg (s : State) (n w : Nat) :
    (s.withFetchWord n w).cfg = s.cfg := rfl

@[simp] theorem State.withFetchWord_regs (s : State) (n w : Nat) :
    (s.withFetchWord n w).regs = s.regs := rfl

@[simp] theorem State.withFetchWord_f (s : State) (n w : Nat) : (s.withFetchWord n w).f = s.f := rfl

@[simp] theorem State.withFetchWord_shadowSelect (s : State) (n w : Nat) :
    (s.withFetchWord n w).shadowSelect = s.shadowSelect := rfl

@[simp] theorem State.withFetchWord_fetch (s : State) (n w : Nat) :
    (s.withFetchWord n w).fetch = (s.flushTo s.pc).fetch := rfl

@[simp] theorem State.withFetchWord_dec (s : State) (n w : Nat) :
    (s.withFetchWord n w).dec = .reset := rfl

@[simp] theorem State.withFetchWord_ready (s : State) (n w : Nat) :
    (s.withFetchWord n w).ready = false := rfl

@[simp] theorem State.withFetchWord_slot (s : State) (n w : Nat) :
    (s.withFetchWord n w).slot = s.slot := rfl

@[simp] theorem State.withFetchWord_ex (s : State) (n w : Nat) : (s.withFetchWord n w).ex = s.ex := rfl

@[simp] theorem State.withFetchWord_mar (s : State) (n w : Nat) :
    (s.withFetchWord n w).mar = s.mar := rfl

@[simp] theorem State.withFetchWord_mdr (s : State) (n w : Nat) :
    (s.withFetchWord n w).mdr = s.mdr := rfl

@[simp] theorem State.withFetchWord_ctl (s : State) (n w : Nat) :
    (s.withFetchWord n w).ctl = s.ctl := rfl

@[simp] theorem State.withFetchWord_draws (s : State) (n w : Nat) :
    (s.withFetchWord n w).draws = s.draws := rfl

@[simp] theorem State.withFetchWord_mem (s : State) (n w : Nat) :
    (s.withFetchWord n w).mem = storeWords s.cfg ((tableWords n w).take longestInstr) s.pc s.mem := rfl

@[simp] theorem State.withFetchWord_status (s : State) (n w : Nat) :
    (s.withFetchWord n w).status = s.status := rfl

@[simp] theorem State.withFetchWord_log (s : State) (n w : Nat) :
    (s.withFetchWord n w).log = s.log := rfl

@[simp] theorem State.withFetchWord_fair (s : State) (n w : Nat) :
    (s.withFetchWord n w).fair = s.fair := rfl

@[simp] theorem State.withFetchWord_writes (s : State) (n w : Nat) :
    (s.withFetchWord n w).writes = s.writes := rfl

@[simp] theorem State.withFetchWord_freeCount (s : State) (n w : Nat) :
    (s.withFetchWord n w).freeCount = s.freeCount := rfl

/-! ### The registers -/

/-- The register written holds the new value (R22, R25). -/
@[simp] theorem State.setReg_same (s : State) (i : Reg) (w : Width) (v : Data) :
    (s.setReg i w v).regs[i] = s.regs[i].put s.cfg.narrowWrite w v := by
  simp [State.setReg]

/-- The other registers keep theirs. -/
theorem State.setReg_other (s : State) {i j : Reg} (w : Width) (v : Data) (h : i ≠ j) :
    (s.setReg i w v).regs[j] = s.regs[j] := by
  have : i.val ≠ j.val := fun hc => h (Fin.ext hc)
  simp [State.setReg, this]

/-- A 24-bit write replaces the register, under both settings (R22). -/
theorem GReg.put_w24 (n : NarrowWrite) (r : GReg) (v : Data) : r.put n .w24 v = ⟨v, 0b111#3⟩ := by
  have hv := v.isLt
  have hr := r.val.isLt
  have h : r.val.toNat / Width.w24.modulus = 0 := Nat.div_eq_of_lt hr
  have h2 : v.toNat % Width.w24.modulus = v.toNat := Nat.mod_eq_of_lt hv
  cases n with
  | merge =>
    have hl : ∀ l : BitVec 3, l ||| laneMask .w24 = 0b111#3 := by decide
    simp only [GReg.put, h, h2, Nat.zero_mul, Nat.zero_add, BitVec.ofNat_toNat, BitVec.setWidth_eq, hl]
  | zeroExtend =>
    simp only [GReg.put, Width.trunc, h2, BitVec.ofNat_toNat, BitVec.setWidth_eq]

/-- A register just written whole reads back (R22, R25). -/
theorem State.x24_setReg (s : State) (i : Reg) (v : Data) : (s.setReg i .w24 v).x24 i = v := by
  simp [State.x24, GReg.put_w24]

/-! ### The run status -/

theorem State.consume_cons (s : State) (l : UnwrittenLoc) (ls : List UnwrittenLoc) :
    s.consume (l :: ls) = if s.cfg.unwrittenRead = .abort then s.abort (.unwrittenRead l) else s := by
  unfold State.consume
  cases s.cfg.unwrittenRead <;> rfl

theorem State.consume_nil (s : State) : s.consume [] = s := by
  unfold State.consume
  cases s.cfg.unwrittenRead <;> rfl

end Sys2Proof.Machine
end

