-- ==== Sys2Proof/Laws/Front.lean ====
section
/-! SUPPORT. What the Fetch half-steps, the Decode half-steps and the controller's tick can do: each of
them leaves the state as it was but for the fields named here. -/

namespace Sys2Proof.Machine

/-- A core that is RUNNING, as the stages test it. -/
theorem running_of {s : State} (h : s.status = .running) : s.running = true := by
  simp [State.running, h]

/-- Fetch half2 changes Fetch and the controller only: it keeps the controller, or it takes the READY
controller for a prefetch, which it never does while Execute wants the port. -/
theorem fetchHalf2_cases (s : State) (h : s.status = .running)
    (ho : s.ctl.owner = some .fetch → s.fetch.pf.isSome = true) :
    ∃ F C, fetchHalf2 s = { s with fetch := F, ctl := C } ∧ F.redir = none ∧
      ((C = s.ctl ∧ F.pf.isSome = s.fetch.pf.isSome) ∨
        (s.ex.exWantsMem = false ∧ s.ctl = .ready ∧ F.pf.isSome = true
          ∧ ∃ a, C = .readBusy a 2 .fetch)) := by
  have hr := running_of h
  obtain ⟨F0, hF0, hre, hpf⟩ : ∃ F0, fetchRedirect s = { s with fetch := F0 } ∧
      F0.redir = none ∧ F0.pf.isSome = s.fetch.pf.isSome := by
    unfold fetchRedirect
    split
    · rename_i hn
      exact ⟨s.fetch, rfl, hn, rfl⟩
    · exact ⟨_, rfl, rfl, by simp⟩
  simp only [fetchHalf2, hr, if_true, hF0]
  unfold fetchIssue
  split
  · rename_i hc
    simp only [Bool.and_eq_true, Option.isNone_iff_eq_none, Bool.not_eq_true'] at hc
    obtain ⟨⟨h1, h2⟩, -⟩ := hc
    simp only [State.assertRead, State.assertBusy]
    cases hctl : s.ctl with
    | ready => exact ⟨_, _, rfl, hre, .inr ⟨h2, by simp, rfl, _, rfl⟩⟩
    | _ =>
      rw [hctl] at ho
      simp only
      split
      · rename_i hown
        have := ho hown
        simp [h1] at hpf
        simp [hpf] at this
      · exact ⟨F0, _, by simp [← hctl], hre, .inl ⟨rfl, hpf⟩⟩
  · exact ⟨F0, s.ctl, rfl, hre, .inl ⟨rfl, hpf⟩⟩

/-- What a Decode operation can do to a state: Fetch's prefetch in flight stays, a full slot means Decode
waits, and behind an unresolved branch nothing is published. -/
def DecodeOnly (s t : State) : Prop :=
  ∃ F D R S, t = { s with fetch := F, dec := D, ready := R, slot := S } ∧
    F.pf = s.fetch.pf ∧ (F.redir = s.fetch.redir ∨ ∃ a, F.redir = some ⟨a, .decode⟩) ∧
    (R = true → D.dstate = .waitForSlot) ∧
    (s.dec.branchPending = true →
      R = s.ready ∧ D.branchPending = true ∧ F.redir = s.fetch.redir)

/-- `DecodeOnly` holds of a state and itself when the handoff is in order. -/
theorem DecodeOnly.same {s : State} (hh : s.ready = true → s.dec.dstate = .waitForSlot) :
    DecodeOnly s s := 
  ⟨s.fetch, s.dec, s.ready, s.slot, rfl, rfl, .inl rfl, hh, fun h => ⟨rfl, h, rfl⟩⟩

/-- `DecodeOnly` looks at Fetch only through the prefetch in flight and the redirect. -/
theorem DecodeOnly.of_eq {s s' t : State} (F : FetchState) (D : DecodeState)
    (he : s' = { s with fetch := F, dec := D }) (hpf : F.pf = s.fetch.pf)
    (hre : F.redir = s.fetch.redir) (hb : D.branchPending = s.dec.branchPending)
    (h : DecodeOnly s' t) : DecodeOnly s t := by
  subst he
  obtain ⟨F', D', R, S, rfl, h1, h0, h2, h3⟩ := h
  exact ⟨F', D', R, S, rfl, h1.trans hpf, h0.imp_left (·.trans hre), h2, fun hbp => by
    obtain ⟨a, b, c⟩ := h3 (hb.trans hbp)
    exact ⟨a, b, c.trans hre⟩⟩

/-- Publishing fills the slot and leaves Decode waiting (R174). -/
theorem publish_cases (r : Record) (s : State) (hr : s.ready = false)
    (hb : s.dec.branchPending = false) : DecodeOnly s (publish r s) := by
  unfold publish
  simp only [hr, Bool.false_eq_true, if_false]
  refine ⟨_, _, _, _, rfl, ?_, ?_, fun _ => rfl, fun h => by simp [hb] at h⟩
  · split <;> rfl
  · split
    · exact .inr ⟨_, rfl⟩
    · exact .inl rfl

/-- DISPATCH publishes, or holds the record behind an unresolved branch (R174, R179). -/
theorem decDispatch_cases (s : State) (hr : s.ready = false) : DecodeOnly s (decDispatch s) := by
  unfold decDispatch
  split
  · rename_i hb
    exact ⟨_, _, _, _, rfl, rfl, .inl rfl, fun h => by simp [hr] at h, fun _ => ⟨rfl, hb, rfl⟩⟩
  · rename_i hb
    exact publish_cases _ s hr (by simpa using hb)

/-- READ_OPERANDS takes at most one word (R174). -/
theorem decOperands_cases (s : State) (hr : s.ready = false) : DecodeOnly s (decOperands s) := by
  unfold decOperands
  split
  · exact ⟨_, _, _, _, rfl, rfl, .inl rfl, fun h => by simp [hr] at h, fun h => ⟨rfl, h, rfl⟩⟩
  · rename_i w hw
    refine DecodeOnly.of_eq _ _ rfl rfl rfl rfl (s' := { s with
      fetch := { s.fetch with out := none }
      dec := { s.dec with
        dstate := .readOperands, words := s.dec.words ++ [w.word], need := s.dec.need - 1 } }) ?_
    dsimp only
    split
    · exact DecodeOnly.same fun h => by simp [hr] at h
    · exact decDispatch_cases _ hr

/-- READ_OPCODE takes at most one word (R174). -/
theorem decOpcode_cases (s : State) (hr : s.ready = false) : DecodeOnly s (decOpcode s) := by
  unfold decOpcode
  split
  · exact ⟨_, _, _, _, rfl, rfl, .inl rfl, fun h => by simp [hr] at h, fun h => ⟨rfl, h, rfl⟩⟩
  · rename_i w hw
    refine DecodeOnly.of_eq _ _ rfl rfl rfl rfl (s' := { s with
      fetch := { s.fetch with out := none }
      dec := { s.dec with
        iaddr := w.addr, words := [w.word], need := s.cfg.nExt w.word } }) ?_
    dsimp only
    split
    · exact ⟨_, _, _, _, rfl, rfl, .inl rfl, fun h => by simp [hr] at h, fun h => ⟨rfl, h, rfl⟩⟩
    · exact decDispatch_cases _ hr

/-- Decode's loop (R174). -/
theorem decRun_cases (s : State) (hh : s.ready = true → s.dec.dstate = .waitForSlot) :
    DecodeOnly s (decRun s) := by
  unfold decRun
  cases hr : s.ready with
  | true =>
    rw [hh hr]
    simp only [if_true]
    exact DecodeOnly.same hh
  | false =>
    split
    · simp only [Bool.false_eq_true, if_false]
      exact decOpcode_cases s hr
    · exact decOpcode_cases s hr
    · exact decOperands_cases s hr
    · exact decDispatch_cases s hr

/-- Decode half2 changes Fetch, Decode and the handoff only; it leaves the prefetch in flight alone, and
it publishes only into an empty slot and never behind an unresolved branch (R174, R176, R179). -/
theorem decodeHalf2_cases (s : State) (h : s.status = .running)
    (hh : s.ready = true → s.dec.dstate = .waitForSlot) : DecodeOnly s (decodeHalf2 s) := by
  unfold decodeHalf2
  rw [running_of h, if_pos rfl]
  split
  · exact DecodeOnly.same hh
  · exact DecodeOnly.of_eq s.fetch _ rfl rfl rfl rfl (decRun_cases _ hh)

/-- The controller's tick changes the controller, the draws and, when a write completes, memory and the
history of writes (R66, R69). -/
theorem tick_cases (s : State) :
    tick s = { s with
      ctl := (tick s).ctl, draws := (tick s).draws, mem := (tick s).mem, writes := (tick s).writes } := by
  unfold tick
  split
  · split <;> rfl
  · split <;> rfl
  · rfl

/-- Fetch half1 changes Fetch and the controller only: it collects a completed prefetch (R142). -/
theorem fetchHalf1_cases (s : State) (h : s.status = .running) :
    ∃ F, F.redir = s.fetch.redir ∧
      ((s.ctl.dataReady .fetch = true ∧ s.fetch.pf.isSome = true ∧ F.pf = none ∧
          fetchHalf1 s = { s with fetch := F, ctl := .ready }) ∨
        ((s.ctl.dataReady .fetch = false ∨ s.fetch.pf = none) ∧ F.pf = s.fetch.pf ∧
          fetchHalf1 s = { s with fetch := F })) := by
  have hshift : ∀ u : State, ∃ F, F.redir = u.fetch.redir ∧ F.pf = u.fetch.pf ∧
      fetchShift u = { u with fetch := F } := by
    intro u
    unfold fetchShift
    split
    · refine ⟨_, ?_, ?_, rfl⟩ <;> rfl
    · exact ⟨u.fetch, rfl, rfl, rfl⟩
  simp only [fetchHalf1, running_of h, if_true]
  unfold fetchCollect
  split
  · rename_i hpf
    obtain ⟨F, h1, h2, h3⟩ := hshift s
    exact ⟨F, h1, .inr ⟨.inr hpf, h2, h3⟩⟩
  · rename_i p hpf
    split
    · rename_i hd
      dsimp only
      obtain ⟨F, h1, h2, h3⟩ := hshift { s with
        ctl := .ready
        fetch := { s.fetch with
          queue := if p.stale then s.fetch.queue
            else s.fetch.queue ++ [⟨p.addr, BitVec.ofNat 16 s.ctl.latchedData.toNat⟩]
          pf := none } }
      exact ⟨F, h1, .inl ⟨hd, by simp [hpf], h2, h3⟩⟩
    · rename_i hd
      obtain ⟨F, h1, h2, h3⟩ := hshift s
      exact ⟨F, h1, .inr ⟨.inl (by simpa using hd), h2, h3⟩⟩

/-- Decode half1 changes Decode only, and clears the branch-resolution signal (R175). -/
theorem decodeHalf1_cases (s : State) (h : s.status = .running)
    (hh : s.ready = true → s.dec.dstate = .waitForSlot) :
    ∃ D, decodeHalf1 s = { s with dec := D, ex := { s.ex with brResolve := none } } ∧
      (s.ready = true → D.dstate = .waitForSlot) ∧
      (s.ex.brResolve = none → D = s.dec) := by
  simp only [decodeHalf1, running_of h, if_true]
  split
  · rename_i hn
    refine ⟨s.dec, ?_, hh, fun _ => rfl⟩
    have : { s.ex with brResolve := none } = s.ex := by rw [← hn]
    rw [this]
  · rename_i a ha
    exact ⟨_, rfl, fun _ => rfl, fun hc => by simp [ha] at hc⟩
  · rename_i ha
    exact ⟨_, rfl, hh, fun hc => by simp [ha] at hc⟩

end Sys2Proof.Machine
end

