-- ==== Sys2Proof/Laws/Programs.lean ====
section
/-! SUPPORT. Every program the decoder can publish is in order: its descriptors have generators and its
control words are well-formed (spec/42_microcode.md R201, R202, R217; spec/30_encoding.md R107). -/

namespace Sys2Proof.Machine

/-- `Desc.ok`, part by part. -/
structure DescOk (d : Desc) : Prop where
  kind : d.kind ≠ .none
  slot : d.kind.usesSlot = true → d.slot = 1 ∨ d.slot = 2 ∨ d.slot = 3

theorem descOk_iff {d : Desc} : d.ok = true ↔ DescOk d := by
  have h3 : (1 ≤ d.slot ∧ d.slot ≤ 3) ↔ (d.slot = 1 ∨ d.slot = 2 ∨ d.slot = 3) := by omega
  simp only [Desc.ok, Bool.and_eq_true, Bool.or_eq_true, Bool.not_eq_true', decide_eq_true_eq, bne_iff_ne, h3]
  constructor
  · rintro ⟨h1, h2⟩
    exact ⟨h1, fun h => h2.resolve_left (by simp [h])⟩
  · rintro ⟨h1, h2⟩
    refine ⟨h1, ?_⟩
    cases hu : d.kind.usesSlot with
    | false => exact .inl rfl
    | true => exact .inr (h2 hu)

/-- No chain, or a chain that begins in order. -/
def ChainOk (d : Desc) : Prop := d.isNone = true ∨ DescOk d

/-- A generated word is well-formed, is no write to PC, and the chain goes on in order (R202). -/
theorem gen_ok {d : Desc} (h : DescOk d) (c : Config) (ws : List Word16) :
    ∃ cw d', gen c ws d = some (cw, d') ∧ cw.ok = true ∧ cw.dest ≠ .pc ∧ ChainOk d' := by
  obtain ⟨kind, reg, w, dir, slot, sg⟩ := d
  obtain ⟨h1, h2⟩ := h
  simp only at h1 h2
  cases kind
  case none => exact absurd rfl h1
  all_goals
    simp only [MuKind.usesSlot] at h2
    simp only [gen]
    refine ⟨_, _, rfl, ?_, (fun h => by cases h), ?_⟩
    · first
      | (cases dir <;> rfl)
      | (rcases h2 trivial with rfl | rfl | rfl <;> cases dir <;> rfl)
    · first
      | exact .inl rfl
      | exact .inr ⟨fun h => (by cases h), fun h => (by cases h)⟩

theorem chainOk_iff {d : Desc} : d.chainOk = true ↔ ChainOk d := by
  simp only [Desc.chainOk, Bool.or_eq_true, ChainOk, descOk_iff]

/-- `Program.ok`, part by part. -/
structure ProgOk (p : Program) : Prop where
  override : ChainOk p.override
  before : ChainOk p.before
  after : ChainOk p.after
  core : p.core.ok = true
  pc : p.core.dest = .pc → (p.bkind != .none) = true
  plain : p.override.isNone = true ∨ p.bkind = .none ∨ p.static = true

theorem progOk_iff {p : Program} : p.ok = true ↔ ProgOk p := by
  simp only [Program.ok, Bool.and_eq_true, Bool.or_eq_true, chainOk_iff, bne_iff_ne, beq_iff_eq]
  constructor
  · rintro ⟨⟨⟨⟨⟨h1, h2⟩, h3⟩, h4⟩, h5⟩, h6⟩
    exact ⟨h1, h2, h3, h4, fun h => by simpa using h5.resolve_left (fun hn => hn h), or_assoc.1 h6⟩
  · rintro ⟨h1, h2, h3, h4, h5, h6⟩
    refine ⟨⟨⟨⟨⟨h1, h2⟩, h3⟩, h4⟩, ?_⟩, or_assoc.2 h6⟩
    by_cases h : p.core.dest = .pc
    · exact .inr (by simpa using h5 h)
    · exact .inl h

theorem firstDesc_ok (rm : Rm) (dir : Dir) (w : Width) {k : Nat} (hk : k = 1 ∨ k = 2) :
    ChainOk (firstDesc rm dir w k) := by
  cases rm <;> first
    | exact .inl rfl
    | exact .inr ⟨by simp [firstDesc], fun _ => hk.elim .inl fun h => .inr (.inl h)⟩

theorem wb_ok (w : Width) (k : Nat) : ChainOk ⟨.addrWb, 0, w, .write, k, false⟩ :=
  .inr ⟨by simp, by simp [MuKind.usesSlot]⟩

theorem none_ok : ChainOk .none := .inl rfl

/-- A program without a branch whose core word writes a register, MDR, F or nothing. -/
theorem plain_ok {b a : Desc} {cw : ControlWord} (hb : ChainOk b) (ha : ChainOk a) (hc : cw.ok = true)
    (hp : cw.dest ≠ .pc) : ProgOk (.plain b cw a) :=
  ⟨.inl rfl, hb, ha, hc, fun h => absurd h hp, .inl rfl⟩

theorem resolve_ok {rm : Rm} {role : Role} {w : Width} {k : Nat} {x : Resolved}
    (h : resolve rm role w k = some x) (hk : k = 1 ∨ k = 2) :
    ChainOk x.before ∧ ChainOk x.after ∧ x.src.loc.inRange = true ∧
      ((∃ b, x.dst = .reg b w) ∨ x.dst = .mdr ∨ x.dst = .zero) := by
  unfold resolve at h
  split at h
  · cases h
    exact ⟨none_ok, none_ok, rfl, .inl ⟨_, rfl⟩⟩
  · split at h
    · cases h
      refine ⟨none_ok, none_ok, ?_, .inr (.inr rfl)⟩
      rcases hk with rfl | rfl <;> cases w <;> rfl
    · cases h
    · cases h
  · cases h
    cases role
    · exact ⟨firstDesc_ok _ _ _ hk, none_ok, rfl, .inr (.inl rfl)⟩
    · exact ⟨none_ok, firstDesc_ok _ _ _ hk, rfl, .inr (.inl rfl)⟩
    · exact ⟨firstDesc_ok _ _ _ hk, wb_ok _ _, rfl, .inr (.inl rfl)⟩

theorem dst_ok {w : Width} {l : BusLoc} (h : (∃ b, l = .reg b w) ∨ l = .mdr ∨ l = .zero) :
    l.writable = true ∧ l.inRange = true ∧ l ≠ .pc := by
  rcases h with ⟨b, rfl⟩ | rfl | rfl <;> simp [BusLoc.writable, BusLoc.inRange]

/-- A core word without an access is well-formed when its locations are (R107). -/
theorem core_ok {cw : ControlWord} (hm : cw.mem = .none) (hs : cw.wsrc = .read)
    (hd : cw.dest.writable = true) (hr : cw.dest.inRange = true) (h0 : cw.src0.loc.inRange = true)
    (h1 : cw.src1.loc.inRange = true) : cw.ok = true := by
  simp [ControlWord.ok, hm, hs, hd, hr, h0, h1]

/-- The programs of the instruction groups are in order. -/
theorem programOf_ok {c : Config} {i : Instr} {p : Program} (h : programOf c i = some p) : ProgOk p := by
  have alu : ∀ (w : Width) (d : Reg) (src : Source) (op : AluOp) (x y : Bool) (vs : VSrc) (z : Bool)
      (dest : BusLoc), src.loc.inRange = true → (dest = .reg d w ∨ dest = .zero) →
      ProgOk (coreOnly (aluWord w d src op x y vs z dest)) := by
    intro w d src op x y vs z dest h1 h2
    have h3 : dest.writable = true ∧ dest.inRange = true ∧ dest ≠ .pc := by
      rcases h2 with rfl | rfl <;> simp [BusLoc.writable, BusLoc.inRange]
    exact plain_ok none_ok none_ok (core_ok rfl rfl h3.1 h3.2.1 rfl h1) h3.2.2
  have imm1 : ∀ w, (immSource w 1).loc.inRange = true := by intro w; cases w <;> rfl
  have br : ∀ (cc : Cond) (k : BKind) (core : ControlWord), core.ok = true → k ≠ .none →
      ProgOk (branchProgram cc k core) := by
    intro cc k core h1 h2
    exact ⟨.inl rfl, none_ok, none_ok, h1, fun _ => by simpa [branchProgram] using h2, .inl rfl⟩
  cases i <;> simp only [programOf, Option.some.injEq] at h
  case ldRM w r rm =>
    simp only [progLdRM, Option.map_eq_some_iff] at h
    obtain ⟨x, hx, rfl⟩ := h
    obtain ⟨a, b, e, -⟩ := resolve_ok hx (.inl rfl)
    exact plain_ok a none_ok (core_ok rfl rfl rfl rfl rfl e) (by simp [moveWord])
  case ldMR w r rm =>
    simp only [progLdMR, Option.map_eq_some_iff] at h
    obtain ⟨x, hx, rfl⟩ := h
    obtain ⟨a, b, e, f⟩ := resolve_ok hx (.inl rfl)
    obtain ⟨g1, g2, g3⟩ := dst_ok f
    exact plain_ok none_ok b (core_ok rfl rfl g1 g2 rfl rfl) g3
  case bitM w n rm =>
    simp only [progBit] at h
    split at h
    · simp only [Option.map_eq_some_iff] at h
      obtain ⟨x, hx, rfl⟩ := h
      obtain ⟨a, b, e, -⟩ := resolve_ok hx (.inr rfl)
      exact plain_ok a none_ok (core_ok rfl rfl rfl rfl e rfl) (by simp [bitWord])
    · cases h
  case setM w n rm =>
    simp only [progSet] at h
    split at h
    · simp only [Option.map_eq_some_iff] at h
      obtain ⟨x, hx, rfl⟩ := h
      obtain ⟨a, b, e, f⟩ := resolve_ok hx (.inr rfl)
      obtain ⟨g1, g2, g3⟩ := dst_ok f
      exact plain_ok a b (core_ok rfl rfl g1 g2 e rfl) g3
    · cases h
  case resM w n rm =>
    simp only [progRes] at h
    split at h
    · simp only [Option.map_eq_some_iff] at h
      obtain ⟨x, hx, rfl⟩ := h
      obtain ⟨a, b, e, f⟩ := resolve_ok hx (.inr rfl)
      obtain ⟨g1, g2, g3⟩ := dst_ok f
      exact plain_ok a b (core_ok rfl rfl g1 g2 e rfl) g3
    · cases h
  all_goals subst h
  case callAbs =>
    exact ⟨.inl rfl, .inr ⟨fun h => (by cases h), fun h => (by cases h)⟩, none_ok, rfl, fun _ => rfl, .inl rfl⟩
  case retn =>
    exact ⟨.inl rfl, .inr ⟨fun h => (by cases h), fun h => (by cases h)⟩, none_ok, rfl, fun _ => rfl, .inl rfl⟩
  all_goals first
    | exact alu _ _ _ _ _ _ _ _ _ rfl (.inl rfl)
    | exact alu _ _ _ _ _ _ _ _ _ (imm1 _) (.inl rfl)
    | exact alu _ _ _ _ _ _ _ _ _ rfl (.inr rfl)
    | exact alu _ _ _ _ _ _ _ _ _ (imm1 _) (.inr rfl)
    | exact plain_ok none_ok none_ok (core_ok rfl rfl rfl rfl rfl rfl) (by simp [moveWord])
    | exact plain_ok none_ok none_ok (core_ok rfl rfl rfl rfl rfl (imm1 _)) (by simp [moveWord])
    | exact plain_ok none_ok none_ok (core_ok rfl rfl rfl rfl rfl rfl) (by simp)
    | exact br _ _ _ rfl (by simp)
    | exact plain_ok none_ok (.inr ⟨by simp, by simp [MuKind.usesSlot]⟩) (core_ok rfl rfl rfl rfl rfl rfl)
        (by simp [moveWord])
    | exact plain_ok (.inr ⟨by simp, by simp [MuKind.usesSlot]⟩) none_ok (core_ok rfl rfl rfl rfl rfl rfl)
        (by simp [moveWord])

/-- The instructions of ENC_REF have no override chain (R101). -/
theorem programOf_override {c : Config} {i : Instr} {p : Program} (h : programOf c i = some p) :
    p.override.isNone = true := by
  cases i <;> simp only [programOf, Option.some.injEq] at h <;> first
    | (subst h; rfl)
    | (simp only [progLdRM, progLdMR, Option.map_eq_some_iff] at h
       obtain ⟨x, -, rfl⟩ := h
       rfl)
    | (simp only [progBit, progSet, progRes] at h
       split at h
       · simp only [Option.map_eq_some_iff] at h
         obtain ⟨x, -, rfl⟩ := h
         rfl
       · cases h)

theorem invalid_ok : ProgOk Program.invalid :=
  plain_ok none_ok none_ok rfl (by simp [ControlWord.nop, ControlWord.base])

/-- What ENC_REF's decoder puts in a record: an instruction's program, or INVALID. -/
theorem refRecord_cases (c : Config) (ws : List Word16) (a : Addr) :
    (∃ i rest p, decodeRef c ws = .ok (i, rest) ∧ programOf c i = some p ∧
      refRecord c ws a = mkRecord c ws a (.instr i) p) ∨ refRecord c ws a = invalidRecord c ws a := by
  unfold refRecord
  split
  · exact .inr rfl
  · rename_i i rest hd
    cases hp : programOf c i with
    | none => exact .inr rfl
    | some p => exact .inl ⟨i, rest, p, hd, hp, rfl⟩

theorem refRecord_ok (c : Config) (ws : List Word16) (a : Addr) : ProgOk (refRecord c ws a).prog := by
  rcases refRecord_cases c ws a with ⟨i, rest, p, -, hp, h⟩ | h <;> rw [h]
  · exact programOf_ok hp
  · exact invalid_ok

/-- What the decoder puts in a record: an instruction's program, a row's program, or INVALID (R170). -/
theorem decodeRecord_cases (c : Config) (ws : List Word16) (a : Addr) :
    (∃ i rest p, c.enc = .ref ∧ decodeRef c ws = .ok (i, rest) ∧ programOf c i = some p ∧
      decodeRecord c ws a = mkRecord c ws a (.instr i) p) ∨
    (∃ rows row k, c.enc = .table rows ∧ findRow rows ws = some (row, k) ∧
      decodeRecord c ws a = mkRecord c ws a (.row k) row.prog) ∨
    decodeRecord c ws a = invalidRecord c ws a := by
  unfold decodeRecord
  split
  · rename_i he
    rcases refRecord_cases c ws a with ⟨i, rest, p, h1, h2, h3⟩ | h
    · exact .inl ⟨i, rest, p, he, h1, h2, h3⟩
    · exact .inr (.inr h)
  · rename_i rows he
    unfold tableRecord
    split
    · exact .inr (.inr rfl)
    · rename_i row k hf
      exact .inr (.inl ⟨rows, row, k, he, hf, rfl⟩)

/-- A row that is found is a row of the table. -/
theorem findRow_mem {rows : List EncRow} {ws : List Word16} {row : EncRow} {k : Nat}
    (h : findRow rows ws = some (row, k)) : row ∈ rows := by
  have := List.mem_of_find?_eq_some h
  exact (List.mem_zipIdx this).2.2 ▸ List.getElem_mem _

/-- The rows of a valid configuration are in order. -/
theorem row_ok {c : Config} (h : c.valid = true) {rows : List EncRow} (he : c.enc = .table rows)
    {row : EncRow} (hm : row ∈ rows) : row.ok = true := by
  simp only [Config.valid, Bool.and_eq_true] at h
  have := h.2
  rw [he] at this
  exact List.all_eq_true.1 this row hm

/-- The program of the decoder's record is in order. -/
theorem decodeRecord_ok {c : Config} (h : c.valid = true) (ws : List Word16) (a : Addr) :
    ProgOk (decodeRecord c ws a).prog := by
  rcases decodeRecord_cases c ws a with ⟨i, rest, p, -, -, hp, e⟩ | ⟨rows, row, k, he, hf, e⟩ | e <;> rw [e]
  · exact programOf_ok hp
  · have := row_ok h he (findRow_mem hf)
    simp only [EncRow.ok, Bool.and_eq_true] at this
    exact progOk_iff.1 this.1.2
  · exact invalid_ok

/-- The trap's program is in order (R403). -/
theorem trapRecord_ok (r : Record) (v : Addr) : ProgOk (trapRecord r v).prog :=
  ⟨.inl rfl, .inr ⟨by simp [trapRecord, callProgram], by simp [trapRecord, callProgram, MuKind.usesSlot]⟩,
    none_ok, rfl, fun _ => rfl, .inl rfl⟩

/-- No opcode word asks for more than four extension words (R90). -/
theorem nExt_le {c : Config} (h : c.valid = true) (w : Word16) : c.nExt w ≤ 4 := by
  unfold Config.nExt
  split
  · rename_i rows he
    unfold tableNExt
    split
    · rename_i r hr
      have := row_ok h he (List.mem_of_find?_eq_some hr)
      simp only [EncRow.ok, Bool.and_eq_true, decide_eq_true_eq] at this
      exact this.1.1
    · omega
  · split <;> omega

end Sys2Proof.Machine
end

