-- ==== Sys2Proof/Laws/Order.lean ====
section
/-! SUPPORT. The half-steps of Fetch and Decode and the controller's tick keep the program's order: the
oldest word the machine holds stays the oldest (R150, R154). -/

namespace Sys2Proof.Machine

/-- The front end of `t` goes on where that of `s` would. -/
structure Keeps (s t : State) : Prop where
  wrap : t.cfg.pcWrap = s.cfg.pcWrap
  chain : s.chained = true → t.chained = true
  front : s.frontOk = true → t.frontOk = true ∧ t.pc = s.pc

theorem Keeps.trans {s t u : State} (h1 : Keeps s t) (h2 : Keeps t u) : Keeps s u :=
  ⟨h2.wrap.trans h1.wrap, fun h => h2.chain (h1.chain h), fun h => by
    obtain ⟨a, b⟩ := h1.front h
    obtain ⟨c, d⟩ := h2.front a
    exact ⟨c, d.trans b⟩⟩

/-- What the order depends on. -/
theorem Keeps.of_same {s t : State} (h0 : t.cfg.pcWrap = s.cfg.pcWrap) (h1 : t.fetch = s.fetch)
    (h2 : t.dec = s.dec) (h3 : t.ready = s.ready) (h4 : t.slot = s.slot) : Keeps s t := by
  have hp : t.pc = s.pc := by simp only [State.pc, h1, h2, h3, h4]
  refine ⟨h0, ?_, ?_⟩
  · simp only [State.chained, h0, h1, imp_self]
  · intro h
    refine ⟨?_, hp⟩
    have hn : t.nextPc = s.nextPc := by
      simp only [State.nextPc, State.pc, h1, h2, Bool.false_eq_true, if_false]
    simp only [State.frontOk, State.chained, h0, h1, h2, h3, h4, hn] at h ⊢
    exact h

theorem Keeps.of_left {s t u : State} (h : Keeps t u) (h0 : t.cfg.pcWrap = s.cfg.pcWrap)
    (h1 : t.fetch = s.fetch) (h2 : t.dec = s.dec) (h3 : t.ready = s.ready) (h4 : t.slot = s.slot) :
    Keeps s u := (Keeps.of_same h0 h1 h2 h3 h4).trans h

theorem Keeps.refl (s : State) : Keeps s s := .of_same rfl rfl rfl rfl rfl

/-- `frontOk`, taken apart. -/
theorem frontOk_iff {s : State} : s.frontOk = true ↔
    s.chained = true ∧ (s.fetch.redir = none ∨ s.dec.words = []) ∧
      (s.dec.words = [] ↔ s.dec.dstate = .waitForSlot ∨ s.dec.dstate = .readOpcode) ∧
      (s.dec.words = [] ∨
        s.fetch.held.head? = some (seqIter s.cfg.pcWrap s.dec.words.length s.dec.iaddr)) ∧
      (s.ready = true → s.nextPc = s.slot.follow) := by
  have key : ((s.dec.words.isEmpty ==
      (s.dec.dstate == .waitForSlot || s.dec.dstate == .readOpcode)) = true) ↔
      (s.dec.words = [] ↔ s.dec.dstate = .waitForSlot ∨ s.dec.dstate = .readOpcode) := by
    rw [beq_iff_eq, Bool.eq_iff_iff]
    simp
  unfold State.frontOk
  simp only [Bool.and_eq_true, key, Bool.or_eq_true, Option.isNone_iff_eq_none,
    List.isEmpty_iff, beq_iff_eq, Bool.not_eq_true', and_assoc]
  have : (s.ready = false ∨ s.nextPc = s.slot.follow) ↔ (s.ready = true → s.nextPc = s.slot.follow) := by
    cases s.ready <;> simp
  rw [this]

/-- The next address, when nothing redirects. -/
theorem nextPc_held {s : State} (h1 : s.fetch.redir = none) (h2 : s.dec.words = []) :
    some s.nextPc = s.fetch.held.head? := by
  simp only [State.nextPc, State.pc, h1, h2, Bool.false_eq_true, if_false, FetchState.held]
  cases s.fetch.out with
  | some w => rfl
  | none =>
    cases s.fetch.queue with
    | cons w q => rfl
    | nil =>
      cases s.fetch.pf with
      | none => rfl
      | some p =>
        obtain ⟨a, st⟩ := p
        cases st <;> rfl

theorem nextPc_redir {s : State} {r : Redirect} (h : s.fetch.redir = some r) : s.nextPc = r.target := by
  simp only [State.nextPc, State.pc, h, Bool.false_eq_true, if_false]

theorem nextPc_words {s : State} (h : s.fetch.redir = none) (h2 : s.dec.words ≠ []) :
    s.nextPc = s.dec.iaddr := by
  simp only [State.nextPc, State.pc, h, Bool.false_eq_true, if_false]
  cases hw : s.dec.words with
  | nil => exact absurd hw h2
  | cons w ws => rfl

theorem pc_ready {s : State} (h : s.ready = true) : s.pc = s.slot.instrAddr := by
  simp only [State.pc, h, if_true]

theorem pc_free {s : State} (h : s.ready = false) : s.pc = s.nextPc := by
  simp only [State.pc, State.nextPc, h]

/-- A change of Fetch that leaves its words' addresses and its redirect alone. -/
theorem Keeps.of_held {s t : State} (F : FetchState) (he : t.fetch = F) (h0 : t.cfg.pcWrap = s.cfg.pcWrap)
    (h2 : t.dec = s.dec) (h3 : t.ready = s.ready) (h4 : t.slot = s.slot)
    (hh : F.held = s.fetch.held) (hr : F.redir = s.fetch.redir) : Keeps s t := by
  subst he
  have hn : t.nextPc = s.nextPc := by
    cases hr' : s.fetch.redir with
    | some r => rw [nextPc_redir (hr.trans hr'), nextPc_redir hr']
    | none =>
      by_cases hw : s.dec.words = []
      · have a := nextPc_held (hr.trans hr') (by rw [h2]; exact hw)
        have b := nextPc_held hr' hw
        rw [hh, ← b] at a
        exact Option.some.inj a
      · rw [nextPc_words (hr.trans hr') (by rw [h2]; exact hw), nextPc_words hr' hw, h2]
  refine ⟨h0, ?_, ?_⟩
  · simp only [State.chained, h0, hh, imp_self]
  · intro h
    constructor
    · rw [frontOk_iff] at h ⊢
      simp only [State.chained, h0, h2, h3, h4, hh, hr, hn] at h ⊢
      exact h
    · cases hrd : s.ready with
      | true => rw [pc_ready hrd, pc_ready (h3.trans hrd), h4]
      | false => rw [pc_free hrd, pc_free (h3.trans hrd), hn]

/-! ### Fetch -/

theorem keeps_fetchShift (s : State) : Keeps s (fetchShift s) := by
  unfold fetchShift
  split
  · rename_i w q h1 h2 h3
    refine Keeps.of_held _ rfl rfl rfl rfl rfl ?_ rfl
    simp only [FetchState.held, h2, h3]
    rfl
  · exact .refl s

theorem keeps_fetchHalf1 (s : State) : Keeps s (fetchHalf1 s) := by
  unfold fetchHalf1
  split
  · refine Keeps.trans ?_ (keeps_fetchShift _)
    unfold fetchCollect
    split
    · exact .refl s
    · rename_i p hp
      split
      · refine Keeps.of_held _ rfl rfl rfl rfl rfl ?_ rfl
        obtain ⟨a, st⟩ := p
        cases st
        · simp [FetchState.held, hp]
        · simp [FetchState.held, hp]
      · exact .refl s
  · exact .refl s

theorem consecutive_append_seq (p : PcWrap) (l : List Addr) (a : Addr) :
    consecutive p (l ++ [a]) = true → consecutive p (l ++ [a] ++ [seqAddr p a]) = true := by
  induction l with
  | nil => intro _; simp [consecutive]
  | cons b l ih =>
    intro h
    cases l with
    | nil =>
      simp only [List.cons_append, List.nil_append, consecutive, Bool.and_true,
        beq_iff_eq, beq_self_eq_true] at h ⊢
      exact h
    | cons c l =>
      simp only [List.cons_append, consecutive, Bool.and_eq_true] at h ih ⊢
      exact ⟨h.1, ih h.2⟩

/-- A state in which Fetch's words begin at the address the program continues with, as after Fetch's
half2. -/
theorem Keeps.of_issue {s t : State} (he : t.fetch = { s.fetch with
      pf := some ⟨s.fetch.fetchAddr, false⟩
      fetchAddr := seqAddr s.cfg.pcWrap s.fetch.fetchAddr })
    (hpf : s.fetch.pf = none) (h0 : t.cfg.pcWrap = s.cfg.pcWrap) (h2 : t.dec = s.dec)
    (h3 : t.ready = s.ready) (h4 : t.slot = s.slot) : Keeps s t := by
  have hh : t.fetch.held = s.fetch.held ++ [seqAddr s.cfg.pcWrap s.fetch.fetchAddr] := by
    rw [he]
    simp [FetchState.held, hpf]
  have hl : ∃ l, s.fetch.held = l ++ [s.fetch.fetchAddr] := ⟨_, rfl⟩
  have hhead : t.fetch.held.head? = s.fetch.held.head? := by
    obtain ⟨l, hl⟩ := hl
    rw [hh, hl]
    cases l <;> rfl
  have hr : t.fetch.redir = s.fetch.redir := by rw [he]
  have hn : t.nextPc = s.nextPc := by
    cases hr' : s.fetch.redir with
    | some r => rw [nextPc_redir (hr.trans hr'), nextPc_redir hr']
    | none =>
      by_cases hw : s.dec.words = []
      · have a := nextPc_held (hr.trans hr') (by rw [h2]; exact hw)
        have b := nextPc_held hr' hw
        rw [hhead, ← b] at a
        exact Option.some.inj a
      · rw [nextPc_words (hr.trans hr') (by rw [h2]; exact hw), nextPc_words hr' hw, h2]
  have hc : s.chained = true → t.chained = true := by
    unfold State.chained
    rw [h0, hh]
    obtain ⟨l, hl⟩ := hl
    rw [hl]
    exact consecutive_append_seq _ l _
  refine ⟨h0, hc, ?_⟩
  intro h
  constructor
  · rw [frontOk_iff] at h ⊢
    refine ⟨hc h.1, ?_⟩
    simp only [h0, h2, h3, h4, hhead, hr, hn]
    exact h.2
  · cases hrd : s.ready with
    | true => rw [pc_ready hrd, pc_ready (h3.trans hrd), h4]
    | false => rw [pc_free hrd, pc_free (h3.trans hrd), hn]

theorem keeps_fetchRedirect (s : State) : Keeps s (fetchRedirect s) := by
  unfold fetchRedirect
  split
  · exact .refl s
  · rename_i r hr
    have hh : ({ fetchAddr := r.target, queue := [], out := none
                 pf := s.fetch.pf.map fun p => { p with stale := true }
                 redir := none } : FetchState).held = [r.target] := by
      simp only [FetchState.held]
      cases s.fetch.pf <;> rfl
    refine ⟨rfl, ?_, ?_⟩
    · intro _
      simp only [State.chained, hh]
      rfl
    · intro h
      rw [frontOk_iff] at h
      obtain ⟨h1, h2, h3, h4, h5⟩ := h
      have hw : s.dec.words = [] := by
        rcases h2 with h2 | h2
        · rw [hr] at h2; cases h2
        · exact h2
      generalize ht : ({ s with fetch :=
        { fetchAddr := r.target, queue := [], out := none
          pf := s.fetch.pf.map fun p => { p with stale := true }
          redir := none } } : State) = t
      have t1 : t.fetch.held = [r.target] := by rw [← ht]; exact hh
      have t2 : t.fetch.redir = none := by rw [← ht]
      have t3 : t.dec = s.dec := by rw [← ht]
      have t4 : t.ready = s.ready := by rw [← ht]
      have t5 : t.slot = s.slot := by rw [← ht]
      have t6 : t.cfg = s.cfg := by rw [← ht]
      have hn : t.nextPc = s.nextPc := by
        have a := nextPc_held t2 (by rw [t3]; exact hw)
        rw [t1] at a
        rw [nextPc_redir hr]
        exact Option.some.inj a
      constructor
      · rw [frontOk_iff, State.chained, t1, t2, t3, t4, t5, t6, hn]
        exact ⟨rfl, .inl rfl, h3, .inl hw, h5⟩
      · cases hrd : s.ready with
        | true => rw [pc_ready hrd, pc_ready (t4.trans hrd), t5]
        | false => rw [pc_free hrd, pc_free (t4.trans hrd), hn]

theorem keeps_fetchIssue (s : State)
    (ho : s.ctl.owner = some .fetch → s.fetch.pf.isSome = true) : Keeps s (fetchIssue s) := by
  unfold fetchIssue
  split
  · rename_i hc
    simp only [Bool.and_eq_true, Option.isNone_iff_eq_none] at hc
    have hassert : (∃ C, s.assertRead .fetch s.fetch.fetchAddr 2 = ({ s with ctl := C }, true)) ∨
        s.assertRead .fetch s.fetch.fetchAddr 2 = (s, false) := by
      simp only [State.assertRead, State.assertBusy]
      cases hctl : s.ctl with
      | ready => exact .inl ⟨_, rfl⟩
      | _ =>
        rw [hctl] at ho
        refine .inr (if_neg fun hown => ?_)
        have := ho hown
        rw [hc.1.1] at this
        cases this
    rcases hassert with ⟨C, ha⟩ | ha
    · rw [ha]
      exact Keeps.of_issue rfl hc.1.1 rfl rfl rfl rfl
    · rw [ha]
      exact .refl s
  · exact .refl s

theorem fetchRedirect_ctl (s : State) : (fetchRedirect s).ctl = s.ctl ∧
    ((fetchRedirect s).fetch.pf.isSome = s.fetch.pf.isSome) := by
  unfold fetchRedirect
  split
  · exact ⟨rfl, rfl⟩
  · exact ⟨rfl, by simp⟩

theorem keeps_fetchHalf2 (s : State)
    (ho : s.ctl.owner = some .fetch → s.fetch.pf.isSome = true) : Keeps s (fetchHalf2 s) := by
  unfold fetchHalf2
  split
  · refine (keeps_fetchRedirect s).trans (keeps_fetchIssue _ ?_)
    obtain ⟨a, b⟩ := fetchRedirect_ctl s
    rw [a, b]
    exact ho
  · exact .refl s

/-! ### Decode -/

theorem seqIter_succ (p : PcWrap) (n : Nat) (a : Addr) :
    seqIter p (n + 1) a = seqAddr p (seqIter p n a) := by
  induction n generalizing a with
  | zero => rfl
  | succ n ih => rw [seqIter, ih, ← seqIter]

theorem follow_decodeRecord (c : Config) (ws : List Word16) (a : Addr) (r : Record)
    (hr : r = decodeRecord c ws a) :
    r.instrAddr = a ∧ (ws ≠ [] → r.nextAddr = seqIter c.pcWrap ws.length a) := by
  have hm : ∀ cls p, (mkRecord c ws a cls p).instrAddr = a ∧
      (ws ≠ [] → (mkRecord c ws a cls p).nextAddr = seqIter c.pcWrap ws.length a) := by
    intro cls p
    refine ⟨rfl, fun hne => ?_⟩
    have : 1 + (ws.length - 1) = ws.length := by
      have := List.length_pos_of_ne_nil hne
      omega
    simp only [mkRecord, this]
  subst hr
  rcases decodeRecord_cases c ws a with ⟨i, rest, p, -, -, -, e⟩ | ⟨rows, row, k, -, -, e⟩ | e <;> rw [e] <;>
    exact hm _ _

/-- Fetch's words after the oldest has been taken. -/
theorem held_take {p : PcWrap} {F : FetchState} {w : FWord} (h : F.out = some w) :
    F.held = w.addr :: ({ F with out := none } : FetchState).held ∧
      (consecutive p F.held = true →
        consecutive p ({ F with out := none } : FetchState).held = true ∧
        ({ F with out := none } : FetchState).held.head? = some (seqAddr p w.addr)) := by
  have h1 : F.held = w.addr :: ({ F with out := none } : FetchState).held := by
    simp [FetchState.held, h]
  refine ⟨h1, ?_⟩
  rw [h1]
  have hne : ({ F with out := none } : FetchState).held ≠ [] := by simp [FetchState.held]
  generalize ({ F with out := none } : FetchState).held = l at hne
  cases l with
  | nil => exact absurd rfl hne
  | cons b l =>
    simp only [consecutive, Bool.and_eq_true, beq_iff_eq, List.head?_cons]
    rintro ⟨ha, hb⟩
    exact ⟨hb, by rw [ha]⟩

/-- DISPATCH from a state in which Decode holds all its words, whatever its state was called. -/
theorem keeps_decDispatch (s : State) (hrd : s.ready = false) (hre : s.fetch.redir = none)
    (hw : s.dec.words ≠ []) :
    (decDispatch s).cfg.pcWrap = s.cfg.pcWrap ∧
      (s.chained = true → (decDispatch s).chained = true) ∧
      (s.chained = true →
        s.fetch.held.head? = some (seqIter s.cfg.pcWrap s.dec.words.length s.dec.iaddr) →
        (decDispatch s).frontOk = true ∧ (decDispatch s).pc = s.dec.iaddr) := by
  obtain ⟨hia, hna⟩ := follow_decodeRecord s.cfg s.dec.words s.dec.iaddr _ rfl
  unfold decDispatch
  generalize decodeRecord s.cfg s.dec.words s.dec.iaddr = r at hia hna
  simp only
  split
  · refine ⟨rfl, id, fun hc hh => ⟨?_, ?_⟩⟩
    · rw [frontOk_iff]
      refine ⟨hc, .inl hre, ?_, .inr hh, by simp [hrd]⟩
      simp [hw]
    · exact (pc_free hrd).trans (nextPc_words hre hw)
  · by_cases hst : r.isBranch = true ∧ r.prog.static = true
    · obtain ⟨D, hp, d1, d2⟩ : ∃ D, publish r s = { s with
          slot := r, ready := true
          fetch := { s.fetch with redir := some ⟨staticTarget r, .decode⟩ }, dec := D } ∧
          D.words = [] ∧ D.dstate = .waitForSlot := by
        exact ⟨{ s.dec with
          awaitRedirect := s.dec.awaitRedirect || true
          branchPending := s.dec.branchPending || (!true && (r.isBranch || r.isInvalid))
          dstate := .waitForSlot, words := [], held := none },
          by simp [publish, hrd, hre, hst.1, hst.2], rfl, rfl⟩
      rw [hp]
      refine ⟨rfl, id, fun hc _ => ⟨?_, (pc_ready rfl).trans hia⟩⟩
      rw [frontOk_iff]
      refine ⟨hc, .inr d1, by simp [d1, d2], .inl d1, fun _ => ?_⟩
      refine (nextPc_redir rfl).trans ?_
      simp [Record.follow, hst.1, hst.2]
    · have hst' : (r.isBranch && r.prog.static) = false := by
        simp only [Bool.and_eq_false_iff]
        by_contra hcon
        simp only [not_or, Bool.not_eq_false] at hcon
        exact hst hcon
      obtain ⟨D, hp, d1, d2⟩ : ∃ D, publish r s = { s with
          slot := r, ready := true, dec := D } ∧ D.words = [] ∧ D.dstate = .waitForSlot := by
        exact ⟨{ s.dec with
          awaitRedirect := s.dec.awaitRedirect || false
          branchPending := s.dec.branchPending || (!false && (r.isBranch || r.isInvalid))
          dstate := .waitForSlot, words := [], held := none },
          by simp [publish, hrd, hst'], rfl, rfl⟩
      rw [hp]
      refine ⟨rfl, id, fun hc hh => ⟨?_, (pc_ready rfl).trans hia⟩⟩
      rw [frontOk_iff]
      refine ⟨hc, .inl hre, by simp [d1, d2], .inl d1, fun _ => ?_⟩
      have a := (nextPc_held (s := { s with slot := r, ready := true, dec := D }) hre d1).trans hh
      rw [Option.some.injEq] at a
      refine a.trans ?_
      simp only [Record.follow, hst', Bool.false_eq_true, if_false]
      exact (hna hw).symm

/-- READ_OPERANDS, after it has taken a word. -/
theorem keeps_operand (s u : State) (w : FWord) (hrd : s.ready = false) (hre : s.fetch.redir = none)
    (hd : s.dec.dstate = .readOperands) (hw : s.fetch.out = some w) (u1 : u.cfg = s.cfg)
    (u2 : u.fetch = { s.fetch with out := none }) (u3 : u.ready = false)
    (u4 : u.dec.words = s.dec.words ++ [w.word]) (u5 : u.dec.iaddr = s.dec.iaddr)
    (u6 : u.dec.dstate = .readOperands) :
    Keeps s (if u.dec.need > 0 then u else decDispatch u) := by
  obtain ⟨k1, k2⟩ := held_take (p := s.cfg.pcWrap) hw
  have u7 : u.fetch.redir = none := by rw [u2]; exact hre
  have hne : u.dec.words ≠ [] := by rw [u4]; simp
  have hch : s.chained = true → u.chained = true := by
    unfold State.chained
    rw [u1, u2]
    exact fun h => (k2 h).1
  have hhead : s.frontOk = true → s.dec.words ≠ [] ∧ u.fetch.held.head? =
      some (seqIter u.cfg.pcWrap u.dec.words.length u.dec.iaddr) := by
    intro h
    rw [frontOk_iff] at h
    obtain ⟨h1, h2, h3, h4, h5⟩ := h
    have hwne : s.dec.words ≠ [] := by
      intro hcon
      have := h3.1 hcon
      simp [hd] at this
    refine ⟨hwne, ?_⟩
    rcases h4 with h4 | h4
    · exact absurd h4 hwne
    · rw [k1, List.head?_cons, Option.some.injEq] at h4
      rw [u1, u2, u4, u5, (k2 h1).2, List.length_append, List.length_singleton, seqIter_succ, h4]
  have hpc : s.frontOk = true → s.pc = s.dec.iaddr := by
    intro h
    rw [pc_free hrd, nextPc_words hre (hhead h).1]
  split
  · refine ⟨by rw [u1], hch, fun h => ⟨?_, ?_⟩⟩
    · rw [frontOk_iff]
      have hc : s.chained = true := (frontOk_iff.1 h).1
      exact ⟨hch hc, .inl u7, by simp [hne, u6], .inr (hhead h).2, by simp [u3]⟩
    · rw [hpc h, pc_free u3, nextPc_words u7 hne, u5]
  · obtain ⟨a, b, c⟩ := keeps_decDispatch u u3 u7 hne
    refine ⟨a.trans (by rw [u1]), fun h => b (hch h), fun h => ?_⟩
    have hc : s.chained = true := (frontOk_iff.1 h).1
    obtain ⟨d, e⟩ := c (hch hc) (hhead h).2
    exact ⟨d, by rw [e, hpc h, u5]⟩

theorem keeps_decOperands (s : State) (hrd : s.ready = false) (hre : s.fetch.redir = none)
    (hd : s.dec.dstate = .readOperands) : Keeps s (decOperands s) := by
  unfold decOperands
  split
  · refine Keeps.of_same rfl rfl ?_ rfl rfl
    simp only [← hd]
  · rename_i w hw
    exact keeps_operand s _ w hrd hre hd hw rfl rfl hrd rfl rfl rfl

/-- READ_OPCODE, after it has taken the opcode word. -/
theorem keeps_opcode (s u : State) (w : FWord) (hrd : s.ready = false) (hre : s.fetch.redir = none)
    (hd : s.dec.dstate = .waitForSlot ∨ s.dec.dstate = .readOpcode) (hw : s.fetch.out = some w)
    (u1 : u.cfg = s.cfg) (u2 : u.fetch = { s.fetch with out := none }) (u3 : u.ready = false)
    (u4 : u.dec.words = [w.word]) (u5 : u.dec.iaddr = w.addr) :
    Keeps s { u with dec := { u.dec with dstate := .readOperands } } ∧ Keeps s (decDispatch u) := by
  obtain ⟨k1, k2⟩ := held_take (p := s.cfg.pcWrap) hw
  have u7 : u.fetch.redir = none := by rw [u2]; exact hre
  have hne : u.dec.words ≠ [] := by rw [u4]; simp
  have hch : s.chained = true → u.chained = true := by
    unfold State.chained
    rw [u1, u2]
    exact fun h => (k2 h).1
  have hhead : s.chained = true → u.fetch.held.head? =
      some (seqIter u.cfg.pcWrap u.dec.words.length u.dec.iaddr) := by
    intro h
    rw [u1, u2, u4, u5, (k2 h).2]
    rfl
  have hpc : s.frontOk = true → s.pc = w.addr := by
    intro h
    rw [frontOk_iff] at h
    obtain ⟨h1, h2, h3, h4, h5⟩ := h
    have hwd : s.dec.words = [] := h3.2 hd
    have a := nextPc_held hre hwd
    rw [k1, List.head?_cons, Option.some.injEq] at a
    rw [pc_free hrd, a]
  constructor
  · generalize hv : ({ u with dec := { u.dec with dstate := .readOperands } } : State) = v
    have v1 : v.cfg = u.cfg := by rw [← hv]
    have v2 : v.fetch = u.fetch := by rw [← hv]
    have v3 : v.ready = false := by rw [← hv]; exact u3
    have v4 : v.dec.words = u.dec.words := by rw [← hv]
    have v5 : v.dec.iaddr = u.dec.iaddr := by rw [← hv]
    have v6 : v.dec.dstate = .readOperands := by rw [← hv]
    have vch : s.chained = true → v.chained = true := by
      intro h
      have := hch h
      simpa only [State.chained, v1, v2] using this
    refine ⟨by rw [v1, u1], vch, fun h => ⟨?_, ?_⟩⟩
    · have hc : s.chained = true := (frontOk_iff.1 h).1
      rw [frontOk_iff]
      refine ⟨vch hc, .inl (by rw [v2]; exact u7), by simp [v4, hne, v6], .inr ?_, by simp [v3]⟩
      rw [v1, v2, v4, v5]
      exact hhead hc
    · rw [hpc h, pc_free v3, nextPc_words (by rw [v2]; exact u7) (by rw [v4]; exact hne), v5, u5]
  · obtain ⟨a, b, c⟩ := keeps_decDispatch u u3 u7 hne
    refine ⟨a.trans (by rw [u1]), fun h => b (hch h), fun h => ?_⟩
    have hc : s.chained = true := (frontOk_iff.1 h).1
    obtain ⟨d, e⟩ := c (hch hc) (hhead hc)
    exact ⟨d, by rw [e, hpc h, u5]⟩

theorem keeps_decOpcode (s : State) (hrd : s.ready = false) (hre : s.fetch.redir = none)
    (hd : s.dec.dstate = .waitForSlot ∨ s.dec.dstate = .readOpcode) : Keeps s (decOpcode s) := by
  unfold decOpcode
  split
  · generalize hu : ({ s with dec := { s.dec with dstate := .readOpcode } } : State) = u
    have u1 : u.cfg = s.cfg := by rw [← hu]
    have u2 : u.fetch = s.fetch := by rw [← hu]
    have u3 : u.ready = false := by rw [← hu]; exact hrd
    have u4 : u.dec.words = s.dec.words := by rw [← hu]
    have u5 : u.dec.iaddr = s.dec.iaddr := by rw [← hu]
    have u6 : u.dec.dstate = .readOpcode := by rw [← hu]
    have hn : u.nextPc = s.nextPc := by
      simp only [State.nextPc, State.pc, u2, u4, u5, Bool.false_eq_true, if_false]
    refine ⟨by rw [u1], by simp only [State.chained, u1, u2, imp_self], fun h => ⟨?_, ?_⟩⟩
    · rw [frontOk_iff] at h ⊢
      obtain ⟨h1, h2, h3, h4, h5⟩ := h
      have hw : s.dec.words = [] := h3.2 hd
      refine ⟨by simpa only [State.chained, u1, u2] using h1, by rw [u2, u4]; exact h2, ?_, ?_,
        by simp [u3]⟩
      · simp [u4, u6, hw]
      · rw [u4]; exact .inl hw
    · rw [pc_free u3, pc_free hrd, hn]
  · rename_i w hw
    obtain ⟨h1, h2⟩ := keeps_opcode s { s with
        fetch := { s.fetch with out := none }
        dec := { s.dec with
          iaddr := w.addr, words := [w.word], need := s.cfg.nExt w.word } } w
      hrd hre hd hw rfl rfl hrd rfl rfl
    dsimp only
    split
    · exact h1
    · exact h2

theorem keeps_decRun (s : State) (hh : s.ready = true → s.dec.dstate = .waitForSlot)
    (hre : s.fetch.redir = none) : Keeps s (decRun s) := by
  unfold decRun
  cases hrd : s.ready with
  | true =>
    rw [hh hrd]
    simp only [if_true]
    exact .refl s
  | false =>
    split
    · rename_i hd
      simp only [Bool.false_eq_true, if_false]
      exact keeps_decOpcode s hrd hre (.inl hd)
    · rename_i hd
      exact keeps_decOpcode s hrd hre (.inr hd)
    · rename_i hd
      exact keeps_decOperands s hrd hre hd
    · rename_i hd
      by_cases hw : s.dec.words = []
      · refine ⟨?_, ?_, fun h => ?_⟩
        · unfold decDispatch publish
          simp only [hrd, Bool.false_eq_true, if_false]
          split <;> rfl
        · have : (decDispatch s).fetch.held = s.fetch.held ∧
              (decDispatch s).cfg = s.cfg := by
            unfold decDispatch publish
            simp only [hrd, Bool.false_eq_true, if_false]
            split
            · exact ⟨rfl, rfl⟩
            · refine ⟨?_, rfl⟩
              dsimp only
              split <;> rfl
          unfold State.chained
          rw [this.1, this.2]
          exact id
        · have := ((frontOk_iff.1 h).2.2.1).1 hw
          simp [hd] at this
      · obtain ⟨a, b, c⟩ := keeps_decDispatch s hrd hre hw
        refine ⟨a, b, fun h => ?_⟩
        obtain ⟨h1, h2, h3, h4, h5⟩ := frontOk_iff.1 h
        rcases h4 with h4 | h4
        · exact absurd h4 hw
        · obtain ⟨d, e⟩ := c h1 h4
          exact ⟨d, by rw [e, pc_free hrd, nextPc_words hre hw]⟩

theorem keeps_decodeHalf2 (s : State) (hh : s.ready = true → s.dec.dstate = .waitForSlot)
    (hre : s.fetch.redir = none) : Keeps s (decodeHalf2 s) := by
  unfold decodeHalf2
  split
  · split
    · exact .refl s
    · refine Keeps.trans ?_ (keeps_decRun _ hh hre)
      refine ⟨rfl, id, fun h => ⟨?_, rfl⟩⟩
      rw [frontOk_iff] at h ⊢
      exact h
  · exact .refl s

/-- The front half of half2. -/
theorem keeps_front2 (u : State) (hr : u.status = .running)
    (ho : u.ctl.owner = some .fetch → u.fetch.pf.isSome = true)
    (hh : u.ready = true → u.dec.dstate = .waitForSlot) :
    Keeps u (decodeHalf2 (fetchHalf2 u)) := by
  refine (keeps_fetchHalf2 u ho).trans ?_
  obtain ⟨F, C, he, hre, -⟩ := fetchHalf2_cases u hr ho
  rw [he]
  exact keeps_decodeHalf2 _ hh hre

/-! ### The tick and the front of half1 -/

theorem keeps_tick (s : State) : Keeps s (tick s) := by
  rw [tick_cases]
  exact .of_same rfl rfl rfl rfl rfl

theorem keeps_memWait (s : State) : Keeps s (memWait s) := by
  unfold memWait
  split
  · split
    · exact .refl s
    · split
      · exact .of_same rfl rfl rfl rfl rfl
      · exact .refl s
  · exact .refl s

/-- Decode half1, when no taken branch is signalled. -/
theorem keeps_decodeHalf1 (s : State) (hb : ∀ a, s.ex.brResolve ≠ some (.taken a)) :
    Keeps s (decodeHalf1 s) := by
  unfold decodeHalf1
  split
  · split
    · exact .refl s
    · rename_i a ha
      exact absurd ha (hb a)
    · refine ⟨rfl, id, fun h => ⟨?_, rfl⟩⟩
      rw [frontOk_iff] at h ⊢
      exact h
  · exact .refl s

theorem fetchHalf1_ex (s : State) : (fetchHalf1 s).ex = s.ex := by
  unfold fetchHalf1 fetchShift fetchCollect
  repeat' split
  all_goals rfl

theorem tick_ex (s : State) : (tick s).ex = s.ex := by rw [tick_cases]

/-- From the end of half2 to the cut, when no taken branch is signalled. -/
theorem keeps_settle (u : State) (hb : ∀ a, u.ex.brResolve ≠ some (.taken a)) :
    Keeps u (half1Front (tick u)) := by
  unfold half1Front
  refine ((keeps_tick u).trans (keeps_fetchHalf1 _)).trans ((keeps_decodeHalf1 _ ?_).trans
    (keeps_memWait _))
  intro a
  rw [fetchHalf1_ex, tick_ex]
  exact hb a

/-- From the end of half2 to the cut, when a taken branch is signalled: Decode drops what it holds. -/
theorem settle_taken (u : State) (a : Addr) (hr : u.status = .running)
    (hb : u.ex.brResolve = some (.taken a)) :
    (half1Front (tick u)).dec.words = [] ∧ (half1Front (tick u)).dec.dstate = .waitForSlot ∧
      (u.chained = true → (half1Front (tick u)).chained = true) := by
  have h1 : (fetchHalf1 (tick u)).ex.brResolve = some (.taken a) := by
    rw [fetchHalf1_ex, tick_ex]; exact hb
  have h2 : (fetchHalf1 (tick u)).status = .running := by
    have ht : (tick u).status = .running := by rw [tick_cases]; exact hr
    obtain ⟨F, -, ⟨-, -, -, h⟩ | ⟨-, -, h⟩⟩ := fetchHalf1_cases (tick u) ht
    · rw [h]; exact ht
    · rw [h]; exact ht
  have hm : ∀ x : State, (memWait x).dec = x.dec ∧ (x.chained = true → (memWait x).chained = true) := by
    intro x
    refine ⟨?_, (keeps_memWait x).chain⟩
    unfold memWait
    repeat' split
    all_goals rfl
  unfold half1Front
  obtain ⟨m1, m2⟩ := hm (decodeHalf1 (fetchHalf1 (tick u)))
  rw [m1]
  have hd : decodeHalf1 (fetchHalf1 (tick u)) = { fetchHalf1 (tick u) with
        dec := { (fetchHalf1 (tick u)).dec with
          branchPending := false, dstate := .waitForSlot, words := [], need := 0, held := none
          awaitRedirect := true }
        ex := { (fetchHalf1 (tick u)).ex with brResolve := none } } := by
    simp only [decodeHalf1, running_of h2, if_true, h1]
  refine ⟨by rw [hd], by rw [hd], fun hc => m2 ?_⟩
  rw [hd]
  exact (keeps_fetchHalf1 _).chain ((keeps_tick u).chain hc)

end Sys2Proof.Machine
end

