-- ==== Sys2Proof/Laws/Word.lean ====
section
/-! SUPPORT. What running one control word does, over any number of cycles: the Fetch and Decode stages
and the Memory Controller's latency change nothing of it. -/

namespace Sys2Proof.Machine

/-! ### What the words of a record change -/

/-- The part of a state the front end has no say in: Fetch, Decode, the handoff, the controller, the draws
and the transient latches of Execute are blanked out. -/
def State.exe (s : State) : State :=
  { s with
    fetch := .reset 0, dec := .reset, ready := false, slot := .empty, ctl := .ready, draws := []
    ex := { ExecState.reset with sstate := s.ex.sstate, cur := s.ex.cur, desc := s.ex.desc } }

/-- The controller is READY and no prefetch is outstanding, or it is busy with the prefetch. -/
def FreePort (c : Ctl) (f : FetchState) : Prop :=
  (c = .ready ∧ f.pf = none) ∨ (∃ a n, c = .readBusy a n .fetch ∧ f.pf.isSome = true)

/-- Execute is between two words, and the handshakes are in order. -/
structure Live (s : State) : Prop where
  run : s.status = .running
  cw : s.ex.cw = none
  pend : s.ex.exPending = none
  br : s.ex.brResolve = none
  port : FreePort s.ctl s.fetch
  hand : s.ready = true → s.dec.dstate = .waitForSlot

/-- The sequencer's next state and descriptor (R273). -/
def nextOf (c : Config) (r : Record) (st : SState) (d : Desc) : Option (SState × Desc) :=
  match st with
  | .coreOp => some (if r.prog.after.isNone then (.final, d) else (.after, r.prog.after))
  | .override => (gen c r.words d).map fun p => (afterChain p.2 .override .final, p.2)
  | .before => (gen c r.words d).map fun p => (afterChain p.2 .before .coreOp, p.2)
  | .after => (gen c r.words d).map fun p => (afterChain p.2 .after .final, p.2)
  | _ => none

/-- Consuming these locations does not abort: reads of unwritten values are allowed, or none of them is
unwritten. -/
def Usable (c : Config) (locs : List UnwrittenLoc) : Prop :=
  c.unwrittenRead = .value ∨ locs = []

theorem consume_usable {s : State} {locs : List UnwrittenLoc} (h : Usable s.cfg locs) :
    s.consume locs = s := by
  unfold State.consume
  rcases h with h | h
  · rw [h]
  · subst h
    split
    · rename_i h; cases h
    · rfl

/-! ### Runs of cycles -/

/-- Running from `s` is running from `t` with `n` cycles fewer to go. -/
def Reach (n : Nat) (s t : State) : Prop := ∀ m, runTurns (n + m) s = runTurns m t

theorem Reach.trans {a b : Nat} {s t u : State} (h1 : Reach a s t) (h2 : Reach b t u) :
    Reach (a + b) s u := fun m => by rw [Nat.add_assoc, h1, h2]

theorem runTurns_succ {s : State} (hr : s.status = .running) (hf : s.finished = false) (n : Nat) :
    runTurns (n + 1) s = runTurns n (turn s) := by
  simp [runTurns, running_of hr, hf]

theorem reach_turn {s : State} (hr : s.status = .running) (hf : s.finished = false) :
    Reach 1 s (turn s) := fun m => by rw [Nat.add_comm, runTurns_succ hr hf]

theorem turn_congr {s s' : State} (h : executeStart s = executeStart s') : turn s = turn s' := by
  simp [turn, h]

/-- Two states in which Execute goes on alike run alike. -/
theorem reach_congr {n : Nat} {s s' t : State} (h : executeStart s = executeStart s')
    (hr : s.status = .running) (hf : s.finished = false) (hr' : s'.status = .running)
    (hf' : s'.finished = false) (hreach : Reach (n + 1) s' t) : Reach (n + 1) s t := fun m => by
  have := hreach m
  rw [Nat.add_right_comm, runTurns_succ hr' hf'] at this
  rw [Nat.add_right_comm, runTurns_succ hr hf, turn_congr h, this]

/-! ### Selecting and latching -/

/-- The word with its operands latched. -/
def latchWord (cw : ControlWord) (r : Record) (s : State) : State :=
  { s with
    ex := { s.ex with
      cw := some cw, v0 := some (readSource s r cw.src0), v1 := some (readSource s r cw.src1)
      fl := some s.f, res := none, acc := if cw.mem = .none then .none else .toAssert
      estate := .operandLatch } }

/-- The operands a word consumes (R408). -/
def operandLocs (s : State) (r : Record) (cw : ControlWord) : List UnwrittenLoc :=
  unwrittenLoc s r cw.src0.loc ++ unwrittenLoc s r cw.src1.loc

theorem select_word {s : State} {r : Record} {cw : ControlWord} (hcur : s.ex.cur = some r)
    (hw : wordOf s.cfg r s.ex.sstate s.ex.desc = some cw) (hok : cw.ok = true) :
    select s = startWord cw s := by
  unfold wordOf at hw
  split at hw
  · rename_i h
    simp only [Option.some.injEq] at hw
    simp [select, selectWord, hcur, h, hw]
  all_goals
    first
    | (rename_i h
       simp only [Option.map_eq_some_iff] at hw
       obtain ⟨⟨a, b⟩, hg, rfl⟩ := hw
       simp [select, selectWord, hcur, h, hg])
    | (simp at hw)

theorem readLoc_congr {s t : State} (h1 : s.regs = t.regs) (h2 : s.f = t.f) (h3 : s.mar = t.mar)
    (h4 : s.mdr = t.mdr) (r : Record) (l : BusLoc) : readLoc s r l = readLoc t r l := by
  cases l <;> simp [readLoc, State.view, State.x24, h1, h2, h3, h4]

theorem readSource_congr {s t : State} (h1 : s.regs = t.regs) (h2 : s.f = t.f) (h3 : s.mar = t.mar)
    (h4 : s.mdr = t.mdr) (r : Record) (x : Source) : readSource s r x = readSource t r x := by
  simp [readSource, readLoc_congr h1 h2 h3 h4]

theorem unwrittenLoc_congr {s t : State} (h1 : s.regs = t.regs) (h2 : s.f = t.f) (h3 : s.mar = t.mar)
    (h4 : s.mdr = t.mdr) (r : Record) (l : BusLoc) : unwrittenLoc s r l = unwrittenLoc t r l := by
  cases l <;> simp [unwrittenLoc, State.regUnwritten, h1, h2, h3, h4]

/-- Half1 of a live word. -/
theorem executeStart_live {u : State} {cw : ControlWord} (hr : u.status = .running)
    (hp : u.ex.exPending = none) (hc : u.ex.cw = some cw) : executeStart u = executeWord cw u := by
  simp [executeStart, State.running, State.hasAborted, hr, hp, hc]

/-- Half1 when a word is selected. -/
theorem executeStart_select {s u : State} {cw : ControlWord} (hr : s.status = .running)
    (hp : s.ex.exPending = none) (hc : s.ex.cw = none) (hsel : select s = u)
    (hcu : u.ex.cw = some cw) (hru : u.status = .running) :
    executeStart s = executeWord cw u := by
  simp [executeStart, State.running, State.hasAborted, hr, hp, hc, hsel, hcu, hru]

/-- A word whose operands are not latched latches them (R275). -/
theorem executeWord_latch {u : State} {cw : ControlWord} {r : Record} (hr : u.status = .running)
    (hv : u.ex.v0 = none) (hcur : u.ex.cur = some r) (hu : Usable u.cfg (operandLocs u r cw)) :
    executeWord cw u = executeWord cw { u with
        ex := { u.ex with
          v0 := some (readSource u r cw.src0), v1 := some (readSource u r cw.src1), fl := some u.f
          estate := .operandLatch } } := by
  have h : latchOperands cw u = { u with
        ex := { u.ex with
          v0 := some (readSource u r cw.src0), v1 := some (readSource u r cw.src1), fl := some u.f
          estate := .operandLatch } } := by
    unfold operandLocs at hu
    simp [latchOperands, hcur, consume_usable hu, State.running, hr]
  unfold executeWord
  simp only [hv, Option.isNone_none, if_true, h, Option.isNone_some, Bool.false_eq_true, if_false]

/-- The word started, its operands not latched yet. -/
def startedWord (cw : ControlWord) (s : State) : State :=
  { s with
    ex := { s.ex with
      cw := some cw, v0 := none, v1 := none, fl := none, res := none
      acc := if cw.mem = .none then .none else .toAssert } }

theorem startWord_ok {cw : ControlWord} (h : cw.ok = true) (s : State) :
    startWord cw s = startedWord cw s := by
  simp only [startWord, h, if_true, startedWord]

/-- Execute's half1 on a word that is to be started is its half1 on the word latched (R272, R275). -/
theorem executeStart_latch {s : State} {r : Record} {cw : ControlWord} (hl : Live s)
    (hcur : s.ex.cur = some r) (hw : wordOf s.cfg r s.ex.sstate s.ex.desc = some cw)
    (hok : cw.ok = true) (hu : Usable s.cfg (operandLocs s r cw)) :
    executeStart s = executeStart (latchWord cw r s) := by
  rw [executeStart_live (u := latchWord cw r s) hl.run hl.pend rfl]
  have hsel : select s = startedWord cw s := by rw [select_word hcur hw hok, startWord_ok hok]
  rw [executeStart_select hl.run hl.pend hl.cw hsel (cw := cw) rfl hl.run]
  rw [executeWord_latch (u := startedWord cw s) (r := r) hl.run rfl hcur]
  · rfl
  · have : operandLocs (startedWord cw s) r cw = operandLocs s r cw := by
      unfold operandLocs
      congr 1
    rw [this]
    exact hu

/-! ### Half2 -/

/-- The Fetch and Decode half-steps of half2 leave Execute's part alone. -/
theorem front2_cases (u : State) (hr : u.status = .running)
    (ho : u.ctl.owner = some .fetch → u.fetch.pf.isSome = true)
    (hh : u.ready = true → u.dec.dstate = .waitForSlot) :
    ∃ F C D R S, decodeHalf2 (fetchHalf2 u) =
        { u with fetch := F, ctl := C, dec := D, ready := R, slot := S } ∧
      (F.redir = none ∨ ∃ a, F.redir = some ⟨a, .decode⟩) ∧
      (R = true → D.dstate = .waitForSlot) ∧
      (u.dec.branchPending = true → R = u.ready ∧ D.branchPending = true ∧ F.redir = none) ∧
      ((C = u.ctl ∧ F.pf.isSome = u.fetch.pf.isSome) ∨
        (u.ex.exWantsMem = false ∧ u.ctl = .ready ∧ F.pf.isSome = true
          ∧ ∃ a, C = .readBusy a 2 .fetch)) := by
  obtain ⟨F, C, he, hre, hp⟩ := fetchHalf2_cases u hr ho
  rw [he]
  obtain ⟨F', D, R, S, he', h1, h2, h3, h4⟩ :=
    decodeHalf2_cases { u with fetch := F, ctl := C } hr hh
  refine ⟨F', C, D, R, S, he', ?_, h3, ?_, ?_⟩
  · rcases h2 with h2 | h2
    · exact .inl (h2.trans hre)
    · exact .inr h2
  · intro hb
    obtain ⟨a, b, c⟩ := h4 hb
    exact ⟨a, b, c.trans hre⟩
  · rw [h1]
    exact hp

/-- The tick and the front of the next half1, when Execute has nothing in flight. -/
theorem settle_free (u : State) (hr : u.status = .running) (hp : u.ex.exPending = none)
    (port : FreePort u.ctl u.fetch) (hh : u.ready = true → u.dec.dstate = .waitForSlot) :
    ∃ F C D Dr, half1Front (tick u) =
        { u with
          fetch := F, ctl := C, dec := D, draws := Dr, ex := { u.ex with brResolve := none } } ∧
      F.redir = u.fetch.redir ∧ FreePort C F ∧ (u.ready = true → D.dstate = .waitForSlot) ∧
      (u.ex.brResolve = none → D = u.dec) ∧ Dr.length ≤ u.draws.length ∧
      (u.fair = true → C = .ready ∨ Dr.length < u.draws.length) := by
  obtain ⟨C1, Dr, ht, hlen, hport⟩ : ∃ C1 Dr, tick u = { u with ctl := C1, draws := Dr } ∧
      Dr.length ≤ u.draws.length ∧
      ((C1 = .ready ∧ u.fetch.pf = none) ∨
       ((∃ d, C1 = .latched d .fetch) ∧ u.fetch.pf.isSome = true) ∨
       ((∃ a n, C1 = .readBusy a n .fetch) ∧ u.fetch.pf.isSome = true
          ∧ (u.fair = true → Dr.length < u.draws.length))) := by
    rcases port with ⟨hc, hpf⟩ | ⟨a, n, hc, hpf⟩
    · have ht : tick u = u := by simp [tick, hc]
      exact ⟨u.ctl, u.draws, ht, le_refl _, .inl ⟨hc, hpf⟩⟩
    · cases hd : u.draws with
      | nil =>
        cases hfa : u.fair with
        | true =>
          exact ⟨_, _, by simp only [tick, hc, State.drawDone, hd, hfa, if_true]; rfl, by simp,
            .inr (.inl ⟨⟨_, rfl⟩, hpf⟩)⟩
        | false =>
          refine ⟨u.ctl, [], ?_, by simp, .inr (.inr ⟨⟨a, n, hc⟩, hpf, by simp⟩)⟩
          simp only [tick, hc, State.drawDone, hd, hfa, Bool.false_eq_true, if_false, List.tail_nil]
      | cons d ds =>
        cases d with
        | true =>
          exact ⟨_, _, by simp only [tick, hc, State.drawDone, hd, if_true]; rfl, by simp,
            .inr (.inl ⟨⟨_, rfl⟩, hpf⟩)⟩
        | false =>
          refine ⟨u.ctl, ds, ?_, by simp, .inr (.inr ⟨⟨a, n, hc⟩, hpf, by simp⟩)⟩
          simp only [tick, hc, State.drawDone, hd, Bool.false_eq_true, if_false, List.tail_cons]
  rw [ht]
  obtain ⟨F, hre, hF⟩ := fetchHalf1_cases { u with ctl := C1, draws := Dr } hr
  obtain ⟨C2, hf1, hport2, hlt⟩ : ∃ C2, fetchHalf1 { u with ctl := C1, draws := Dr } =
      { u with ctl := C2, draws := Dr, fetch := F } ∧ FreePort C2 F ∧
      (u.fair = true → C2 = .ready ∨ Dr.length < u.draws.length) := by
    rcases hport with ⟨hc, hpf⟩ | ⟨⟨d, hc⟩, hpf⟩ | ⟨⟨a, n, hc⟩, hpf, hl⟩
    · rcases hF with ⟨-, h, -, -⟩ | ⟨-, h2, h3⟩
      · simp [hpf] at h
      · exact ⟨C1, h3, .inl ⟨hc, h2.trans hpf⟩, fun _ => .inl hc⟩
    · rcases hF with ⟨-, -, h2, h3⟩ | ⟨h1, -, -⟩
      · exact ⟨.ready, h3, .inl ⟨rfl, h2⟩, fun _ => .inl rfl⟩
      · rcases h1 with h1 | h1
        · simp [hc, Ctl.dataReady] at h1
        · simp only at h1
          simp [h1] at hpf
    · rcases hF with ⟨h1, -, -, -⟩ | ⟨-, h2, h3⟩
      · simp [hc, Ctl.dataReady] at h1
      · exact ⟨C1, h3, .inr ⟨a, n, hc, by rw [h2]; exact hpf⟩, fun hf => .inr (hl hf)⟩
  unfold half1Front
  rw [hf1]
  obtain ⟨D, hd, h1, h2⟩ := decodeHalf1_cases { u with ctl := C2, draws := Dr, fetch := F } hr hh
  rw [hd]
  refine ⟨F, C2, D, Dr, ?_, hre, hport2, h1, h2, hlen, hlt⟩
  simp [memWait, State.running, hp]

/-- An access of Execute in flight: how the controller holds it. -/
def BusyFor (c : Ctl) (p : Pending) (a : Addr) (v : Data) : Prop :=
  match p.kind with
  | .read => c = .readBusy a p.n .execute
  | .write => c = .writeBusy a p.n v .execute

/-- What a completed access of Execute leaves in MDR and in memory (R276, R66). -/
def accessDone (p : Pending) (a : Addr) (v : Data) (s : State) : State :=
  match p.kind with
  | .read => { s with mdr := ⟨s.load a p.n, true⟩ }
  | .write => { s with mem := s.mem.store s.cfg.endian a p.n v, writes := s.writes ++ [⟨a, p.n, v⟩] }

/-- The tick and the front of the next half1, when Execute's access is in flight: it waits, using up a
draw, or its completion is collected. -/
theorem settle_busy (u : State) (p : Pending) (a : Addr) (v : Data) (hr : u.status = .running)
    (hfa : u.fair = true) (hp : u.ex.exPending = some p) (hc : BusyFor u.ctl p a v)
    (hpf : u.fetch.pf = none) (hh : u.ready = true → u.dec.dstate = .waitForSlot) :
    ∃ F D Dr, F.redir = u.fetch.redir ∧ F.pf = none ∧ (u.ready = true → D.dstate = .waitForSlot) ∧
      (u.ex.brResolve = none → D = u.dec) ∧
      ((half1Front (tick u) = { u with
          fetch := F, dec := D, draws := Dr, ex := { u.ex with brResolve := none } } ∧
          Dr.length < u.draws.length) ∨
       (half1Front (tick u) = { accessDone p a v u with
          fetch := F, ctl := .ready, dec := D, draws := Dr
          ex := { u.ex with brResolve := none, exPending := none } } ∧
          Dr.length ≤ u.draws.length)) := by
  obtain ⟨C1, M, W, Dr, ht, hcase⟩ : ∃ C1 M W Dr,
      tick u = { u with ctl := C1, mem := M, writes := W, draws := Dr } ∧
      ((C1 = u.ctl ∧ M = u.mem ∧ W = u.writes ∧ Dr.length < u.draws.length) ∨
       (Dr.length ≤ u.draws.length ∧
        ((p.kind = .read ∧ M = u.mem ∧ W = u.writes ∧
            C1 = .latched (some (u.load a p.n)) .execute) ∨
         (p.kind = .write ∧ M = u.mem.store u.cfg.endian a p.n v ∧ W = u.writes ++ [⟨a, p.n, v⟩] ∧
            C1 = .latched none .execute)))) := by
    have hd : u.drawDone = true ∨ (u.drawDone = false ∧ u.draws.tail.length < u.draws.length) := by
      unfold State.drawDone
      cases u.draws with
      | nil => exact .inl hfa
      | cons d ds => cases d <;> simp
    have hle : u.draws.tail.length ≤ u.draws.length := by simp
    unfold BusyFor at hc
    cases hk : p.kind with
    | read =>
      rw [hk] at hc
      simp only at hc
      rcases hd with hd | ⟨hd, hlt⟩
      · exact ⟨_, u.mem, u.writes, u.draws.tail, by simp only [tick, hc, hd, if_true], .inr ⟨hle,
          .inl ⟨rfl, rfl, rfl, rfl⟩⟩⟩
      · refine ⟨u.ctl, u.mem, u.writes, u.draws.tail, ?_, .inl ⟨rfl, rfl, rfl, hlt⟩⟩
        simp only [tick, hc, hd, Bool.false_eq_true, if_false]
    | write =>
      rw [hk] at hc
      simp only at hc
      rcases hd with hd | ⟨hd, hlt⟩
      · exact ⟨_, _, _, u.draws.tail, by simp only [tick, hc, hd, if_true], .inr ⟨hle,
          .inr ⟨rfl, rfl, rfl, rfl⟩⟩⟩
      · refine ⟨u.ctl, u.mem, u.writes, u.draws.tail, ?_, .inl ⟨rfl, rfl, rfl, hlt⟩⟩
        simp only [tick, hc, hd, Bool.false_eq_true, if_false]
  rw [ht]
  obtain ⟨F, hre, hF⟩ := fetchHalf1_cases { u with ctl := C1, mem := M, writes := W, draws := Dr } hr
  obtain ⟨hFpf, hf1⟩ : F.pf = none ∧ fetchHalf1 { u with ctl := C1, mem := M, writes := W, draws := Dr } =
      { u with ctl := C1, mem := M, writes := W, draws := Dr, fetch := F } := by
    rcases hF with ⟨-, h, -, -⟩ | ⟨-, h2, h3⟩
    · simp [hpf] at h
    · exact ⟨h2.trans hpf, h3⟩
  unfold half1Front
  rw [hf1]
  obtain ⟨D, hd, h1, h2⟩ :=
    decodeHalf1_cases { u with ctl := C1, mem := M, writes := W, draws := Dr, fetch := F } hr hh
  rw [hd]
  refine ⟨F, D, Dr, hre, hFpf, h1, h2, ?_⟩
  have hmw : ∀ x : State, x.status = .running → x.ex.exPending = some p →
      memWait x = if x.ctl.dataReady .execute then
        { x with
          mdr := if p.kind = .read then ⟨x.ctl.latchedData, true⟩ else x.mdr
          ctl := .ready
          ex := { x.ex with exPending := none } }
        else x := by
    intro x hx1 hx2
    simp [memWait, State.running, hx1, hx2]
  rw [hmw]
  rotate_left
  · exact hr
  · exact hp
  rcases hcase with ⟨rfl, rfl, rfl, hlt⟩ | ⟨hle, ⟨hk, rfl, rfl, rfl⟩ | ⟨hk, rfl, rfl, rfl⟩⟩
  · refine .inl ⟨?_, hlt⟩
    have : u.ctl.dataReady .execute = false := by
      unfold BusyFor at hc
      split at hc <;> simp [hc, Ctl.dataReady]
    simp only [this, Bool.false_eq_true, if_false]
  · refine .inr ⟨?_, hle⟩
    simp [Ctl.dataReady, accessDone, hk, Ctl.latchedData]
  · refine .inr ⟨?_, hle⟩
    simp [Ctl.dataReady, accessDone, hk]

/-! ### The commit -/

/-- Writing a location changes the registers, F, MAR or MDR (R110). -/
theorem writeLoc_frame (s : State) (r : Record) (l : BusLoc) (v : Data) :
    writeLoc s r l v = { s with
      regs := (writeLoc s r l v).regs, f := (writeLoc s r l v).f
      mar := (writeLoc s r l v).mar, mdr := (writeLoc s r l v).mdr } := by
  cases l <;> rfl

/-- What the branch action asks for: the redirect and the resolution signal (R290). -/
def branchAsk (c : Config) (r : Record) (st : SState) (fl : Flags) (out : AluOut)
    (F : FetchState) : FetchState × Option BrResolve :=
  if st = .coreOp ∧ r.isBranch = true ∧ r.prog.static = false then
    if condHolds c.flagPos fl r.prog.pred then
      ({ F with redir := some ⟨out.result, .execute⟩ }, some (.taken out.result))
    else (F, some .notTaken)
  else (F, none)

/-- The flags a branch's predicate consumes at the commit (R289). -/
def branchLocs (c : Config) (r : Record) (st : SState) (fl : Flags) : List UnwrittenLoc :=
  if st = .coreOp ∧ r.isBranch = true ∧ r.prog.static = false then
    unwrittenCond c.flagPos fl r.prog.pred
  else []

/-- A state after the commit of a word (R283, R284). -/
def committed (cw : ControlWord) (r : Record) (fl : Flags) (out : AluOut) (nx : SState × Desc)
    (u : State) : State :=
  let w := writeLoc u r cw.dest out.result
  { w with
    f := commitFlags u.cfg.flagPos cw.fmask out.flags w.f
    fetch := (branchAsk u.cfg r u.ex.sstate fl out u.fetch).1
    ex := { u.ex.leave nx.1 nx.2 with
      brResolve := (branchAsk u.cfg r u.ex.sstate fl out u.fetch).2 } }

theorem advance_eq {s : State} {r : Record} {nx : SState × Desc} (hcur : s.ex.cur = some r)
    (hn : nextOf s.cfg r s.ex.sstate s.ex.desc = some nx) :
    advance s = { s with ex := s.ex.leave nx.1 nx.2 } := by
  unfold nextOf at hn
  unfold advance
  simp only [hcur]
  cases hst : s.ex.sstate <;> simp only [hst, Option.map_eq_some_iff, reduceCtorEq] at hn ⊢
  · obtain ⟨⟨a, b⟩, hg, rfl⟩ := hn
    simp only [hg]
  · obtain ⟨⟨a, b⟩, hg, rfl⟩ := hn
    simp only [hg]
  · simp only [Option.some.injEq] at hn
    subst hn
    split <;> rfl
  · obtain ⟨⟨a, b⟩, hg, rfl⟩ := hn
    simp only [hg]

/-- The branch action (R290). -/
theorem resolveBranch_eq {u : State} {r : Record} {fl : Flags} {out : AluOut}
    (hr : u.status = .running) (hb : u.ex.brResolve = none) (hst : u.ex.sstate = .coreOp)
    (hbr : r.isBranch = true) (hu : Usable u.cfg (branchLocs u.cfg r u.ex.sstate fl)) :
    resolveBranch r out.result fl u = { u with
      fetch := (branchAsk u.cfg r u.ex.sstate fl out u.fetch).1
      ex := { u.ex with brResolve := (branchAsk u.cfg r u.ex.sstate fl out u.fetch).2 } } := by
  have hex : u.ex = { u.ex with brResolve := none } := by rw [← hb]
  by_cases hs : r.prog.static = true
  · have hask : branchAsk u.cfg r u.ex.sstate fl out u.fetch = (u.fetch, none) := by
      unfold branchAsk
      rw [if_neg (fun h => by simp [hs] at h)]
    rw [hask]
    unfold resolveBranch
    rw [if_pos hs]
    exact congrArg (fun e => { u with ex := e }) hex
  · have hs' : r.prog.static = false := by simpa using hs
    have hu' : Usable u.cfg (unwrittenCond u.cfg.flagPos fl r.prog.pred) := by
      unfold branchLocs at hu
      rwa [if_pos ⟨hst, hbr, hs'⟩] at hu
    have hask : branchAsk u.cfg r u.ex.sstate fl out u.fetch =
        if condHolds u.cfg.flagPos fl r.prog.pred then
          ({ u.fetch with redir := some ⟨out.result, .execute⟩ }, some (.taken out.result))
        else (u.fetch, some .notTaken) := by
      unfold branchAsk
      rw [if_pos ⟨hst, hbr, hs'⟩]
    rw [hask]
    unfold resolveBranch
    rw [if_neg hs, consume_usable hu']
    simp only
    rw [if_pos (running_of hr), if_neg (by simp [hb])]
    split <;> rfl

/-- The commit of a word: its destination, its flags, its branch action and the advance. -/
theorem commit_eq {u : State} {cw : ControlWord} {r : Record} {fl : Flags} {out : AluOut}
    {nx : SState × Desc} (hr : u.status = .running) (hcur : u.ex.cur = some r)
    (hb : u.ex.brResolve = none) (hpc : pcWriteOk cw r u.ex.sstate = true)
    (hn : nextOf u.cfg r u.ex.sstate u.ex.desc = some nx)
    (hu : Usable u.cfg (branchLocs u.cfg r u.ex.sstate fl)) :
    commit cw r fl out u = committed cw r fl out nx u := by
  have hex : u.ex = { u.ex with brResolve := none } := by rw [← hb]
  obtain ⟨R, Fl, Ma, Md, hw⟩ : ∃ R Fl Ma Md, writeLoc u r cw.dest out.result =
      { u with regs := R, f := Fl, mar := Ma, mdr := Md } := ⟨_, _, _, _, writeLoc_frame _ _ _ _⟩
  unfold commit
  rw [if_pos hpc]
  simp only [hw]
  have key : (if u.ex.sstate = .coreOp ∧ r.isBranch = true then
        resolveBranch r out.result fl { u with
          regs := R, mar := Ma, mdr := Md
          f := commitFlags u.cfg.flagPos cw.fmask out.flags Fl }
      else { u with
          regs := R, mar := Ma, mdr := Md
          f := commitFlags u.cfg.flagPos cw.fmask out.flags Fl }) =
      { u with
        regs := R, mar := Ma, mdr := Md
        f := commitFlags u.cfg.flagPos cw.fmask out.flags Fl
        fetch := (branchAsk u.cfg r u.ex.sstate fl out u.fetch).1
        ex := { u.ex with brResolve := (branchAsk u.cfg r u.ex.sstate fl out u.fetch).2 } } := by
    split
    · rename_i h
      rw [resolveBranch_eq (by exact hr) (by exact hb) (by exact h.1) h.2 (by exact hu)]
    · rename_i h
      have hask : branchAsk u.cfg r u.ex.sstate fl out u.fetch = (u.fetch, none) := by
        unfold branchAsk
        rw [if_neg (fun h' => h ⟨h'.1, h'.2.1⟩)]
      rw [hask]
      exact congrArg (fun e => { u with
          regs := R, mar := Ma, mdr := Md
          f := commitFlags u.cfg.flagPos cw.fmask out.flags Fl, ex := e }) hex
  rw [key, if_pos (running_of (by exact hr)), advance_eq (r := r) (nx := nx) (by exact hcur)
    (by exact hn)]
  simp only [committed, hw]
  rfl

/-! ### A word without an access -/

theorem not_finished {s : State} {r : Record} {cw : ControlWord}
    (hw : wordOf s.cfg r s.ex.sstate s.ex.desc = some cw) : s.finished = false := by
  unfold wordOf at hw
  unfold State.finished
  cases hst : s.ex.sstate <;> simp [hst] at hw ⊢

theorem running_mk {st : RunStatus} (h : st = .running) (c : Config) (rg : Vector GReg 8) (f : Flags)
    (sh : Fin 1) (fe : FetchState) (de : DecodeState) (rd : Bool) (sl : Record) (ex : ExecState)
    (ma md : Latch) (ct : Ctl) (dr : List Bool) (fa : Bool) (me : Memory) (ws : List Write)
    (lo : List LogEntry) (n : Nat) :
    State.running ⟨c, rg, f, sh, fe, de, rd, sl, ex, ma, md, ct, dr, fa, me, ws, st, lo, n⟩ = true := by
  simp [State.running, h]

/-- Half1 of a latched word that has no access. -/
theorem executeStart_plain {u : State} {cw : ControlWord} (hr : u.status = .running)
    (hp : u.ex.exPending = none) (hc : u.ex.cw = some cw) (hv : u.ex.v0.isNone = false)
    (hmem : cw.mem = .none) (hacc : u.ex.acc = .none) :
    executeStart u = { u with ex := { u.ex with exWantsMem := false } } := by
  rw [executeStart_live hr hp hc]
  have h1 : (cw.mem = .h1 ∧ u.ex.acc = .toAssert) = False := by simp [hmem]
  have h2 : (u.ex.acc == .toAssert) = false := by rw [hacc]; rfl
  simp only [executeWord, assertH1, hv, Bool.false_eq_true, if_false, running_of hr, if_true, h1, h2]

/-- Half2 of a word up to its access (R284). -/
theorem executeHalf2_live {u : State} {cw : ControlWord} {v0 v1 : Data} {fl : Flags}
    (hr : u.status = .running) (hc : u.ex.cw = some cw) (h0 : u.ex.v0 = some v0)
    (h1 : u.ex.v1 = some v1) (hf : u.ex.fl = some fl) :
    executeHalf2 u = finishWord cw v0 v1 fl u := by
  simp [executeHalf2, State.running, hr, hc, h0, h1, hf]

/-- The ALU result, latched once (R284). -/
theorem latchResult_eq {u : State} {cw : ControlWord} {v0 v1 : Data} {fl : Flags}
    (hr : u.status = .running)
    (hres : u.ex.res = none ∨ u.ex.res = some (alu u.cfg cw v0 v1 fl))
    (hu : Usable u.cfg (aluUnwritten u.cfg cw fl)) :
    ∃ e, latchResult cw v0 v1 fl u = { u with
      ex := { u.ex with res := some (alu u.cfg cw v0 v1 fl), estate := e } } := by
  unfold latchResult
  rcases hres with hres | hres
  · rw [if_neg (by simp [hres]), consume_usable hu]
    simp only
    rw [if_pos (running_of hr)]
    exact ⟨_, rfl⟩
  · rw [if_pos (by simp [hres])]
    refine ⟨u.ex.estate, ?_⟩
    have : u.ex = { u.ex with res := some (alu u.cfg cw v0 v1 fl), estate := u.ex.estate } := by
      rw [← hres]
    exact congrArg (fun e => { u with ex := e }) this

/-- Half2 of a word without an access commits it. -/
theorem executeHalf2_plain {u : State} {cw : ControlWord} {r : Record} {v0 v1 : Data} {fl : Flags}
    {nx : SState × Desc} (hr : u.status = .running) (hc : u.ex.cw = some cw)
    (h0 : u.ex.v0 = some v0) (h1 : u.ex.v1 = some v1) (hf : u.ex.fl = some fl)
    (hres : u.ex.res = none) (hacc : u.ex.acc = .none) (hcur : u.ex.cur = some r)
    (hb : u.ex.brResolve = none) (hpc : pcWriteOk cw r u.ex.sstate = true)
    (hn : nextOf u.cfg r u.ex.sstate u.ex.desc = some nx)
    (hu2 : Usable u.cfg (aluUnwritten u.cfg cw fl))
    (hu3 : Usable u.cfg (branchLocs u.cfg r u.ex.sstate fl)) :
    ∃ e, executeHalf2 u = committed cw r fl (alu u.cfg cw v0 v1 fl) nx { u with
      ex := { u.ex with res := some (alu u.cfg cw v0 v1 fl), estate := e } } := by
  obtain ⟨e, hl⟩ := latchResult_eq hr (.inl hres) hu2 (v0 := v0) (v1 := v1)
  refine ⟨e, ?_⟩
  rw [executeHalf2_live hr hc h0 h1 hf]
  generalize hu' : ({ u with
      ex := { u.ex with res := some (alu u.cfg cw v0 v1 fl), estate := e } } : State) = u' at hl ⊢
  have k1 : u'.status = .running := by rw [← hu']; exact hr
  have k2 : u'.ex.acc = .none := by rw [← hu']; exact hacc
  have k3 : u'.ex.cur = some r := by rw [← hu']; exact hcur
  have k4 : u'.ex.res = some (alu u.cfg cw v0 v1 fl) := by rw [← hu']
  have k5 : u'.ex.brResolve = none := by rw [← hu']; exact hb
  have k6 : pcWriteOk cw r u'.ex.sstate = true := by rw [← hu']; exact hpc
  have k7 : nextOf u'.cfg r u'.ex.sstate u'.ex.desc = some nx := by rw [← hu']; exact hn
  have k8 : Usable u'.cfg (branchLocs u'.cfg r u'.ex.sstate fl) := by rw [← hu']; exact hu3
  have h2 : (u'.ex.acc != .toAssert) = true := by rw [k2]; rfl
  have h3 : (u'.ex.acc = .toAssert) = False := by simp [k2]
  unfold finishWord assertHalf2 commitUnlessBlocked
  rw [hl]
  simp only [running_of k1, if_true, h3, if_false, h2, Bool.and_true, k3, k4]
  exact commit_eq k1 k3 k5 k6 k7 k8

/-- Some of what two states with the same `exe` share. -/
theorem exe_facts {s t : State} (h : t.exe = s.exe) :
    t.cfg = s.cfg ∧ t.ex.sstate = s.ex.sstate ∧ t.ex.desc = s.ex.desc ∧ t.mar = s.mar ∧
      t.mdr = s.mdr ∧ t.fair = s.fair := by
  simp only [State.exe, State.mk.injEq, ExecState.mk.injEq] at h
  simp only [h, and_self]

/-- The commit sees only what `exe` keeps. -/
theorem committed_exe (cw : ControlWord) (r : Record) (fl : Flags) (out : AluOut)
    (nx : SState × Desc) (u : State) :
    (committed cw r fl out nx u).exe = (committed cw r fl out nx u.exe).exe := by
  obtain ⟨_, _, dest⟩ := cw
  cases dest <;> rfl

/-- The ALU result of the word selected at `s`. -/
def wordOut (cw : ControlWord) (r : Record) (s : State) : AluOut :=
  alu s.cfg cw (readSource s r cw.src0) (readSource s r cw.src1) s.f

/-- The word is the core word of a branch that Execute resolves (R290). -/
def Resolves (r : Record) (st : SState) : Prop :=
  st = .coreOp ∧ r.isBranch = true ∧ r.prog.static = false

/-- What a cycle does to the redirect latch and to the hold on younger records. -/
structure FrontAfter (r : Record) (out : AluOut) (s t : State) : Prop where
  taken : Resolves r s.ex.sstate → condHolds s.cfg.flagPos s.f r.prog.pred = true →
    t.fetch.redir = some ⟨out.result, .execute⟩
  notTaken : (Resolves r s.ex.sstate → condHolds s.cfg.flagPos s.f r.prog.pred = false) →
    ∀ q, t.fetch.redir = some q → q.src = .decode
  held : s.dec.branchPending = true → s.ready = false → t.ready = false
  pending : s.dec.branchPending = true → ¬ Resolves r s.ex.sstate → t.dec.branchPending = true
  keeps : (Resolves r s.ex.sstate → condHolds s.cfg.flagPos s.f r.prog.pred = false) → Keeps s t
  goes : Resolves r s.ex.sstate → condHolds s.cfg.flagPos s.f r.prog.pred = true →
    s.dec.branchPending = true → s.ready = false → s.chained = true →
    t.frontOk = true ∧ t.pc = out.result

/-- One cycle runs a word that has no access. -/
theorem run_plain {s : State} {r : Record} {cw : ControlWord} {nx : SState × Desc} (hl : Live s)
    (hcur : s.ex.cur = some r) (hw : wordOf s.cfg r s.ex.sstate s.ex.desc = some cw)
    (hn : nextOf s.cfg r s.ex.sstate s.ex.desc = some nx) (hok : cw.ok = true)
    (hmem : cw.mem = .none) (hpc : pcWriteOk cw r s.ex.sstate = true)
    (hu1 : Usable s.cfg (operandLocs s r cw)) (hu2 : Usable s.cfg (aluUnwritten s.cfg cw s.f))
    (hu3 : Usable s.cfg (branchLocs s.cfg r s.ex.sstate s.f)) :
    ∃ t, Reach 1 s t ∧ Live t ∧ t.exe = (committed cw r s.f (wordOut cw r s) nx s).exe ∧
      t.draws.length ≤ s.draws.length ∧ FrontAfter r (wordOut cw r s) s t := by
  refine ⟨turn s, reach_turn hl.run (not_finished hw), ?_⟩
  unfold turn
  rw [executeStart_latch hl hcur hw hok hu1,
    executeStart_plain (cw := cw) (by exact hl.run) (by exact hl.pend) (by rfl) (by rfl) hmem
      (by simp [latchWord, hmem])]
  generalize hm : ({ latchWord cw r s with
    ex := { (latchWord cw r s).ex with exWantsMem := false } } : State) = m
  have m1 : m.status = .running := by rw [← hm]; exact hl.run
  have m2 : FreePort m.ctl m.fetch := by rw [← hm]; exact hl.port
  have m3 : m.ready = true → m.dec.dstate = .waitForSlot := by rw [← hm]; exact hl.hand
  have m4 : m.ctl.owner = some .fetch → m.fetch.pf.isSome = true := by
    intro h
    rcases m2 with ⟨h1, -⟩ | ⟨a, n, -, h2⟩
    · rw [h1] at h; cases h
    · exact h2
  have mdec : m.dec = s.dec := by rw [← hm]; rfl
  have mready : m.ready = s.ready := by rw [← hm]; rfl
  have mdraws : m.draws = s.draws := by rw [← hm]; rfl
  have mexe : m.exe = s.exe := by rw [← hm]; rfl
  have mcfg : m.cfg = s.cfg := by rw [← hm]; rfl
  have mex : m.ex = { (latchWord cw r s).ex with exWantsMem := false } := by rw [← hm]
  obtain ⟨F, C, D, R, S, he, hre, hhand, hbp, hport⟩ := front2_cases m m1 m4 m3
  have hport' : FreePort C F := by
    rcases hport with ⟨rfl, hpf⟩ | ⟨-, -, hpf, a, rfl⟩
    · rcases m2 with ⟨h1, h2⟩ | ⟨a, n, h1, h2⟩
      · refine .inl ⟨h1, ?_⟩
        rw [h2] at hpf
        simpa using hpf
      · exact .inr ⟨a, n, h1, hpf.trans h2⟩
    · exact .inr ⟨a, 2, rfl, hpf⟩
  rw [he]
  obtain ⟨e, hx⟩ := executeHalf2_plain
    (u := { m with fetch := F, ctl := C, dec := D, ready := R, slot := S }) (cw := cw) (r := r)
    (v0 := readSource s r cw.src0) (v1 := readSource s r cw.src1) (fl := s.f) (nx := nx)
    (by exact m1) (by simp only [mex]; rfl) (by simp only [mex]; rfl) (by simp only [mex]; rfl)
    (by simp only [mex]; rfl) (by simp only [mex]; rfl)
    (by simp only [mex, latchWord, hmem, if_true]) (by simp only [mex]; exact hcur)
    (by simp only [mex]; exact hl.br) (by simp only [mex]; exact hpc)
    (by simp only [mex, mcfg]; exact hn) (by simp only [mcfg]; exact hu2)
    (by simp only [mex, mcfg]; exact hu3)
  rw [hx]
  have hout : alu m.cfg cw (readSource s r cw.src0) (readSource s r cw.src1) s.f =
      wordOut cw r s := by rw [mcfg]; rfl
  simp only [hout]
  generalize hy : ({ m with
    fetch := F, ctl := C, dec := D, ready := R, slot := S
    ex := { m.ex with res := some (wordOut cw r s), estate := e } } : State) = y
  have y1 : y.exe = s.exe := by rw [← hy, ← mexe]; rfl
  have ycfg : y.cfg = s.cfg := by rw [← hy]; exact mcfg
  have yst : y.ex.sstate = s.ex.sstate := by rw [← hy]; simp only [mex]; rfl
  have z0 : ∀ z, z = committed cw r s.f (wordOut cw r s) nx y →
      z.exe = (committed cw r s.f (wordOut cw r s) nx s).exe ∧ z.status = .running ∧
      z.ex.cw = none ∧ z.ex.exPending = none ∧ z.ctl = C ∧ z.dec = D ∧ z.ready = R ∧
      z.draws = s.draws ∧ z.slot = S ∧ z.cfg = s.cfg ∧
      z.fetch = (branchAsk s.cfg r s.ex.sstate s.f (wordOut cw r s) F).1 ∧
      z.ex.brResolve = (branchAsk s.cfg r s.ex.sstate s.f (wordOut cw r s) F).2 := by
    rintro z rfl
    refine ⟨?_, ?_, rfl, ?_, ?_, ?_, ?_, ?_, ?_, ?_, ?_, ?_⟩
    · rw [committed_exe, y1, ← committed_exe]
    · rw [committed, writeLoc_frame, ← hy]; exact m1
    · rw [← hy]; simp only [mex, committed]; exact hl.pend
    · rw [committed, writeLoc_frame, ← hy]
    · rw [committed, writeLoc_frame, ← hy]
    · rw [committed, writeLoc_frame, ← hy]
    · rw [committed, writeLoc_frame, ← hy]; exact mdraws
    · rw [committed, writeLoc_frame, ← hy]
    · rw [committed, writeLoc_frame, ← hy]; exact mcfg
    · simp only [committed, ycfg, yst]
      rw [← hy]
    · simp only [committed, ycfg, yst]
      rw [← hy]
  obtain ⟨z1, z2, z3, z4, z5, z6, z7, z8, zslot, zcfg, z9, z10⟩ := z0 _ rfl
  generalize committed cw r s.f (wordOut cw r s) nx y = z at *
  have zport : FreePort z.ctl z.fetch := by
    rw [z5, z9]
    unfold branchAsk
    split
    · split <;> exact hport'
    · exact hport'
  obtain ⟨F2, C2, D2, Dr, ht, q1, q2, q3, q4, q5, -⟩ :=
    settle_free z z2 z4 zport (by rw [z7, z6]; exact hhand)
  have kfront : Keeps s { m with fetch := F, ctl := C, dec := D, ready := R, slot := S } := by
    rw [← he]
    refine Keeps.trans (t := m) ?_ (keeps_front2 m m1 m4 m3)
    exact .of_same (by rw [mcfg]) (by rw [← hm]; rfl) mdec mready (by rw [← hm]; rfl)
  have ksettle := keeps_settle z
  have ktaken := settle_taken z
  rw [ht] at ksettle ktaken
  rw [ht]
  refine ⟨⟨z2, z3, z4, rfl, q2, q3⟩, z1, by rw [z8] at q5; exact q5, ?_, ?_, ?_, ?_, ?_, ?_⟩
  · rintro ⟨h1, h2, h3⟩ hc
    simp only [q1, z9, branchAsk, h1, h2, h3, hc, and_self, if_true]
  · intro hnt q hq
    have hF : (branchAsk s.cfg r s.ex.sstate s.f (wordOut cw r s) F).1 = F := by
      unfold branchAsk
      split
      · rename_i h
        rw [if_neg (by simp [hnt h])]
      · rfl
    simp only [q1, z9, hF] at hq
    rcases hre with h | ⟨a, h⟩
    · rw [h] at hq; cases hq
    · rw [h] at hq; cases hq; rfl
  · intro hb hrd
    simp only [z7]
    rw [mdec] at hbp
    rw [(hbp hb).1, mready, hrd]
  · intro hb hnr
    rw [mdec] at hbp
    have : z.ex.brResolve = none := by
      rw [z10]
      exact congrArg Prod.snd (if_neg hnr)
    simp only [q4 this, z6]
    exact (hbp hb).2.1
  · intro hnt
    have hask : (branchAsk s.cfg r s.ex.sstate s.f (wordOut cw r s) F).1 = F ∧
        ∀ a, (branchAsk s.cfg r s.ex.sstate s.f (wordOut cw r s) F).2 ≠ some (.taken a) := by
      unfold branchAsk
      split
      · rename_i h
        rw [if_neg (by simp [hnt h])]
        exact ⟨rfl, by simp⟩
      · exact ⟨rfl, by simp⟩
    refine Keeps.trans kfront (Keeps.trans (t := z) ?_ (ksettle ?_))
    · exact .of_same (by rw [zcfg]; simp only [mcfg]) (by rw [z9, hask.1]) z6 z7 zslot
    · rw [z10]
      exact hask.2
  · rintro hres hc hb hrd hch
    have hask : branchAsk s.cfg r s.ex.sstate s.f (wordOut cw r s) F =
        ({ F with redir := some ⟨(wordOut cw r s).result, .execute⟩ },
          some (.taken (wordOut cw r s).result)) := by
      unfold branchAsk
      rw [if_pos (show _ ∧ _ ∧ _ from hres), if_pos hc]
    obtain ⟨d1, d2, d3⟩ := ktaken _ z2 (by rw [z10, hask])
    have hred : F2.redir = some ⟨(wordOut cw r s).result, .execute⟩ := by rw [q1, z9, hask]
    rw [mdec] at hbp
    have hR : R = false := by rw [(hbp hb).1, mready, hrd]
    have hrdy : z.ready = false := z7.trans hR
    constructor
    · rw [frontOk_iff]
      refine ⟨d3 ?_, .inr d1, by rw [d1, d2]; simp, .inl d1,
        fun h => absurd (hrdy.symm.trans h) (by simp)⟩
      have hcz := kfront.chain hch
      have e1 : z.fetch.held = F.held := by rw [z9, hask]; rfl
      simp only [State.chained, e1, zcfg]
      simpa only [State.chained, mcfg] using hcz
    · rw [pc_free (by exact hrdy), nextPc_redir hred]

/-! ### A word with an access -/

/-- A run in which Execute resolves no branch: Fetch is redirected by Decode at most, and a hold on the
younger records stays. -/
structure Calm (s t : State) : Prop where
  redir : ∀ q, t.fetch.redir = some q → q.src = .decode
  held : s.dec.branchPending = true → s.ready = false →
    t.ready = false ∧ t.dec.branchPending = true
  keeps : Keeps s t

theorem Calm.trans {s t u : State} (h1 : Calm s t) (h2 : Calm t u) : Calm s u :=
  ⟨h2.redir, fun hb hr => by
    obtain ⟨a, b⟩ := h1.held hb hr
    exact h2.held b a, h1.keeps.trans h2.keeps⟩

/-- Execute waits for its access. -/
structure Waiting (p : Pending) (a : Addr) (v : Data) (s : State) : Prop where
  run : s.status = .running
  fair : s.fair = true
  cw : s.ex.cw = none
  pend : s.ex.exPending = some p
  br : s.ex.brResolve = none
  busy : BusyFor s.ctl p a v
  pf : s.fetch.pf = none
  hand : s.ready = true → s.dec.dstate = .waitForSlot

theorem BusyFor.owner {c : Ctl} {p : Pending} {a : Addr} {v : Data} (h : BusyFor c p a v) :
    c.owner = some .execute := by
  unfold BusyFor at h
  split at h <;> simp [h, Ctl.owner]

theorem BusyFor.not_ready {c : Ctl} {p : Pending} {a : Addr} {v : Data} (h : BusyFor c p a v) :
    c ≠ .ready := by
  rintro rfl
  exact absurd h.owner (by simp [Ctl.owner])

theorem accessDone_exe (p : Pending) (a : Addr) (v : Data) (s : State) :
    (accessDone p a v s).exe = (accessDone p a v s.exe).exe := by
  unfold accessDone
  cases p.kind <;> rfl

/-- The tick and the front of half1 from a state whose word has been committed and whose access is in
flight. -/
theorem settle_waiting {p : Pending} {a : Addr} {v : Data} {x : State} (hr : x.status = .running)
    (hfa : x.fair = true) (hc : x.ex.cw = none) (hp : x.ex.exPending = some p) (hb : x.ex.brResolve = none)
    (busy : BusyFor x.ctl p a v) (hpf : x.fetch.pf = none)
    (hh : x.ready = true → x.dec.dstate = .waitForSlot)
    (hre : ∀ q, x.fetch.redir = some q → q.src = .decode) :
    Calm x (half1Front (tick x)) ∧
    ((Waiting p a v (half1Front (tick x)) ∧ (half1Front (tick x)).exe = x.exe ∧
        (half1Front (tick x)).draws.length < x.draws.length) ∨
      (Live (half1Front (tick x)) ∧ (half1Front (tick x)).exe = (accessDone p a v x).exe ∧
        (half1Front (tick x)).draws.length ≤ x.draws.length)) := by
  obtain ⟨F, D, Dr, h1, h2, h3, h4, h5⟩ := settle_busy x p a v hr hfa hp busy hpf hh
  have hD := h4 hb
  have hk : Keeps x (half1Front (tick x)) := keeps_settle x (by rw [hb]; simp)
  rcases h5 with ⟨h5, h6⟩ | ⟨h5, h6⟩
  · rw [h5] at hk ⊢
    refine ⟨⟨?_, ?_, hk⟩, .inl ⟨⟨hr, hfa, hc, hp, rfl, busy, h2, h3⟩, rfl, h6⟩⟩
    · intro q hq
      exact hre q (by rw [← h1]; exact hq)
    · intro b r
      exact ⟨r, by simp only [hD]; exact b⟩
  · rw [h5] at hk ⊢
    have hs : (accessDone p a v x).status = x.status := by unfold accessDone; split <;> rfl
    have hrd : (accessDone p a v x).ready = x.ready := by unfold accessDone; split <;> rfl
    refine ⟨⟨?_, ?_, hk⟩, .inr ⟨⟨hs.trans hr, hc, rfl, rfl, .inl ⟨rfl, h2⟩, ?_⟩, ?_, h6⟩⟩
    · intro q hq
      exact hre q (by rw [← h1]; exact hq)
    · intro b r
      exact ⟨hrd.trans r, by simp only [hD]; exact b⟩
    · intro h
      exact h3 (hrd.symm.trans h)
    · unfold accessDone
      split <;> rfl

/-- One cycle of waiting. -/
theorem turn_waiting {p : Pending} {a : Addr} {v : Data} {s : State} (h : Waiting p a v s) :
    Calm s (turn s) ∧
    ((Waiting p a v (turn s) ∧ (turn s).exe = s.exe ∧ (turn s).draws.length < s.draws.length) ∨
      (Live (turn s) ∧ (turn s).exe = (accessDone p a v s).exe ∧
        (turn s).draws.length ≤ s.draws.length)) := by
  have hst : executeStart s = { s with ex := { s.ex with exWantsMem := true, estate := .memWait } } := by
    simp only [executeStart, running_of h.run, if_true, h.pend, Option.isSome_some]
  unfold turn
  rw [hst]
  obtain ⟨F, C, D, R, S, he, hre, hhand, hbp, hport⟩ := front2_cases
    { s with ex := { s.ex with exWantsMem := true, estate := .memWait } } h.run
    (by intro hc; rw [show s.ctl.owner = some .execute from h.busy.owner] at hc; cases hc)
    h.hand
  obtain ⟨rfl, hpf⟩ : C = s.ctl ∧ F.pf.isSome = s.fetch.pf.isSome := by
    rcases hport with h1 | ⟨h1, -⟩
    · exact h1
    · cases h1
  have hkf : Keeps s (decodeHalf2 (fetchHalf2
      { s with ex := { s.ex with exWantsMem := true, estate := .memWait } })) := by
    refine (keeps_front2 _ (by exact h.run) ?_ (by exact h.hand)).of_left rfl rfl rfl rfl rfl
    intro hc
    rw [show s.ctl.owner = some .execute from h.busy.owner] at hc
    cases hc
  rw [he] at hkf
  rw [he]
  have hx : ∀ x : State, x.ex.cw = none → executeHalf2 x = x := by
    intro x hx
    simp [executeHalf2, hx]
  rw [hx _ (by exact h.cw)]
  generalize hy : ({ s with
    fetch := F, dec := D, ready := R, slot := S
    ex := { s.ex with exWantsMem := true, estate := .memWait } } : State) = y at hkf
  have y1 : y.exe = s.exe := by rw [← hy]; rfl
  have y2 : y.draws = s.draws := by rw [← hy]
  obtain ⟨hcalm, hcase⟩ := settle_waiting (x := y) (p := p) (a := a) (v := v)
    (by rw [← hy]; exact h.run) (by rw [← hy]; exact h.fair) (by rw [← hy]; exact h.cw)
    (by rw [← hy]; exact h.pend) (by rw [← hy]; exact h.br) (by rw [← hy]; exact h.busy)
    (by rw [← hy]; simp only; rw [h.pf] at hpf; simpa using hpf)
    (by rw [← hy]; exact hhand)
    (by
      rw [← hy]
      intro q hq
      simp only at hq
      rcases hre with h1 | ⟨b, h1⟩
      · rw [h1] at hq; cases hq
      · rw [h1] at hq; cases hq; rfl)
  refine ⟨⟨hcalm.redir, ?_, hkf.trans hcalm.keeps⟩, ?_⟩
  · intro hb hr
    obtain ⟨c1, c2, -⟩ := hbp hb
    exact hcalm.held (by rw [← hy]; exact c2) (by rw [← hy]; exact c1.trans hr)
  · rcases hcase with ⟨c1, c2, c3⟩ | ⟨c1, c2, c3⟩
    · exact .inl ⟨c1, c2.trans y1, by rw [y2] at c3; exact c3⟩
    · refine .inr ⟨c1, ?_, by rw [y2] at c3; exact c3⟩
      rw [c2, accessDone_exe, y1, ← accessDone_exe]

theorem Waiting.not_finished {p : Pending} {a : Addr} {v : Data} {s : State} (h : Waiting p a v s) :
    s.finished = false := by
  simp [State.finished, h.pend]

/-- Waiting ends: the access completes within its draws (R66, R276). -/
theorem run_waiting {p : Pending} {a : Addr} {v : Data} :
    ∀ (n : Nat) (s : State), s.draws.length ≤ n → Waiting p a v s →
      ∃ k t, Reach k s t ∧ Live t ∧ t.exe = (accessDone p a v s).exe ∧
        k + t.draws.length ≤ s.draws.length + 1 ∧ t.draws.length ≤ s.draws.length ∧ Calm s t := by
  intro n
  induction n with
  | zero =>
    intro s hn h
    obtain ⟨hcalm, ⟨-, -, h3⟩ | ⟨h1, h2, h3⟩⟩ := turn_waiting h
    · omega
    · exact ⟨1, turn s, reach_turn h.run h.not_finished, h1, h2, by omega, by omega, hcalm⟩
  | succ n ih =>
    intro s hn h
    obtain ⟨hcalm, ⟨h1, h2, h3⟩ | ⟨h1, h2, h3⟩⟩ := turn_waiting h
    · obtain ⟨k, t, t1, t2, t3, t4, t5, t6⟩ := ih (turn s) (by omega) h1
      refine ⟨1 + k, t, (reach_turn h.run h.not_finished).trans t1, t2, ?_, by omega, by omega,
        hcalm.trans t6⟩
      rw [t3, accessDone_exe, h2, ← accessDone_exe]
    · exact ⟨1, turn s, reach_turn h.run h.not_finished, h1, h2, by omega, by omega, hcalm⟩

/-- A word that makes an access and nothing else, as every access word of the generator does (R203). -/
structure AccessWord (cw : ControlWord) : Prop where
  mem : cw.mem ≠ .none
  src : cw.wsrc = .read ∨ cw.wsrc = .held
  dest : cw.dest = .zero
  mask : cw.fmask = .empty
  addc : cw.addc = false
  shift : cw.shift = .none

/-- The address of a word's access (R278 to R280). -/
def accessAddr (cw : ControlWord) (v0 : Data) (out : AluOut) (s : State) : Addr :=
  match cw.mem with
  | .h1 => v0
  | .h2 => out.result
  | _ => s.mar.val

/-- The request of a word's access. -/
def accessReq (cw : ControlWord) : Pending := ⟨cw.kind, cw.mwidth.bytes⟩

/-- The state after a word's access has completed and the word has been left. -/
def accessPost (cw : ControlWord) (a : Addr) (nx : SState × Desc) (s : State) : State :=
  accessDone (accessReq cw) a (cw.mwidth.trunc s.mdr.val) { s with
    mar := if cw.mem = .addr then s.mar else ⟨a, true⟩
    ex := s.ex.leave nx.1 nx.2 }

theorem accessPost_exe (cw : ControlWord) (a : Addr) (nx : SState × Desc) (s : State) :
    (accessPost cw a nx s).exe = (accessPost cw a nx s.exe).exe := by
  unfold accessPost accessDone
  cases (accessReq cw).kind <;> rfl

/-- A word whose operands are latched and whose access is still to be asserted. -/
structure Blocked (cw : ControlWord) (r : Record) (v0 v1 : Data) (fl : Flags) (s : State) : Prop where
  run : s.status = .running
  fair : s.fair = true
  hcur : s.ex.cur = some r
  hcw : s.ex.cw = some cw
  hv0 : s.ex.v0 = some v0
  hv1 : s.ex.v1 = some v1
  hfl : s.ex.fl = some fl
  res : s.ex.res = none ∨ s.ex.res = some (alu s.cfg cw v0 v1 fl)
  acc : s.ex.acc = .toAssert
  pend : s.ex.exPending = none
  br : s.ex.brResolve = none
  port : FreePort s.ctl s.fetch
  hand : s.ready = true → s.dec.dstate = .waitForSlot

theorem Blocked.not_finished {cw : ControlWord} {r : Record} {v0 v1 : Data} {fl : Flags} {s : State}
    (h : Blocked cw r v0 v1 fl s) : s.finished = false := by
  simp [State.finished, h.hcw]

/-- An assert on a READY controller is accepted (R67, R278). -/
theorem assertAccess_ready {u : State} {cw : ControlWord} {a : Addr} (hr : u.status = .running)
    (hc : u.ctl = .ready) (hsrc : cw.wsrc = .read ∨ cw.wsrc = .held)
    (hu : Usable u.cfg (assertUnwritten cw u)) :
    ∃ C, BusyFor C (accessReq cw) a (cw.mwidth.trunc u.mdr.val) ∧
      assertAccess cw a u = { u with
        ctl := C, mar := if cw.mem = .addr then u.mar else ⟨a, true⟩
        ex := { u.ex with acc := .accepted, exPending := some (accessReq cw) } } := by
  unfold assertAccess
  rw [consume_usable hu]
  simp only
  rw [if_pos (running_of hr)]
  rcases hsrc with h | h
  · refine ⟨.readBusy a cw.mwidth.bytes .execute, by simp [BusyFor, accessReq, ControlWord.kind, h],
      ?_⟩
    simp only [callAccess, h, State.assertRead, State.assertBusy, hc, if_true, acceptAccess,
      accessReq]
  · refine ⟨.writeBusy a cw.mwidth.bytes (cw.mwidth.trunc u.mdr.val) .execute,
      by simp [BusyFor, accessReq, ControlWord.kind, h], ?_⟩
    simp only [callAccess, h, State.assertWrite, State.assertBusy, hc, if_true, acceptAccess,
      accessReq, writeData]

/-- An assert during a prefetch is rejected and changes nothing (R67, R278). -/
theorem assertAccess_busy {u : State} {cw : ControlWord} {a b : Addr} {n : Nat}
    (hr : u.status = .running) (hc : u.ctl = .readBusy b n .fetch)
    (hu : Usable u.cfg (assertUnwritten cw u)) : assertAccess cw a u = u := by
  unfold assertAccess
  rw [consume_usable hu]
  simp only
  rw [if_pos (running_of hr)]
  have hne : ¬ (Ctl.owner (.readBusy b n .fetch) = some .execute) := by simp [Ctl.owner]
  unfold callAccess State.assertRead State.assertWrite State.assertBusy
  split <;> simp [hc, Ctl.owner]

theorem assertAccess_busy_ex {s : State} (e : ExecState) {cw : ControlWord} {a b : Addr} {n : Nat}
    (hr : s.status = .running) (hc : s.ctl = .readBusy b n .fetch)
    (hu : Usable s.cfg (assertUnwritten cw s)) :
    assertAccess cw a { s with ex := e } = { s with ex := e } :=
  assertAccess_busy (u := { s with ex := e }) hr hc hu

/-- The commit of an access word is the advance alone. -/
theorem committed_access {cw : ControlWord} (h : AccessWord cw) (r : Record) (fl : Flags)
    (out : AluOut) (nx : SState × Desc) (u : State) (hb : u.ex.brResolve = none)
    (hst : u.ex.sstate ≠ .coreOp) :
    committed cw r fl out nx u = { u with ex := u.ex.leave nx.1 nx.2 } := by
  have hask : branchAsk u.cfg r u.ex.sstate fl out u.fetch = (u.fetch, none) :=
    if_neg (fun h => hst h.1)
  have hf : commitFlags u.cfg.flagPos FMask.empty out.flags u.f = u.f := rfl
  have hx : ∀ e : ExecState, e.brResolve = none → e = { e with brResolve := none } := by
    intro e he
    rw [← he]
  unfold committed
  rw [h.dest, h.mask, hask]
  simp only [writeLoc, hf]
  rw [← hx (u.ex.leave nx.1 nx.2) hb]

/-- Execute's part after its word has been left. -/
structure Left (r : Record) (nx : SState × Desc) (pend : Option Pending) (E : ExecState) : Prop where
  cw : E.cw = none
  pend : E.exPending = pend
  br : E.brResolve = none
  st : E.sstate = nx.1
  desc : E.desc = nx.2
  cur : E.cur = some r

/-- Half2 of an access word whose access is accepted, in half1 or in this half2. -/
theorem executeHalf2_accepted {u : State} {cw : ControlWord} {r : Record} {v0 v1 : Data} {fl : Flags}
    {nx : SState × Desc} (ha : AccessWord cw) (hr : u.status = .running) (hc : u.ex.cw = some cw)
    (h0 : u.ex.v0 = some v0) (h1 : u.ex.v1 = some v1) (hf : u.ex.fl = some fl)
    (hres : u.ex.res = none ∨ u.ex.res = some (alu u.cfg cw v0 v1 fl))
    (hcur : u.ex.cur = some r) (hb : u.ex.brResolve = none) (hst : u.ex.sstate ≠ .coreOp)
    (hn : nextOf u.cfg r u.ex.sstate u.ex.desc = some nx)
    (hu2 : Usable u.cfg (aluUnwritten u.cfg cw fl))
    (hacc : u.ex.acc = .accepted ∨
      (u.ex.acc = .toAssert ∧ cw.mem ≠ .h1 ∧ u.ctl = .ready ∧ Usable u.cfg (assertUnwritten cw u))) :
    ∃ E C M, executeHalf2 u = { u with ex := E, ctl := C, mar := M } ∧
      ((u.ex.acc = .accepted ∧ C = u.ctl ∧ M = u.mar ∧ Left r nx u.ex.exPending E) ∨
       (u.ex.acc = .toAssert ∧
          BusyFor C (accessReq cw) (accessAddr cw v0 (alu u.cfg cw v0 v1 fl) u)
            (cw.mwidth.trunc u.mdr.val) ∧
          M = (if cw.mem = .addr then u.mar
            else ⟨accessAddr cw v0 (alu u.cfg cw v0 v1 fl) u, true⟩) ∧
          Left r nx (some (accessReq cw)) E)) := by
  obtain ⟨e, hl⟩ := latchResult_eq hr hres hu2 (v0 := v0) (v1 := v1)
  have hpcok : ∀ st, pcWriteOk cw r st = true := by
    intro st
    simp [pcWriteOk, ha.dest]
  have husel : ∀ x : State, x.ex.sstate ≠ .coreOp → Usable x.cfg (branchLocs x.cfg r x.ex.sstate fl) := by
    intro x hx
    exact .inr (if_neg (fun h => hx h.1))
  rw [executeHalf2_live hr hc h0 h1 hf]
  generalize hu' : ({ u with
      ex := { u.ex with res := some (alu u.cfg cw v0 v1 fl), estate := e } } : State) = u' at hl
  have k1 : u'.status = .running := by rw [← hu']; exact hr
  have k3 : u'.ex.cur = some r := by rw [← hu']; exact hcur
  have k4 : u'.ex.res = some (alu u.cfg cw v0 v1 fl) := by rw [← hu']
  have k5 : u'.ex.brResolve = none := by rw [← hu']; exact hb
  have k6 : u'.ex.sstate ≠ .coreOp := by rw [← hu']; exact hst
  have k7 : nextOf u'.cfg r u'.ex.sstate u'.ex.desc = some nx := by rw [← hu']; exact hn
  have kcommit : ∀ x : State, x.status = .running → x.ex.acc = .accepted → x.ex.cur = some r →
      x.ex.res = some (alu u.cfg cw v0 v1 fl) → x.ex.brResolve = none → x.ex.sstate ≠ .coreOp →
      nextOf x.cfg r x.ex.sstate x.ex.desc = some nx →
      commitUnlessBlocked cw fl x = { x with ex := x.ex.leave nx.1 nx.2 } := by
    intro x x1 x2 x3 x4 x5 x6 x7
    have x8 : (x.ex.acc != .toAssert) = true := by rw [x2]; rfl
    unfold commitUnlessBlocked
    simp only [running_of x1, x8, Bool.and_true, if_true, x3, x4]
    rw [commit_eq x1 x3 x5 (hpcok _) x7 (husel x x6), committed_access ha _ _ _ _ _ x5 x6]
  unfold finishWord
  rw [hl]
  simp only [running_of k1, if_true]
  rcases hacc with hacc | ⟨hacc, hm1, hrdy, huse⟩
  · have k2 : u'.ex.acc = .accepted := by rw [← hu']; exact hacc
    have has : assertHalf2 cw u' = u' := by
      unfold assertHalf2
      rw [if_neg (by simp [k2])]
    rw [has, kcommit u' k1 k2 k3 k4 k5 k6 k7]
    refine ⟨u'.ex.leave nx.1 nx.2, u.ctl, u.mar, by rw [← hu'], .inl ⟨hacc, rfl, rfl, ?_⟩⟩
    exact ⟨rfl, by rw [← hu']; rfl, k5, rfl, rfl, k3⟩
  · have k2 : u'.ex.acc = .toAssert := by rw [← hu']; exact hacc
    have has : ∃ e2, assertHalf2 cw u' = assertAccess cw
        (accessAddr cw v0 (alu u.cfg cw v0 v1 fl) u)
        { u' with ex := { u'.ex with estate := e2 } } := by
      refine ⟨.memAssert2, ?_⟩
      unfold assertHalf2
      rw [if_pos k2]
      cases hm : cw.mem with
      | none => exact absurd hm ha.mem
      | h1 => exact absurd hm hm1
      | h2 => simp only [k4, Option.map_some, Option.getD_some, accessAddr, hm]
      | addr =>
        simp only [accessAddr, hm]
        rw [← hu']
    obtain ⟨e2, has⟩ := has
    have hmar : u'.mar = u.mar := by rw [← hu']
    have hmdr : u'.mdr = u.mdr := by rw [← hu']
    have hcfg : u'.cfg = u.cfg := by rw [← hu']
    obtain ⟨C, hbusy, hass⟩ := assertAccess_ready
      (u := { u' with ex := { u'.ex with estate := e2 } }) (cw := cw)
      (a := accessAddr cw v0 (alu u.cfg cw v0 v1 fl) u) k1 (by rw [← hu']; exact hrdy) ha.src
      (by
        have : assertUnwritten cw { u' with ex := { u'.ex with estate := e2 } } =
            assertUnwritten cw u := by
          unfold assertUnwritten
          simp only [hmar, hmdr]
        rw [this]
        simp only [hcfg]
        exact huse)
    rw [has, hass]
    rw [kcommit _ (by exact k1) rfl (by exact k3) (by exact k4) (by exact k5) (by exact k6)
      (by exact k7)]
    refine ⟨_, C, if cw.mem = .addr then u.mar
      else ⟨accessAddr cw v0 (alu u.cfg cw v0 v1 fl) u, true⟩, by rw [← hu'], .inr
        ⟨hacc, ?_, rfl, ?_⟩⟩
    · simp only [hmdr] at hbusy
      exact hbusy
    · exact ⟨rfl, rfl, hb, rfl, rfl, hcur⟩

/-- Half1's note to Fetch whether an assert is still to be made (R277). -/
def noteAssert (u : State) : State :=
  if u.running then { u with ex := { u.ex with exWantsMem := u.ex.acc == .toAssert } } else u

theorem noteAssert_running {u : State} (h : u.status = .running) :
    noteAssert u = { u with ex := { u.ex with exWantsMem := u.ex.acc == .toAssert } } := by
  simp only [noteAssert, running_of h, if_true]

/-- Half1 of a blocked word: the assert of H1, or a note to Fetch that Execute wants the port. -/
theorem executeStart_blocked {cw : ControlWord} {r : Record} {v0 v1 : Data} {fl : Flags} {s : State}
    (h : Blocked cw r v0 v1 fl s) :
    executeStart s = if cw.mem = .h1 then
        noteAssert (assertAccess cw v0 { s with ex := { s.ex with estate := .memAssert1 } })
      else { s with ex := { s.ex with exWantsMem := true } } := by
  rw [executeStart_live h.run h.pend h.hcw]
  unfold executeWord
  simp only [h.hv0, Option.isNone_some, Bool.false_eq_true, if_false, running_of h.run, if_true,
    assertH1, h.acc, and_true, Option.getD_some]
  split
  · rfl
  · simp only [running_of h.run, if_true, h.acc, beq_self_eq_true, h.hv0]

/-- A cycle in which a blocked word meets a READY controller: its access is accepted and the word is
committed. -/
theorem turn_accepted {cw : ControlWord} {r : Record} {v0 v1 : Data} {fl : Flags} {s : State}
    {nx : SState × Desc} (h : Blocked cw r v0 v1 fl s) (ha : AccessWord cw) (hc : s.ctl = .ready)
    (hn : nextOf s.cfg r s.ex.sstate s.ex.desc = some nx) (hst : s.ex.sstate ≠ .coreOp)
    (hu2 : Usable s.cfg (aluUnwritten s.cfg cw fl)) (hu4 : Usable s.cfg (assertUnwritten cw s)) :
    ∃ x, turn s = half1Front (tick x) ∧ x.status = .running ∧
      BusyFor x.ctl (accessReq cw) (accessAddr cw v0 (alu s.cfg cw v0 v1 fl) s)
        (cw.mwidth.trunc s.mdr.val) ∧
      x.ex.cw = none ∧ x.ex.exPending = some (accessReq cw) ∧ x.ex.brResolve = none ∧
      x.fetch.pf = none ∧ (x.ready = true → x.dec.dstate = .waitForSlot) ∧
      (∀ q, x.fetch.redir = some q → q.src = .decode) ∧ x.draws = s.draws ∧
      (s.dec.branchPending = true → x.ready = s.ready ∧ x.dec.branchPending = true) ∧
      x.exe = ({ s with
        mar := if cw.mem = .addr then s.mar
          else ⟨accessAddr cw v0 (alu s.cfg cw v0 v1 fl) s, true⟩
        ex := s.ex.leave nx.1 nx.2 } : State).exe ∧ Keeps s x := by
  have hpf : s.fetch.pf = none := by
    rcases h.port with ⟨-, h1⟩ | ⟨a, n, h1, -⟩
    · exact h1
    · rw [hc] at h1; cases h1
  obtain ⟨m, C1, M1, hm, mC, mcase⟩ : ∃ m C1 M1, executeStart s = m ∧
      (∃ E, m = { s with ex := E, ctl := C1, mar := M1 } ∧ E.cw = some cw ∧ E.v0 = some v0 ∧
        E.v1 = some v1 ∧ E.fl = some fl ∧ E.res = s.ex.res ∧ E.cur = some r ∧ E.brResolve = none ∧
        E.sstate = s.ex.sstate ∧ E.desc = s.ex.desc ∧
        ((cw.mem = .h1 ∧ E.acc = .accepted ∧ E.exPending = some (accessReq cw) ∧
            BusyFor C1 (accessReq cw) v0 (cw.mwidth.trunc s.mdr.val) ∧ M1 = ⟨v0, true⟩) ∨
          (cw.mem ≠ .h1 ∧ E.acc = .toAssert ∧ E.exPending = none ∧ E.exWantsMem = true ∧
            C1 = .ready ∧ M1 = s.mar))) ∧ True := by
    rw [executeStart_blocked h]
    by_cases hm1 : cw.mem = .h1
    · rw [if_pos hm1]
      obtain ⟨C, hb, he⟩ := assertAccess_ready (a := v0)
        (u := { s with ex := { s.ex with estate := .memAssert1 } }) (cw := cw) h.run hc ha.src
        (by exact hu4)
      rw [he, noteAssert_running (by exact h.run)]
      refine ⟨_, C, ⟨v0, true⟩, rfl, ⟨{ s.ex with
        estate := .memAssert1, acc := .accepted, exPending := some (accessReq cw)
        exWantsMem := Acc.accepted == .toAssert }, ?_, h.hcw, h.hv0, h.hv1, h.hfl, rfl, h.hcur, h.br, rfl, rfl,
        .inl ⟨hm1, rfl, rfl, hb, rfl⟩⟩, trivial⟩
      rw [if_neg (by simp [hm1])]
    · rw [if_neg hm1]
      exact ⟨_, s.ctl, s.mar, rfl, ⟨{ s.ex with exWantsMem := true }, rfl, h.hcw, h.hv0, h.hv1, h.hfl, rfl, h.hcur, h.br, rfl, rfl,
        .inr ⟨hm1, h.acc, h.pend, rfl, hc, rfl⟩⟩, trivial⟩
  obtain ⟨E, rfl, e1, e2, e3, e4, e5, e6, e7, e8, e9, e10⟩ := mC
  obtain ⟨F, C, D, R, S, he, hre, hhand, hbp, hport⟩ := front2_cases
    { s with ex := E, ctl := C1, mar := M1 } h.run
    (by
      intro ho
      rcases e10 with ⟨-, -, -, hb, -⟩ | ⟨-, -, -, -, hr, -⟩
      · rw [show C1.owner = some .execute from hb.owner] at ho; cases ho
      · simp only [hr] at ho; cases ho)
    h.hand
  have hkf : Keeps s (decodeHalf2 (fetchHalf2 { s with ex := E, ctl := C1, mar := M1 })) := by
    refine (keeps_front2 _ (by exact h.run) ?_ (by exact h.hand)).of_left rfl rfl rfl rfl rfl
    intro ho
    rcases e10 with ⟨-, -, -, hb, -⟩ | ⟨-, -, -, -, hr, -⟩
    · rw [show C1.owner = some .execute from hb.owner] at ho; cases ho
    · simp only [hr] at ho; cases ho
  rw [he] at hkf
  have hCF : C = C1 ∧ F.pf = none := by
    rcases hport with ⟨p1, p2⟩ | ⟨p1, p2, -⟩
    · simp only at p1 p2
      rw [hpf] at p2
      exact ⟨p1, by simpa using p2⟩
    · simp only at p1 p2
      rcases e10 with ⟨-, -, -, hb, -⟩ | ⟨-, -, -, hw, -⟩
      · exact absurd p2 hb.not_ready
      · rw [hw] at p1; cases p1
  obtain ⟨rfl, hFpf⟩ := hCF
  have hredir : ∀ q, F.redir = some q → q.src = .decode := by
    intro q hq
    rcases hre with h1 | ⟨b, h1⟩
    · rw [h1] at hq; cases hq
    · rw [h1] at hq; cases hq; rfl
  obtain ⟨E2, C2, M2, hx, hxc⟩ := executeHalf2_accepted
    (u := { s with ex := E, ctl := C, mar := M1, fetch := F, dec := D, ready := R, slot := S })
    (nx := nx) (r := r) ha h.run e1 e2 e3 e4 (by simp only [e5]; exact h.res) e6 e7
    (by simp only [e8]; exact hst) (by simp only [e8, e9]; exact hn) hu2
    (by
      rcases e10 with ⟨-, k, -⟩ | ⟨k1, k2, -, -, k3, k4⟩
      · exact .inl k
      · refine .inr ⟨k2, k1, k3, ?_⟩
        have : assertUnwritten cw { s with
            ex := E, ctl := C, mar := M1, fetch := F, dec := D, ready := R, slot := S } =
            assertUnwritten cw s := by
          unfold assertUnwritten
          simp only [k4]
        rw [this]
        exact hu4)
  refine ⟨{ s with
    ex := E2, ctl := C2, mar := M2, fetch := F, dec := D, ready := R, slot := S }, ?_, h.run, ?_⟩
  · unfold turn
    rw [hm, he, hx]
  · have hleft : Left r nx (some (accessReq cw)) E2 ∧
        BusyFor C2 (accessReq cw) (accessAddr cw v0 (alu s.cfg cw v0 v1 fl) s)
          (cw.mwidth.trunc s.mdr.val) ∧
        M2 = (if cw.mem = .addr then s.mar
          else ⟨accessAddr cw v0 (alu s.cfg cw v0 v1 fl) s, true⟩) := by
      rcases e10 with ⟨k0, k1, k2, k3, k4⟩ | ⟨k0, k1, k2, -, k3, k4⟩
      · rcases hxc with ⟨-, x1, x2, x3⟩ | ⟨x0, -⟩
        · simp only at x1 x2 x3
          rw [k2] at x3
          have hadr : accessAddr cw v0 (alu s.cfg cw v0 v1 fl) s = v0 := by
            simp [accessAddr, k0]
          refine ⟨x3, by rw [x1, hadr]; exact k3, ?_⟩
          rw [if_neg (by simp [k0]), x2, k4, hadr]
        · simp only [k1] at x0
          cases x0
      · rcases hxc with ⟨x0, -⟩ | ⟨-, x1, x2, x3⟩
        · simp only [k1] at x0
          cases x0
        · simp only at x1 x2 x3
          have hadr : accessAddr cw v0 (alu s.cfg cw v0 v1 fl) { s with
              ex := E, ctl := C, mar := M1, fetch := F, dec := D, ready := R, slot := S } =
              accessAddr cw v0 (alu s.cfg cw v0 v1 fl) s := by
            unfold accessAddr
            simp only [k4]
          rw [hadr] at x1 x2
          exact ⟨x3, x1, by rw [x2, k4]⟩
    obtain ⟨l, b, rfl⟩ := hleft
    refine ⟨b, l.cw, l.pend, l.br, hFpf, hhand, hredir, rfl, ?_, ?_, ?_⟩
    · intro hb
      obtain ⟨b1, b2, -⟩ := hbp hb
      exact ⟨b1, b2⟩
    · simp only [State.exe, l.st, l.desc, l.cur, ExecState.leave, h.hcur]
    · exact hkf.trans (.of_same rfl rfl rfl rfl rfl)

/-- A cycle in which the controller is busy with a prefetch: the assert is rejected, and nothing that
`exe` keeps changes (R285). -/
theorem turn_rejected {cw : ControlWord} {r : Record} {v0 v1 : Data} {fl : Flags} {s : State}
    {b : Addr} {n : Nat} (h : Blocked cw r v0 v1 fl s) (hc : s.ctl = .readBusy b n .fetch)
    (hu2 : Usable s.cfg (aluUnwritten s.cfg cw fl)) (hu4 : Usable s.cfg (assertUnwritten cw s)) :
    Blocked cw r v0 v1 fl (turn s) ∧ (turn s).exe = s.exe ∧ Calm s (turn s) ∧
      (turn s).draws.length ≤ s.draws.length ∧
      ((turn s).ctl = .ready ∨ (turn s).draws.length < s.draws.length) := by
  have hpf : s.fetch.pf.isSome = true := by
    rcases h.port with ⟨h1, -⟩ | ⟨a, n, -, h2⟩
    · rw [hc] at h1; cases h1
    · exact h2
  obtain ⟨e, hm⟩ : ∃ e, executeStart s =
      { s with ex := { s.ex with exWantsMem := true, estate := e } } := by
    rw [executeStart_blocked h]
    split
    · rw [assertAccess_busy_ex _ h.run hc hu4, noteAssert_running (by exact h.run)]
      refine ⟨.memAssert1, ?_⟩
      have : (s.ex.acc == Acc.toAssert) = true := by rw [h.acc]; rfl
      simp only [this]
    · exact ⟨s.ex.estate, rfl⟩
  unfold turn
  rw [hm]
  obtain ⟨F, C, D, R, S, he, hre, hhand, hbp, hport⟩ := front2_cases
    { s with ex := { s.ex with exWantsMem := true, estate := e } } h.run (fun _ => hpf) h.hand
  obtain ⟨rfl, hFpf⟩ : C = s.ctl ∧ F.pf.isSome = true := by
    rcases hport with ⟨h1, h2⟩ | ⟨h1, -⟩
    · exact ⟨h1, h2.trans hpf⟩
    · cases h1
  have hkf : Keeps s (decodeHalf2 (fetchHalf2
      { s with ex := { s.ex with exWantsMem := true, estate := e } })) :=
    (keeps_front2 _ (by exact h.run) (by exact fun _ => hpf) (by exact h.hand)).of_left
      rfl rfl rfl rfl rfl
  rw [he] at hkf
  rw [he]
  obtain ⟨e2, hl⟩ := latchResult_eq (u := { s with
      ex := { s.ex with exWantsMem := true, estate := e }
      fetch := F, dec := D, ready := R, slot := S }) (v0 := v0) (v1 := v1) (cw := cw) (fl := fl)
      h.run h.res hu2
  rw [executeHalf2_live (by exact h.run) (by exact h.hcw) (by exact h.hv0) (by exact h.hv1)
    (by exact h.hfl)]
  unfold finishWord
  rw [hl]
  simp only
  generalize hy : ({ s with
    ex := { s.ex with exWantsMem := true, res := some (alu s.cfg cw v0 v1 fl), estate := e2 }
    fetch := F, dec := D, ready := R, slot := S } : State) = y
  have y1 : y.status = .running := by rw [← hy]; exact h.run
  have y2 : y.ex.acc = .toAssert := by rw [← hy]; exact h.acc
  have y3 : y.ctl = .readBusy b n .fetch := by rw [← hy]; exact hc
  have y4 : assertUnwritten cw y = assertUnwritten cw s := by rw [← hy]; rfl
  have y5 : y.cfg = s.cfg := by rw [← hy]
  rw [if_pos (running_of y1)]
  obtain ⟨e3, ha⟩ : ∃ e3, assertHalf2 cw y = { y with ex := { y.ex with estate := e3 } } := by
    unfold assertHalf2
    rw [if_pos y2]
    split
    · rw [assertAccess_busy_ex _ y1 y3 (by rw [y4, y5]; exact hu4)]
      exact ⟨_, rfl⟩
    · rw [assertAccess_busy_ex _ y1 y3 (by rw [y4, y5]; exact hu4)]
      exact ⟨_, rfl⟩
    · exact ⟨y.ex.estate, rfl⟩
  rw [ha]
  have hcm : commitUnlessBlocked cw fl { y with ex := { y.ex with estate := e3 } } =
      { y with ex := { y.ex with estate := e3 } } := by
    unfold commitUnlessBlocked
    rw [if_neg (by simp [y2])]
  rw [hcm]
  obtain ⟨F2, C2, D2, Dr, ht, q1, q2, q3, q4, q5, q6⟩ := settle_free
    { y with ex := { y.ex with estate := e3 } } y1 (by rw [← hy]; exact h.pend)
    (by rw [← hy]; exact .inr ⟨b, n, hc, hFpf⟩) (by rw [← hy]; exact hhand)
  have hbr : y.ex.brResolve = none := by rw [← hy]; exact h.br
  have hks := keeps_settle { y with ex := { y.ex with estate := e3 } } (by simp [hbr])
  rw [ht] at hks ⊢
  have hD := q4 hbr
  subst hy
  refine ⟨⟨h.run, h.fair, h.hcur, h.hcw, h.hv0, h.hv1, h.hfl, .inr rfl, h.acc, h.pend, rfl, q2, q3⟩, rfl,
    ⟨?_, ?_, hkf.trans (hks.of_left rfl rfl rfl rfl rfl)⟩, q5, q6 h.fair⟩
  · intro q hq
    simp only [q1] at hq
    rcases hre with h1 | ⟨a, h1⟩
    · rw [h1] at hq; cases hq
    · rw [h1] at hq; cases hq; rfl
  · intro hb hr
    obtain ⟨b1, b2, -⟩ := hbp hb
    exact ⟨b1.trans hr, by simp only [hD]; exact b2⟩

/-- What is left of a run once a blocked word meets a READY controller. -/
theorem run_accepted {cw : ControlWord} {r : Record} {v0 v1 : Data} {fl : Flags} {s : State}
    {nx : SState × Desc} (h : Blocked cw r v0 v1 fl s) (ha : AccessWord cw) (hc : s.ctl = .ready)
    (hn : nextOf s.cfg r s.ex.sstate s.ex.desc = some nx) (hst : s.ex.sstate ≠ .coreOp)
    (hu2 : Usable s.cfg (aluUnwritten s.cfg cw fl)) (hu4 : Usable s.cfg (assertUnwritten cw s)) :
    ∃ k t, Reach (k + 1) s t ∧ Live t ∧
      t.exe = (accessPost cw (accessAddr cw v0 (alu s.cfg cw v0 v1 fl) s) nx s).exe ∧
      k + 1 + t.draws.length ≤ s.draws.length + 1 ∧ t.draws.length ≤ s.draws.length ∧ Calm s t := by
  obtain ⟨x, h1, h2, h3, h4, h5, h6, h7, h8, h9, h10, h11, h12, h13⟩ :=
    turn_accepted h ha hc hn hst hu2 hu4
  have hxs : Calm s x := ⟨h9, fun hb hr => by
    obtain ⟨a, b⟩ := h11 hb
    exact ⟨a.trans hr, b⟩, h13⟩
  have hfa : x.fair = true := (exe_facts h12).2.2.2.2.2.trans h.fair
  have hexe : (accessDone (accessReq cw) (accessAddr cw v0 (alu s.cfg cw v0 v1 fl) s)
      (cw.mwidth.trunc s.mdr.val) x).exe =
      (accessPost cw (accessAddr cw v0 (alu s.cfg cw v0 v1 fl) s) nx s).exe := by
    rw [accessDone_exe, h12, ← accessDone_exe]
    rfl
  obtain ⟨hcalm, ⟨c1, c2, c3⟩ | ⟨c1, c2, c3⟩⟩ := settle_waiting h2 hfa h4 h5 h6 h3 h7 h8 h9
  · rw [h10, ← h1] at c3
    rw [← h1] at hcalm c1 c2
    obtain ⟨k, t, t1, t2, t3, t4, t5, t6⟩ := run_waiting _ (turn s) (le_refl _) c1
    refine ⟨k, t, ?_, t2, ?_, by omega, by omega, (hxs.trans hcalm).trans t6⟩
    · rw [Nat.add_comm]
      exact (reach_turn h.run h.not_finished).trans t1
    · rw [t3, accessDone_exe, c2, ← accessDone_exe, hexe]
  · rw [h10, ← h1] at c3
    rw [← h1] at hcalm c1 c2
    exact ⟨0, turn s, reach_turn h.run h.not_finished, c1, c2.trans hexe, by omega, by omega,
      hxs.trans hcalm⟩

/-- A blocked word commits, and its access completes, within its draws. -/
theorem run_blocked {cw : ControlWord} {r : Record} {v0 v1 : Data} {fl : Flags}
    {nx : SState × Desc} (ha : AccessWord cw) :
    ∀ (n : Nat) (s : State), s.draws.length ≤ n → Blocked cw r v0 v1 fl s →
      nextOf s.cfg r s.ex.sstate s.ex.desc = some nx → s.ex.sstate ≠ .coreOp →
      Usable s.cfg (aluUnwritten s.cfg cw fl) → Usable s.cfg (assertUnwritten cw s) →
      ∃ k t, Reach (k + 1) s t ∧ Live t ∧
        t.exe = (accessPost cw (accessAddr cw v0 (alu s.cfg cw v0 v1 fl) s) nx s).exe ∧
        k + 1 + t.draws.length ≤ s.draws.length + 2 ∧ t.draws.length ≤ s.draws.length ∧ Calm s t := by
  intro n
  induction n with
  | zero =>
    intro s hlen h hn hst hu2 hu4
    rcases h.port with ⟨hc, -⟩ | ⟨b, k, hc, -⟩
    · obtain ⟨k, t, t1, t2, t3, t4, t5, t6⟩ := run_accepted h ha hc hn hst hu2 hu4
      exact ⟨k, t, t1, t2, t3, by omega, t5, t6⟩
    · obtain ⟨b1, b2, b3, b4, b5⟩ := turn_rejected h hc hu2 hu4
      have hrdy : (turn s).ctl = .ready := by
        rcases b5 with b5 | b5
        · exact b5
        · omega
      obtain ⟨e1, e2, e3, eM, eD, -⟩ := exe_facts b2
      have e4 : assertUnwritten cw (turn s) = assertUnwritten cw s := by
        simp only [assertUnwritten, eM, eD]
      have e5 : accessAddr cw v0 (alu s.cfg cw v0 v1 fl) (turn s) =
          accessAddr cw v0 (alu s.cfg cw v0 v1 fl) s := by
        simp only [accessAddr, eM]
      obtain ⟨k, t, t1, t2, t3, t4, t5, t6⟩ := run_accepted b1 ha hrdy (nx := nx)
        (by rw [e1, e2, e3]; exact hn) (by rw [e2]; exact hst) (by rw [e1]; exact hu2)
        (by rw [e1, e4]; exact hu4)
      refine ⟨k + 1, t, ?_, t2, ?_, by omega, by omega, b3.trans t6⟩
      · rw [Nat.add_comm (k + 1) 1]
        exact (reach_turn h.run h.not_finished).trans t1
      · rw [t3, e1, e5, accessPost_exe, b2, ← accessPost_exe]
  | succ n ih =>
    intro s hlen h hn hst hu2 hu4
    rcases h.port with ⟨hc, -⟩ | ⟨b, k, hc, -⟩
    · obtain ⟨k, t, t1, t2, t3, t4, t5, t6⟩ := run_accepted h ha hc hn hst hu2 hu4
      exact ⟨k, t, t1, t2, t3, by omega, t5, t6⟩
    · obtain ⟨b1, b2, b3, b4, b5⟩ := turn_rejected h hc hu2 hu4
      obtain ⟨e1, e2, e3, eM, eD, -⟩ := exe_facts b2
      have e4 : assertUnwritten cw (turn s) = assertUnwritten cw s := by
        simp only [assertUnwritten, eM, eD]
      have e5 : accessAddr cw v0 (alu s.cfg cw v0 v1 fl) (turn s) =
          accessAddr cw v0 (alu s.cfg cw v0 v1 fl) s := by
        simp only [accessAddr, eM]
      rcases b5 with hrdy | hlt
      · obtain ⟨k, t, t1, t2, t3, t4, t5, t6⟩ := run_accepted b1 ha hrdy (nx := nx)
          (by rw [e1, e2, e3]; exact hn) (by rw [e2]; exact hst) (by rw [e1]; exact hu2)
          (by rw [e1, e4]; exact hu4)
        refine ⟨k + 1, t, ?_, t2, ?_, by omega, by omega, b3.trans t6⟩
        · rw [Nat.add_comm (k + 1) 1]
          exact (reach_turn h.run h.not_finished).trans t1
        · rw [t3, e1, e5, accessPost_exe, b2, ← accessPost_exe]
      · obtain ⟨k, t, t1, t2, t3, t4, t5, t6⟩ := ih (turn s) (by omega) b1
          (by rw [e1, e2, e3]; exact hn) (by rw [e2]; exact hst) (by rw [e1]; exact hu2)
          (by rw [e1, e4]; exact hu4)
        refine ⟨k + 1, t, ?_, t2, ?_, by omega, by omega, b3.trans t6⟩
        · rw [Nat.add_comm (k + 1) 1]
          exact (reach_turn h.run h.not_finished).trans t1
        · rw [t3, e1, e5, accessPost_exe, b2, ← accessPost_exe]

/-- A word with an access runs to the completion of its access: MAR, MDR or memory change as the access
says, and nothing else (R278 to R284). -/
theorem run_access {s : State} {r : Record} {cw : ControlWord} {nx : SState × Desc} (hl : Live s)
    (hcur : s.ex.cur = some r) (hw : wordOf s.cfg r s.ex.sstate s.ex.desc = some cw)
    (hn : nextOf s.cfg r s.ex.sstate s.ex.desc = some nx) (hok : cw.ok = true) (ha : AccessWord cw)
    (hst : s.ex.sstate ≠ .coreOp) (hfa : s.fair = true) (hu1 : Usable s.cfg (operandLocs s r cw))
    (hu2 : Usable s.cfg (aluUnwritten s.cfg cw s.f)) (hu4 : Usable s.cfg (assertUnwritten cw s)) :
    ∃ k t, Reach (k + 1) s t ∧ Live t ∧
      t.exe = (accessPost cw (accessAddr cw (readSource s r cw.src0) (wordOut cw r s) s) nx s).exe ∧
      k + 1 + t.draws.length ≤ s.draws.length + 2 ∧ t.draws.length ≤ s.draws.length ∧ Calm s t := by
  have hB : Blocked cw r (readSource s r cw.src0) (readSource s r cw.src1) s.f (latchWord cw r s) :=
    ⟨hl.run, hfa, hcur, rfl, rfl, rfl, rfl, .inl rfl, by simp [latchWord, ha.mem], hl.pend, hl.br,
      hl.port, hl.hand⟩
  obtain ⟨k, t, t1, t2, t3, t4, t5, t6⟩ := run_blocked (nx := nx) ha _ _ (le_refl _) hB hn hst hu2 hu4
  refine ⟨k, t, ?_, t2, ?_, t4, t5, ⟨t6.redir, t6.held,
    t6.keeps.of_left rfl rfl rfl rfl rfl⟩⟩
  rotate_left
  · exact t3.trans ((accessPost_exe _ _ _ _).trans (accessPost_exe _ _ _ s).symm)
  exact reach_congr (executeStart_latch hl hcur hw hok hu1) hl.run (not_finished hw) hl.run
    hB.not_finished t1

end Sys2Proof.Machine
end

