-- ==== Sys2Proof/Laws/Run.lean ====
section
/-! SUPPORT. What a microcode chain does, mode by mode (R205 to R214): it runs to its end, and leaves the
operand in MDR or in memory, the address in MAR and the mode's register updated. -/

namespace Sys2Proof.Machine

/-! ### Usable operands -/

theorem Usable.append {c : Config} {l1 l2 : List UnwrittenLoc} (h1 : Usable c l1) (h2 : Usable c l2) :
    Usable c (l1 ++ l2) := by
  rcases h1 with h1 | rfl
  · exact .inl h1
  · simpa using h2

theorem Usable.nil (c : Config) : Usable c [] := .inr rfl

theorem usable_reg {s : State} {i : Reg} {w : Width} (h : usableReg s i w = true) :
    Usable s.cfg (if s.regUnwritten i w then [.reg i w] else []) := by
  simp only [usableReg, Bool.or_eq_true, beq_iff_eq, Bool.not_eq_true'] at h
  rcases h with h | h
  · exact .inl h
  · exact .inr (by simp [h])

theorem usable_flag {s : State} {n : FlagName} (h : usableFlag s n = true) :
    Usable s.cfg (unwrittenFlag s.cfg.flagPos s.f n) := by
  simp only [usableFlag, Bool.or_eq_true, beq_iff_eq] at h
  rcases h with h | h
  · exact .inl h
  · exact .inr (by simp [unwrittenFlag, h])

theorem usable_slot {c : Config} {ws : List Word16} {k : Nat} (h : k < ws.length) :
    Usable c (slotUnwritten ws k) := .inr (by simp [slotUnwritten, h])

/-- MDR can be read. -/
def usableMdr (s : State) : Prop := s.cfg.unwrittenRead = .value ∨ s.mdr.written = true

/-! ### One word of a chain -/

/-- The state a chain is walked in, and the state it leads to (R273). -/
def Walk (st done : SState) : Prop := (st = .before ∧ done = .coreOp) ∨ (st = .after ∧ done = .final)

theorem Walk.ne_core {st done : SState} (h : Walk st done) : st ≠ .coreOp := by
  rcases h with ⟨rfl, -⟩ | ⟨rfl, -⟩ <;> simp

theorem Walk.word {st done : SState} (h : Walk st done) {c : Config} {r : Record} {d d' : Desc}
    {cw : ControlWord} (hg : gen c r.words d = some (cw, d')) :
    wordOf c r st d = some cw ∧ nextOf c r st d = some (afterChain d' st done, d') := by
  rcases h with ⟨rfl, rfl⟩ | ⟨rfl, rfl⟩ <;> simp [wordOf, nextOf, hg]

/-- A run of a part of an instruction in which Execute resolves no branch: at most `c` cycles more than the
draws it uses up. -/
structure Ran (c : Nat) (s t u : State) : Prop where
  reach : ∃ k, Reach (k + 1) s t ∧ k + 1 + t.draws.length ≤ s.draws.length + c
  draws : t.draws.length ≤ s.draws.length
  live : Live t
  exe : t.exe = u.exe
  calm : Calm s t

theorem Ran.trans {a b : Nat} {s t u v w : State} (h1 : Ran a s t u) (h2 : Ran b t v w) :
    Ran (a + b) s v w := by
  obtain ⟨k1, r1, e1⟩ := h1.reach
  obtain ⟨k2, r2, e2⟩ := h2.reach
  exact ⟨⟨k1 + 1 + k2, r1.trans r2, by omega⟩, h2.draws.trans h1.draws, h2.live, h2.exe,
    h1.calm.trans h2.calm⟩

theorem usable_calm (c : Config) {cw : ControlWord} (f : Flags) (h1 : cw.addc = false)
    (h2 : cw.shift = .none) (h3 : cw.fmask = .empty) : Usable c (aluUnwritten c cw f) :=
  .inr (by simp [aluUnwritten, readsCarry, decimalWord, h1, h2, h3, FMask.empty])

/-- A word of a chain that makes an access. -/
theorem chain_access {s : State} {r : Record} {d d' : Desc} {cw : ControlWord} {st done : SState}
    (hl : Live s) (hfa : s.fair = true) (hcur : s.ex.cur = some r) (hst : s.ex.sstate = st) (hd : s.ex.desc = d)
    (hw : Walk st done) (hg : gen s.cfg r.words d = some (cw, d')) (hok : cw.ok = true)
    (ha : AccessWord cw) (hu1 : Usable s.cfg (operandLocs s r cw))
    (hu4 : Usable s.cfg (assertUnwritten cw s)) :
    ∃ t, Ran 2 s t (accessPost cw (accessAddr cw (readSource s r cw.src0) (wordOut cw r s) s)
      (afterChain d' st done, d') s) := by
  obtain ⟨h1, h2⟩ := hw.word hg
  have hu2 := usable_calm s.cfg s.f ha.addc ha.shift ha.mask
  obtain ⟨k, t, t1, t2, t3, t4, t5, t6⟩ := run_access hl hcur (by rw [hst, hd]; exact h1)
    (by rw [hst, hd]; exact h2) hok ha (by rw [hst]; exact hw.ne_core) hfa hu1 hu2 hu4
  exact ⟨t, ⟨k, t1, t4⟩, t5, t2, t3, t6⟩

/-- A word of a chain that makes no access. -/
theorem chain_plain {s : State} {r : Record} {d d' : Desc} {cw : ControlWord} {st done : SState}
    (hl : Live s) (hcur : s.ex.cur = some r) (hst : s.ex.sstate = st) (hd : s.ex.desc = d)
    (hw : Walk st done) (hg : gen s.cfg r.words d = some (cw, d')) (hok : cw.ok = true)
    (hmem : cw.mem = .none) (hpc : cw.dest ≠ .pc) (h1 : cw.addc = false) (h2 : cw.shift = .none)
    (h3 : cw.fmask = .empty) (hu1 : Usable s.cfg (operandLocs s r cw)) :
    ∃ t, Ran 1 s t { writeLoc s r cw.dest (wordOut cw r s).result with
      ex := s.ex.leave (afterChain d' st done) d' } := by
  obtain ⟨w1, w2⟩ := hw.word hg
  have hn : ¬ Resolves r s.ex.sstate := by rw [hst]; exact fun h => hw.ne_core h.1
  have hb : branchLocs s.cfg r s.ex.sstate s.f = [] := if_neg hn
  obtain ⟨t, t1, t2, t3, t4, t5⟩ := run_plain hl hcur (by rw [hst, hd]; exact w1)
    (by rw [hst, hd]; exact w2) hok hmem (by simp [pcWriteOk, hpc]) hu1
    (usable_calm _ _ h1 h2 h3) (by rw [hb]; exact .nil _)
  refine ⟨t, ⟨0, t1, by omega⟩, t4, t2, ?_, ⟨t5.notTaken fun h => absurd h hn, fun hb hr =>
    ⟨t5.held hb hr, t5.pending hb hn⟩, t5.keeps fun h => absurd h hn⟩⟩
  rw [t3]
  have hask : branchAsk s.cfg r s.ex.sstate s.f (wordOut cw r s) s.fetch = (s.fetch, none) := if_neg hn
  unfold committed
  rw [h3, hask]
  obtain ⟨_, _, dest⟩ := cw
  cases dest <;> rfl

/-! ### Where a mode's extension words are -/

/-- The record's slots from `k` on hold the mode's extension words (R115, R124). -/
structure RmAt (ws : List Word16) (k : Nat) (w : Width) (rm : Rm) : Prop where
  slot : rmWords w rm = [] ∨ k = 1 ∨ k = 2
  len : k + (rmWords w rm).length ≤ ws.length
  disp : ∀ b d, rm = .disp b d → slotWord ws k = d
  pc8 : ∀ d, rm = .pc8 d → BitVec.ofNat 8 (slotWord ws k).toNat = d
  pc16 : ∀ d, rm = .pc16 d → slotWord ws k = d
  pc24 : ∀ d, rm = .pc24 d → slotData ws k = d
  abs : ∀ a, rm = .abs a → slotData ws k = a
  absIdx : ∀ a j, rm = .absIdx a j → slotData ws k = a ∧ selectedReg ws (k + 1) 13 = j
  imm8 : ∀ v, rm = .imm v → w = .w8 → (slotWord ws k).toNat % 256 = v.toNat % 256
  imm16 : ∀ v, rm = .imm v → w = .w16 → (slotWord ws k).toNat = v.toNat % 65536
  imm24 : ∀ v, rm = .imm v → w = .w24 → slotData ws k = v

/-- MDR after an access: the bytes read, or as it was. -/
def mdrAfter (s : State) (dir : Dir) (a : Addr) (w : Width) : Latch :=
  match dir with
  | .read => ⟨s.load a w.bytes, true⟩
  | .write => s.mdr

/-- Memory after an access: as it was, or with the low bytes of MDR stored. -/
def memAfter (s : State) (dir : Dir) (a : Addr) (w : Width) : Memory :=
  match dir with
  | .read => s.mem
  | .write => s.mem.store s.cfg.endian a w.bytes (w.trunc s.mdr.val)

/-- The history of writes after an access (R69). -/
def writesAfter (s : State) (dir : Dir) (a : Addr) (w : Width) : List Write :=
  match dir with
  | .read => s.writes
  | .write => s.writes ++ [⟨a, w.bytes, w.trunc s.mdr.val⟩]

/-- What a memory mode's chain leaves: the operand in MDR or in memory, the address in MAR, the mode's
register updated (R204 to R213). -/
def chainPost (s : State) (ia : Addr) (rm : Rm) (dir : Dir) (w : Width) (done : SState) : State :=
  { rmStep s w rm with
    mar := ⟨rmAddr s ia w rm, true⟩
    mdr := mdrAfter s dir (rmAddr s ia w rm) w
    mem := memAfter s dir (rmAddr s ia w rm) w
    writes := writesAfter s dir (rmAddr s ia w rm) w
    ex := s.ex.leave done .none }

theorem usable_assert {s : State} {cw : ControlWord} {dir : Dir} (h : dir = .write → usableMdr s)
    (hw : cw.wsrc = accOf dir) (hm : cw.mem = .addr → s.mar.written = true) :
    Usable s.cfg (assertUnwritten cw s) := by
  unfold assertUnwritten
  refine Usable.append ?_ ?_
  · split
    · rename_i h'
      rw [hm h']
      exact .nil _
    · exact .nil _
  · cases dir with
    | read => rw [hw]; exact .nil _
    | write =>
      rw [hw]
      rcases h rfl with h | h
      · exact .inl h
      · exact .inr (by simp [h])

theorem access_h1 (d : Desc) (src : Source) : AccessWord (d.accessH1 src) := by
  refine ⟨by simp [Desc.accessH1], ?_, rfl, rfl, rfl, rfl⟩
  unfold Desc.accessH1 accOf
  cases d.dir <;> simp

theorem access_sum (d : Desc) (a b : Source) (n : Bool) : AccessWord (d.accessSum a b n) := by
  refine ⟨by simp [Desc.accessSum], ?_, rfl, rfl, rfl, rfl⟩
  unfold Desc.accessSum accOf
  cases d.dir <;> simp

theorem access_h1_ok (d : Desc) (src : Source) (h : src.loc.inRange = true) :
    (d.accessH1 src).ok = true := by
  have hz : BusLoc.zero.inRange = true := rfl
  have hz' : BusLoc.zero.writable = true := rfl
  unfold Desc.accessH1 accOf Desc.word ControlWord.base ControlWord.ok
  cases d.dir <;> simp [hz, hz', h, Source.zero]

theorem access_sum_ok (d : Desc) (a b : Source) (n : Bool) (h1 : a.loc.inRange = true)
    (h2 : b.loc.inRange = true) : (d.accessSum a b n).ok = true := by
  have hz : BusLoc.zero.inRange = true := rfl
  have hz' : BusLoc.zero.writable = true := rfl
  unfold Desc.accessSum accOf Desc.word ControlWord.base ControlWord.ok
  cases d.dir <;> simp [hz, hz', h1, h2]

/-- The state an access word of a memory mode leaves, before any register update. -/
theorem accessPost_mode (s : State) (cw : ControlWord) (a : Addr) (dir : Dir) (w : Width)
    (nx : SState × Desc) (h1 : cw.wsrc = accOf dir) (h2 : cw.mwidth = w) :
    accessPost cw a nx s = { s with
      mar := if cw.mem = .addr then s.mar else ⟨a, true⟩
      mdr := mdrAfter s dir a w
      mem := memAfter s dir a w
      writes := writesAfter s dir a w
      ex := s.ex.leave nx.1 nx.2 } := by
  have hk : accessReq cw = ⟨dir, w.bytes⟩ := by
    unfold accessReq ControlWord.kind
    rw [h1, h2]
    cases dir <;> rfl
  unfold accessPost accessDone
  rw [hk, h2]
  cases dir <;> rfl

/-- A chain of one access (R206, R207, R211, R212). -/
theorem run_one {s : State} {r : Record} {cw : ControlWord} {st done : SState} {dir : Dir}
    {w : Width} {d : Desc} (a : Addr) (hl : Live s) (hfa : s.fair = true) (hcur : s.ex.cur = some r)
    (hst : s.ex.sstate = st) (hd : s.ex.desc = d) (hw : Walk st done)
    (hg : gen s.cfg r.words d = some (cw, .none)) (hok : cw.ok = true) (ha : AccessWord cw)
    (hu1 : Usable s.cfg (operandLocs s r cw)) (hmdr : dir = .write → usableMdr s)
    (hws : cw.wsrc = accOf dir) (hwd : cw.mwidth = w) (hm : cw.mem ≠ .addr)
    (hadr : accessAddr cw (readSource s r cw.src0) (wordOut cw r s) s = a) :
    ∃ t, Ran 2 s t { s with
      mar := ⟨a, true⟩
      mdr := mdrAfter s dir a w
      mem := memAfter s dir a w
      writes := writesAfter s dir a w
      ex := s.ex.leave done .none } := by
  obtain ⟨t, ht⟩ := chain_access hl hfa hcur hst hd hw hg hok ha hu1
    (usable_assert hmdr hws fun h => absurd h hm)
  refine ⟨t, ?_⟩
  rw [hadr, accessPost_mode s cw a dir w _ hws hwd, if_neg hm] at ht
  have h0 : afterChain .none st done = done := rfl
  rw [h0] at ht
  exact ht

/-! ### Reading the sources of a chain's words -/

theorem read_reg24 (s : State) (r : Record) (b : Reg) :
    readSource s r ⟨.reg b .w24, .w24, false⟩ = s.x24 b := by
  simp [readSource, readLoc, State.view]

theorem read_iaddr (s : State) (r : Record) : readSource s r ⟨.iaddr, .w24, false⟩ = r.instrAddr := by
  simp [readSource, readLoc]

theorem read_imm24 (s : State) (r : Record) (k : Nat) :
    readSource s r ⟨.imm24 k, .w24, false⟩ = slotData r.words k := by
  simp [readSource, readLoc]

theorem read_rsel24 (s : State) (r : Record) (k l : Nat) :
    readSource s r ⟨.rsel k l .w24, .w24, false⟩ = s.x24 (selectedReg r.words k l) := by
  simp [readSource, readLoc, State.view]

theorem read_const (s : State) (r : Record) (c : Data) :
    readSource s r ⟨.const c, .w24, false⟩ = c := by
  simp [readSource, readLoc]

theorem read_mar (s : State) (r : Record) : readSource s r ⟨.mar, .w24, false⟩ = s.mar.val := by
  simp [readSource, readLoc]

theorem read_imm8s (s : State) (r : Record) (k : Nat) :
    readSource s r ⟨.imm k, .w8, true⟩ =
      (BitVec.ofNat 8 (slotWord r.words k).toNat).signExtend 24 := by
  simp only [readSource, readLoc, if_true, Width.sext]
  congr 1
  apply BitVec.eq_of_toNat_eq
  simp only [BitVec.toNat_setWidth, BitVec.toNat_ofNat]
  omega

theorem read_imm16 (s : State) (r : Record) (k : Nat) :
    readSource s r ⟨.imm k, .w16, false⟩ = (slotWord r.words k).setWidth 24 := by
  simp only [readSource, readLoc, Bool.false_eq_true, if_false]
  apply BitVec.eq_of_toNat_eq
  simp only [Width.trunc_toNat, BitVec.toNat_setWidth, BitVec.toNat_ofNat, Width.modulus]
  have := (slotWord r.words k).isLt
  omega

theorem read_imm16s (s : State) (r : Record) (k : Nat) :
    readSource s r ⟨.imm k, .w16, true⟩ = (slotWord r.words k).signExtend 24 := by
  simp only [readSource, readLoc, if_true, Width.sext]
  congr 1
  apply BitVec.eq_of_toNat_eq
  simp only [BitVec.toNat_setWidth, BitVec.toNat_ofNat]
  have := (slotWord r.words k).isLt
  omega

theorem read_disp (s : State) (r : Record) (k : Nat) (d : Word16) (h : slotWord r.words k = d) :
    readSource s r ⟨.imm k, .w16, s.cfg.regdispSigned⟩ = dispOf s.cfg d := by
  unfold dispOf
  cases hs : s.cfg.regdispSigned with
  | true => rw [read_imm16s, h, if_pos rfl]
  | false => rw [read_imm16, h, if_neg (by simp)]

/-! ### Two words in a row -/

/-- What two states with the same `exe` share. -/
theorem exe_all {s t : State} (h : t.exe = s.exe) :
    t.cfg = s.cfg ∧ t.regs = s.regs ∧ t.f = s.f ∧ t.shadowSelect = s.shadowSelect ∧ t.mar = s.mar ∧
      t.mdr = s.mdr ∧ t.mem = s.mem ∧ t.status = s.status ∧ t.log = s.log ∧
      t.ex.sstate = s.ex.sstate ∧ t.ex.cur = s.ex.cur ∧ t.ex.desc = s.ex.desc ∧
      t.fair = s.fair ∧ t.writes = s.writes ∧ t.freeCount = s.freeCount := by
  simp only [State.exe, State.mk.injEq, ExecState.mk.injEq] at h
  simp only [h, and_self]

theorem exe_of {s t : State} (h1 : t.cfg = s.cfg) (h2 : t.regs = s.regs) (h3 : t.f = s.f)
    (h4 : t.shadowSelect = s.shadowSelect) (h5 : t.mar = s.mar) (h6 : t.mdr = s.mdr)
    (h7 : t.mem = s.mem) (h8 : t.status = s.status) (h9 : t.log = s.log)
    (h10 : t.ex.sstate = s.ex.sstate) (h11 : t.ex.cur = s.ex.cur) (h12 : t.ex.desc = s.ex.desc)
    (h13 : t.fair = s.fair) (h14 : t.writes = s.writes) (h15 : t.freeCount = s.freeCount) :
    t.exe = s.exe := by
  simp only [State.exe, h1, h2, h3, h4, h5, h6, h7, h8, h9, h10, h11, h12, h13, h14, h15]

/-- The register update at the end of a chain (R208, R209). -/
theorem run_update {s : State} {r : Record} {cw : ControlWord} {st done : SState} {d : Desc}
    (b : Reg) (v : Data) (hl : Live s) (hcur : s.ex.cur = some r) (hst : s.ex.sstate = st)
    (hd : s.ex.desc = d) (hw : Walk st done) (hg : gen s.cfg r.words d = some (cw, .none))
    (hok : cw.ok = true) (hmem : cw.mem = .none) (hdest : cw.dest = .reg b .w24)
    (h1 : cw.addc = false) (h2 : cw.shift = .none) (h3 : cw.fmask = .empty)
    (hu1 : Usable s.cfg (operandLocs s r cw)) (hv : (wordOut cw r s).result = v) :
    ∃ t, Ran 1 s t { s.setReg b .w24 v with ex := s.ex.leave done .none } := by
  obtain ⟨t, ht⟩ := chain_plain hl hcur hst hd hw hg hok hmem (by simp [hdest]) h1 h2 h3 hu1
  refine ⟨t, ?_⟩
  have h0 : afterChain .none st done = done := rfl
  rw [hdest, hv, h0] at ht
  exact ht

/-- Post-increment and post-decrement (R208). -/
theorem run_post {s : State} {r : Record} {st done : SState} {dir : Dir} {w : Width} {k : Nat}
    (b : Reg) (sg : Bool) (hl : Live s) (hfa : s.fair = true) (hcur : s.ex.cur = some r) (hst : s.ex.sstate = st)
    (hd : s.ex.desc = ⟨.postAccess, b, w, dir, k, sg⟩) (hw : Walk st done)
    (hu : usableReg s b .w24 = true) (hmdr : dir = .write → usableMdr s) :
    ∃ t, Ran 3 s t { s.setReg b .w24 (if sg then s.x24 b - stepOf w else s.x24 b + stepOf w) with
      mar := ⟨s.x24 b, true⟩
      mdr := mdrAfter s dir (s.x24 b) w
      mem := memAfter s dir (s.x24 b) w
      writes := writesAfter s dir (s.x24 b) w
      ex := s.ex.leave done .none } := by
  have hu1 := usable_reg hu
  obtain ⟨t1, r1⟩ := chain_access (d := ⟨.postAccess, b, w, dir, k, sg⟩)
    (d' := ⟨.postUpdate, b, w, dir, k, sg⟩) hl hfa hcur hst hd hw rfl (access_h1_ok _ _ rfl)
    (access_h1 _ _) (hu1.append (.nil _)) (usable_assert (dir := dir) hmdr rfl (by simp [Desc.accessH1]))
  have ha : accessAddr (Desc.accessH1 ⟨.postAccess, b, w, dir, k, sg⟩
      (Desc.baseSource ⟨.postAccess, b, w, dir, k, sg⟩))
      (readSource s r ⟨.reg b .w24, .w24, false⟩)
      (wordOut (Desc.accessH1 ⟨.postAccess, b, w, dir, k, sg⟩
      (Desc.baseSource ⟨.postAccess, b, w, dir, k, sg⟩)) r s) s = s.x24 b := read_reg24 s r b
  have h0 : afterChain ⟨.postUpdate, b, w, dir, k, sg⟩ st done = st := rfl
  rw [h0] at r1
  have r1' := r1
  rw [show (Desc.accessH1 ⟨.postAccess, b, w, dir, k, sg⟩
      (Desc.baseSource ⟨.postAccess, b, w, dir, k, sg⟩)).src0 = ⟨.reg b .w24, .w24, false⟩ from rfl,
    ha, accessPost_mode s _ _ dir w _ rfl rfl] at r1'
  obtain ⟨e1, e2, e3, e4, e5, e6, e7, e8, e9, e10, e11, e12, e13, e14, e15⟩ := exe_all r1'.exe
  simp only [ExecState.leave] at e1 e2 e3 e4 e5 e6 e7 e8 e9 e10 e11 e12 e13 e14 e15
  have hx : t1.x24 b = s.x24 b := by simp only [State.x24, e2]
  have hu2 : Usable t1.cfg (operandLocs t1 r
      { Desc.word ⟨.postUpdate, b, w, dir, k, sg⟩ with
        src0 := Desc.baseSource ⟨.postUpdate, b, w, dir, k, sg⟩, src1 := stepSource w, neg := sg
        op := .add, dest := .reg b .w24 }) := by
    refine Usable.append ?_ (.nil _)
    simp only [unwrittenLoc, Desc.baseSource, State.regUnwritten, e2, e1]
    exact hu1
  obtain ⟨t2, r2⟩ := run_update (d := ⟨.postUpdate, b, w, dir, k, sg⟩) (st := st) (done := done) b
    (if sg then s.x24 b - stepOf w else s.x24 b + stepOf w) r1.live (by rw [e11]; exact hcur) e10 e12
    hw rfl rfl rfl rfl rfl rfl rfl hu2 (by
      have hv0 : readSource t1 r (Desc.baseSource ⟨.postUpdate, b, w, dir, k, sg⟩) = s.x24 b := by
        rw [← hx]; exact read_reg24 t1 r b
      have hv1 : readSource t1 r (stepSource w) = stepOf w := read_const t1 r _
      unfold wordOut
      simp only [hv0, hv1]
      cases sg with
      | true => rw [alu_sub24 _ _ _ rfl rfl rfl rfl rfl rfl rfl, if_pos rfl]
      | false => rw [alu_add24 _ _ _ rfl rfl rfl rfl rfl rfl rfl, if_neg (by simp)])
  refine ⟨t2, ?_⟩
  obtain ⟨k1, d1, l1, x1, c1⟩ := r1.trans r2
  refine ⟨k1, d1, l1, x1.trans ?_, c1⟩
  refine exe_of ?_ ?_ ?_ ?_ ?_ ?_ ?_ ?_ ?_ rfl ?_ rfl ?_ ?_ ?_
  all_goals simp only [State.setReg, ExecState.leave, e1, e2, e3, e4, e5, e6, e7, e8, e9, e11, e13, e14, e15]
  · exact if_neg (by simp [Desc.accessH1])

/-- Pre-increment and pre-decrement (R209). -/
theorem run_pre {s : State} {r : Record} {st done : SState} {dir : Dir} {w : Width} {k : Nat}
    (b : Reg) (sg : Bool) (hl : Live s) (hfa : s.fair = true) (hcur : s.ex.cur = some r) (hst : s.ex.sstate = st)
    (hd : s.ex.desc = ⟨.preAccess, b, w, dir, k, sg⟩) (hw : Walk st done)
    (hu : usableReg s b .w24 = true) (hmdr : dir = .write → usableMdr s) (a : Addr)
    (hadr : a = if sg then s.x24 b - stepOf w else s.x24 b + stepOf w) :
    ∃ t, Ran 3 s t { s.setReg b .w24 a with
      mar := ⟨a, true⟩
      mdr := mdrAfter s dir a w
      mem := memAfter s dir a w
      writes := writesAfter s dir a w
      ex := s.ex.leave done .none } := by
  have hu1 := usable_reg hu
  obtain ⟨t1, r1⟩ := chain_access (d := ⟨.preAccess, b, w, dir, k, sg⟩)
    (d' := ⟨.preUpdate, b, w, dir, k, sg⟩) hl hfa hcur hst hd hw rfl (access_sum_ok _ _ _ _ rfl rfl)
    (access_sum _ _ _ _) (hu1.append (.nil _))
    (usable_assert (dir := dir) hmdr rfl (by simp [Desc.accessSum]))
  have ha : ∀ cw, cw = Desc.accessSum ⟨.preAccess, b, w, dir, k, sg⟩
      (Desc.baseSource ⟨.preAccess, b, w, dir, k, sg⟩) (stepSource w) sg →
      accessAddr cw (readSource s r cw.src0) (wordOut cw r s) s = a := by
    rintro cw rfl
    have hv0 : readSource s r (Desc.baseSource ⟨.preAccess, b, w, dir, k, sg⟩) = s.x24 b :=
      read_reg24 s r b
    have hv1 : readSource s r (stepSource w) = stepOf w := read_const s r _
    unfold wordOut
    simp only [accessAddr, Desc.accessSum, hv0, hv1]
    rw [hadr]
    cases sg with
    | true => rw [alu_sub24 _ _ _ rfl rfl rfl rfl rfl rfl rfl, if_pos rfl]
    | false => rw [alu_add24 _ _ _ rfl rfl rfl rfl rfl rfl rfl, if_neg (by simp)]
  have h0 : afterChain ⟨.preUpdate, b, w, dir, k, sg⟩ st done = st := rfl
  rw [h0] at r1
  have r1' := r1
  rw [ha _ rfl, accessPost_mode s _ _ dir w _ rfl rfl] at r1'
  obtain ⟨e1, e2, e3, e4, e5, e6, e7, e8, e9, e10, e11, e12, e13, e14, e15⟩ := exe_all r1'.exe
  simp only [ExecState.leave] at e1 e2 e3 e4 e5 e6 e7 e8 e9 e10 e11 e12 e13 e14 e15
  have e5' : t1.mar = ⟨a, true⟩ := e5
  obtain ⟨t2, r2⟩ := run_update (d := ⟨.preUpdate, b, w, dir, k, sg⟩) (st := st) (done := done) b a
    r1.live (by rw [e11]; exact hcur) e10 e12
    hw rfl rfl rfl rfl rfl rfl rfl (by
      refine Usable.append (.nil _) ?_
      simp only [unwrittenLoc, e5', if_true]
      exact .nil _) (by
      have hv1 : readSource t1 r ⟨.mar, .w24, false⟩ = a := by rw [read_mar, e5']
      unfold wordOut
      simp only [hv1]
      rw [alu_pass _ _ _ rfl rfl rfl rfl rfl rfl]
      exact Width.trunc_w24 a)
  refine ⟨t2, ?_⟩
  obtain ⟨k1, d1, l1, x1, c1⟩ := r1.trans r2
  refine ⟨k1, d1, l1, x1.trans ?_, c1⟩
  refine exe_of ?_ ?_ ?_ ?_ ?_ ?_ ?_ ?_ ?_ rfl ?_ rfl ?_ ?_ ?_
  all_goals simp only [State.setReg, ExecState.leave, e1, e2, e3, e4, e5', e6, e7, e8, e9, e11, e13, e14, e15]

/-- Register with displacement (R210). -/
theorem run_disp {s : State} {r : Record} {st done : SState} {dir : Dir} {w : Width} {k : Nat}
    (b : Reg) (d : Word16) (hl : Live s) (hfa : s.fair = true) (hcur : s.ex.cur = some r) (hst : s.ex.sstate = st)
    (hd : s.ex.desc = ⟨.dispAddr, b, w, dir, k, false⟩) (hw : Walk st done)
    (hk : k = 1 ∨ k = 2) (hlen : k < r.words.length) (hwd : slotWord r.words k = d)
    (hu : usableReg s b .w24 = true) (hmdr : dir = .write → usableMdr s) (a : Addr)
    (hadr : a = s.x24 b + dispOf s.cfg d) :
    ∃ t, Ran 3 s t { s with
      mar := ⟨a, true⟩
      mdr := mdrAfter s dir a w
      mem := memAfter s dir a w
      writes := writesAfter s dir a w
      ex := s.ex.leave done .none } := by
  have hu1 := usable_reg hu
  obtain ⟨t1, r1⟩ := chain_plain (d := ⟨.dispAddr, b, w, dir, k, false⟩)
    (d' := ⟨.dispAccess, b, w, dir, k, false⟩) hl hcur hst hd hw rfl
    (by rcases hk with rfl | rfl <;> rfl) rfl (by simp) rfl rfl rfl
    (hu1.append (usable_slot hlen))
  have h0 : afterChain ⟨.dispAccess, b, w, dir, k, false⟩ st done = st := rfl
  have hout : ∀ cw : ControlWord, cw = { Desc.word ⟨.dispAddr, b, w, dir, k, false⟩ with
        src0 := Desc.baseSource ⟨.dispAddr, b, w, dir, k, false⟩
        src1 := ⟨.imm k, .w16, s.cfg.regdispSigned⟩, op := .add, dest := .mar } →
      (wordOut cw r s).result = a := by
    rintro cw rfl
    have hv0 : readSource s r (Desc.baseSource ⟨.dispAddr, b, w, dir, k, false⟩) = s.x24 b :=
      read_reg24 s r b
    have hv1 := read_disp s r k d hwd
    unfold wordOut
    simp only [hv0, hv1]
    rw [alu_add24 _ _ _ rfl rfl rfl rfl rfl rfl rfl, hadr]
  rw [h0, hout _ rfl] at r1
  obtain ⟨e1, e2, e3, e4, e5, e6, e7, e8, e9, e10, e11, e12, e13, e14, e15⟩ := exe_all r1.exe
  simp only [ExecState.leave, writeLoc] at e1 e2 e3 e4 e5 e6 e7 e8 e9 e10 e11 e12 e13 e14 e15
  obtain ⟨t2, r2⟩ := chain_access (d := ⟨.dispAccess, b, w, dir, k, false⟩) (d' := .none)
    (cw := { Desc.word ⟨.dispAccess, b, w, dir, k, false⟩ with mem := .addr, wsrc := accOf dir })
    r1.live (e13.trans hfa) (by rw [e11]; exact hcur) e10 e12 hw rfl
    (by cases dir <;> rfl) ⟨by simp, by unfold accOf; cases dir <;> simp, rfl, rfl, rfl, rfl⟩
    (Usable.append (.nil _) (.nil _))
    (usable_assert (dir := dir) (fun h => by
      have := hmdr h
      unfold usableMdr at this ⊢
      rw [e1, e6]
      exact this) rfl (fun _ => by rw [e5]))
  refine ⟨t2, ?_⟩
  obtain ⟨k1, d1, l1, x1, c1⟩ := r1.trans r2
  refine ⟨k1, d1, l1, x1.trans ?_, c1⟩
  have ha : ∀ cw v0 out, cw = { Desc.word ⟨.dispAccess, b, w, dir, k, false⟩ with
      mem := .addr, wsrc := accOf dir } → accessAddr cw v0 out t1 = a := by
    rintro cw v0 out rfl
    simp only [accessAddr, e5]
  rw [ha _ _ _ rfl, accessPost_mode t1 _ _ dir w _ rfl rfl]
  have hld := State.load_congr e1 e7 e14
  refine exe_of ?_ ?_ ?_ ?_ ?_ ?_ ?_ ?_ ?_ rfl ?_ rfl ?_ ?_ ?_
  all_goals simp only [ExecState.leave, e1, e2, e3, e4, e5, e6, e7, e8, e9, e11, e13, e14, e15, mdrAfter, memAfter, writesAfter,
    hld, if_true]

/-- The chain of a memory mode (R204 to R212). -/
theorem run_chain {s : State} {r : Record} {st done : SState} {dir : Dir} {w : Width} {k : Nat}
    {rm : Rm} (hl : Live s) (hfa : s.fair = true) (hcur : s.ex.cur = some r) (hst : s.ex.sstate = st)
    (hd : s.ex.desc = firstDesc rm dir w k) (hw : Walk st done) (hmem : rmIsMem rm = true)
    (hat : RmAt r.words k w rm) (hu : usableRm s w rm = true) (hmdr : dir = .write → usableMdr s) :
    ∃ t, Ran 3 s t (chainPost s r.instrAddr rm dir w done) := by
  have hk' := hat.slot
  have hk : rmWords w rm ≠ [] → k = 1 ∨ k = 2 := fun h => hk'.resolve_left h
  have hlen := hat.len
  have one : ∀ {cw : ControlWord} (a : Addr), gen s.cfg r.words (firstDesc rm dir w k) = some (cw, .none) →
      cw.ok = true → AccessWord cw → Usable s.cfg (operandLocs s r cw) → cw.wsrc = accOf dir →
      cw.mwidth = w → cw.mem ≠ .addr →
      accessAddr cw (readSource s r cw.src0) (wordOut cw r s) s = a →
      ∃ t, Ran 3 s t { s with
        mar := ⟨a, true⟩
        mdr := mdrAfter s dir a w
        mem := memAfter s dir a w
        writes := writesAfter s dir a w
        ex := s.ex.leave done .none } := by
    intro cw a h1 h2 h3 h4 h5 h6 h7 h8
    obtain ⟨t, ⟨k1, k2, k3⟩, b, c, d, e⟩ := run_one a hl hfa hcur hst hd hw h1 h2 h3 h4 hmdr h5 h6 h7 h8
    exact ⟨t, ⟨k1, k2, by omega⟩, b, c, d, e⟩
  have sum : ∀ (src0 src1 : Source) (dd : Desc), accessAddr (dd.accessSum src0 src1 false)
      (readSource s r src0) (wordOut (dd.accessSum src0 src1 false) r s) s =
      readSource s r src0 + readSource s r src1 := by
    intro src0 src1 dd
    unfold wordOut
    simp only [accessAddr, Desc.accessSum]
    rw [alu_add24 _ _ _ rfl rfl rfl rfl rfl rfl rfl]
  cases rm with
  | reg b => cases hmem
  | imm v => cases hmem
  | ind b =>
    exact one (s.x24 b) rfl (access_h1_ok _ _ rfl) (access_h1 _ _) ((usable_reg hu).append (.nil _))
      rfl rfl (by simp [Desc.accessH1]) (read_reg24 s r b)
  | postInc b =>
    exact run_post b false hl hfa hcur hst hd hw hu hmdr
  | postDec b =>
    exact run_post b true hl hfa hcur hst hd hw hu hmdr
  | preInc b =>
    exact run_pre b false hl hfa hcur hst hd hw hu hmdr _ rfl
  | preDec b =>
    exact run_pre b true hl hfa hcur hst hd hw hu hmdr _ rfl
  | disp b d =>
    exact run_disp b d hl hfa hcur hst hd hw (hk (by simp [rmWords])) (by simp only [rmWords, List.length_singleton] at hlen; omega)
      (hat.disp b d rfl) hu hmdr _ rfl
  | pc8 d =>
    refine one (r.instrAddr + d.signExtend 24) rfl (access_sum_ok _ _ _ _ rfl ?_) (access_sum _ _ _ _)
      (Usable.append (.nil _) (usable_slot ?_)) rfl rfl (by simp [Desc.accessSum]) ?_
    · rcases hk (by simp [rmWords]) with rfl | rfl <;> rfl
    · simp only [rmWords, List.length_singleton] at hlen
      simp only [firstDesc]
      omega
    · refine (sum _ _ _).trans ?_
      rw [read_iaddr, show (firstDesc (.pc8 d) dir w k).slot = k from rfl, read_imm8s, hat.pc8 d rfl]
  | pc16 d =>
    refine one (r.instrAddr + d.setWidth 24) rfl (access_sum_ok _ _ _ _ rfl ?_) (access_sum _ _ _ _)
      (Usable.append (.nil _) (usable_slot ?_)) rfl rfl (by simp [Desc.accessSum]) ?_
    · rcases hk (by simp [rmWords]) with rfl | rfl <;> rfl
    · simp only [rmWords, List.length_singleton] at hlen
      simp only [firstDesc]
      omega
    · refine (sum _ _ _).trans ?_
      rw [read_iaddr, show (firstDesc (.pc16 d) dir w k).slot = k from rfl, read_imm16, hat.pc16 d rfl]
  | pc24 d =>
    refine one (r.instrAddr + d) rfl (access_sum_ok _ _ _ _ rfl ?_) (access_sum _ _ _ _)
      (Usable.append (.nil _) (Usable.append (usable_slot ?_) (usable_slot ?_))) rfl rfl
      (by simp [Desc.accessSum]) ?_
    · rcases hk (by simp [rmWords, split24]) with rfl | rfl <;> rfl
    · simp only [rmWords, split24, List.length_cons, List.length_nil] at hlen
      simp only [firstDesc]
      omega
    · simp only [rmWords, split24, List.length_cons, List.length_nil] at hlen
      simp only [firstDesc]
      omega
    · refine (sum _ _ _).trans ?_
      rw [read_iaddr, show (firstDesc (.pc24 d) dir w k).slot = k from rfl, read_imm24, hat.pc24 d rfl]
  | abs a =>
    refine one a rfl (access_h1_ok _ _ ?_) (access_h1 _ _)
      (Usable.append (Usable.append (usable_slot ?_) (usable_slot ?_)) (.nil _)) rfl rfl
      (by simp [Desc.accessH1]) ?_
    · rcases hk (by simp [rmWords, split24]) with rfl | rfl <;> rfl
    · simp only [rmWords, split24, List.length_cons, List.length_nil] at hlen
      simp only [firstDesc]
      omega
    · simp only [rmWords, split24, List.length_cons, List.length_nil] at hlen
      simp only [firstDesc]
      omega
    · refine (read_imm24 s r _).trans ?_
      exact hat.abs a rfl
  | absIdx a j =>
    obtain ⟨ha, hj⟩ := hat.absIdx a j rfl
    refine one (a + s.x24 j) rfl (access_sum_ok _ _ _ _ ?_ ?_) (access_sum _ _ _ _)
      (Usable.append (Usable.append (usable_slot ?_) (usable_slot ?_))
        (Usable.append (usable_slot ?_) ?_)) rfl rfl (by simp [Desc.accessSum]) ?_
    · rcases hk (by simp [rmWords]) with rfl | rfl <;> rfl
    · rcases hk (by simp [rmWords]) with rfl | rfl <;> rfl
    · simp only [rmWords, List.length_cons, List.length_nil] at hlen
      simp only [firstDesc]
      omega
    · simp only [rmWords, List.length_cons, List.length_nil] at hlen
      simp only [firstDesc]
      omega
    · simp only [rmWords, List.length_cons, List.length_nil] at hlen
      simp only [firstDesc]
      omega
    · simp only [firstDesc, hj]
      exact usable_reg hu
    · refine (sum _ _ _).trans ?_
      rw [show (firstDesc (.absIdx a j) dir w k).slot = k from rfl, read_imm24, read_rsel24, ha, hj]

end Sys2Proof.Machine
end

