-- ==== Sys2Proof/Laws/Exec.lean ====
section
/-! SUPPORT. What a whole instruction does: its record is taken from the slot, its before chain, its core
word and its after chain run to their ends, and Execute is ready for the next one. -/

namespace Sys2Proof.Machine

/-! ### Taking the record -/

/-- `s` with the record `r` taken by Execute, at the first word of its program (R272). -/
def taken (s : State) (r : Record) (st : SState) (d : Desc) : State :=
  { s with slot := r, ready := false, ex := { s.ex with sstate := st, cur := some r, desc := d } }

theorem portFree_iff (c : Ctl) (f : FetchState) : portFree c f = true ↔ FreePort c f := by
  unfold portFree FreePort
  cases c with
  | ready => cases f.pf <;> simp
  | readBusy a n o => cases o <;> cases f.pf <;> simp
  | writeBusy a n v o => simp
  | latched d o => simp

theorem idle_iff (s : State) : s.idle = true ↔ s.status = .running ∧ s.ex.sstate = .waitNext ∧
    s.ex.cw = none ∧ s.ex.exPending = none ∧ s.ex.brResolve = none ∧ FreePort s.ctl s.fetch := by
  simp only [State.idle, Bool.and_eq_true, beq_iff_eq, Option.isNone_iff_eq_none, portFree_iff,
    and_assoc]

theorem boundary_iff (s : State) :
    s.atBoundary = true ↔ s.idle = true ∧ s.dec.dstate = .waitForSlot := by
  simp only [State.atBoundary, Bool.and_eq_true, beq_iff_eq]

theorem taken_live {s : State} (h : s.atBoundary = true) (r : Record) (st : SState) (d : Desc) :
    Live (taken s r st d) := by
  obtain ⟨h1, h2⟩ := (boundary_iff s).1 h
  obtain ⟨a, b, c, d, e, f⟩ := (idle_iff s).1 h1
  exact ⟨a, c, d, e, f, fun h => by simp [taken] at h⟩

/-- The state and the descriptor in which a record's program begins (R272). -/
def entry (s : State) (r : Record) : SState × Desc :=
  if r.prog.before.isNone then (.coreOp, s.ex.desc) else (.before, r.prog.before)

theorem executeStart_taken {s : State} (h : s.atBoundary = true) (r : Record)
    (hr : r.isInvalid = false) (ho : r.prog.override.isNone = true) :
    executeStart { s with slot := r, ready := true } =
      executeStart (taken s r (entry s r).1 (entry s r).2) := by
  obtain ⟨h1, h2⟩ := (boundary_iff s).1 h
  obtain ⟨a, b, c, d, e, f⟩ := (idle_iff s).1 h1
  have hsel : select { s with slot := r, ready := true } =
      select (taken s r (entry s r).1 (entry s r).2) := by
    unfold entry
    by_cases hb : r.prog.before.isNone = true
    · simp only [select, b, selectNext, if_true, selectEval, hr, Bool.false_eq_true, if_false, ho,
        Bool.not_true, hb, taken]
    · have hb' : r.prog.before.isNone = false := by simpa using hb
      simp only [select, b, selectNext, if_true, selectEval, hr, Bool.false_eq_true, if_false, ho,
        Bool.not_true, hb', Bool.not_false, taken]
  unfold executeStart
  rw [running_of (s := { s with slot := r, ready := true }) (by exact a),
    running_of (s := taken s r (entry s r).1 (entry s r).2) (by exact a)]
  have e1 : ({ s with slot := r, ready := true } : State).ex.exPending.isSome = false := by simp [d]
  have e2 : (taken s r (entry s r).1 (entry s r).2).ex.exPending.isSome = false := by simp [taken, d]
  have e3 : ({ s with slot := r, ready := true } : State).ex.cw.isNone = true := by simp [c]
  have e4 : (taken s r (entry s r).1 (entry s r).2).ex.cw.isNone = true := by simp [taken, c]
  simp only [if_true, e1, e2, e3, e4, Bool.false_eq_true, if_false, hsel]

theorem runTurns_end {t : State} (hr : t.status = .running) (hf : t.finished = true) (m : Nat) :
    runTurns m t = t.retire := by
  cases m <;> simp [runTurns, running_of hr, hf]

/-- A record that runs to FINAL within its bound ends its step. -/
theorem runTurns_taken {s t : State} {r : Record} {k : Nat} (h : s.atBoundary = true)
    (hr : r.isInvalid = false) (ho : r.prog.override.isNone = true)
    (hreach : Reach (k + 1) (taken s r (entry s r).1 (entry s r).2) t)
    (hk : k + 1 ≤ s.draws.length + 64) (hl : Live t) (hf : t.ex.sstate = .final) :
    runTurns s.fuel { s with slot := r, ready := true } = t.retire := by
  obtain ⟨h1, h2⟩ := (boundary_iff s).1 h
  obtain ⟨a, b, c, d, e, f⟩ := (idle_iff s).1 h1
  have hfin : t.finished = true := by simp [State.finished, hf, hl.cw, hl.pend]
  have hnf : ∀ st, (st = SState.coreOp ∨ st = .before) → ∀ d, (taken s r st d).finished = false := by
    rintro st (rfl | rfl) d <;> rfl
  have hent : (entry s r).1 = .coreOp ∨ (entry s r).1 = .before := by
    unfold entry
    split
    · exact .inl rfl
    · exact .inr rfl
  have hreach' := reach_congr (executeStart_taken h r hr ho) (by exact a)
    (by simp [State.finished, b]) (by exact a) (hnf _ hent _) hreach
  have hm : s.fuel = (k + 1) + (s.draws.length + 64 - (k + 1)) := by
    unfold State.fuel
    omega
  rw [hm, hreach', runTurns_end hl.run hfin]

/-! ### The core word -/

/-- What the core word of a record changes: its destination and its flags (R283). -/
def coreResult (cw : ControlWord) (r : Record) (s : State) : State :=
  { writeLoc s r cw.dest (wordOut cw r s).result with
    f := commitFlags s.cfg.flagPos cw.fmask (wordOut cw r s).flags
      (writeLoc s r cw.dest (wordOut cw r s).result).f }

/-- The sequencer after the core word (R273). -/
def afterCore (s : State) (p : Program) : SState × Desc :=
  if p.after.isNone then (.final, s.ex.desc) else (.after, p.after)

/-- A core word that can run: well-formed, without an access, its operands and flags readable. -/
structure CoreOk (s : State) (r : Record) : Prop where
  ok : r.prog.core.ok = true
  mem : r.prog.core.mem = .none
  pc : r.prog.core.dest ≠ .pc ∨ r.isBranch = true
  ops : Usable s.cfg (operandLocs s r r.prog.core)
  flags : Usable s.cfg (aluUnwritten s.cfg r.prog.core s.f)

theorem committed_exe' (s : State) (r : Record) (nx : SState × Desc) :
    (committed r.prog.core r s.f (wordOut r.prog.core r s) nx s).exe =
      ({ coreResult r.prog.core r s with ex := s.ex.leave nx.1 nx.2 } : State).exe := by
  have hc : (writeLoc s r r.prog.core.dest (wordOut r.prog.core r s).result).cfg = s.cfg := by
    rw [writeLoc_frame]
  unfold committed coreResult
  simp only [hc]
  rw [writeLoc_frame]
  rfl

/-- The core word of a record that Execute does not resolve as a branch. -/
theorem run_core {s : State} {r : Record} (hl : Live s) (hcur : s.ex.cur = some r)
    (hst : s.ex.sstate = .coreOp) (hok : CoreOk s r)
    (hb : r.isBranch = false ∨ r.prog.static = true) :
    ∃ t, Ran 1 s t { coreResult r.prog.core r s with
      ex := s.ex.leave (afterCore s r.prog).1 (afterCore s r.prog).2 } := by
  have hn : ¬ Resolves r s.ex.sstate := by
    rintro ⟨-, h1, h2⟩
    rcases hb with hb | hb
    · rw [hb] at h1; cases h1
    · rw [hb] at h2; cases h2
  have hbl : branchLocs s.cfg r s.ex.sstate s.f = [] := if_neg hn
  have hnx : nextOf s.cfg r s.ex.sstate s.ex.desc = some (afterCore s r.prog) := by
    simp only [nextOf, hst, afterCore]
  obtain ⟨t, t1, t2, t3, t4, t5⟩ := run_plain hl hcur (by rw [hst]; rfl) hnx hok.ok hok.mem
    (by rw [hst]; rcases hok.pc with h | h <;> simp [pcWriteOk, h]) hok.ops hok.flags
    (by rw [hbl]; exact .nil _)
  refine ⟨t, ⟨0, t1, by omega⟩, t4, t2, ?_, ⟨t5.notTaken fun h => absurd h hn, fun hb hr =>
    ⟨t5.held hb hr, t5.pending hb hn⟩, t5.keeps fun h => absurd h hn⟩⟩
  rw [t3, committed_exe']

/-! ### Whole instructions -/

/-- The architectural part of a state, with the configuration, MAR, MDR, memory, the run status and the
log: what an instruction can change besides the pipeline's own state. -/
def State.arch (s : State) : State := { s.exe with ex := .reset }

theorem arch_of_exe {s t : State} (h : t.exe = s.exe) : t.arch = s.arch := by
  unfold State.arch
  rw [h]

theorem arch_all {s t : State} (h : t.arch = s.arch) :
    t.cfg = s.cfg ∧ t.regs = s.regs ∧ t.f = s.f ∧ t.shadowSelect = s.shadowSelect ∧ t.mar = s.mar ∧
      t.mdr = s.mdr ∧ t.mem = s.mem ∧ t.status = s.status ∧ t.log = s.log ∧ t.fair = s.fair ∧
      t.writes = s.writes ∧ t.freeCount = s.freeCount := by
  simp only [State.arch, State.exe, State.mk.injEq] at h
  simp only [h, and_self]

theorem arch_of {s t : State} (h1 : t.cfg = s.cfg) (h2 : t.regs = s.regs) (h3 : t.f = s.f)
    (h4 : t.shadowSelect = s.shadowSelect) (h5 : t.mar = s.mar) (h6 : t.mdr = s.mdr)
    (h7 : t.mem = s.mem) (h8 : t.status = s.status) (h9 : t.log = s.log) (h10 : t.fair = s.fair)
    (h11 : t.writes = s.writes) (h12 : t.freeCount = s.freeCount) : t.arch = s.arch := by
  simp only [State.arch, State.exe, h1, h2, h3, h4, h5, h6, h7, h8, h9, h10, h11, h12]

theorem coreResult_arch (cw : ControlWord) (r : Record) (s : State) :
    (coreResult cw r s).arch = (coreResult cw r s.arch).arch := by
  obtain ⟨_, _, dest⟩ := cw
  cases dest <;> rfl

theorem coreResult_congr {cw : ControlWord} {r : Record} {s t : State} (h : t.arch = s.arch) :
    (coreResult cw r t).arch = (coreResult cw r s).arch := by
  rw [coreResult_arch, h, ← coreResult_arch]

theorem taken_arch (s : State) (r : Record) (st : SState) (d : Desc) :
    (taken s r st d).arch = s.arch := rfl

theorem chainPost_congr {s t : State} (h : t.arch = s.arch) (ia : Addr) (rm : Rm) (dir : Dir)
    (w : Width) (done : SState) :
    (chainPost t ia rm dir w done).arch = (chainPost s ia rm dir w done).arch := by
  have hx : ∀ x : State, (chainPost x ia rm dir w done).arch =
      (chainPost x.arch ia rm dir w done).arch := by
    intro x
    cases rm <;> cases dir <;> rfl
  rw [hx t, h, ← hx s]

/-- How an instruction ends: `o` is the next state `t`, whose architectural part is that of `u`, in order
for the next instruction. -/
structure Ends (o : Host.Outcome State Fault Refusal) (t u : State) : Prop where
  out : o = .next t
  order : t.inOrder = true
  arch : t.arch = u.arch

/-- An instruction that ends where the front end goes on. -/
structure EndsOn (s : State) (o : Host.Outcome State Fault Refusal) (t u : State) : Prop
    extends Ends o t u where
  goes : GoesOn s t
  redir : ∀ q, t.fetch.redir = some q → q.src = .decode

theorem taken_keeps {s t : State} {r : Record} {st : SState} {d : Desc}
    (hk : Keeps (taken s r st d) t) : GoesOn s t := by
  intro h
  have hf : (taken s r st d).frontOk = true := by
    rw [frontOk_iff] at h ⊢
    obtain ⟨h1, h2, h3, h4, h5⟩ := h
    exact ⟨h1, h2, h3, h4, fun h => by simp [taken] at h⟩
  obtain ⟨a, b⟩ := hk.front hf
  exact ⟨a, b⟩

theorem retire_keeps (t : State) : Keeps t t.retire := .of_same rfl rfl rfl rfl rfl

theorem retire_order {t : State} (hl : Live t) : t.retire.inOrder = true := by
  unfold State.inOrder
  have h1 : t.retire.idle = true := by
    rw [idle_iff]
    exact ⟨hl.run, rfl, hl.cw, hl.pend, hl.br, hl.port⟩
  rw [h1, Bool.true_and]
  cases hr : t.ready with
  | false => simp [State.retire, hr]
  | true =>
    have := hl.hand hr
    simp [State.retire, this]

/-- A run from the taken record to FINAL, as the outcome of the instruction. -/
theorem ends_of_run {s t u : State} {r : Record} {c : Nat} (h : s.atBoundary = true)
    (hr : r.isInvalid = false) (ho : r.prog.override.isNone = true)
    (hran : Ran c (taken s r (entry s r).1 (entry s r).2) t u) (hc : c ≤ 64)
    (hf : u.ex.sstate = .final) :
    EndsOn s (.next (runTurns s.fuel { s with slot := r, ready := true })) t.retire u := by
  obtain ⟨k, hk, hb⟩ := hran.reach
  obtain ⟨e1, e2, e3, e4, e5, e6, e7, e8, e9, e10, e11, e12, -⟩ := exe_all hran.exe
  have hfin : t.ex.sstate = .final := e10.trans hf
  have hd : (taken s r (entry s r).1 (entry s r).2).draws = s.draws := rfl
  rw [hd] at hb
  refine ⟨⟨congrArg _ (runTurns_taken h hr ho hk (by omega) hran.live hfin), retire_order hran.live, ?_⟩, ?_,
    hran.calm.redir⟩
  · exact (show t.retire.arch = t.arch from rfl).trans (arch_of_exe hran.exe)
  · exact taken_keeps (hran.calm.keeps.trans (retire_keeps t))

theorem EndsOn.congr {s t u v : State} {o : Host.Outcome State Fault Refusal} (h : EndsOn s o t u)
    (hv : u.arch = v.arch) : EndsOn s o t v :=
  ⟨⟨h.out, h.order, h.arch.trans hv⟩, h.goes, h.redir⟩

theorem arch_ex (s : State) (e : ExecState) : ({ s with ex := e } : State).arch = s.arch := rfl

/-- An instruction of its core word alone. -/
theorem ends_core {s : State} {r : Record} (h : s.atBoundary = true) (hr : r.isInvalid = false)
    (ho : r.prog.override.isNone = true) (hbf : r.prog.before.isNone = true)
    (haf : r.prog.after.isNone = true) (hok : CoreOk s r)
    (hb : r.isBranch = false ∨ r.prog.static = true) :
    ∃ t, EndsOn s (.next (runTurns s.fuel { s with slot := r, ready := true })) t
      (coreResult r.prog.core r s) := by
  have hent : entry s r = (.coreOp, s.ex.desc) := by simp [entry, hbf]
  obtain ⟨t, t2⟩ := run_core (s := taken s r .coreOp s.ex.desc) (r := r) (taken_live h r _ _) rfl rfl
    ⟨hok.ok, hok.mem, hok.pc, hok.ops, hok.flags⟩ hb
  have hac : afterCore (taken s r .coreOp s.ex.desc) r.prog = (.final, s.ex.desc) := by
    simp [afterCore, haf, taken]
  rw [hac] at t2
  refine ⟨t.retire, EndsOn.congr (ends_of_run h hr ho (by rw [hent]; exact t2) (by omega) rfl) ?_⟩
  rw [arch_ex]
  exact coreResult_congr (taken_arch s r _ _)

/-- An instruction with a before chain (R101, R102). -/
theorem ends_before {s : State} {r : Record} {u : State} {c : Nat} (h : s.atBoundary = true)
    (hr : r.isInvalid = false) (ho : r.prog.override.isNone = true)
    (hbf : r.prog.before.isNone = false) (haf : r.prog.after.isNone = true) (hc : c ≤ 60)
    (hbefore : ∃ t, Ran c (taken s r .before r.prog.before) t u) (hus : u.ex.sstate = .coreOp)
    (huc : u.ex.cur = some r) (hok : ∀ v : State, v.arch = u.arch → CoreOk v r)
    (hb : r.isBranch = false ∨ r.prog.static = true) :
    ∃ t, EndsOn s (.next (runTurns s.fuel { s with slot := r, ready := true })) t
      (coreResult r.prog.core r u) := by
  have hent : entry s r = (.before, r.prog.before) := by simp [entry, hbf]
  obtain ⟨t1, r1⟩ := hbefore
  obtain ⟨e1, e2, e3, e4, e5, e6, e7, e8, e9, e10, e11, e12, -⟩ := exe_all r1.exe
  obtain ⟨t, t2⟩ := run_core (s := t1) (r := r) r1.live (e11.trans huc) (e10.trans hus)
    (hok t1 (arch_of_exe r1.exe)) hb
  have hac : afterCore t1 r.prog = (.final, t1.ex.desc) := by
    simp [afterCore, haf]
  rw [hac] at t2
  refine ⟨t.retire, EndsOn.congr (ends_of_run h hr ho (by rw [hent]; exact r1.trans t2) (by omega)
    rfl) ?_⟩
  rw [arch_ex]
  exact coreResult_congr (arch_of_exe r1.exe)

/-- An instruction with an after chain (R101, R102). -/
theorem ends_after {s : State} {r : Record} {w : State → State} {c : Nat} (h : s.atBoundary = true)
    (hr : r.isInvalid = false) (ho : r.prog.override.isNone = true)
    (hbf : r.prog.before.isNone = true) (haf : r.prog.after.isNone = false) (hc : c ≤ 60)
    (hok : CoreOk s r)
    (hafter : ∀ v : State, Live v → v.ex.cur = some r → v.ex.sstate = .after →
      v.ex.desc = r.prog.after → v.arch = (coreResult r.prog.core r s).arch →
      ∃ t, Ran c v t (w v) ∧ (w v).ex.sstate = .final)
    (hw : ∀ v : State, v.arch = (coreResult r.prog.core r s).arch →
      (w v).arch = (w (coreResult r.prog.core r s)).arch)
    (hb : r.isBranch = false ∨ r.prog.static = true) :
    ∃ t, EndsOn s (.next (runTurns s.fuel { s with slot := r, ready := true })) t
      (w (coreResult r.prog.core r s)) := by
  have hent : entry s r = (.coreOp, s.ex.desc) := by simp [entry, hbf]
  obtain ⟨t1, r1⟩ := run_core (s := taken s r .coreOp s.ex.desc) (r := r) (taken_live h r _ _) rfl rfl
    ⟨hok.ok, hok.mem, hok.pc, hok.ops, hok.flags⟩ hb
  have hac : afterCore (taken s r .coreOp s.ex.desc) r.prog = (.after, r.prog.after) := by
    simp [afterCore, haf]
  rw [hac] at r1
  obtain ⟨e1, e2, e3, e4, e5, e6, e7, e8, e9, e10, e11, e12, -⟩ := exe_all r1.exe
  have ha : t1.arch = (coreResult r.prog.core r s).arch := by
    refine (arch_of_exe r1.exe).trans ?_
    rw [arch_ex]
    exact coreResult_congr (taken_arch s r _ _)
  obtain ⟨t, t2, t3⟩ := hafter t1 r1.live (e11.trans rfl) e10 e12 ha
  exact ⟨t.retire, EndsOn.congr (ends_of_run h hr ho (by rw [hent]; exact r1.trans t2) (by omega)
    t3) (hw t1 ha)⟩

/-- An instruction with a before and an after chain: a read-modify-write (R215). -/
theorem ends_both {s : State} {r : Record} {u : State} {w : State → State} {c d : Nat}
    (h : s.atBoundary = true) (hr : r.isInvalid = false) (ho : r.prog.override.isNone = true)
    (hbf : r.prog.before.isNone = false) (haf : r.prog.after.isNone = false) (hc : c + d ≤ 60)
    (hbefore : ∃ t, Ran c (taken s r .before r.prog.before) t u) (hus : u.ex.sstate = .coreOp)
    (huc : u.ex.cur = some r) (hok : ∀ v : State, v.arch = u.arch → CoreOk v r)
    (hafter : ∀ v : State, Live v → v.ex.cur = some r → v.ex.sstate = .after →
      v.ex.desc = r.prog.after → v.arch = (coreResult r.prog.core r u).arch →
      ∃ t, Ran d v t (w v) ∧ (w v).ex.sstate = .final)
    (hw : ∀ v : State, v.arch = (coreResult r.prog.core r u).arch →
      (w v).arch = (w (coreResult r.prog.core r u)).arch)
    (hb : r.isBranch = false ∨ r.prog.static = true) :
    ∃ t, EndsOn s (.next (runTurns s.fuel { s with slot := r, ready := true })) t
      (w (coreResult r.prog.core r u)) := by
  have hent : entry s r = (.before, r.prog.before) := by simp [entry, hbf]
  obtain ⟨t1, r1⟩ := hbefore
  obtain ⟨e1, e2, e3, e4, e5, e6, e7, e8, e9, e10, e11, e12, -⟩ := exe_all r1.exe
  obtain ⟨t2, r2⟩ := run_core (s := t1) (r := r) r1.live (e11.trans huc) (e10.trans hus)
    (hok t1 (arch_of_exe r1.exe)) hb
  have hac : afterCore t1 r.prog = (.after, r.prog.after) := by simp [afterCore, haf]
  rw [hac] at r2
  obtain ⟨g1, g2, g3, g4, g5, g6, g7, g8, g9, g10, g11, g12, -⟩ := exe_all r2.exe
  have ha : t2.arch = (coreResult r.prog.core r u).arch := by
    refine (arch_of_exe r2.exe).trans ?_
    rw [arch_ex]
    exact coreResult_congr (arch_of_exe r1.exe)
  have hcur2 : t2.ex.cur = some r := by
    rw [g11]
    exact e11.trans huc
  obtain ⟨t, t3, t4⟩ := hafter t2 r2.live hcur2 g10 g12 ha
  exact ⟨t.retire, EndsOn.congr (ends_of_run h hr ho (by rw [hent]; exact (r1.trans r2).trans t3)
    (by omega) t4) (hw t2 ha)⟩

/-! ### Branches that Execute resolves -/

/-- A state whose words so far resolved no branch. -/
structure Quiet (s t : State) : Prop where
  held : s.dec.branchPending = true → s.ready = false → t.ready = false ∧ t.dec.branchPending = true
  keeps : Keeps s t

theorem Quiet.refl (s : State) : Quiet s s := ⟨fun a b => ⟨b, a⟩, .refl s⟩

theorem Calm.quiet {s t : State} (h : Calm s t) : Quiet s t := ⟨h.held, h.keeps⟩

/-- The outcome of a branch that Execute resolves, from the state at its core word on (R290). -/
theorem ends_resolve {s q : State} {r : Record} {k : Nat} (h : s.atBoundary = true)
    (hr : r.isInvalid = false) (ho : r.prog.override.isNone = true)
    (haf : r.prog.after.isNone = true) (hbr : r.isBranch = true) (hns : r.prog.static = false)
    (hreach : Reach k (taken s r (entry s r).1 (entry s r).2) q) (hk : k + q.draws.length ≤ s.draws.length + 60)
    (hq : Live q) (hqt : Quiet (taken s r (entry s r).1 (entry s r).2) q)
    (hcur : q.ex.cur = some r) (hst : q.ex.sstate = .coreOp) (hok : CoreOk q r)
    (hcond : Usable q.cfg (unwrittenCond q.cfg.flagPos q.f r.prog.pred)) :
    ∃ t, Ends (.next (runTurns s.fuel { s with slot := r, ready := true })) t (coreResult r.prog.core r q) ∧
      (condHolds q.cfg.flagPos q.f r.prog.pred = true →
        GoesTo s t (wordOut r.prog.core r q).result) ∧
      (condHolds q.cfg.flagPos q.f r.prog.pred = false →
        GoesOn s t ∧ ∀ x, t.fetch.redir = some x → x.src = .decode) := by
  have hres : Resolves r q.ex.sstate := ⟨hst, hbr, hns⟩
  have hbl : branchLocs q.cfg r q.ex.sstate q.f = unwrittenCond q.cfg.flagPos q.f r.prog.pred :=
    if_pos hres
  have hac : afterCore q r.prog = (.final, q.ex.desc) := by simp [afterCore, haf]
  have hnx : nextOf q.cfg r q.ex.sstate q.ex.desc = some (afterCore q r.prog) := by
    simp only [nextOf, hst, afterCore]
  obtain ⟨t, t1, t2, t3, t4, t5⟩ := run_plain hq hcur (by rw [hst]; rfl) hnx hok.ok hok.mem
    (by rw [hst]; simp [pcWriteOk, hbr]) hok.ops hok.flags (by rw [hbl]; exact hcond)
  have hfin : t.ex.sstate = .final := by
    have := (exe_all t3).2.2.2.2.2.2.2.2.2.1
    rw [this, hac]
    rfl
  have hd : (taken s r (entry s r).1 (entry s r).2).draws = s.draws := rfl
  have hout := runTurns_taken h hr ho (hreach.trans t1) (by omega) t2 hfin
  refine ⟨t.retire, ⟨congrArg _ hout, retire_order t2, ?_⟩, ?_, ?_⟩
  · have ha := arch_of_exe (t3.trans (committed_exe' q r _))
    rw [arch_ex] at ha
    exact (show t.retire.arch = t.arch from rfl).trans ha
  · intro hc
    refine ⟨t5.taken hres hc, fun hf hb => ?_⟩
    have hch : (taken s r (entry s r).1 (entry s r).2).chained = true := (frontOk_iff.1 hf).1
    obtain ⟨b1, b2⟩ := hqt.held hb rfl
    obtain ⟨g1, g2⟩ := t5.goes hres hc b2 b1 (hqt.keeps.chain hch)
    obtain ⟨g3, g4⟩ := (retire_keeps t).front g1
    exact ⟨g3, g4.trans g2⟩
  · intro hc
    exact ⟨taken_keeps (hqt.keeps.trans ((t5.keeps fun _ => hc).trans (retire_keeps t))),
      t5.notTaken fun _ => hc⟩

end Sys2Proof.Machine
end

