-- ==== Sys2Proof/Laws/Words.lean ====
section
/-! SUPPORT. Where an instruction's operands lie in its words, and what the sources of a core word read
(R110 to R116, R124). -/

namespace Sys2Proof.Machine

theorem slotWord_cons_zero (w : Word16) (ws : List Word16) : slotWord (w :: ws) 0 = w := rfl

theorem slotWord_cons_succ (w : Word16) (ws : List Word16) (k : Nat) :
    slotWord (w :: ws) (k + 1) = slotWord ws k := by
  simp [slotWord]

theorem slotWord_append (op l : List Word16) (k : Nat) (h : op.length = k) (j : Nat) :
    slotWord (op ++ l) (k + j) = slotWord l j := by
  subst h
  simp only [slotWord, List.getD_eq_getElem?_getD]
  rw [List.getElem?_append_right (by omega)]
  congr 2
  omega

theorem join_split (v : Data) :
    join24 (BitVec.ofNat 16 v.toNat) (BitVec.ofNat 16 (v.toNat / 65536)) = v := by
  apply BitVec.eq_of_toNat_eq
  have := v.isLt
  simp only [join24, BitVec.toNat_ofNat]
  omega

theorem join_index (a : Addr) (j : Reg) :
    join24 (BitVec.ofNat 16 a.toNat) (BitVec.ofNat 16 (a.toNat / 65536 + j.val * 8192)) = a ∧
      regOf (fld (BitVec.ofNat 16 (a.toNat / 65536 + j.val * 8192)) 13 3) = j := by
  have h1 := a.isLt
  have h2 := j.isLt
  constructor
  · apply BitVec.eq_of_toNat_eq
    simp only [join24, BitVec.toNat_ofNat]
    omega
  · apply Fin.ext
    simp only [fld, regOf, BitVec.toNat_ofNat, Fin.ofNat]
    omega

/-- The extension words of an RM specifier after `k` words lie at slot `k` (R115). -/
theorem rmAt_words (op : List Word16) (k : Nat) (h : op.length = k) (hk : k = 1 ∨ k = 2) (w : Width)
    (rm : Rm) : RmAt (op ++ rmWords w rm) k w rm := by
  have h0 : ∀ l, slotWord (op ++ l) k = slotWord l 0 := fun l => slotWord_append op l k h 0
  have h1 : ∀ l, slotWord (op ++ l) (k + 1) = slotWord l 1 := fun l => slotWord_append op l k h 1
  refine ⟨.inr hk, by simp [h], ?_, ?_, ?_, ?_, ?_, ?_, ?_, ?_, ?_⟩
  · rintro b d rfl
    exact h0 _
  · rintro d rfl
    rw [h0]
    apply BitVec.eq_of_toNat_eq
    have := d.isLt
    simp only [rmWords, slotWord_cons_zero, BitVec.toNat_ofNat]
    omega
  · rintro d rfl
    exact h0 _
  · rintro d rfl
    simp only [slotData, h0, h1]
    exact join_split d
  · rintro a rfl
    simp only [slotData, h0, h1]
    exact join_split a
  · rintro a j rfl
    simp only [slotData, selectedReg, h0, h1]
    exact join_index a j
  · rintro v rfl rfl
    rw [h0]
    simp only [rmWords, immWords, slotWord_cons_zero, BitVec.toNat_ofNat]
    omega
  · rintro v rfl rfl
    rw [h0]
    simp only [rmWords, immWords, slotWord_cons_zero, BitVec.toNat_ofNat]
  · rintro v rfl rfl
    simp only [slotData, h0, h1]
    exact join_split v

/-- A mode without extension words asks for no slot. -/
theorem rmAt_none (ws : List Word16) (k : Nat) (w : Width) (b : Reg) (rm : Rm) (h : k ≤ ws.length)
    (hr : rm = .ind b ∨ rm = .postInc b ∨ rm = .postDec b ∨ rm = .preInc b ∨ rm = .preDec b) :
    RmAt ws k w rm := by
  rcases hr with rfl | rfl | rfl | rfl | rfl <;>
    exact ⟨.inl rfl, h, by simp, by simp, by simp, by simp, by simp, by simp, by simp, by simp, by simp⟩

/-! ### The words a decoder has read an instruction from -/

theorem word1_ok {xs ys : List Word16} {x : Word16} (h : word1 xs = .ok (x, ys)) : xs = x :: ys := by
  unfold word1 at h
  split at h <;> cases h
  rfl

theorem word24_ok {xs ys : List Word16} {v : Data} (h : word24 xs = .ok (v, ys)) :
    ∃ lo hi, xs = lo :: hi :: ys ∧ v = join24 lo hi := by
  unfold word24 at h
  split at h <;> cases h
  exact ⟨_, _, rfl, rfl⟩

/-- A result of two decoding steps comes from a result of the first. -/
theorem bind_ok {ε α β : Type} {x : Except ε α} {f : α → Except ε β} {b : β} (h : x >>= f = .ok b) :
    ∃ a, x = .ok a ∧ f a = .ok b := by
  cases x with
  | error e => cases h
  | ok a => exact ⟨a, rfl, h⟩

/-- An immediate the decoder has read lies at its slot (R115, R213). -/
theorem rmAt_immOf {w : Width} {xs ys : List Word16} {v : Data} (h : immOf w xs = .ok (v, ys))
    (op : List Word16) (k : Nat) (hop : op.length = k) (hk : k = 1 ∨ k = 2) :
    RmAt (op ++ xs) k w (.imm v) := by
  have h0 : slotWord (op ++ xs) k = slotWord xs 0 := slotWord_append op xs k hop 0
  have h1 : slotWord (op ++ xs) (k + 1) = slotWord xs 1 := slotWord_append op xs k hop 1
  have hl : k + (rmWords w (.imm v)).length ≤ (op ++ xs).length ∧
      (w = .w8 → (slotWord xs 0).toNat % 256 = v.toNat % 256) ∧
      (w = .w16 → (slotWord xs 0).toNat = v.toNat % 65536) ∧
      (w = .w24 → join24 (slotWord xs 0) (slotWord xs 1) = v) := by
    unfold immOf at h
    cases w with
    | w8 =>
      obtain ⟨⟨x, zs⟩, hx, hv⟩ := bind_ok h
      obtain rfl := word1_ok hx
      cases hv
      refine ⟨by simp [rmWords, immWords, hop], fun _ => ?_, by simp, by simp⟩
      simp only [slotWord_cons_zero, BitVec.toNat_ofNat]
      omega
    | w16 =>
      obtain ⟨⟨x, zs⟩, hx, hv⟩ := bind_ok h
      obtain rfl := word1_ok hx
      cases hv
      refine ⟨by simp [rmWords, immWords, hop], by simp, fun _ => ?_, by simp⟩
      have := x.isLt
      simp only [slotWord_cons_zero, BitVec.toNat_ofNat]
      omega
    | w24 =>
      obtain ⟨lo, hi, rfl, rfl⟩ := word24_ok h
      exact ⟨by simp [rmWords, immWords, split24, hop], by simp, by simp, fun _ => rfl⟩
  obtain ⟨l, a, b, c⟩ := hl
  refine ⟨.inr hk, l, by simp, by simp, by simp, by simp, by simp, by simp, ?_, ?_, ?_⟩
  · rintro u ⟨rfl⟩ hw
    rw [h0]
    exact a hw
  · rintro u ⟨rfl⟩ hw
    rw [h0]
    exact b hw
  · rintro u ⟨rfl⟩ hw
    simp only [slotData, h0, h1]
    exact c hw

/-- The extension words of an RM specifier the decoder has read lie at their slot (R115, R124). -/
theorem rmAt_rmOf {w : Width} {rm6 : Nat} {xs ys : List Word16} {rm : Rm}
    (h : rmOf w rm6 xs = .ok (rm, ys)) (op : List Word16) (k : Nat) (hop : op.length = k)
    (hk : k = 1 ∨ k = 2) : RmAt (op ++ xs) k w rm := by
  have h0 : slotWord (op ++ xs) k = slotWord xs 0 := slotWord_append op xs k hop 0
  have h1 : slotWord (op ++ xs) (k + 1) = slotWord xs 1 := slotWord_append op xs k hop 1
  have hle : k ≤ (op ++ xs).length := by simp [hop]
  have hlen : ∀ n, n ≤ xs.length → k + n ≤ (op ++ xs).length := by
    intro n hn
    simp only [List.length_append, hop]
    omega
  unfold rmOf at h
  simp only at h
  split at h
  · cases h
    exact ⟨.inl rfl, hle, by simp, by simp, by simp, by simp, by simp, by simp, by simp, by simp,
      by simp⟩
  · cases h; exact rmAt_none _ _ _ (regOf (rm6 % 8)) _ hle (by simp)
  · cases h; exact rmAt_none _ _ _ (regOf (rm6 % 8)) _ hle (by simp)
  · cases h; exact rmAt_none _ _ _ (regOf (rm6 % 8)) _ hle (by simp)
  · cases h; exact rmAt_none _ _ _ (regOf (rm6 % 8)) _ hle (by simp)
  · cases h; exact rmAt_none _ _ _ (regOf (rm6 % 8)) _ hle (by simp)
  · obtain ⟨⟨x, zs⟩, hx, hv⟩ := bind_ok h
    obtain rfl := word1_ok hx
    cases hv
    refine ⟨.inr hk, hlen _ (by simp [rmWords]), ?_, by simp, by simp, by simp, by simp, by simp,
      by simp, by simp, by simp⟩
    rintro _ _ ⟨rfl, rfl⟩
    exact h0
  · unfold rmSpecial at h
    split at h
    · obtain ⟨⟨x, zs⟩, hx, hv⟩ := bind_ok h
      obtain rfl := word1_ok hx
      cases hv
      refine ⟨.inr hk, hlen _ (by simp [rmWords]), by simp, ?_, by simp, by simp, by simp, by simp,
        by simp, by simp, by simp⟩
      rintro _ ⟨rfl⟩
      rw [h0]
      rfl
    · obtain ⟨⟨x, zs⟩, hx, hv⟩ := bind_ok h
      obtain rfl := word1_ok hx
      cases hv
      refine ⟨.inr hk, hlen _ (by simp [rmWords]), by simp, by simp, ?_, by simp, by simp, by simp,
        by simp, by simp, by simp⟩
      rintro _ ⟨rfl⟩
      exact h0
    · obtain ⟨⟨x, zs⟩, hx, hv⟩ := bind_ok h
      obtain ⟨lo, hi, rfl, rfl⟩ := word24_ok hx
      cases hv
      refine ⟨.inr hk, hlen _ (by simp [rmWords, split24]), by simp, by simp, by simp, ?_, by simp,
        by simp, by simp, by simp, by simp⟩
      rintro _ ⟨rfl⟩
      simp only [slotData, h0, h1]
      rfl
    · obtain ⟨⟨x, zs⟩, hx, hv⟩ := bind_ok h
      obtain ⟨lo, hi, rfl, rfl⟩ := word24_ok hx
      cases hv
      refine ⟨.inr hk, hlen _ (by simp [rmWords, split24]), by simp, by simp, by simp, by simp, ?_,
        by simp, by simp, by simp, by simp⟩
      rintro _ ⟨rfl⟩
      simp only [slotData, h0, h1]
      rfl
    · unfold idxOf at h
      split at h
      · cases h
        refine ⟨.inr hk, hlen _ (by simp [rmWords]), by simp, by simp, by simp, by simp, by simp, ?_,
          by simp, by simp, by simp⟩
        rintro _ _ ⟨rfl, rfl⟩
        simp only [slotData, selectedReg, h0, h1]
        exact ⟨rfl, rfl⟩
      · cases h
    · obtain ⟨⟨x, zs⟩, hx, hv⟩ := bind_ok h
      cases hv
      exact rmAt_immOf hx op k hop hk
    · cases h

theorem rmAt_rmDest {w : Width} {rm6 : Nat} {xs ys : List Word16} {rm : Rm}
    (h : rmDest w rm6 xs = .ok (rm, ys)) (op : List Word16) (k : Nat) (hop : op.length = k)
    (hk : k = 1 ∨ k = 2) : RmAt (op ++ xs) k w rm := by
  unfold rmDest at h
  split at h
  · cases h
  · exact rmAt_rmOf h op k hop hk

/-- The words of a record hold the operands of `i` where its program reads them (R100, R110 to R116). -/
def operandsAt (ws : List Word16) : Instr → Prop
  | .addI w _ v | .adcI w _ v | .subI w _ v | .sbcI w _ v => RmAt ws 1 w (.imm v)
  | .andI w _ v | .orI w _ v | .xorI w _ v | .cmpI w _ v => RmAt ws 1 w (.imm v)
  | .ldRI w _ v => RmAt ws 1 w (.imm v)
  | .ldRM w _ rm | .ldMR w _ rm => RmAt ws 1 w rm
  | .bitM w _ rm | .setM w _ rm | .resM w _ rm => RmAt ws 2 w rm
  | .jpAbs _ a | .callAbs a => ws.length = 3 ∧ slotData ws 1 = a
  | .jrRel _ d => ws.length = 2 ∧ BitVec.ofNat 8 (slotWord ws 1).toNat = d
  | .inR _ n | .outR _ n => ws.length = 2 ∧ BitVec.ofNat 8 (slotWord ws 1).toNat = n
  | _ => True

/-- The encoder's words hold the operands. -/
theorem operandsAt_encode (i : Instr) : operandsAt (encode i) i := by
  cases i <;>
    first
    | trivial
    | exact rmAt_words [_] 1 rfl (.inl rfl) _ (.imm _)
    | exact rmAt_words [_] 1 rfl (.inl rfl) _ _
    | exact rmAt_words [_, _] 2 rfl (.inr rfl) _ _
    | exact ⟨rfl, join_split _⟩
    | exact ⟨rfl, ofNat16_8 _⟩

theorem operandsAt_alu {w : Word16} {xs : List Word16} {i : Instr}
    (h : decodeAlu w xs = .ok (i, [])) : operandsAt (w :: xs) i := by
  unfold decodeAlu at h
  obtain ⟨ww, -, h⟩ := bind_ok h
  simp only at h
  split at h
  · cases h
  · split at h
    · cases h
      unfold aluRegForm
      split <;> trivial
    · split at h
      · cases h
      · obtain ⟨⟨v, ys⟩, hv, h⟩ := bind_ok h
        cases h
        have := rmAt_immOf hv [w] 1 rfl (.inl rfl)
        unfold aluImmForm
        split <;> exact this

theorem operandsAt_load {w : Word16} {xs : List Word16} {i : Instr}
    (h : decodeLoad w xs = .ok (i, [])) : operandsAt (w :: xs) i := by
  unfold decodeLoad at h
  obtain ⟨ww, -, h⟩ := bind_ok h
  simp only at h
  split at h
  · split at h
    · cases h
    · cases h; trivial
  · split at h
    · cases h
    · obtain ⟨⟨v, ys⟩, hv, h⟩ := bind_ok h
      cases h
      exact rmAt_immOf hv [w] 1 rfl (.inl rfl)
  · obtain ⟨⟨rm, ys⟩, hv, h⟩ := bind_ok h
    cases h
    exact rmAt_rmOf hv [w] 1 rfl (.inl rfl)
  · obtain ⟨⟨rm, ys⟩, hv, h⟩ := bind_ok h
    cases h
    exact rmAt_rmDest hv [w] 1 rfl (.inl rfl)

theorem operandsAt_branch {w : Word16} {xs : List Word16} {i : Instr}
    (h : decodeBranch w xs = .ok (i, [])) : operandsAt (w :: xs) i := by
  unfold decodeBranch at h
  split at h
  · obtain ⟨cc, -, h⟩ := bind_ok h
    split at h
    · cases h
    · obtain ⟨⟨a, ys⟩, ha, h⟩ := bind_ok h
      cases h
      obtain ⟨lo, hi, rfl, rfl⟩ := word24_ok ha
      exact ⟨rfl, rfl⟩
  · obtain ⟨cc, -, h⟩ := bind_ok h
    split at h
    · cases h
    · obtain ⟨⟨a, ys⟩, ha, h⟩ := bind_ok h
      cases h
      obtain rfl := word1_ok ha
      exact ⟨rfl, rfl⟩
  · obtain ⟨cc, -, h⟩ := bind_ok h
    split at h
    · cases h
    · cases h; trivial
  · split at h
    · cases h
    · split at h
      · cases h
      · obtain ⟨⟨a, ys⟩, ha, h⟩ := bind_ok h
        cases h
        obtain ⟨lo, hi, rfl, rfl⟩ := word24_ok ha
        exact ⟨rfl, rfl⟩
  · split at h
    · cases h
    · split at h
      · cases h
      · cases h; trivial
  · cases h

theorem operandsAt_bit {w : Word16} {xs : List Word16} {i : Instr}
    (h : decodeBit w xs = .ok (i, [])) : operandsAt (w :: xs) i := by
  unfold decodeBit at h
  obtain ⟨ww, -, h⟩ := bind_ok h
  split at h
  · cases h
  · obtain ⟨⟨x, ys⟩, hx, h⟩ := bind_ok h
    obtain rfl := word1_ok hx
    revert h
    generalize fld w 10 3 = k
    intro h
    by_cases h2 : k = 2
    · subst h2
      obtain ⟨⟨rm, zs⟩, hv, h⟩ := bind_ok (x := rmOf ww (fld w 2 6) ys) h
      obtain ⟨n, -, h⟩ := bind_ok (x := bitNumber ww x) h
      cases h
      exact rmAt_rmOf hv [w, x] 2 rfl (.inr rfl)
    · by_cases h3 : k = 3
      · subst h3
        obtain ⟨⟨rm, zs⟩, hv, h⟩ := bind_ok (x := rmDest ww (fld w 2 6) ys) h
        obtain ⟨n, -, h⟩ := bind_ok (x := bitNumber ww x) h
        cases h
        exact rmAt_rmDest hv [w, x] 2 rfl (.inr rfl)
      · simp only [] at h
        obtain ⟨⟨rm, zs⟩, hv, h⟩ := bind_ok (x := rmDest ww (fld w 2 6) ys) h
        obtain ⟨n, -, h⟩ := bind_ok (x := bitNumber ww x) h
        cases h
        exact rmAt_rmDest hv [w, x] 2 rfl (.inr rfl)

theorem operandsAt_other {w : Word16} {xs : List Word16} {i : Instr}
    (h : decodeOther w xs = .ok (i, [])) : operandsAt (w :: xs) i := by
  unfold decodeOther at h
  split at h
  · obtain ⟨ww, -, h⟩ := bind_ok h
    split at h <;> cases h
    trivial
  · obtain ⟨ww, -, h⟩ := bind_ok h
    split at h <;> cases h
    trivial
  · obtain ⟨ww, -, h⟩ := bind_ok h
    split at h
    · cases h
    · obtain ⟨j, hj, h⟩ := bind_ok h
      cases h
      unfold shiftForm at hj
      split at hj <;> cases hj <;> trivial
  · split at h
    · cases h
    · obtain ⟨⟨x, ys⟩, hx, h⟩ := bind_ok h
      obtain rfl := word1_ok hx
      cases h
      exact ⟨rfl, rfl⟩
  · split at h
    · cases h
    · obtain ⟨⟨x, ys⟩, hx, h⟩ := bind_ok h
      obtain rfl := word1_ok hx
      cases h
      exact ⟨rfl, rfl⟩
  · exact operandsAt_bit h

/-- The words ENC_REF's decoder reads an instruction from hold its operands. -/
theorem operandsAt_decoded {adm : Bool} {ws : List Word16} {i : Instr}
    (h : decodeWords adm ws = .ok (i, [])) : operandsAt ws i := by
  unfold decodeWords at h
  split at h
  · cases h
  · split at h
    · exact operandsAt_alu h
    · exact operandsAt_load h
    · exact operandsAt_branch h
    · split at h
      · exact operandsAt_other h
      · cases h
    · unfold decodeFlagMove at h
      split at h
      · cases h
      · split at h <;> cases h <;> trivial
    · cases h

/-- The words an instruction is executed with hold its operands (log 10). -/
theorem operandsAt_words (s : State) (i : Instr) : operandsAt (s.wordsFor i) i := by
  unfold State.wordsFor
  split
  · rename_i j _ hd
    split
    · rename_i hj
      simp only [Bool.and_eq_true, beq_iff_eq] at hj
      obtain ⟨-, rfl⟩ := hj
      unfold decodeRef at hd
      split at hd
      · rename_i hw
        split at hd <;> cases hd
        exact operandsAt_decoded hw
      · cases hd
    · exact operandsAt_encode i
  · exact operandsAt_encode i

/-- An immediate operand's value (R213). -/
theorem read_imm {s : State} {r : Record} {w : Width} {k : Nat} {v : Data}
    (h : RmAt r.words k w (.imm v)) : readSource s r (immSource w k) = w.trunc v := by
  apply BitVec.eq_of_toNat_eq
  rw [Width.trunc_toNat]
  have hv := v.isLt
  have hb := (slotWord r.words k).isLt
  cases w with
  | w8 =>
    have := h.imm8 v rfl rfl
    simp only [immSource, readSource, readLoc, Bool.false_eq_true, if_false, Width.trunc_toNat,
      BitVec.toNat_ofNat, Width.modulus]
    omega
  | w16 =>
    have := h.imm16 v rfl rfl
    simp only [immSource, readSource, readLoc, Bool.false_eq_true, if_false, Width.trunc_toNat,
      BitVec.toNat_ofNat, Width.modulus]
    omega
  | w24 =>
    have := h.imm24 v rfl rfl
    simp only [immSource, readSource, readLoc, Bool.false_eq_true, if_false, Width.trunc_toNat, this]

theorem imm_length {ws : List Word16} {k : Nat} {w : Width} {v : Data} (h : RmAt ws k w (.imm v)) :
    (match w with | .w24 => k + 2 | _ => k + 1) ≤ ws.length := by
  have := h.len
  cases w <;> simpa [rmWords, immWords, split24] using this

theorem usable_imm (c : Config) {s : State} {r : Record} {w : Width} {k : Nat} {v : Data}
    (h : RmAt r.words k w (.imm v)) : Usable c (unwrittenLoc s r (immSource w k).loc) := by
  have := imm_length h
  cases w with
  | w8 => exact usable_slot this
  | w16 => exact usable_slot this
  | w24 => exact Usable.append (usable_slot (by simp only at this; omega)) (usable_slot this)

theorem imm_inRange {w : Width} {k : Nat} (h : k = 1 ∨ k = 2) : (immSource w k).loc.inRange = true := by
  rcases h with rfl | rfl <;> cases w <;> rfl

theorem read_reg (s : State) (r : Record) (i : Reg) (w : Width) :
    readSource s r ⟨.reg i w, w, false⟩ = s.view i w := by
  simp only [readSource, readLoc, State.view, Bool.false_eq_true, if_false, Width.trunc_trunc]

theorem read_mdr (s : State) (r : Record) (w : Width) :
    readSource s r ⟨.mdr, w, false⟩ = w.trunc s.mdr.val := by
  simp only [readSource, readLoc, Bool.false_eq_true, if_false]

/-- `trunc` of a view is the view. -/
theorem trunc_view (s : State) (i : Reg) (w : Width) : w.trunc (s.view i w) = s.view i w := by
  simp only [State.view, Width.trunc_trunc]

end Sys2Proof.Machine
end

