-- ==== Sys2Proof/Laws/Meaning.lean ====
section
/-! SUPPORT. The meanings of the instructions, shape by shape: what `runProgram` answers for a core word
alone, a load, a store and a read-modify-write, in terms of the operands' values. -/

namespace Sys2Proof.Machine

/-! ### Records -/

/-- The record `exec` runs for an instruction with a program. -/
def recOf (s : State) (i : Instr) (p : Program) : Record :=
  mkRecord s.cfg (s.wordsFor i) s.slot.instrAddr (.instr i) p

theorem runProgram_some {s : State} (h : s.atBoundary = true) (i : Instr) (p : Program) :
    runProgram i (some p) s = .next (runTurns s.fuel { s with slot := recOf s i p, ready := true }) := by
  obtain ⟨h1, h2⟩ := (boundary_iff s).1 h
  obtain ⟨a, -⟩ := (idle_iff s).1 h1
  simp only [runProgram, running_of a, if_true]
  rfl

theorem recOf_words (s : State) (i : Instr) (p : Program) : (recOf s i p).words = s.wordsFor i := rfl

theorem recOf_valid (s : State) (i : Instr) (p : Program) : (recOf s i p).isInvalid = false := rfl

theorem recOf_prog (s : State) (i : Instr) (p : Program) : (recOf s i p).prog = p := rfl

theorem recOf_addr (s : State) (i : Instr) (p : Program) :
    (recOf s i p).instrAddr = s.slot.instrAddr := rfl

/-! ### The core word alone -/

/-- A core word that is a plain operation: well-formed, no access, no branch. -/
structure PlainCore (s : State) (r : Record) (cw : ControlWord) : Prop where
  ok : cw.ok = true
  mem : cw.mem = .none
  pc : cw.dest ≠ .pc
  ops : Usable s.cfg (operandLocs s r cw)
  flags : Usable s.cfg (aluUnwritten s.cfg cw s.f)

theorem plain_core {s : State} {i : Instr} {cw : ControlWord} (h : s.atBoundary = true)
    (hc : PlainCore s (recOf s i (coreOnly cw)) cw) :
    ∃ t, EndsOn s (runProgram i (some (coreOnly cw)) s) t
      (coreResult cw (recOf s i (coreOnly cw)) s) := by
  rw [runProgram_some h]
  exact ends_core h rfl rfl rfl rfl ⟨hc.ok, hc.mem, .inl hc.pc, hc.ops, hc.flags⟩ (.inl rfl)

/-- A core word that writes a register: its result and the new flags. -/
theorem core_reg {s : State} {r : Record} {cw : ControlWord} {d : Reg} {w : Width} {o : AluOut}
    (hd : cw.dest = .reg d w) (ho : wordOut cw r s = o)
    (hf : commitFlags s.cfg.flagPos cw.fmask o.flags s.f = o.flags) :
    coreResult cw r s = { s.setReg d w o.result with f := o.flags } := by
  unfold coreResult
  rw [hd, ho]
  simp only [writeLoc]
  have : (s.setReg d w o.result).f = s.f := rfl
  rw [this, hf]

/-- A core word whose result goes nowhere. -/
theorem core_zero {s : State} {r : Record} {cw : ControlWord} {o : AluOut}
    (hd : cw.dest = .zero) (ho : wordOut cw r s = o)
    (hf : commitFlags s.cfg.flagPos cw.fmask o.flags s.f = o.flags) :
    coreResult cw r s = { s with f := o.flags } := by
  unfold coreResult
  rw [hd, ho]
  simp only [writeLoc]
  rw [hf]

theorem alu_flags (c : Config) (cw : ControlWord) (v0 v1 : Data) (f : Flags) :
    commitFlags c.flagPos cw.fmask (alu c cw v0 v1 f).flags f = (alu c cw v0 v1 f).flags := by
  unfold alu
  exact commit_update _ _ _ _

/-! ### Moves -/

theorem move_out {s : State} {r : Record} {w : Width} {src : Source} {dest : BusLoc} {v : Data}
    (hv : readSource s r src = v) : wordOut (moveWord w src dest) r s = ⟨w.trunc v, s.f⟩ := by
  unfold wordOut
  rw [alu_pass _ _ _ rfl rfl rfl rfl rfl rfl]
  rw [show (moveWord w src dest).src1 = src from rfl, hv]
  rfl

theorem move_flags (c : Config) (cw : ControlWord) (f : Flags) (h1 : cw.addc = false)
    (h2 : cw.shift = .none) (h3 : cw.fmask = .empty) : Usable c (aluUnwritten c cw f) :=
  usable_calm c f h1 h2 h3

theorem move_ok {w : Width} {src : Source} {dest : BusLoc} (h1 : src.loc.inRange = true)
    (h2 : dest.inRange = true) (h3 : dest.writable = true) : (moveWord w src dest).ok = true := by
  have hz : BusLoc.zero.inRange = true := rfl
  unfold moveWord ControlWord.base ControlWord.ok
  simp [hz, Source.zero, h1, h2, h3]

/-- A move into a register (R330 to R333). -/
theorem move_reg {s : State} {r : Record} {w : Width} {src : Source} {d : Reg} {v : Data}
    (hv : readSource s r src = v) :
    coreResult (moveWord w src (.reg d w)) r s = s.setReg d w (w.trunc v) := by
  rw [core_reg (d := d) (w := w) rfl (move_out hv) rfl]
  rfl

/-- A move into MDR (R334). -/
theorem move_mdr {s : State} {r : Record} {w : Width} {src : Source} {v : Data}
    (hv : readSource s r src = v) :
    coreResult (moveWord w src .mdr) r s = { s with mdr := ⟨w.trunc v, true⟩ } := by
  unfold coreResult
  rw [move_out hv]
  rfl

/-- A move from a source with no chain. -/
theorem exec_move {s : State} {i : Instr} {w : Width} {src : Source} {dest : BusLoc}
    (h : s.atBoundary = true) (hr : src.loc.inRange = true) (hd : dest.inRange = true)
    (hw : dest.writable = true) (hp : dest ≠ .pc)
    (hu : Usable s.cfg (unwrittenLoc s (recOf s i (coreOnly (moveWord w src dest))) src.loc)) :
    ∃ t, EndsOn s (runProgram i (some (coreOnly (moveWord w src dest))) s) t
      (coreResult (moveWord w src dest) (recOf s i (coreOnly (moveWord w src dest))) s) :=
  plain_core h ⟨move_ok hr hd hw, rfl, hp, Usable.append (.nil _) hu,
    usable_calm _ _ rfl rfl rfl⟩

/-! ### Chains around the core word -/

theorem usableReg_congr {s t : State} (h : t.arch = s.arch) (i : Reg) (w : Width) :
    usableReg t i w = usableReg s i w := by
  obtain ⟨h1, h2, -⟩ := arch_all h
  simp only [usableReg, State.regUnwritten, h1, h2]

theorem usableRm_congr {s t : State} (h : t.arch = s.arch) (w : Width) (rm : Rm) :
    usableRm t w rm = usableRm s w rm := by
  cases rm <;> simp only [usableRm, usableReg_congr h]

/-- A mode's update changes nothing but registers (R208, R209). -/
theorem rmStep_frame (s : State) (w : Width) (rm : Rm) :
    rmStep s w rm = { s with regs := (rmStep s w rm).regs } := by
  cases rm <;> rfl

theorem firstDesc_some {rm : Rm} (h : rmIsMem rm = true) (dir : Dir) (w : Width) (k : Nat) :
    (firstDesc rm dir w k).isNone = false := by
  cases rm <;> first | rfl | cases h

/-- A read operand in memory: the chain, then the core word (R215). -/
theorem exec_before {s : State} {i : Instr} {rm : Rm} {w : Width} {k : Nat} {cw : ControlWord}
    (h : s.atBoundary = true) (hfa : s.fair = true) (hmem : rmIsMem rm = true) (hat : RmAt (s.wordsFor i) k w rm)
    (hu : usableRm s w rm = true)
    (hok : ∀ v : State, v.arch = (chainPost s s.slot.instrAddr rm .read w .coreOp).arch →
      CoreOk v (recOf s i (.plain (firstDesc rm .read w k) cw .none))) :
    ∃ t, EndsOn s (runProgram i (some (.plain (firstDesc rm .read w k) cw .none)) s) t
      (coreResult cw (recOf s i (.plain (firstDesc rm .read w k) cw .none))
        (chainPost s s.slot.instrAddr rm .read w .coreOp)) := by
  rw [runProgram_some h]
  generalize hr : recOf s i (.plain (firstDesc rm .read w k) cw .none) = r at hok ⊢
  have r1 : r.prog = .plain (firstDesc rm .read w k) cw .none := by rw [← hr]; rfl
  have r2 : r.words = s.wordsFor i := by rw [← hr]; rfl
  have r3 : r.instrAddr = s.slot.instrAddr := by rw [← hr]; rfl
  have r4 : r.isInvalid = false := by rw [← hr]; rfl
  have r5 : r.isBranch = false := by rw [← hr]; rfl
  have hcg : (chainPost (taken s r .before r.prog.before) r.instrAddr rm .read w .coreOp).arch =
      (chainPost s s.slot.instrAddr rm .read w .coreOp).arch := by
    rw [r3]
    exact chainPost_congr (taken_arch s r _ _) _ _ _ _ _
  obtain ⟨t, ht⟩ := ends_before (c := 3) h r4 (by rw [r1]; rfl)
    (by rw [r1]; exact firstDesc_some hmem _ _ _) (by rw [r1]; rfl) (by omega)
    (run_chain (s := taken s r .before r.prog.before) (r := r) (rm := rm) (w := w) (k := k)
      (done := .coreOp) (dir := .read) (taken_live h r _ _) hfa rfl rfl (by rw [r1]; rfl)
      (.inl ⟨rfl, rfl⟩) hmem (by rw [r2]; exact hat)
      ((usableRm_congr (taken_arch s r _ _) w rm).trans hu) (fun h => by cases h))
    rfl rfl (fun v hv => hok v (hv.trans hcg)) (.inl r5)
  refine ⟨t, ht.congr ?_⟩
  rw [show r.prog.core = cw by rw [r1]; rfl]
  exact coreResult_congr hcg

/-- A written operand in memory: the core word, then the chain (R215). -/
theorem exec_after {s : State} {i : Instr} {rm : Rm} {w : Width} {k : Nat} {cw : ControlWord}
    {v : Latch} (h : s.atBoundary = true) (hfa : s.fair = true) (hmem : rmIsMem rm = true) (hat : RmAt (s.wordsFor i) k w rm)
    (hu : usableRm s w rm = true)
    (hok : CoreOk s (recOf s i (.plain .none cw (firstDesc rm .write w k))))
    (hcore : coreResult cw (recOf s i (.plain .none cw (firstDesc rm .write w k))) s =
      { s with mdr := v }) (hv : v.written = true) :
    ∃ t, EndsOn s (runProgram i (some (.plain .none cw (firstDesc rm .write w k))) s) t
      (chainPost { s with mdr := v } s.slot.instrAddr rm .write w .final) := by
  rw [runProgram_some h]
  generalize hr : recOf s i (.plain .none cw (firstDesc rm .write w k)) = r at hok hcore ⊢
  have r1 : r.prog = .plain .none cw (firstDesc rm .write w k) := by rw [← hr]; rfl
  have r2 : r.words = s.wordsFor i := by rw [← hr]; rfl
  have r3 : r.instrAddr = s.slot.instrAddr := by rw [← hr]; rfl
  have r4 : r.isInvalid = false := by rw [← hr]; rfl
  have r5 : r.isBranch = false := by rw [← hr]; rfl
  have hcw : r.prog.core = cw := by rw [r1]; rfl
  obtain ⟨t, ht⟩ := ends_after (c := 3) (w := fun x => chainPost x r.instrAddr rm .write w .final) h r4
    (by rw [r1]; rfl) (by rw [r1]; rfl) (by rw [r1]; exact firstDesc_some hmem _ _ _) (by omega) hok
    (by
      intro x hl hcur hst hd ha
      rw [hcw, hcore] at ha
      obtain ⟨a1, a2, a3, a4, a5, a6, a7, a8, a9, a10, -⟩ := arch_all ha
      obtain ⟨t, ht⟩ := run_chain (r := r) (rm := rm) (w := w) (k := k) (done := .final) (dir := .write) hl (a10.trans hfa) hcur
        hst (by rw [hd, r1]; rfl) (.inr ⟨rfl, rfl⟩) hmem (by rw [r2]; exact hat)
        (by
          rw [usableRm_congr ha]
          exact hu) (fun _ => .inr (by rw [a6]; exact hv))
      exact ⟨t, ht, rfl⟩)
    (by
      intro x hx
      exact chainPost_congr hx _ _ _ _ _)
    (.inl r5)
  refine ⟨t, ?_⟩
  rw [hcw, hcore, r3] at ht
  exact ht

theorem chainPost_fair (s : State) (ia : Addr) (rm : Rm) (dir : Dir) (w : Width) (done : SState) :
    (chainPost s ia rm dir w done).fair = s.fair := by
  cases rm <;> rfl

/-- The state an access of MDR at the address in MAR leaves (R215). -/
def wbPost (s : State) (w : Width) : State :=
  { s with
    mem := s.mem.store s.cfg.endian s.mar.val w.bytes (w.trunc s.mdr.val)
    writes := s.writes ++ [⟨s.mar.val, w.bytes, w.trunc s.mdr.val⟩]
    ex := s.ex.leave .final .none }

theorem wbPost_congr {s t : State} (h : t.arch = s.arch) (w : Width) :
    (wbPost t w).arch = (wbPost s w).arch := by
  have hx : ∀ x : State, (wbPost x w).arch = (wbPost x.arch w).arch := fun _ => rfl
  rw [hx t, h, ← hx s]

/-- The write-back of a read-modify-write (R215). -/
theorem run_wb {s : State} {r : Record} {w : Width} {k : Nat} (hl : Live s) (hfa : s.fair = true)
    (hcur : s.ex.cur = some r) (hst : s.ex.sstate = .after)
    (hd : s.ex.desc = ⟨.addrWb, 0, w, .write, k, false⟩) (h1 : s.mar.written = true)
    (h2 : s.mdr.written = true) : ∃ t, Ran 2 s t (wbPost s w) := by
  obtain ⟨t, ht⟩ := chain_access (d := ⟨.addrWb, 0, w, .write, k, false⟩) (d' := .none)
    (cw := { Desc.word ⟨.addrWb, 0, w, .write, k, false⟩ with mem := .addr, wsrc := .held })
    (done := .final) hl hfa hcur hst hd (.inr ⟨rfl, rfl⟩) rfl rfl
    ⟨by simp, .inr rfl, rfl, rfl, rfl, rfl⟩ (Usable.append (.nil _) (.nil _))
    (.inr (by simp [assertUnwritten, h1, h2]))
  refine ⟨t, ?_⟩
  rw [accessPost_mode s _ _ .write w _ rfl rfl] at ht
  exact ht

/-- A read-modify-write operand in memory (R215). -/
theorem exec_both {s : State} {i : Instr} {rm : Rm} {w : Width} {k : Nat} {cw : ControlWord}
    {v : Latch} (h : s.atBoundary = true) (hfa : s.fair = true) (hmem : rmIsMem rm = true) (hat : RmAt (s.wordsFor i) k w rm)
    (hu : usableRm s w rm = true)
    (hok : ∀ x : State, x.arch = (chainPost s s.slot.instrAddr rm .read w .coreOp).arch →
      CoreOk x (recOf s i (.plain (firstDesc rm .read w k) cw ⟨.addrWb, 0, w, .write, k, false⟩)))
    (hcore : (coreResult cw (recOf s i (.plain (firstDesc rm .read w k) cw
        ⟨.addrWb, 0, w, .write, k, false⟩)) (chainPost s s.slot.instrAddr rm .read w .coreOp)) =
      { chainPost s s.slot.instrAddr rm .read w .coreOp with mdr := v }) (hv : v.written = true) :
    ∃ t, EndsOn s (runProgram i (some (.plain (firstDesc rm .read w k) cw
        ⟨.addrWb, 0, w, .write, k, false⟩)) s) t
      (wbPost { chainPost s s.slot.instrAddr rm .read w .coreOp with mdr := v } w) := by
  rw [runProgram_some h]
  generalize hr : recOf s i (.plain (firstDesc rm .read w k) cw ⟨.addrWb, 0, w, .write, k, false⟩) = r
    at hok hcore ⊢
  have r1 : r.prog = .plain (firstDesc rm .read w k) cw ⟨.addrWb, 0, w, .write, k, false⟩ := by
    rw [← hr]; rfl
  have r2 : r.words = s.wordsFor i := by rw [← hr]; rfl
  have r3 : r.instrAddr = s.slot.instrAddr := by rw [← hr]; rfl
  have r4 : r.isInvalid = false := by rw [← hr]; rfl
  have r5 : r.isBranch = false := by rw [← hr]; rfl
  have hcw : r.prog.core = cw := by rw [r1]; rfl
  have hcg : (chainPost (taken s r .before r.prog.before) r.instrAddr rm .read w .coreOp).arch =
      (chainPost s s.slot.instrAddr rm .read w .coreOp).arch := by
    rw [r3]
    exact chainPost_congr (taken_arch s r _ _) _ _ _ _ _
  have hcg2 : (coreResult r.prog.core r
      (chainPost (taken s r .before r.prog.before) r.instrAddr rm .read w .coreOp)).arch =
      ({ chainPost s s.slot.instrAddr rm .read w .coreOp with mdr := v } : State).arch := by
    rw [coreResult_congr hcg, hcw, hcore]
  obtain ⟨t, ht⟩ := ends_both (c := 3) (d := 2) (w := fun x => wbPost x w) h r4 (by rw [r1]; rfl)
    (by rw [r1]; exact firstDesc_some hmem _ _ _) (by rw [r1]; rfl) (by omega)
    (run_chain (s := taken s r .before r.prog.before) (r := r) (rm := rm) (w := w) (k := k)
      (done := .coreOp) (dir := .read) (taken_live h r _ _) hfa rfl rfl (by rw [r1]; rfl)
      (.inl ⟨rfl, rfl⟩) hmem (by rw [r2]; exact hat)
      ((usableRm_congr (taken_arch s r _ _) w rm).trans hu) (fun h => by cases h))
    rfl rfl (fun v hv => hok v (hv.trans hcg))
    (by
      intro x hl hcur hst hd ha
      obtain ⟨a1, a2, a3, a4, a5, a6, a7, a8, a9, a10, -⟩ := arch_all (ha.trans hcg2)
      obtain ⟨t, ht⟩ := run_wb (w := w) (k := k) hl
        (a10.trans ((chainPost_fair s s.slot.instrAddr rm .read w .coreOp).trans hfa)) hcur hst (by rw [hd, r1]; rfl)
        (by rw [a5]; rfl) (by rw [a6]; exact hv)
      exact ⟨t, ht, rfl⟩)
    (fun x hx => wbPost_congr hx w) (.inl r5)
  exact ⟨t, ht.congr (wbPost_congr hcg2 w)⟩

/-! ### I/O and the push of the program counter (R214, R221) -/

/-- What the I/O chain leaves (R221). -/
def ioPost (s : State) (n : Byte) (dir : Dir) (done : SState) : State :=
  { s with
    mar := ⟨ioAddr s.cfg n, true⟩
    mdr := mdrAfter s dir (ioAddr s.cfg n) .w8
    mem := memAfter s dir (ioAddr s.cfg n) .w8
    writes := writesAfter s dir (ioAddr s.cfg n) .w8
    ex := s.ex.leave done .none }

theorem ioPost_congr {s t : State} (h : t.arch = s.arch) (n : Byte) (dir : Dir) (done : SState) :
    (ioPost t n dir done).arch = (ioPost s n dir done).arch := by
  have hx : ∀ x : State, (ioPost x n dir done).arch = (ioPost x.arch n dir done).arch := by
    intro x
    cases dir <;> rfl
  rw [hx t, h, ← hx s]

theorem run_io {s : State} {r : Record} {st done : SState} {dir : Dir} {n : Byte} (hl : Live s) (hfa : s.fair = true)
    (hcur : s.ex.cur = some r) (hst : s.ex.sstate = st)
    (hd : s.ex.desc = ⟨.io, 0, .w8, dir, 1, false⟩) (hw : Walk st done)
    (hn : BitVec.ofNat 8 (slotWord r.words 1).toNat = n) (hmdr : dir = .write → usableMdr s) :
    ∃ t, Ran 2 s t (ioPost s n dir done) := by
  refine run_one (w := .w8) (dir := dir) (ioAddr s.cfg n) hl hfa hcur hst hd hw rfl ?_ ?_ ?_ hmdr rfl rfl
    (by simp [Desc.accessH1]) ?_
  · exact access_h1_ok ⟨.io, 0, .w8, dir, 1, false⟩ _ rfl
  · exact access_h1 ⟨.io, 0, .w8, dir, 1, false⟩ _
  · exact Usable.append (.nil _) (.nil _)
  · subst hn
    exact read_const s r _

/-- The I/O address is `io_base + n`, the number zero-extended (R385, R386). -/
theorem ioAddr_eq (c : Config) (n : Byte) : ioAddr c n = c.ioBase + n.setWidth 24 := by
  unfold ioAddr
  congr 1
  exact BitVec.eq_of_toNat_eq (by simp)

theorem ioSlot (sub : Nat) (r : Reg) (n : Byte) :
    BitVec.ofNat 8 (slotWord (encIo sub r n) 1).toNat = n := by
  apply BitVec.eq_of_toNat_eq
  have := n.isLt
  simp only [encIo, slotWord, List.getD_cons_succ, List.getD_cons_zero, BitVec.toNat_ofNat]
  omega

/-- `IN` (R385). -/
theorem exec_in {s : State} {i : Instr} {n : Byte} {cw : ControlWord} (h : s.atBoundary = true) (hfa : s.fair = true)
    (hn : BitVec.ofNat 8 (slotWord (s.wordsFor i) 1).toNat = n)
    (hok : ∀ v : State, v.arch = (ioPost s n .read .coreOp).arch →
      CoreOk v (recOf s i (.plain ⟨.io, 0, .w8, .read, 1, false⟩ cw .none))) :
    ∃ t, EndsOn s (runProgram i (some (.plain ⟨.io, 0, .w8, .read, 1, false⟩ cw .none)) s) t
      (coreResult cw (recOf s i (.plain ⟨.io, 0, .w8, .read, 1, false⟩ cw .none))
        (ioPost s n .read .coreOp)) := by
  rw [runProgram_some h]
  generalize hr : recOf s i (.plain ⟨.io, 0, .w8, .read, 1, false⟩ cw .none) = r at hok ⊢
  have r1 : r.prog = .plain ⟨.io, 0, .w8, .read, 1, false⟩ cw .none := by rw [← hr]; rfl
  have r2 : r.words = s.wordsFor i := by rw [← hr]; rfl
  have r4 : r.isInvalid = false := by rw [← hr]; rfl
  have r5 : r.isBranch = false := by rw [← hr]; rfl
  have hcg : (ioPost (taken s r .before r.prog.before) n .read .coreOp).arch =
      (ioPost s n .read .coreOp).arch := ioPost_congr (taken_arch s r _ _) _ _ _
  obtain ⟨t, ht⟩ := ends_before (c := 2) h r4 (by rw [r1]; rfl) (by rw [r1]; rfl) (by rw [r1]; rfl)
    (by omega)
    (run_io (s := taken s r .before r.prog.before) (r := r) (n := n) (done := .coreOp) (dir := .read)
      (taken_live h r _ _) hfa rfl rfl (by rw [r1]; rfl) (.inl ⟨rfl, rfl⟩) (by rw [r2]; exact hn)
      (fun h => by cases h))
    rfl rfl (fun v hv => hok v (hv.trans hcg)) (.inl r5)
  refine ⟨t, ht.congr ?_⟩
  rw [show r.prog.core = cw by rw [r1]; rfl]
  exact coreResult_congr hcg

/-- `OUT` (R386). -/
theorem exec_out {s : State} {i : Instr} {n : Byte} {cw : ControlWord} {v : Latch}
    (h : s.atBoundary = true) (hfa : s.fair = true) (hn : BitVec.ofNat 8 (slotWord (s.wordsFor i) 1).toNat = n)
    (hok : CoreOk s (recOf s i (.plain .none cw ⟨.io, 0, .w8, .write, 1, false⟩)))
    (hcore : coreResult cw (recOf s i (.plain .none cw ⟨.io, 0, .w8, .write, 1, false⟩)) s =
      { s with mdr := v }) (hv : v.written = true) :
    ∃ t, EndsOn s (runProgram i (some (.plain .none cw ⟨.io, 0, .w8, .write, 1, false⟩)) s) t
      (ioPost { s with mdr := v } n .write .final) := by
  rw [runProgram_some h]
  generalize hr : recOf s i (.plain .none cw ⟨.io, 0, .w8, .write, 1, false⟩) = r at hok hcore ⊢
  have r1 : r.prog = .plain .none cw ⟨.io, 0, .w8, .write, 1, false⟩ := by rw [← hr]; rfl
  have r2 : r.words = s.wordsFor i := by rw [← hr]; rfl
  have r4 : r.isInvalid = false := by rw [← hr]; rfl
  have r5 : r.isBranch = false := by rw [← hr]; rfl
  have hcw : r.prog.core = cw := by rw [r1]; rfl
  obtain ⟨t, ht⟩ := ends_after (c := 2) (w := fun x => ioPost x n .write .final) h r4
    (by rw [r1]; rfl) (by rw [r1]; rfl) (by rw [r1]; rfl) (by omega) hok
    (by
      intro x hl hcur hst hd ha
      rw [hcw, hcore] at ha
      obtain ⟨a1, a2, a3, a4, a5, a6, a7, a8, a9, a10, -⟩ := arch_all ha
      obtain ⟨t, ht⟩ := run_io (r := r) (n := n) (done := .final) (dir := .write) hl (a10.trans hfa) hcur
        hst (by rw [hd, r1]; rfl) (.inr ⟨rfl, rfl⟩) (by rw [r2]; exact hn)
        (fun _ => .inr (by rw [a6]; exact hv))
      exact ⟨t, ht, rfl⟩)
    (fun x hx => ioPost_congr hx _ _ _) (.inl r5)
  refine ⟨t, ?_⟩
  rw [hcw, hcore] at ht
  exact ht

/-- The stack address of a push of 24 bits. -/
def linkAddr (s : State) : Addr := s.x24 s.cfg.spIndex - stepOf .w24

/-- What the push of `next_addr` leaves (R214, R209). -/
def pushPost (s : State) (na : Addr) (done : SState) : State :=
  { s.setReg s.cfg.spIndex .w24 (linkAddr s) with
    mar := ⟨linkAddr s, true⟩
    mdr := ⟨na, true⟩
    mem := s.mem.store s.cfg.endian (linkAddr s) 3 na
    writes := s.writes ++ [⟨linkAddr s, 3, na⟩]
    ex := s.ex.leave done .none }

theorem pushPost_congr {s t : State} (h : t.arch = s.arch) (na : Addr) (done : SState) :
    (pushPost t na done).arch = (pushPost s na done).arch := by
  have hx : ∀ x : State, (pushPost x na done).arch = (pushPost x.arch na done).arch := fun _ => rfl
  rw [hx t, h, ← hx s]

/-- The push of the program counter (R214). -/
theorem run_push {s : State} {r : Record} (hl : Live s) (hfa : s.fair = true) (hcur : s.ex.cur = some r)
    (hst : s.ex.sstate = .before)
    (hd : s.ex.desc = { Desc.none with kind := .pushPc, dir := .write, sg := true })
    (hu : usableReg s s.cfg.spIndex .w24 = true) :
    ∃ t, Ran 4 s t (pushPost s r.nextAddr .coreOp) := by
  obtain ⟨t1, r1⟩ := chain_plain (st := .before) (done := .coreOp)
    (d := { Desc.none with kind := .pushPc, dir := .write, sg := true })
    (d' := ⟨.preAccess, s.cfg.spIndex, .w24, .write, 0, true⟩) hl hcur hst hd (.inl ⟨rfl, rfl⟩) rfl rfl
    rfl (by simp) rfl rfl rfl (Usable.append (.nil _) (.nil _))
  have hout : ∀ cw : ControlWord, cw = { Desc.word { Desc.none with kind := .pushPc, dir := .write, sg := true } with
        src1 := ⟨.pc, .w24, false⟩, dest := .mdr } → (wordOut cw r s).result = r.nextAddr := by
    rintro cw rfl
    unfold wordOut
    rw [alu_pass _ _ _ rfl rfl rfl rfl rfl rfl]
    simp only [readSource, readLoc, Bool.false_eq_true, if_false, Width.trunc_w24]
    exact Width.trunc_w24 _
  have h0 : afterChain ⟨.preAccess, s.cfg.spIndex, .w24, .write, 0, true⟩ .before .coreOp = .before := rfl
  rw [h0, hout _ rfl] at r1
  obtain ⟨e1, e2, e3, e4, e5, e6, e7, e8, e9, e10, e11, e12, e13, e14, e15⟩ := exe_all r1.exe
  simp only [ExecState.leave, writeLoc] at e1 e2 e3 e4 e5 e6 e7 e8 e9 e10 e11 e12 e13 e14 e15
  have hx : t1.x24 s.cfg.spIndex = s.x24 s.cfg.spIndex := by simp only [State.x24, e2]
  have hu' : usableReg t1 s.cfg.spIndex .w24 = true := by
    have : usableReg t1 s.cfg.spIndex .w24 = usableReg s s.cfg.spIndex .w24 := by
      simp only [usableReg, State.regUnwritten, e1, e2]
    rw [this]
    exact hu
  obtain ⟨t2, r2⟩ := run_pre (s := t1) (r := r) (st := .before) (done := .coreOp) (dir := .write)
    (w := .w24) (k := 0) s.cfg.spIndex true r1.live (e13.trans hfa) (e11.trans hcur) e10 e12 (.inl ⟨rfl, rfl⟩) hu'
    (fun _ => .inr (by rw [e6])) (linkAddr s) (by rw [if_pos rfl, hx]; rfl)
  refine ⟨t2, ?_⟩
  obtain ⟨k1, d1, l1, x1, c1⟩ := r1.trans r2
  refine ⟨k1, d1, l1, x1.trans ?_, c1⟩
  refine exe_of ?_ ?_ ?_ ?_ ?_ ?_ ?_ ?_ ?_ rfl ?_ rfl ?_ ?_ ?_
  all_goals simp only [State.setReg, ExecState.leave, pushPost, mdrAfter, memAfter, writesAfter, e1, e2, e3, e4, e5, e6, e7,
    e8, e9, e11, e13, e14, e15, Width.trunc_w24, Width.bytes]

end Sys2Proof.Machine
end

