-- ==== Sys2Proof/Laws/Branching.lean ====
section
/-! SUPPORT. The branches, the call and the return (R350 to R356). -/

namespace Sys2Proof.Machine

theorem Reach.refl (s : State) : Reach 0 s s := fun m => by rw [Nat.zero_add]

theorem runProgram_reach {s : State} (h : s.atBoundary = true) (i : Instr) (p : Program) :
    runProgram i (some p) s = .next (runTurns s.fuel { s with slot := recOf s i p, ready := true }) :=
  runProgram_some h i p

/-- The core word of a branch changes nothing but the program's course. -/
theorem branch_result {s : State} {r : Record} {cw : ControlWord} (hd : cw.dest = .pc)
    (hm : cw.fmask = .empty) : coreResult cw r s = s := by
  unfold coreResult
  rw [hd, hm]
  rfl

/-- A core word that is a branch. -/
structure BranchCore (s : State) (r : Record) : Prop where
  ok : r.prog.core.ok = true
  mem : r.prog.core.mem = .none
  dest : r.prog.core.dest = .pc
  mask : r.prog.core.fmask = .empty
  addc : r.prog.core.addc = false
  shift : r.prog.core.shift = .none
  branch : r.isBranch = true
  ops : Usable s.cfg (operandLocs s r r.prog.core)

theorem BranchCore.core {s : State} {r : Record} (h : BranchCore s r) : CoreOk s r :=
  ⟨h.ok, h.mem, .inr h.branch, h.ops, usable_calm _ _ h.addc h.shift h.mask⟩

/-- A branch that Decode has redirected for (R178). -/
theorem ends_static {s : State} {r : Record} (h : s.atBoundary = true) (hr : r.isInvalid = false)
    (ho : r.prog.override.isNone = true) (hbf : r.prog.before.isNone = true)
    (haf : r.prog.after.isNone = true) (hc : BranchCore s r) (hs : r.prog.static = true) :
    ∃ t, EndsOn s (.next (runTurns s.fuel { s with slot := r, ready := true })) t s := by
  obtain ⟨t, ht⟩ := ends_core h hr ho hbf haf hc.core (.inr hs)
  exact ⟨t, ht.congr (by rw [branch_result hc.dest hc.mask])⟩

/-- A branch of its core word alone that Execute resolves (R290). -/
theorem ends_branch {s : State} {r : Record} (h : s.atBoundary = true) (hr : r.isInvalid = false)
    (ho : r.prog.override.isNone = true) (hbf : r.prog.before.isNone = true)
    (haf : r.prog.after.isNone = true) (hc : BranchCore s r) (hs : r.prog.static = false)
    (hu : Usable s.cfg (unwrittenCond s.cfg.flagPos s.f r.prog.pred)) :
    ∃ t, Ends (.next (runTurns s.fuel { s with slot := r, ready := true })) t s ∧
      (condHolds s.cfg.flagPos s.f r.prog.pred = true →
        GoesTo s t (wordOut r.prog.core r s).result) ∧
      (condHolds s.cfg.flagPos s.f r.prog.pred = false →
        GoesOn s t ∧ ∀ x, t.fetch.redir = some x → x.src = .decode) := by
  have hent : entry s r = (.coreOp, s.ex.desc) := by simp [entry, hbf]
  obtain ⟨t, t1, t2, t3⟩ := ends_resolve (q := taken s r .coreOp s.ex.desc) (k := 0) h hr ho haf
    hc.branch hs (by rw [hent]; exact .refl _) (by simp [taken]) (taken_live h r _ _)
    (by rw [hent]; exact .refl _) rfl rfl (by
      have := hc.core
      exact ⟨this.ok, this.mem, this.pc, this.ops, this.flags⟩) hu
  refine ⟨t, ⟨t1.out, t1.order, t1.arch.trans ?_⟩, t2, t3⟩
  rw [branch_result hc.dest hc.mask]
  exact taken_arch s r _ _

/-- A branch behind a before chain that Execute resolves: the return (R356), the trap (R403). -/
theorem ends_chain_branch {s : State} {r : Record} {u : State} {c : Nat} (h : s.atBoundary = true)
    (hr : r.isInvalid = false) (ho : r.prog.override.isNone = true)
    (hbf : r.prog.before.isNone = false) (haf : r.prog.after.isNone = true) (hc : c ≤ 60)
    (hbefore : ∃ t, Ran c (taken s r .before r.prog.before) t u) (hus : u.ex.sstate = .coreOp)
    (huc : u.ex.cur = some r) (hok : ∀ v : State, v.arch = u.arch → BranchCore v r)
    (hs : r.prog.static = false) (hp : r.prog.pred = .t) :
    ∃ t, Ends (.next (runTurns s.fuel { s with slot := r, ready := true })) t u ∧
      GoesTo s t (wordOut r.prog.core r u).result := by
  have hent : entry s r = (.before, r.prog.before) := by simp [entry, hbf]
  obtain ⟨q, r1⟩ := hbefore
  obtain ⟨k, k1, k2⟩ := r1.reach
  obtain ⟨e1, e2, e3, e4, e5, e6, e7, e8, e9, e10, e11, e12, -⟩ := exe_all r1.exe
  have hq := hok q (arch_of_exe r1.exe)
  have hd : (taken s r .before r.prog.before).draws = s.draws := rfl
  rw [hd] at k2
  obtain ⟨t, t1, t2, -⟩ := ends_resolve (q := q) (k := k + 1) h hr ho haf hq.branch hs
    (by rw [hent]; exact k1) (by omega) r1.live (by rw [hent]; exact r1.calm.quiet) (e11.trans huc)
    (e10.trans hus) hq.core (by rw [hp]; exact .nil _)
  refine ⟨t, ⟨t1.out, t1.order, t1.arch.trans ?_⟩, ?_⟩
  · rw [branch_result hq.dest hq.mask]
    exact arch_of_exe r1.exe
  · have hw : wordOut r.prog.core r q = wordOut r.prog.core r u := by
      unfold wordOut
      rw [readSource_congr e2 e3 e5 e6, readSource_congr e2 e3 e5 e6, e1, e3]
    rw [← hw]
    exact t2 (by rw [hp]; rfl)

/-- A call whose target Decode has redirected to (R355). -/
theorem ends_call {s : State} {r : Record} (h : s.atBoundary = true) (hfa : s.fair = true) (hr : r.isInvalid = false)
    (ho : r.prog.override.isNone = true)
    (hbf : r.prog.before = { Desc.none with kind := .pushPc, dir := .write, sg := true })
    (haf : r.prog.after.isNone = true) (hu : usableReg s s.cfg.spIndex .w24 = true)
    (hok : ∀ v : State, v.arch = (pushPost s r.nextAddr .coreOp).arch → BranchCore v r)
    (hs : r.prog.static = true) :
    ∃ t, EndsOn s (.next (runTurns s.fuel { s with slot := r, ready := true })) t
      (pushPost s r.nextAddr .coreOp) := by
  have hcg : (pushPost (taken s r .before r.prog.before) r.nextAddr .coreOp).arch =
      (pushPost s r.nextAddr .coreOp).arch := pushPost_congr (taken_arch s r _ _) _ _
  obtain ⟨t, ht⟩ := ends_before (c := 4) h hr ho (by rw [hbf]; rfl) haf (by omega)
    (run_push (s := taken s r .before r.prog.before) (r := r) (taken_live h r _ _) hfa rfl rfl hbf
      ((usableReg_congr (taken_arch s r _ _) _ _).trans hu)) rfl rfl
    (fun v hv => (hok v (hv.trans hcg)).core) (.inr hs)
  have hq := hok _ hcg
  refine ⟨t, ht.congr ?_⟩
  rw [branch_result hq.dest hq.mask]
  exact hcg

/-- A call that Execute resolves: the trap (R403). -/
theorem ends_trap {s : State} {r : Record} (h : s.atBoundary = true) (hfa : s.fair = true) (hr : r.isInvalid = false)
    (ho : r.prog.override.isNone = true)
    (hbf : r.prog.before = { Desc.none with kind := .pushPc, dir := .write, sg := true })
    (haf : r.prog.after.isNone = true) (hu : usableReg s s.cfg.spIndex .w24 = true)
    (hok : ∀ v : State, v.arch = (pushPost s r.nextAddr .coreOp).arch → BranchCore v r)
    (hs : r.prog.static = false) (hp : r.prog.pred = .t) :
    ∃ t, Ends (.next (runTurns s.fuel { s with slot := r, ready := true })) t (pushPost s r.nextAddr .coreOp) ∧
      GoesTo s t (wordOut r.prog.core r (pushPost s r.nextAddr .coreOp)).result := by
  have hcg : (pushPost (taken s r .before r.prog.before) r.nextAddr .coreOp).arch =
      (pushPost s r.nextAddr .coreOp).arch := pushPost_congr (taken_arch s r _ _) _ _
  obtain ⟨t, t1, t2⟩ := ends_chain_branch (c := 4) h hr ho (by rw [hbf]; rfl) haf (by omega)
    (run_push (s := taken s r .before r.prog.before) (r := r) (taken_live h r _ _) hfa rfl rfl hbf
      ((usableReg_congr (taken_arch s r _ _) _ _).trans hu)) rfl rfl
    (fun v hv => hok v (hv.trans hcg)) hs hp
  refine ⟨t, ⟨t1.out, t1.order, t1.arch.trans hcg⟩, ?_⟩
  obtain ⟨e1, e2, e3, e4, e5, e6, -⟩ := arch_all hcg
  have hw : wordOut r.prog.core r (pushPost (taken s r .before r.prog.before) r.nextAddr .coreOp) =
      wordOut r.prog.core r (pushPost s r.nextAddr .coreOp) := by
    unfold wordOut
    rw [readSource_congr e2 e3 e5 e6, readSource_congr e2 e3 e5 e6, e1, e3]
  rw [← hw]
  exact t2

/-- A return (R356). -/
theorem ends_return {s : State} {r : Record} (h : s.atBoundary = true) (hfa : s.fair = true) (hr : r.isInvalid = false)
    (hp : r.prog = returnProgram s.cfg.spIndex) (hu : usableReg s s.cfg.spIndex .w24 = true) :
    ∃ t, Ends (.next (runTurns s.fuel { s with slot := r, ready := true })) t
        (chainPost s r.instrAddr (.postInc s.cfg.spIndex) .read .w24 .coreOp) ∧
      GoesTo s t (s.load (s.x24 s.cfg.spIndex) 3) := by
  have hcg : (chainPost (taken s r .before r.prog.before) r.instrAddr (.postInc s.cfg.spIndex) .read
      .w24 .coreOp).arch =
      (chainPost s r.instrAddr (.postInc s.cfg.spIndex) .read .w24 .coreOp).arch :=
    chainPost_congr (taken_arch s r _ _) _ _ _ _ _
  obtain ⟨t, t1, t2⟩ := ends_chain_branch (c := 3) h hr (by rw [hp]; rfl) (by rw [hp]; rfl)
    (by rw [hp]; rfl) (by omega)
    (run_chain (s := taken s r .before r.prog.before) (r := r) (rm := .postInc s.cfg.spIndex)
      (w := .w24) (k := 0) (done := .coreOp) (dir := .read) (taken_live h r _ _) hfa rfl rfl
      (by rw [hp]; rfl) (.inl ⟨rfl, rfl⟩) rfl
      (rmAt_none _ _ _ _ _ (Nat.zero_le _) (.inr (.inl rfl)))
      ((usableRm_congr (taken_arch s r _ _) _ (.postInc s.cfg.spIndex)).trans hu)
      (fun h => by cases h)) rfl rfl
    (fun v hv => by
      obtain ⟨a1, a2, a3, a4, a5, a6, -⟩ := arch_all (hv.trans hcg)
      refine ⟨by rw [hp]; rfl, by rw [hp]; rfl, by rw [hp]; rfl, by rw [hp]; rfl, by rw [hp]; rfl,
        by rw [hp]; rfl, ?_, ?_⟩
      · unfold Record.isBranch
        rw [hp]
        rfl
      · rw [hp]
        refine Usable.append (.nil _) ?_
        show Usable v.cfg (if v.mdr.written then [] else [.mdr])
        rw [a6]
        exact .nil _)
    (by rw [hp]; rfl) (by rw [hp]; rfl)
  refine ⟨t, ⟨t1.out, t1.order, t1.arch.trans hcg⟩, ?_⟩
  obtain ⟨e1, e2, e3, e4, e5, e6, -⟩ := arch_all hcg
  have hw : (wordOut r.prog.core r (chainPost (taken s r .before r.prog.before) r.instrAddr
      (.postInc s.cfg.spIndex) .read .w24 .coreOp)).result =
      s.load (s.x24 s.cfg.spIndex) 3 := by
    have hm : ∀ q : State, (wordOut r.prog.core r q).result = q.mdr.val := by
      intro q
      unfold wordOut
      rw [hp, alu_pass _ _ _ rfl rfl rfl rfl rfl rfl]
      exact (Width.trunc_w24 _).trans ((read_mdr q r .w24).trans (Width.trunc_w24 _))
    exact hm _
  rw [← hw]
  exact t2

end Sys2Proof.Machine
end

