-- ==== Sys2Proof/Laws/Invalid.lean ====
section
/-! SUPPORT. What taking the Invalid Opcode exception does, under each action (spec/60_exceptions.md R401 to
R405). -/

namespace Sys2Proof.Machine

/-- The rest of a cycle in which Execute has no word: from Execute's half1 to the next MEM_WAIT. -/
theorem rest_of_turn {v : State} (hr : v.status = .running) (hc : v.ex.cw = none)
    (hp : v.ex.exPending = none) (port : FreePort v.ctl v.fetch) (hrd : v.ready = false) :
    ∃ t, half1Front (tick (executeHalf2 (decodeHalf2 (fetchHalf2 v)))) = t ∧ Live t ∧
      t.exe = v.exe ∧ t.draws.length ≤ v.draws.length ∧ t.ex.sstate = v.ex.sstate ∧
      ((∀ a, v.ex.brResolve ≠ some (.taken a)) → Keeps v t) ∧
      (v.ex.brResolve = none → Calm v t) ∧
      ∀ q, t.fetch.redir = some q → q.src = .decode := by
  refine ⟨_, rfl, ?_⟩
  have ho : v.ctl.owner = some .fetch → v.fetch.pf.isSome = true := by
    intro h
    rcases port with ⟨h1, -⟩ | ⟨a, n, -, h2⟩
    · rw [h1] at h; cases h
    · exact h2
  have hh : v.ready = true → v.dec.dstate = .waitForSlot := fun h => by rw [hrd] at h; cases h
  have hk := keeps_front2 v hr ho hh
  obtain ⟨F, C, D, R, S, he, hre, hhand, hbp, hport⟩ := front2_cases v hr ho hh
  have hport' : FreePort C F := by
    rcases hport with ⟨rfl, hpf⟩ | ⟨-, -, hpf, a, rfl⟩
    · rcases port with ⟨h1, h2⟩ | ⟨a, n, h1, h2⟩
      · refine .inl ⟨h1, ?_⟩
        rw [h2] at hpf
        simpa using hpf
      · exact .inr ⟨a, n, h1, hpf.trans h2⟩
    · exact .inr ⟨a, 2, rfl, hpf⟩
  rw [he] at hk ⊢
  have h2 : executeHalf2 { v with fetch := F, ctl := C, dec := D, ready := R, slot := S } =
      { v with fetch := F, ctl := C, dec := D, ready := R, slot := S } := by
    unfold executeHalf2
    split
    · simp only [hc]
    · rfl
  rw [h2]
  have hset := keeps_settle { v with fetch := F, ctl := C, dec := D, ready := R, slot := S }
  obtain ⟨F2, C2, D2, Dr, ht, q1, q2, q3, q4, q5, -⟩ := settle_free
    { v with fetch := F, ctl := C, dec := D, ready := R, slot := S } hr hp hport' hhand
  rw [ht] at hset ⊢
  have hdec : ∀ q, F2.redir = some q → q.src = .decode := by
    intro q hq
    have : F.redir = some q := q1.symm.trans hq
    rcases hre with h | ⟨a, h⟩
    · rw [h] at this; cases this
    · rw [h] at this
      cases this
      rfl
  refine ⟨⟨hr, hc, hp, rfl, q2, q3⟩, rfl, q5, rfl, fun hb => hk.trans (hset hb), fun hb => ?_, hdec⟩
  refine ⟨hdec, fun h1 h2 => ?_, hk.trans (hset (by simp [hb]))⟩
  obtain ⟨a, b, -⟩ := hbp h1
  refine ⟨a.trans h2, ?_⟩
  show D2.branchPending = true
  rw [q4 hb]
  exact b

/-- Execute's half1 when the sequencer selects no word (R272). -/
theorem executeStart_empty {s t : State} (hr : s.status = .running) (hp : s.ex.exPending = none)
    (hc : s.ex.cw = none) (hs : select s = t) (ht : t.ex.cw = none) (ha : t.hasAborted = false) :
    executeStart s = { t with ex := { t.ex with exWantsMem := false } } := by
  unfold executeStart
  have hsel : (if s.ex.cw.isNone = true then select s else s) = t := by rw [if_pos (by simp [hc]), hs]
  rw [if_pos (running_of hr), if_neg (by simp [hp])]
  dsimp only
  rw [hsel]
  simp only [ht, ha, Bool.false_eq_true, if_false]

/-- The state at the end of the first half1 of an INVALID record (R272, R401). -/
theorem executeStart_invalid {s : State} (h : s.atBoundary = true) (hrd : s.ready = true)
    (hi : s.slot.isInvalid = true) :
    executeStart s =
      { takeInvalidOpcode s.slot { s with
          ready := false, ex := { s.ex with cur := some s.slot, sstate := .evalControl } } with
        ex := { (takeInvalidOpcode s.slot { s with
          ready := false, ex := { s.ex with cur := some s.slot, sstate := .evalControl } }).ex with
            exWantsMem := false } } := by
  obtain ⟨h1, h2⟩ := (boundary_iff s).1 h
  obtain ⟨a, b, c, d, e, f⟩ := (idle_iff s).1 h1
  have hsel : select s = takeInvalidOpcode s.slot { s with
      ready := false, ex := { s.ex with cur := some s.slot, sstate := .evalControl } } := by
    simp only [select, b, selectNext, hrd, if_true, selectEval, hi]
  have hcw : (takeInvalidOpcode s.slot { s with
      ready := false, ex := { s.ex with cur := some s.slot, sstate := .evalControl } }).ex.cw = none := by
    unfold takeInvalidOpcode
    split
    · exact c
    · dsimp only
      rw [e]
      exact c
    · exact c
  refine executeStart_empty a d c hsel hcw ?_
  unfold takeInvalidOpcode
  split
  · rfl
  · dsimp only
    rw [e]
    simp [State.hasAborted, a]
  · simp [State.hasAborted, a]

theorem waiting_not_finished {s : State} (h : s.atBoundary = true) : s.finished = false := by
  obtain ⟨h1, h2⟩ := (boundary_iff s).1 h
  obtain ⟨a, b, c, d, e, f⟩ := (idle_iff s).1 h1
  simp [State.finished, b]

/-- The action `halt` (R401). -/
theorem ends_halt {s : State} (h : s.atBoundary = true) (hrd : s.ready = true)
    (hi : s.slot.isInvalid = true) (hact : s.cfg.invalidAction = .halt) :
    ∃ t, runTurns s.fuel s = t ∧
      t.arch = { s.arch with status := .haltedInvalid s.slot.instrAddr (s.slot.words.headD 0) } := by
  obtain ⟨h1, h2⟩ := (boundary_iff s).1 h
  obtain ⟨a, b, c, d, e, f⟩ := (idle_iff s).1 h1
  have hn : s.fuel = (s.draws.length + 63) + 1 := by unfold State.fuel; omega
  rw [hn, runTurns_succ a (waiting_not_finished h)]
  unfold turn
  rw [executeStart_invalid h hrd hi]
  simp only [takeInvalidOpcode, hact]
  generalize hv : ({ s with
    ready := false, status := .haltedInvalid s.slot.instrAddr (s.slot.words.headD 0)
    ex := { s.ex with cur := some s.slot, sstate := .evalControl, exWantsMem := false } } : State) = v
  have v1 : v.running = false := by rw [← hv]; rfl
  have v2 : FreePort v.ctl v.fetch := by rw [← hv]; exact f
  have v3 : v.arch = { s.arch with status := .haltedInvalid s.slot.instrAddr (s.slot.words.headD 0) } := by
    rw [← hv]; rfl
  have e1 : fetchHalf2 v = v := by simp [fetchHalf2, v1]
  have e2 : decodeHalf2 v = v := by simp [decodeHalf2, v1]
  have e3 : executeHalf2 v = v := by simp [executeHalf2, v1]
  rw [e1, e2, e3]
  have ht : (tick v).arch = v.arch ∧ (tick v).running = false := by
    unfold tick
    rcases v2 with ⟨h, -⟩ | ⟨x, n, h, -⟩
    · rw [h]
      exact ⟨rfl, v1⟩
    · rw [h]
      dsimp only
      split
      · exact ⟨rfl, v1⟩
      · exact ⟨rfl, v1⟩
  have e4 : half1Front (tick v) = tick v := by
    simp [half1Front, fetchHalf1, decodeHalf1, memWait, ht.2]
  rw [e4]
  refine ⟨tick v, ?_, ht.1.trans v3⟩
  simp [runTurns, ht.2]

/-- The action `log_and_skip` (R401, R402). -/
theorem ends_log {s : State} (h : s.atBoundary = true) (hrd : s.ready = true)
    (hi : s.slot.isInvalid = true) (hact : s.cfg.invalidAction = .logAndSkip) :
    ∃ t, EndsOn s (.next (runTurns s.fuel s)) t
      { s with log := s.log ++ [⟨excInvalidOpcode, s.slot.instrAddr, s.slot.words.headD 0⟩] } := by
  obtain ⟨h1, h2⟩ := (boundary_iff s).1 h
  obtain ⟨a, b, c, d, e, f⟩ := (idle_iff s).1 h1
  have hn : s.fuel = (s.draws.length + 63) + 1 := by unfold State.fuel; omega
  rw [hn, runTurns_succ a (waiting_not_finished h)]
  unfold turn
  rw [executeStart_invalid h hrd hi]
  simp only [takeInvalidOpcode, hact, e, Option.isSome_none, Bool.false_eq_true, if_false]
  generalize hv : ({ s with
    ready := false, log := s.log ++ [⟨excInvalidOpcode, s.slot.instrAddr, s.slot.words.headD 0⟩]
    ex := { s.ex with
      cur := some s.slot, sstate := .final, exWantsMem := false
      brResolve := some .notTaken } } : State) = v
  have v1 : v.status = .running := by rw [← hv]; exact a
  have v2 : FreePort v.ctl v.fetch := by rw [← hv]; exact f
  have v3 : v.ex.sstate = .final := by rw [← hv]
  have v4 : v.ex.cw = none := by rw [← hv]; exact c
  have v5 : v.ex.exPending = none := by rw [← hv]; exact d
  have v6 : v.ready = false := by rw [← hv]
  have v7 : v.ex.brResolve = some .notTaken := by rw [← hv]
  have v8 : v.arch = ({ s with
      log := s.log ++ [⟨excInvalidOpcode, s.slot.instrAddr, s.slot.words.headD 0⟩] } : State).arch := by
    rw [← hv]; rfl
  obtain ⟨t, ht, hl, hx, hd, hst, hk, -, hre⟩ := rest_of_turn v1 v4 v5 v2 v6
  rw [ht]
  have hfin : t.finished = true := by simp [State.finished, hst, v3, hl.cw, hl.pend]
  refine ⟨t.retire, ⟨⟨congrArg _ (runTurns_end hl.run hfin _), retire_order hl, ?_⟩, fun hf => ?_, hre⟩⟩
  · exact (show t.retire.arch = t.arch from rfl).trans ((arch_of_exe hx).trans v8)
  · have hfv : v.frontOk = true := by
      rw [frontOk_iff] at hf ⊢
      rw [← hv]
      obtain ⟨h1, h2, h3, h4, -⟩ := hf
      exact ⟨h1, h2, h3, h4, fun h => by cases h⟩
    obtain ⟨g1, g2⟩ := ((hk (by simp [v7])).trans (retire_keeps t)).front hfv
    refine ⟨g1, g2.trans ?_⟩
    rw [← hv]
    rfl

/-- The core word of a record that Execute resolves as a branch, from the state before it to the end of the
instruction (R290). -/
theorem resolved {q : State} {r : Record} (hq : Live q) (hcur : q.ex.cur = some r)
    (hst : q.ex.sstate = .coreOp) (haf : r.prog.after.isNone = true) (hbr : BranchCore q r)
    (hns : r.prog.static = false) (hp : r.prog.pred = .t) :
    ∃ t, Reach 1 q t ∧ Live t ∧ t.draws.length ≤ q.draws.length ∧ t.ex.sstate = .final ∧
      t.retire.arch = q.arch ∧
      t.fetch.redir = some ⟨(wordOut r.prog.core r q).result, .execute⟩ ∧
      (q.chained = true → q.ready = false → q.dec.branchPending = true →
        t.retire.frontOk = true ∧ t.retire.pc = (wordOut r.prog.core r q).result) := by
  have hok := hbr.core
  have hres : Resolves r q.ex.sstate := ⟨hst, hbr.branch, hns⟩
  have hbl : branchLocs q.cfg r q.ex.sstate q.f = unwrittenCond q.cfg.flagPos q.f r.prog.pred :=
    if_pos hres
  have hcd : unwrittenCond q.cfg.flagPos q.f r.prog.pred = [] := by rw [hp]; rfl
  have hch : condHolds q.cfg.flagPos q.f r.prog.pred = true := by rw [hp]; rfl
  have hac : afterCore q r.prog = (.final, q.ex.desc) := by simp [afterCore, haf]
  have hnx : nextOf q.cfg r q.ex.sstate q.ex.desc = some (afterCore q r.prog) := by
    simp only [nextOf, hst, afterCore]
  obtain ⟨t, t1, t2, t3, t4, t5⟩ := run_plain hq hcur (by rw [hst]; rfl) hnx hok.ok hok.mem
    (by rw [hst]; simp [pcWriteOk, hbr.branch]) hok.ops hok.flags (by rw [hbl, hcd]; exact .nil _)
  refine ⟨t, t1, t2, t4, ?_, ?_, t5.taken hres hch, fun hc h1 h2 => ?_⟩
  · have := (exe_all t3).2.2.2.2.2.2.2.2.2.1
    rw [this, hac]
    rfl
  · have ha := arch_of_exe (t3.trans (committed_exe' q r _))
    rw [arch_ex, branch_result hbr.dest hbr.mask] at ha
    exact ha
  · obtain ⟨g1, g2⟩ := t5.goes hres hch h2 h1 hc
    obtain ⟨g3, g4⟩ := (retire_keeps t).front g1
    exact ⟨g3, g4.trans g2⟩

/-- The action `trap(vector)` (R403): the push of the next address, and the redirect to the vector. -/
theorem ends_trapped {s : State} {vec : Addr} (h : s.atBoundary = true) (hfa : s.fair = true) (hrd : s.ready = true)
    (hi : s.slot.isInvalid = true) (hact : s.cfg.invalidAction = .trap vec)
    (hu : usableReg s s.cfg.spIndex .w24 = true) :
    ∃ t, Ends (.next (runTurns s.fuel s)) t (pushPost s s.slot.nextAddr .coreOp) ∧ GoesTo s t vec := by
  obtain ⟨h1, h2⟩ := (boundary_iff s).1 h
  obtain ⟨a, b, c, d, e, f⟩ := (idle_iff s).1 h1
  have hn : s.fuel = (s.draws.length + 63) + 1 := by unfold State.fuel; omega
  rw [hn, runTurns_succ a (waiting_not_finished h)]
  unfold turn
  rw [executeStart_invalid h hrd hi]
  simp only [takeInvalidOpcode, hact]
  generalize hr : trapRecord s.slot vec = r
  have r1 : r.prog = callProgram ⟨.const vec, .w24, false⟩ false := by rw [← hr]; rfl
  have r2 : r.nextAddr = s.slot.nextAddr := by rw [← hr]; rfl
  generalize hv : ({ s with
    ready := false
    ex := { s.ex with
      cur := some r, desc := r.prog.before, sstate := .before, exWantsMem := false } } : State) = v
  have v1 : v.status = .running := by rw [← hv]; exact a
  have v2 : FreePort v.ctl v.fetch := by rw [← hv]; exact f
  have v3 : v.ex.sstate = .before := by rw [← hv]
  have v4 : v.ex.cw = none := by rw [← hv]; exact c
  have v5 : v.ex.exPending = none := by rw [← hv]; exact d
  have v6 : v.ready = false := by rw [← hv]
  have v7 : v.ex.brResolve = none := by rw [← hv]; exact e
  have v8 : v.arch = s.arch := by rw [← hv]; rfl
  have v9 : v.draws = s.draws := by rw [← hv]
  have v10 : v.ex.cur = some r := by rw [← hv]
  have v11 : v.ex.desc = r.prog.before := by rw [← hv]
  obtain ⟨w, hw, wl, wx, wd, -, -, wc, -⟩ := rest_of_turn v1 v4 v5 v2 v6
  rw [hw]
  obtain ⟨e1, e2, e3, e4, e5, e6, e7, e8, e9, e10, e11, e12, e13, -⟩ := exe_all wx
  have wa : w.arch = s.arch := (arch_of_exe wx).trans v8
  have hu' : usableReg w w.cfg.spIndex .w24 = true := by
    rw [usableReg_congr wa, (arch_all wa).1]
    exact hu
  obtain ⟨t1, p1⟩ := run_push (s := w) (r := r) wl
    (e13.trans ((arch_all v8).2.2.2.2.2.2.2.2.2.1.trans hfa)) (e11.trans v10) (e10.trans v3)
    (by rw [e12, v11, r1]; rfl) hu'
  obtain ⟨g1, g2, g3, g4, g5, g6, g7, g8, g9, g10, g11, g12, -⟩ := exe_all p1.exe
  have hbc : BranchCore t1 r := by
    refine ⟨by rw [r1]; rfl, by rw [r1]; rfl, by rw [r1]; rfl, by rw [r1]; rfl, by rw [r1]; rfl,
      by rw [r1]; rfl, ?_, ?_⟩
    · unfold Record.isBranch
      rw [r1]
      rfl
    · rw [r1]
      exact Usable.append (.nil _) (.nil _)
  obtain ⟨t, k1, k2, k3, k4, k5, k6, k7⟩ := resolved p1.live (g11.trans (e11.trans v10)) g10
    (by rw [r1]; rfl) hbc (by rw [r1]; rfl) (by rw [r1]; rfl)
  have hres : (wordOut r.prog.core r t1).result = vec := by
    unfold wordOut
    rw [r1, alu_pass _ _ _ rfl rfl rfl rfl rfl rfl]
    exact (Width.trunc_w24 _).trans ((read_const t1 r vec))
  rw [hres] at k6 k7
  obtain ⟨n, hk, hb⟩ := p1.reach
  have hm : s.draws.length + 63 = (n + 1 + 1) + (s.draws.length + 63 - (n + 2)) := by
    have := wd
    rw [v9] at this
    omega
  have hfin : t.finished = true := by simp [State.finished, k4, k2.cw, k2.pend]
  refine ⟨t.retire, ⟨?_, retire_order k2, ?_⟩, k6, fun hf hb => ?_⟩
  · rw [hm, (hk.trans k1) _]
    exact congrArg _ (runTurns_end k2.run hfin _)
  · refine k5.trans ((arch_of_exe p1.exe).trans ?_)
    rw [r2]
    exact pushPost_congr wa _ _
  · have hcv : v.chained = true := by
      rw [← hv]
      exact (frontOk_iff.1 hf).1
    have hbv : v.dec.branchPending = true := by rw [← hv]; exact hb
    obtain ⟨w1, w2⟩ := (wc v7).held hbv v6
    obtain ⟨x1, x2⟩ := p1.calm.held w2 w1
    exact k7 (p1.calm.keeps.chain ((wc v7).keeps.chain hcv)) x1 x2

end Sys2Proof.Machine
end

