-- ==== Sys2Proof/Laws/Abort.lean ====
section
/-! SUPPORT. The model fault of an unwritten operand or flag, under `unwritten_read = abort`: the first
location in the order of R408 is reported, and nothing is committed (spec/60_exceptions.md R407, R408). -/

namespace Sys2Proof.Machine

theorem consume_abort {s : State} {l : UnwrittenLoc} {ls : List UnwrittenLoc}
    (h : s.cfg.unwrittenRead = .abort) : s.consume (l :: ls) = s.abort (.unwrittenRead l) := by
  unfold State.consume
  rw [h]

theorem abort_running (s : State) (w : Abort) : (s.abort w).running = false := rfl

theorem runTurns_stopped {s : State} (h : s.running = false) (n : Nat) : runTurns n s = s := by
  cases n <;> simp [runTurns, h]

/-- A stopped machine with a free port only ticks: nothing architectural changes. -/
theorem stopped_still {v : State} (hr : v.running = false) (hp : FreePort v.ctl v.fetch) :
    (half1Front (tick v)).arch = v.arch ∧ (half1Front (tick v)).running = false ∧
      (half1Front (tick (executeHalf2 (decodeHalf2 (fetchHalf2 v))))) = half1Front (tick v) := by
  have e1 : fetchHalf2 v = v := by simp [fetchHalf2, hr]
  have e2 : decodeHalf2 v = v := by simp [decodeHalf2, hr]
  have e3 : executeHalf2 v = v := by simp [executeHalf2, hr]
  have ht : (tick v).arch = v.arch ∧ (tick v).running = false := by
    unfold tick
    rcases hp with ⟨h, -⟩ | ⟨x, n, h, -⟩
    · rw [h]
      exact ⟨rfl, hr⟩
    · rw [h]
      dsimp only
      split
      · exact ⟨rfl, hr⟩
      · exact ⟨rfl, hr⟩
  have e4 : half1Front (tick v) = tick v := by
    simp [half1Front, fetchHalf1, decodeHalf1, memWait, ht.2]
  rw [e1, e2, e3, e4]
  exact ⟨ht.1, ht.2, rfl⟩

/-- Half1 of a word with an unwritten operand. -/
theorem executeStart_abort {s : State} {r : Record} {cw : ControlWord} {l : UnwrittenLoc}
    {ls : List UnwrittenLoc} (hl : Live s) (hcur : s.ex.cur = some r)
    (hw : wordOf s.cfg r s.ex.sstate s.ex.desc = some cw) (hok : cw.ok = true)
    (ha : s.cfg.unwrittenRead = .abort) (hu : operandLocs s r cw = l :: ls) :
    executeStart s = (startedWord cw s).abort (.unwrittenRead l) := by
  have hsel : select s = startedWord cw s := by rw [select_word hcur hw hok, startWord_ok hok]
  rw [executeStart_select hl.run hl.pend hl.cw hsel (cw := cw) rfl hl.run]
  have hlo : operandLocs (startedWord cw s) r cw = l :: ls := by
    rw [← hu]
    unfold operandLocs
    congr 1
  unfold operandLocs at hlo
  have hlat : latchOperands cw (startedWord cw s) = (startedWord cw s).abort (.unwrittenRead l) := by
    unfold latchOperands
    rw [show (startedWord cw s).ex.cur = some r from hcur]
    dsimp only
    rw [hlo, consume_abort (s := startedWord cw s) ha, if_neg (by simp [abort_running])]
  unfold executeWord
  have hv : (startedWord cw s).ex.v0.isNone = true := rfl
  dsimp only
  rw [if_pos hv, hlat, if_neg (by simp [abort_running])]

/-! ### The cycle that aborts -/

/-- The cycle ends with the model fault, and nothing else of the architectural state has changed. -/
def AbortsIn (q : State) (l : UnwrittenLoc) : Prop :=
  (turn q).running = false ∧ (turn q).arch = { q.arch with status := .aborted (.unwrittenRead l) }

/-- A word with an unwritten operand. -/
theorem turn_abort_operands {q : State} {r : Record} {cw : ControlWord} {l : UnwrittenLoc}
    {ls : List UnwrittenLoc} (hl : Live q) (hcur : q.ex.cur = some r)
    (hw : wordOf q.cfg r q.ex.sstate q.ex.desc = some cw) (hok : cw.ok = true)
    (ha : q.cfg.unwrittenRead = .abort) (hu : operandLocs q r cw = l :: ls) : AbortsIn q l := by
  unfold AbortsIn turn
  rw [executeStart_abort hl hcur hw hok ha hu]
  obtain ⟨p1, p2, p3⟩ := stopped_still (v := (startedWord cw q).abort (.unwrittenRead l)) rfl hl.port
  rw [p3]
  exact ⟨p2, p1⟩

/-- A word without an access whose half2 aborts. -/
theorem turn_abort_half2 {q : State} {r : Record} {cw : ControlWord} {l : UnwrittenLoc} (hl : Live q)
    (hcur : q.ex.cur = some r) (hw : wordOf q.cfg r q.ex.sstate q.ex.desc = some cw)
    (hok : cw.ok = true) (hmem : cw.mem = .none) (hu : Usable q.cfg (operandLocs q r cw))
    (hh2 : ∀ w : State, w.status = .running → w.cfg = q.cfg → w.f = q.f →
      w.ex = { (latchWord cw r q).ex with exWantsMem := false } →
      ∃ e, executeHalf2 w = { w with ex := e, status := .aborted (.unwrittenRead l) }) :
    AbortsIn q l := by
  unfold AbortsIn turn
  rw [executeStart_latch hl hcur hw hok hu,
    executeStart_plain (cw := cw) (by exact hl.run) (by exact hl.pend) (by rfl) (by rfl) hmem
      (by simp [latchWord, hmem])]
  generalize hm : ({ latchWord cw r q with
    ex := { (latchWord cw r q).ex with exWantsMem := false } } : State) = m
  have m1 : m.status = .running := by rw [← hm]; exact hl.run
  have m2 : FreePort m.ctl m.fetch := by rw [← hm]; exact hl.port
  have m3 : m.ready = true → m.dec.dstate = .waitForSlot := by rw [← hm]; exact hl.hand
  have m4 : m.ctl.owner = some .fetch → m.fetch.pf.isSome = true := by
    intro h
    rcases m2 with ⟨h1, -⟩ | ⟨a, n, -, h2⟩
    · rw [h1] at h; cases h
    · exact h2
  have march : m.arch = q.arch := by rw [← hm]; rfl
  have mex : m.ex = { (latchWord cw r q).ex with exWantsMem := false } := by rw [← hm]
  obtain ⟨F, C, D, R, S, he, -, -, -, hport⟩ := front2_cases m m1 m4 m3
  have hport' : FreePort C F := by
    rcases hport with ⟨rfl, hpf⟩ | ⟨-, -, hpf, a, rfl⟩
    · rcases m2 with ⟨h1, h2⟩ | ⟨a, n, h1, h2⟩
      · refine .inl ⟨h1, ?_⟩
        rw [h2] at hpf
        simpa using hpf
      · exact .inr ⟨a, n, h1, hpf.trans h2⟩
    · exact .inr ⟨a, 2, rfl, hpf⟩
  rw [he]
  obtain ⟨e, hx⟩ := hh2 { m with fetch := F, ctl := C, dec := D, ready := R, slot := S } m1
    (by rw [← hm]; rfl) (by rw [← hm]; rfl) mex
  rw [hx]
  obtain ⟨p1, p2, -⟩ := stopped_still (v := ({ m with
    fetch := F, ctl := C, dec := D, ready := R, slot := S, ex := e
    status := .aborted (.unwrittenRead l) } : State)) rfl hport'
  refine ⟨p2, p1.trans ?_⟩
  rw [← march]
  rfl

/-- A word with an unwritten flag: C, then D (R252). -/
theorem turn_abort_flags {q : State} {r : Record} {cw : ControlWord} {l : UnwrittenLoc}
    {ls : List UnwrittenLoc} (hl : Live q) (hcur : q.ex.cur = some r)
    (hw : wordOf q.cfg r q.ex.sstate q.ex.desc = some cw) (hok : cw.ok = true) (hmem : cw.mem = .none)
    (ha : q.cfg.unwrittenRead = .abort) (hops : operandLocs q r cw = [])
    (hu : aluUnwritten q.cfg cw q.f = l :: ls) : AbortsIn q l := by
  refine turn_abort_half2 hl hcur hw hok hmem (.inr hops) fun w w1 wcfg wf wex => ⟨w.ex, ?_⟩
  rw [executeHalf2_live (cw := cw) (fl := q.f) w1 (by rw [wex]; rfl) (by rw [wex]; rfl)
    (by rw [wex]; rfl) (by rw [wex]; rfl)]
  have hlat : latchResult cw (readSource q r cw.src0) (readSource q r cw.src1) q.f w =
      w.abort (.unwrittenRead l) := by
    unfold latchResult
    rw [if_neg (by rw [wex]; simp [latchWord]), wcfg, hu, consume_abort (by rw [wcfg]; exact ha)]
    dsimp only
    rw [if_neg (by simp [abort_running])]
  unfold finishWord
  dsimp only
  rw [hlat, if_neg (by simp [abort_running])]
  rfl

/-- The core word of a branch whose predicate's flag is unwritten (R289). -/
theorem turn_abort_cond {q : State} {r : Record} {l : UnwrittenLoc} {ls : List UnwrittenLoc}
    (hl : Live q) (hcur : q.ex.cur = some r) (hst : q.ex.sstate = .coreOp) (hc : BranchCore q r)
    (hs : r.prog.static = false) (ha : q.cfg.unwrittenRead = .abort)
    (hu : unwrittenCond q.cfg.flagPos q.f r.prog.pred = l :: ls) : AbortsIn q l := by
  refine turn_abort_half2 (cw := r.prog.core) hl hcur (by rw [hst]; rfl) hc.ok hc.mem hc.ops
    fun w w1 wcfg wf wex => ?_
  obtain ⟨e, hlat⟩ := latchResult_eq (v0 := readSource q r r.prog.core.src0)
    (v1 := readSource q r r.prog.core.src1) (fl := q.f) (cw := r.prog.core) w1
    (.inl (by rw [wex]; rfl)) (usable_calm _ _ hc.addc hc.shift hc.mask)
  generalize hx : alu w.cfg r.prog.core (readSource q r r.prog.core.src0)
    (readSource q r r.prog.core.src1) q.f = out at hlat
  refine ⟨{ w.ex with res := some out, estate := e }, ?_⟩
  rw [executeHalf2_live (cw := r.prog.core) (fl := q.f) w1 (by rw [wex]; rfl) (by rw [wex]; rfl)
    (by rw [wex]; rfl) (by rw [wex]; rfl)]
  generalize hu' : ({ w with ex := { w.ex with res := some out, estate := e } } : State) = u at hlat
  have u1 : u.status = .running := by rw [← hu']; exact w1
  have u2 : u.ex.acc = .none := by rw [← hu', wex]; simp [latchWord, hc.mem]
  have u3 : u.ex.cur = some r := by rw [← hu', wex]; exact hcur
  have u4 : u.ex.res = some out := by rw [← hu']
  have u5 : u.ex.sstate = .coreOp := by rw [← hu', wex]; exact hst
  have u6 : u.cfg = q.cfg := by rw [← hu']; exact wcfg
  have h2 : (u.ex.acc != .toAssert) = true := by rw [u2]; rfl
  have h3 : (u.ex.acc = .toAssert) = False := by simp [u2]
  have hres : resolveBranch r out.result q.f u = u.abort (.unwrittenRead l) := by
    unfold resolveBranch
    rw [if_neg (by simp [hs]), u6, hu, consume_abort (by rw [u6]; exact ha)]
    dsimp only
    rw [if_neg (by simp [abort_running])]
  have hcm : commit r.prog.core r q.f out u = u.abort (.unwrittenRead l) := by
    unfold commit
    rw [if_pos (show pcWriteOk r.prog.core r u.ex.sstate = true by simp [pcWriteOk, u5, hc.branch])]
    have e1 : writeLoc u r r.prog.core.dest out.result = u := by rw [hc.dest]; rfl
    simp only [e1, hc.mask]
    rw [if_pos (show u.ex.sstate = .coreOp ∧ r.isBranch = true from ⟨u5, hc.branch⟩)]
    have e2 : ({ u with f := commitFlags u.cfg.flagPos .empty out.flags u.f } : State) = u := rfl
    rw [e2, hres, if_neg (by simp [abort_running])]
  unfold finishWord assertHalf2 commitUnlessBlocked
  rw [hlat]
  simp only [running_of u1, if_true, h3, if_false, h2, Bool.and_true, u3, u4]
  rw [hcm, ← hu']
  rfl

/-! ### The instruction that aborts -/

/-- A record that reaches a cycle that aborts. -/
theorem ends_abort {s q : State} {r : Record} {k : Nat} {l : UnwrittenLoc} (h : s.atBoundary = true)
    (hr : r.isInvalid = false) (ho : r.prog.override.isNone = true)
    (hreach : Reach k (taken s r (entry s r).1 (entry s r).2) q) (hk : k ≤ s.draws.length + 60)
    (hq : Live q) (hf : q.finished = false) (hx : AbortsIn q l) :
    ∃ t, runTurns s.fuel { s with slot := r, ready := true } = t ∧
      t.arch = { q.arch with status := .aborted (.unwrittenRead l) } := by
  obtain ⟨h1, h2⟩ := (boundary_iff s).1 h
  obtain ⟨a, b, c, d, e, f⟩ := (idle_iff s).1 h1
  have hent : (taken s r (entry s r).1 (entry s r).2).finished = false := by
    unfold entry
    split <;> rfl
  have hall := reach_congr (executeStart_taken h r hr ho) (by exact a) (by simp [State.finished, b])
    (by exact a) hent (hreach.trans (reach_turn hq.run hf))
  have hm : s.fuel = (k + 1) + (s.draws.length + 63 - k) := by
    unfold State.fuel
    omega
  rw [hm, hall, runTurns_stopped hx.1]
  exact ⟨_, rfl, hx.2⟩

/-- The core word of a record without a before chain has an unwritten operand or flag. -/
theorem ends_abort_core {s : State} {r : Record} {l : UnwrittenLoc} {ls : List UnwrittenLoc}
    (h : s.atBoundary = true) (hr : r.isInvalid = false) (ho : r.prog.override.isNone = true)
    (hbf : r.prog.before.isNone = true) (hok : r.prog.core.ok = true) (hmem : r.prog.core.mem = .none)
    (ha : s.cfg.unwrittenRead = .abort)
    (hu : operandLocs s r r.prog.core ++ aluUnwritten s.cfg r.prog.core s.f = l :: ls) :
    ∃ t, runTurns s.fuel { s with slot := r, ready := true } = t ∧
      t.arch = { s.arch with status := .aborted (.unwrittenRead l) } := by
  have hent : entry s r = (.coreOp, s.ex.desc) := by simp [entry, hbf]
  refine ends_abort (q := taken s r .coreOp s.ex.desc) h hr ho (by rw [hent]; exact .refl _)
    (Nat.zero_le _) (taken_live h r _ _) rfl ?_
  cases hol : operandLocs s r r.prog.core with
  | cons x xs =>
    rw [hol, List.cons_append, List.cons.injEq] at hu
    exact turn_abort_operands (taken_live h r _ _) rfl rfl hok ha (hu.1 ▸ hol)
  | nil =>
    rw [hol, List.nil_append] at hu
    exact turn_abort_flags (taken_live h r _ _) rfl rfl hok hmem ha hol hu

/-- The first word of a record's before chain has an unwritten operand. -/
theorem ends_abort_chain {s : State} {r : Record} {cw : ControlWord} {d : Desc} {l : UnwrittenLoc}
    {ls : List UnwrittenLoc} (h : s.atBoundary = true) (hr : r.isInvalid = false)
    (ho : r.prog.override.isNone = true) (hbf : r.prog.before.isNone = false)
    (hg : gen s.cfg r.words r.prog.before = some (cw, d)) (hok : cw.ok = true)
    (ha : s.cfg.unwrittenRead = .abort) (hu : operandLocs s r cw = l :: ls) :
    ∃ t, runTurns s.fuel { s with slot := r, ready := true } = t ∧
      t.arch = { s.arch with status := .aborted (.unwrittenRead l) } := by
  have hent : entry s r = (.before, r.prog.before) := by simp [entry, hbf]
  exact ends_abort (q := taken s r .before r.prog.before) h hr ho (by rw [hent]; exact .refl _)
    (Nat.zero_le _) (taken_live h r _ _) rfl
    (turn_abort_operands (cw := cw) (taken_live h r _ _) rfl (by simp [wordOf, taken, hg]) hok ha hu)

/-- The core word is a branch whose predicate's flag is unwritten. -/
theorem ends_abort_cond {s : State} {r : Record} {l : UnwrittenLoc} {ls : List UnwrittenLoc}
    (h : s.atBoundary = true) (hr : r.isInvalid = false) (ho : r.prog.override.isNone = true)
    (hbf : r.prog.before.isNone = true) (hc : BranchCore s r) (hs : r.prog.static = false)
    (ha : s.cfg.unwrittenRead = .abort)
    (hu : unwrittenCond s.cfg.flagPos s.f r.prog.pred = l :: ls) :
    ∃ t, runTurns s.fuel { s with slot := r, ready := true } = t ∧
      t.arch = { s.arch with status := .aborted (.unwrittenRead l) } := by
  have hent : entry s r = (.coreOp, s.ex.desc) := by simp [entry, hbf]
  exact ends_abort (q := taken s r .coreOp s.ex.desc) h hr ho (by rw [hent]; exact .refl _)
    (Nat.zero_le _) (taken_live h r _ _) rfl
    (turn_abort_cond (taken_live h r _ _) rfl rfl
      ⟨hc.ok, hc.mem, hc.dest, hc.mask, hc.addc, hc.shift, hc.branch, hc.ops⟩ hs ha hu)

/-- The core word commits, and the first word of the after chain has an unwritten operand. -/
theorem ends_abort_after {s : State} {r : Record} {cw : ControlWord} {d : Desc} {l : UnwrittenLoc}
    {ls : List UnwrittenLoc} (h : s.atBoundary = true) (hr : r.isInvalid = false)
    (ho : r.prog.override.isNone = true) (hbf : r.prog.before.isNone = true)
    (haf : r.prog.after.isNone = false) (hb : r.isBranch = false) (hc : CoreOk s r)
    (hg : gen s.cfg r.words r.prog.after = some (cw, d)) (hok : cw.ok = true)
    (ha : s.cfg.unwrittenRead = .abort)
    (hu : ∀ v : State, v.arch = (coreResult r.prog.core r s).arch → operandLocs v r cw = l :: ls) :
    ∃ t, runTurns s.fuel { s with slot := r, ready := true } = t ∧
      t.arch = { (coreResult r.prog.core r s).arch with status := .aborted (.unwrittenRead l) } := by
  have hent : entry s r = (.coreOp, s.ex.desc) := by simp [entry, hbf]
  obtain ⟨q, hran⟩ := run_core (s := taken s r .coreOp s.ex.desc) (r := r) (taken_live h r _ _) rfl rfl
    ⟨hc.ok, hc.mem, hc.pc, hc.ops, hc.flags⟩ (.inl hb)
  have hac : afterCore (taken s r .coreOp s.ex.desc) r.prog = (.after, r.prog.after) := by
    simp [afterCore, haf]
  rw [hac] at hran
  obtain ⟨k, k1, k2⟩ := hran.reach
  obtain ⟨e1, e2, e3, e4, e5, e6, e7, e8, e9, e10, e11, e12, -⟩ := exe_all hran.exe
  have hcfg : (coreResult r.prog.core r (taken s r .coreOp s.ex.desc)).cfg = s.cfg := by
    unfold coreResult
    rw [writeLoc_frame]
    rfl
  have qcfg : q.cfg = s.cfg := e1.trans hcfg
  have qarch : q.arch = (coreResult r.prog.core r s).arch := by
    refine (arch_of_exe hran.exe).trans ?_
    rw [arch_ex]
    exact coreResult_congr (taken_arch s r _ _)
  have qst : q.ex.sstate = .after := e10
  have qd : q.ex.desc = r.prog.after := e12
  have hd : (taken s r .coreOp s.ex.desc).draws = s.draws := rfl
  rw [hd] at k2
  obtain ⟨t, t1, t2⟩ := ends_abort (q := q) (k := k + 1) h hr ho (by rw [hent]; exact k1) (by omega)
    hran.live (by simp [State.finished, qst])
    (turn_abort_operands (cw := cw) hran.live (e11.trans rfl) (by simp [wordOf, qst, qd, qcfg, hg]) hok
      (by rw [qcfg]; exact ha) (hu q qarch))
  exact ⟨t, t1, t2.trans (by rw [qarch])⟩

/-- `next_addr` is in MDR, and the stack pointer of a call is unwritten (R214). -/
theorem ends_abort_push {s : State} {r : Record} {l : UnwrittenLoc} {ls : List UnwrittenLoc}
    (h : s.atBoundary = true) (hr : r.isInvalid = false) (ho : r.prog.override.isNone = true)
    (hbf : r.prog.before = { Desc.none with kind := .pushPc, dir := .write, sg := true })
    (ha : s.cfg.unwrittenRead = .abort)
    (hu : (if s.regUnwritten s.cfg.spIndex .w24 then [.reg s.cfg.spIndex .w24] else []) = l :: ls) :
    ∃ t, runTurns s.fuel { s with slot := r, ready := true } = t ∧
      t.arch = { s.arch with mdr := ⟨r.nextAddr, true⟩, status := .aborted (.unwrittenRead l) } := by
  have hent : entry s r = (.before, r.prog.before) := by simp [entry, hbf, Desc.isNone]
  obtain ⟨q, hran⟩ := chain_plain (s := taken s r .before r.prog.before) (r := r) (st := .before)
    (done := .coreOp) (d := r.prog.before) (d' := ⟨.preAccess, s.cfg.spIndex, .w24, .write, 0, true⟩)
    (cw := { Desc.word { Desc.none with kind := .pushPc, dir := .write, sg := true } with
      src1 := ⟨.pc, .w24, false⟩, dest := .mdr })
    (taken_live h r _ _) rfl rfl rfl (.inl ⟨rfl, rfl⟩) (by rw [hbf]; rfl) rfl rfl (by simp) rfl rfl rfl
    (Usable.append (.nil _) (.nil _))
  obtain ⟨k, k1, k2⟩ := hran.reach
  obtain ⟨e1, e2, e3, e4, e5, e6, e7, e8, e9, e10, e11, e12, e13, e14, e15⟩ := exe_all hran.exe
  simp only [ExecState.leave, writeLoc] at e1 e2 e3 e4 e5 e6 e7 e8 e9 e10 e11 e12 e13 e14 e15
  have hout : (wordOut ({ Desc.word { Desc.none with kind := .pushPc, dir := .write, sg := true } with
        src1 := ⟨.pc, .w24, false⟩, dest := .mdr }) r (taken s r .before r.prog.before)).result =
      r.nextAddr := by
    unfold wordOut
    rw [alu_pass _ _ _ rfl rfl rfl rfl rfl rfl]
    simp only [readSource, readLoc, Bool.false_eq_true, if_false, Width.trunc_w24]
    exact Width.trunc_w24 _
  rw [hout] at e6
  have h0 : afterChain ⟨.preAccess, s.cfg.spIndex, .w24, .write, 0, true⟩ .before .coreOp = .before := rfl
  rw [h0] at e10
  have hd : (taken s r .before r.prog.before).draws = s.draws := rfl
  rw [hd] at k2
  have hol : operandLocs q r (Desc.accessSum ⟨.preAccess, s.cfg.spIndex, .w24, .write, 0, true⟩
      (Desc.baseSource ⟨.preAccess, s.cfg.spIndex, .w24, .write, 0, true⟩) (stepSource .w24) true) =
      l :: ls := by
    rw [← hu]
    simp only [operandLocs, unwrittenLoc, Desc.accessSum, Desc.baseSource, stepSource, State.regUnwritten,
      e2, List.append_nil]
    rfl
  obtain ⟨t, t1, t2⟩ := ends_abort (q := q) (k := k + 1) h hr ho (by rw [hent]; exact k1) (by omega)
    hran.live (by simp [State.finished, e10])
    (turn_abort_operands (r := r) hran.live e11 (by simp only [wordOf, e10, e12, e1]; rfl)
      (access_sum_ok _ _ _ _ rfl rfl) (by rw [e1]; exact ha) hol)
  refine ⟨t, t1, t2.trans ?_⟩
  have qarch : q.arch = ({ s with mdr := ⟨r.nextAddr, true⟩ } : State).arch :=
    arch_of e1 e2 e3 e4 e5 e6 e7 e8 e9 e13 e14 e15
  rw [qarch]
  rfl

/-! ### What a chain consumes -/

/-- The first word of a mode's chain consumes the register the mode reads, and nothing else (R206 to R212). -/
theorem chain_lacks {c : Config} {ws : List Word16} {rm : Rm} {dir : Dir} {w : Width} {k : Nat}
    {x : Record} (hx : x.words = ws) (hm : rmIsMem rm = true) (hat : RmAt ws k w rm) :
    ∃ cw d, gen c ws (firstDesc rm dir w k) = some (cw, d) ∧ cw.ok = true ∧
      ∀ s : State, operandLocs s x cw = lackRm s w rm := by
  subst hx
  have hk' := hat.slot
  have hk : rmWords w rm ≠ [] → k = 1 ∨ k = 2 := fun h => hk'.resolve_left h
  have hlen := hat.len
  have hs : ∀ j, j < x.words.length → slotUnwritten x.words j = [] := fun j hj => by simp [slotUnwritten, hj]
  cases rm with
  | reg b => cases hm
  | imm v => cases hm
  | ind b =>
    exact ⟨_, _, rfl, access_h1_ok _ _ rfl, fun s => List.append_nil _⟩
  | postInc b =>
    exact ⟨_, _, rfl, access_h1_ok _ _ rfl, fun s => List.append_nil _⟩
  | postDec b =>
    exact ⟨_, _, rfl, access_h1_ok _ _ rfl, fun s => List.append_nil _⟩
  | preInc b =>
    exact ⟨_, _, rfl, access_sum_ok _ _ _ _ rfl rfl, fun s => List.append_nil _⟩
  | preDec b =>
    exact ⟨_, _, rfl, access_sum_ok _ _ _ _ rfl rfl, fun s => List.append_nil _⟩
  | disp b d =>
    refine ⟨_, _, rfl, ?_, fun s => ?_⟩
    · rcases hk (by simp [rmWords]) with rfl | rfl <;> rfl
    · simp only [rmWords, List.length_singleton] at hlen
      simp [operandLocs, Desc.baseSource, unwrittenLoc, lackRm, lackReg, firstDesc, hs k (by omega)]
  | pc8 d =>
    refine ⟨_, _, rfl, access_sum_ok _ _ _ _ rfl ?_, fun s => ?_⟩
    · rcases hk (by simp [rmWords]) with rfl | rfl <;> rfl
    · simp only [rmWords, List.length_singleton] at hlen
      simp [operandLocs, Desc.accessSum, unwrittenLoc, lackRm, firstDesc, hs k (by omega)]
  | pc16 d =>
    refine ⟨_, _, rfl, access_sum_ok _ _ _ _ rfl ?_, fun s => ?_⟩
    · rcases hk (by simp [rmWords]) with rfl | rfl <;> rfl
    · simp only [rmWords, List.length_singleton] at hlen
      simp [operandLocs, Desc.accessSum, unwrittenLoc, lackRm, firstDesc, hs k (by omega)]
  | pc24 d =>
    refine ⟨_, _, rfl, access_sum_ok _ _ _ _ rfl ?_, fun s => ?_⟩
    · rcases hk (by simp [rmWords, split24]) with rfl | rfl <;> rfl
    · simp only [rmWords, split24, List.length_cons, List.length_nil] at hlen
      simp [operandLocs, Desc.accessSum, unwrittenLoc, lackRm, firstDesc, hs k (by omega),
        hs (k + 1) (by omega)]
  | abs a =>
    refine ⟨_, _, rfl, access_h1_ok _ _ ?_, fun s => ?_⟩
    · rcases hk (by simp [rmWords, split24]) with rfl | rfl <;> rfl
    · simp only [rmWords, split24, List.length_cons, List.length_nil] at hlen
      simp [operandLocs, Desc.accessH1, unwrittenLoc, lackRm, firstDesc, hs k (by omega),
        hs (k + 1) (by omega), Desc.word, ControlWord.base, Source.zero]
  | absIdx a j =>
    obtain ⟨ha, hj⟩ := hat.absIdx a j rfl
    refine ⟨_, _, rfl, access_sum_ok _ _ _ _ ?_ ?_, fun s => ?_⟩
    · rcases hk (by simp [rmWords]) with rfl | rfl <;> rfl
    · rcases hk (by simp [rmWords]) with rfl | rfl <;> rfl
    · simp only [rmWords, List.length_cons, List.length_nil] at hlen
      simp [operandLocs, Desc.accessSum, unwrittenLoc, lackRm, lackReg, firstDesc, hs k (by omega),
        hs (k + 1) (by omega), hj]

end Sys2Proof.Machine
end

