-- ==== Sys2Proof/Laws/Asked.lean ====
section
/-! SUPPORT. The read in flight for Fetch is always the one Fetch has recorded (spec/40_fetch.md R142,
R147). -/

namespace Sys2Proof.Machine

/-- What the controller does for Fetch is what Fetch has asked for. -/
structure Asked (s : State) : Prop where
  busy : ∀ a n, s.ctl = .readBusy a n .fetch → ∃ p, s.fetch.pf = some p ∧ p.addr = a ∧ n = 2
  latched : ∀ d, s.ctl = .latched d .fetch →
    ∃ p, s.fetch.pf = some p ∧ d = some (s.load p.addr 2)
  reads : ∀ a n v, s.ctl ≠ .writeBusy a n v .fetch

/-- A half-step of Execute: the controller is left alone, or works for Execute. -/
structure CtlStep (s t : State) : Prop where
  pf : t.fetch.pf = s.fetch.pf
  mem : t.mem = s.mem
  writes : t.writes = s.writes
  cfg : t.cfg = s.cfg
  ctl : t.ctl = s.ctl ∨ t.ctl.owner ≠ some .fetch

theorem CtlStep.refl (s : State) : CtlStep s s := ⟨rfl, rfl, rfl, rfl, .inl rfl⟩

theorem CtlStep.trans {s t u : State} (h1 : CtlStep s t) (h2 : CtlStep t u) : CtlStep s u :=
  ⟨h2.pf.trans h1.pf, h2.mem.trans h1.mem, h2.writes.trans h1.writes, h2.cfg.trans h1.cfg, by
    rcases h2.ctl with h | h
    · rw [h]; exact h1.ctl
    · exact .inr h⟩

theorem CtlStep.left {s u t : State} (h : CtlStep u t) (h1 : u.fetch.pf = s.fetch.pf)
    (h2 : u.mem = s.mem) (h3 : u.writes = s.writes) (h4 : u.cfg = s.cfg) (h5 : u.ctl = s.ctl) :
    CtlStep s t :=
  CtlStep.trans ⟨h1, h2, h3, h4, .inl h5⟩ h

theorem Asked.step {s t : State} (h : Asked s) (hs : CtlStep s t) : Asked t := by
  rcases hs.ctl with hc | hc
  · refine ⟨?_, ?_, ?_⟩
    · rw [hc, hs.pf]; exact h.busy
    · rw [hc, hs.pf, State.load_congr hs.cfg hs.mem hs.writes]; exact h.latched
    · rw [hc]; exact h.reads
  · refine ⟨?_, ?_, ?_⟩
    · intro a n he; rw [he] at hc; exact absurd rfl hc
    · intro d he; rw [he] at hc; exact absurd rfl hc
    · intro a n v he; rw [he] at hc; exact hc rfl

theorem ctl_consume (s : State) (l : List UnwrittenLoc) : CtlStep s (s.consume l) := by
  unfold State.consume
  split <;> exact ⟨rfl, rfl, rfl, rfl, .inl rfl⟩

theorem ctl_assertBusy (s : State) (busy : Ctl) (h : busy.owner = some .execute) :
    CtlStep s (s.assertBusy .execute busy).1 := by
  unfold State.assertBusy
  split
  · exact ⟨rfl, rfl, rfl, rfl, .inr (by simp only [h]; decide)⟩
  · split
    · exact ⟨rfl, rfl, rfl, rfl, .inl rfl⟩
    · exact .refl s

theorem ctl_assertAccess (cw : ControlWord) (a : Addr) (s : State) :
    CtlStep s (assertAccess cw a s) := by
  unfold assertAccess
  have h0 := ctl_consume s (assertUnwritten cw s)
  dsimp only
  split
  · have h1 : CtlStep (s.consume (assertUnwritten cw s))
        (callAccess cw a (s.consume (assertUnwritten cw s))).1 := by
      unfold callAccess State.assertRead State.assertWrite
      split <;> exact ctl_assertBusy _ _ rfl
    split
    · exact (h0.trans h1).trans ⟨rfl, rfl, rfl, rfl, .inl rfl⟩
    · exact h0.trans h1
  · exact h0

theorem ctl_executeWord (cw : ControlWord) (s : State) : CtlStep s (executeWord cw s) := by
  have hl : ∀ u : State, CtlStep u (latchOperands cw u) := by
    intro u
    unfold latchOperands
    split
    · exact ⟨rfl, rfl, rfl, rfl, .inl rfl⟩
    · have h0 := ctl_consume u (unwrittenLoc u (by assumption) cw.src0.loc ++
        unwrittenLoc u (by assumption) cw.src1.loc)
      dsimp only
      split
      · exact h0.trans ⟨rfl, rfl, rfl, rfl, .inl rfl⟩
      · exact h0
  have ha : ∀ u : State, CtlStep u (assertH1 cw u) := by
    intro u
    unfold assertH1
    split
    · exact (ctl_assertAccess _ _ _).left rfl rfl rfl rfl rfl
    · exact .refl u
  unfold executeWord
  have h1 : CtlStep s (if s.ex.v0.isNone then latchOperands cw s else s) := by
    split
    · exact hl s
    · exact .refl s
  generalize (if s.ex.v0.isNone then latchOperands cw s else s) = v at h1
  dsimp only
  split
  · split
    · exact (h1.trans (ha _)).trans ⟨rfl, rfl, rfl, rfl, .inl rfl⟩
    · exact h1.trans (ha _)
  · exact h1

theorem ctl_select (s : State) : CtlStep s (select s) := by
  have hs : ∀ (cw : ControlWord) (u : State), CtlStep u (startWord cw u) := by
    intro cw u
    unfold startWord
    split <;> exact ⟨rfl, rfl, rfl, rfl, .inl rfl⟩
  have hw : ∀ u : State, CtlStep u (selectWord u) := by
    intro u
    unfold selectWord
    repeat' split
    all_goals first
      | exact hs _ _
      | exact ⟨rfl, rfl, rfl, rfl, .inl rfl⟩
  have he : ∀ (r : Record) (u : State), CtlStep u (selectEval r u) := by
    intro r u
    unfold selectEval takeInvalidOpcode
    repeat' split
    all_goals first
      | exact ⟨rfl, rfl, rfl, rfl, .inl rfl⟩
      | exact (hw _).left rfl rfl rfl rfl rfl
  have hn : ∀ u : State, CtlStep u (selectNext u) := by
    intro u
    unfold selectNext
    split
    · exact (he _ _).left rfl rfl rfl rfl rfl
    · exact .refl u
  unfold select
  split
  · exact (hn _).left rfl rfl rfl rfl rfl
  · exact hn s
  · split
    · exact he _ _
    · exact ⟨rfl, rfl, rfl, rfl, .inl rfl⟩
  all_goals exact hw s

theorem ctl_executeStart (s : State) : CtlStep s (executeStart s) := by
  unfold executeStart
  split
  · split
    · exact ⟨rfl, rfl, rfl, rfl, .inl rfl⟩
    · have h1 : CtlStep s (if s.ex.cw.isNone then select s else s) := by
        split
        · exact ctl_select s
        · exact .refl s
      generalize (if s.ex.cw.isNone then select s else s) = v at h1
      dsimp only
      split
      · exact h1
      · split
        · exact h1.trans ⟨rfl, rfl, rfl, rfl, .inl rfl⟩
        · split
          · exact h1.trans (ctl_executeWord _ _)
          · exact h1
  · exact .refl s

theorem ctl_commit (cw : ControlWord) (r : Record) (fl : Flags) (out : AluOut) (s : State) :
    CtlStep s (commit cw r fl out s) := by
  have hadv : ∀ u : State, CtlStep u (advance u) := by
    intro u
    unfold advance
    repeat' split
    all_goals exact ⟨rfl, rfl, rfl, rfl, .inl rfl⟩
  have hres : ∀ u : State, CtlStep u (resolveBranch r out.result fl u) := by
    intro u
    unfold resolveBranch
    split
    · exact .refl u
    · have h0 := ctl_consume u (unwrittenCond u.cfg.flagPos fl r.prog.pred)
      dsimp only
      repeat' split
      all_goals first
        | exact h0
        | exact h0.trans ⟨rfl, rfl, rfl, rfl, .inl rfl⟩
  unfold commit
  split
  · have h0 : CtlStep s (writeLoc s r cw.dest out.result) := by
      rw [writeLoc_frame]
      exact ⟨rfl, rfl, rfl, rfl, .inl rfl⟩
    have h1 : CtlStep s { writeLoc s r cw.dest out.result with
        f := commitFlags (writeLoc s r cw.dest out.result).cfg.flagPos cw.fmask out.flags
          (writeLoc s r cw.dest out.result).f } := h0.trans ⟨rfl, rfl, rfl, rfl, .inl rfl⟩
    dsimp only
    split
    · split
      · exact (h1.trans (hres _)).trans (hadv _)
      · exact h1.trans (hres _)
    · split
      · exact h1.trans (hadv _)
      · exact h1
  · exact ⟨rfl, rfl, rfl, rfl, .inl rfl⟩

theorem ctl_executeHalf2 (s : State) : CtlStep s (executeHalf2 s) := by
  have hcu : ∀ (cw : ControlWord) (fl : Flags) (u : State), CtlStep u (commitUnlessBlocked cw fl u) := by
    intro cw fl u
    unfold commitUnlessBlocked
    split
    · split
      · exact ctl_commit _ _ _ _ _
      · exact ⟨rfl, rfl, rfl, rfl, .inl rfl⟩
    · exact .refl u
  have has : ∀ (cw : ControlWord) (u : State), CtlStep u (assertHalf2 cw u) := by
    intro cw u
    unfold assertHalf2
    split
    · split
      · exact (ctl_assertAccess _ _ _).left rfl rfl rfl rfl rfl
      · exact (ctl_assertAccess _ _ _).left rfl rfl rfl rfl rfl
      · exact .refl u
    · exact .refl u
  unfold executeHalf2
  split
  · split
    · rename_i cw v0 v1 fl _ _ _ _
      unfold finishWord
      have h1 : CtlStep s (latchResult cw v0 v1 fl s) := by
        unfold latchResult
        split
        · exact .refl s
        · have h0 := ctl_consume s (aluUnwritten s.cfg cw fl)
          dsimp only
          split
          · exact h0.trans ⟨rfl, rfl, rfl, rfl, .inl rfl⟩
          · exact h0
      dsimp only
      split
      · exact (h1.trans (has _ _)).trans (hcu _ _ _)
      · exact h1
    · exact .refl s
  · exact .refl s

theorem ctl_memWait (s : State) : CtlStep s (memWait s) := by
  unfold memWait
  split
  · split
    · exact .refl s
    · split
      · exact ⟨rfl, rfl, rfl, rfl, .inr (by simp [Ctl.owner])⟩
      · exact .refl s
  · exact .refl s

theorem ctl_decodeHalf1 (s : State) : CtlStep s (decodeHalf1 s) := by
  unfold decodeHalf1
  repeat' split
  all_goals exact ⟨rfl, rfl, rfl, rfl, .inl rfl⟩

theorem ctl_decodeHalf2 (s : State) (hr : s.status = .running)
    (hh : s.ready = true → s.dec.dstate = .waitForSlot) : CtlStep s (decodeHalf2 s) := by
  obtain ⟨F, D, R, S, he, hpf, -⟩ := decodeHalf2_cases s hr hh
  rw [he]
  exact ⟨hpf, rfl, rfl, rfl, .inl rfl⟩

/-- Fetch's half2 asks for the word it records (R147). -/
theorem asked_fetchHalf2 {s : State} (h : Asked s) : Asked (fetchHalf2 s) := by
  have hre : ∀ u : State, Asked u → Asked (fetchRedirect u) := by
    intro u hu
    unfold fetchRedirect
    split
    · exact hu
    · refine ⟨fun a n he => ?_, fun d he => ?_, hu.reads⟩
      · obtain ⟨p, h1, h2, h3⟩ := hu.busy a n he
        exact ⟨{ p with stale := true }, by simp [h1], h2, h3⟩
      · obtain ⟨p, h1, h2⟩ := hu.latched d he
        exact ⟨{ p with stale := true }, by simp [h1], h2⟩
  have his : ∀ u : State, Asked u → Asked (fetchIssue u) := by
    intro u hu
    unfold fetchIssue
    split
    · unfold State.assertRead State.assertBusy
      cases hc : u.ctl with
      | ready =>
        refine ⟨fun a n he => ?_, fun d he => ?_, fun a n v he => ?_⟩
        · simp only [if_true, Ctl.readBusy.injEq] at he
          exact ⟨_, rfl, he.1, he.2.1.symm⟩
        · simp at he
        · simp at he
      | _ =>
        dsimp only
        split
        · exact hu.step ⟨rfl, rfl, rfl, rfl, .inl rfl⟩
        · exact hu
    · exact hu
  unfold fetchHalf2
  split
  · exact his _ (hre _ h)
  · exact h

theorem asked_fetchHalf1 {s : State} (h : Asked s) : Asked (fetchHalf1 s) := by
  have hsh : ∀ u : State, Asked u → Asked (fetchShift u) := by
    intro u hu
    unfold fetchShift
    split
    · exact hu.step ⟨rfl, rfl, rfl, rfl, .inl rfl⟩
    · exact hu
  unfold fetchHalf1
  split
  · apply hsh
    unfold fetchCollect
    split
    · exact h
    · split
      · exact ⟨by simp, by simp, by simp⟩
      · exact h
  · exact h

theorem asked_tick {s : State} (h : Asked s) : Asked (tick s) := by
  unfold tick
  split
  · rename_i a n o hc
    split
    · refine ⟨by simp, fun d he => ?_, by simp⟩
      simp only [Ctl.latched.injEq] at he
      obtain ⟨rfl, rfl⟩ := he
      obtain ⟨p, h1, h2, h3⟩ := h.busy a n hc
      subst h2 h3
      exact ⟨p, h1, rfl⟩
    · exact h.step ⟨rfl, rfl, rfl, rfl, .inl rfl⟩
  · rename_i a n v o hc
    split
    · refine ⟨by simp, fun d he => ?_, by simp⟩
      simp only [Ctl.latched.injEq] at he
      obtain ⟨-, rfl⟩ := he
      exact absurd hc (h.reads a n v)
    · exact h.step ⟨rfl, rfl, rfl, rfl, .inl rfl⟩
  · exact h

/-- A whole cycle. -/
theorem asked_turn {s : State} (h : Asked s)
    (hh : (fetchHalf2 (executeStart s)).ready = true →
      (fetchHalf2 (executeStart s)).dec.dstate = .waitForSlot) : Asked (turn s) := by
  have h1 := asked_fetchHalf2 (h.step (ctl_executeStart s))
  have h2 : Asked (decodeHalf2 (fetchHalf2 (executeStart s))) := by
    by_cases hr : (fetchHalf2 (executeStart s)).status = .running
    · exact h1.step (ctl_decodeHalf2 _ hr hh)
    · have : decodeHalf2 (fetchHalf2 (executeStart s)) = fetchHalf2 (executeStart s) := by
        simp [decodeHalf2, State.running, hr]
      rw [this]
      exact h1
  have h3 := asked_tick (h2.step (ctl_executeHalf2 _))
  exact ((asked_fetchHalf1 h3).step (ctl_decodeHalf1 _)).step (ctl_memWait _)

end Sys2Proof.Machine
end

