-- ==== Sys2Proof/Laws/Decoded.lean ====
section
/-! SUPPORT. What ENC_REF's decoder answers is well-formed and takes as many words as its encoding has, group
by group (R122 to R127); and a well-formed instruction has a program. -/

namespace Sys2Proof.Machine

theorem word24_length {xs ys : List Word16} {v : Data} (h : word24 xs = .ok (v, ys)) :
    xs.length = 2 + ys.length := by
  obtain ⟨lo, hi, rfl, -⟩ := word24_ok h
  simp only [List.length_cons]
  omega

theorem immOf_ok {w : Width} {xs ys : List Word16} {v : Data} (h : immOf w xs = .ok (v, ys)) :
    immFits w v = true ∧ xs.length = (immWords w v).length + ys.length := by
  cases w with
  | w8 =>
    obtain ⟨⟨x, zs⟩, h1, h2⟩ := bind_ok h
    simp only [pure, Except.pure, Except.ok.injEq, Prod.mk.injEq] at h2
    obtain ⟨rfl, rfl⟩ := h2
    rw [word1_ok h1]
    refine ⟨?_, by simp [immWords]; omega⟩
    simp only [immFits, Width.modulus, decide_eq_true_eq, BitVec.toNat_ofNat]
    omega
  | w16 =>
    obtain ⟨⟨x, zs⟩, h1, h2⟩ := bind_ok h
    simp only [pure, Except.pure, Except.ok.injEq, Prod.mk.injEq] at h2
    obtain ⟨rfl, rfl⟩ := h2
    rw [word1_ok h1]
    refine ⟨?_, by simp [immWords]; omega⟩
    have := x.isLt
    simp only [immFits, Width.modulus, decide_eq_true_eq, BitVec.toNat_ofNat]
    omega
  | w24 =>
    refine ⟨?_, word24_length h⟩
    exact decide_eq_true v.isLt

theorem rmOf_ok {w : Width} {n : Nat} {xs ys : List Word16} {rm : Rm} (hn : n < 64)
    (h : rmOf w n xs = .ok (rm, ys)) :
    rm.fits w = true ∧ xs.length = (rmWords w rm).length + ys.length ∧ (rm.isImm = true → n = 61) := by
  unfold rmOf at h
  have hd : n / 8 < 8 := by omega
  have hb : n % 8 < 8 := by omega
  generalize hb' : n % 8 = b at *
  generalize hd' : n / 8 = d at *
  dsimp only at h
  split at h
  · cases h; exact ⟨rfl, by simp [rmWords], fun h => by cases h⟩
  · cases h; exact ⟨rfl, by simp [rmWords], fun h => by cases h⟩
  · cases h; exact ⟨rfl, by simp [rmWords], fun h => by cases h⟩
  · cases h; exact ⟨rfl, by simp [rmWords], fun h => by cases h⟩
  · cases h; exact ⟨rfl, by simp [rmWords], fun h => by cases h⟩
  · cases h; exact ⟨rfl, by simp [rmWords], fun h => by cases h⟩
  · obtain ⟨⟨x, zs⟩, h1, h2⟩ := bind_ok h
    cases h2
    rw [word1_ok h1]
    exact ⟨rfl, by simp [rmWords]; omega, fun h => by cases h⟩
  · unfold rmSpecial at h
    split at h
    · obtain ⟨⟨x, zs⟩, h1, h2⟩ := bind_ok h
      cases h2
      rw [word1_ok h1]
      exact ⟨rfl, by simp [rmWords]; omega, fun h => by cases h⟩
    · obtain ⟨⟨x, zs⟩, h1, h2⟩ := bind_ok h
      cases h2
      rw [word1_ok h1]
      exact ⟨rfl, by simp [rmWords]; omega, fun h => by cases h⟩
    · obtain ⟨⟨x, zs⟩, h1, h2⟩ := bind_ok h
      cases h2
      exact ⟨rfl, by rw [word24_length h1]; rfl, fun h => by cases h⟩
    · obtain ⟨⟨x, zs⟩, h1, h2⟩ := bind_ok h
      cases h2
      exact ⟨rfl, by rw [word24_length h1]; rfl, fun h => by cases h⟩
    · unfold idxOf at h
      split at h
      · cases h
        exact ⟨rfl, by simp [rmWords]; omega, fun h => by cases h⟩
      · cases h
    · obtain ⟨⟨x, zs⟩, h1, h2⟩ := bind_ok h
      cases h2
      obtain ⟨g1, g2⟩ := immOf_ok h1
      exact ⟨g1, g2, fun _ => by simp only [imp_false] at *; omega⟩
    · cases h

theorem rmDest_ok {w : Width} {n : Nat} {xs ys : List Word16} {rm : Rm} (hn : n < 64)
    (h : rmDest w n xs = .ok (rm, ys)) :
    rm.isImm = false ∧ xs.length = (rmWords w rm).length + ys.length := by
  unfold rmDest at h
  split at h
  · cases h
  · obtain ⟨a, b, c⟩ := rmOf_ok hn h
    refine ⟨?_, b⟩
    cases hi : rm.isImm with
    | true => exact absurd (c hi) (by assumption)
    | false => rfl

theorem fld_lt (w : Word16) (a b : Nat) : fld w a b < 2 ^ b := Nat.mod_lt _ (Nat.two_pow_pos b)

/-- The instruction belongs to the other group (R370). -/
def isOther : Instr → Bool
  | .pushR .. | .popR .. | .bitM .. | .setM .. | .resM .. => true
  | .shlR .. | .rlR .. | .rolR .. | .shrR .. | .sarR .. | .rrR .. | .rorR .. => true
  | .inR .. | .outR .. => true
  | _ => false

/-- What the words `ws` decode to: an instruction of its group, well-formed, that takes as many words as its
encoding has. -/
structure Decoded (other : Bool) (ws : List Word16) (i : Instr) (rest : List Word16) : Prop where
  other : isOther i = other
  wf : wellFormed i = true
  len : ws.length = (encode i).length + rest.length

theorem decoded_alu {w : Word16} {xs : List Word16} {i : Instr} {rest : List Word16}
    (h : decodeAlu w xs = .ok (i, rest)) :
    Decoded false (w :: xs) i rest := by
  obtain ⟨ww, -, h⟩ := bind_ok h
  dsimp only at h
  split at h
  · cases h
  · split at h
    · cases h
      have := fld_lt w 10 3
      generalize fld w 10 3 = op at *
      have : op = 0 ∨ op = 1 ∨ op = 2 ∨ op = 3 ∨ op = 4 ∨ op = 5 ∨ op = 6 ∨ op = 7 := by omega
      rcases this with rfl | rfl | rfl | rfl | rfl | rfl | rfl | rfl <;>
        exact ⟨rfl, rfl, by simp [aluRegForm, encode, encAluR]; omega⟩
    · split at h
      · cases h
      · obtain ⟨⟨v, ys⟩, h1, h2⟩ := bind_ok h
        cases h2
        obtain ⟨g1, g2⟩ := immOf_ok h1
        have := fld_lt w 10 3
        generalize fld w 10 3 = op at *
        have : op = 0 ∨ op = 1 ∨ op = 2 ∨ op = 3 ∨ op = 4 ∨ op = 5 ∨ op = 6 ∨ op = 7 := by omega
        rcases this with rfl | rfl | rfl | rfl | rfl | rfl | rfl | rfl <;>
          exact ⟨rfl, g1, by simp [aluImmForm, encode, encAluI]; omega⟩

theorem decoded_load {w : Word16} {xs : List Word16} {i : Instr} {rest : List Word16}
    (h : decodeLoad w xs = .ok (i, rest)) :
    Decoded false (w :: xs) i rest := by
  obtain ⟨ww, -, h⟩ := bind_ok h
  dsimp only at h
  have hl := fld_lt w 0 6
  split at h
  · split at h
    · cases h
    · cases h; exact ⟨rfl, rfl, by simp [encode]; omega⟩
  · split at h
    · cases h
    · obtain ⟨⟨v, ys⟩, h1, h2⟩ := bind_ok h
      cases h2
      obtain ⟨g1, g2⟩ := immOf_ok h1
      exact ⟨rfl, g1, by simp [encode]; omega⟩
  · obtain ⟨⟨v, ys⟩, h1, h2⟩ := bind_ok h
    cases h2
    obtain ⟨g1, g2, g3⟩ := rmOf_ok hl h1
    exact ⟨rfl, g1, by simp [encode]; omega⟩
  · obtain ⟨⟨v, ys⟩, h1, h2⟩ := bind_ok h
    cases h2
    obtain ⟨g1, g2⟩ := rmDest_ok hl h1
    exact ⟨rfl, by simp [wellFormed, g1], by simp [encode]; omega⟩

theorem decoded_branch {w : Word16} {xs : List Word16} {i : Instr} {rest : List Word16}
    (h : decodeBranch w xs = .ok (i, rest)) :
    Decoded false (w :: xs) i rest := by
  unfold decodeBranch at h
  split at h
  · obtain ⟨cc, -, h⟩ := bind_ok h
    split at h
    · cases h
    · obtain ⟨⟨v, ys⟩, h1, h2⟩ := bind_ok h
      cases h2
      have := word24_length h1
      exact ⟨rfl, rfl, by simp [encode, split24]; omega⟩
  · obtain ⟨cc, -, h⟩ := bind_ok h
    split at h
    · cases h
    · obtain ⟨⟨v, ys⟩, h1, h2⟩ := bind_ok h
      cases h2
      rw [word1_ok h1]
      exact ⟨rfl, rfl, by simp [encode]; omega⟩
  · obtain ⟨cc, -, h⟩ := bind_ok h
    split at h
    · cases h
    · cases h; exact ⟨rfl, rfl, by simp [encode]; omega⟩
  · split at h
    · cases h
    · split at h
      · cases h
      · obtain ⟨⟨v, ys⟩, h1, h2⟩ := bind_ok h
        cases h2
        have := word24_length h1
        exact ⟨rfl, rfl, by simp [encode, split24]; omega⟩
  · split at h
    · cases h
    · split at h
      · cases h
      · cases h; exact ⟨rfl, rfl, by simp [encode]; omega⟩
  · cases h

theorem bitNumber_ok {w : Width} {x : Word16} {n : BitVec 5} (h : bitNumber w x = .ok n) :
    bitInside w n = true := by
  unfold bitNumber at h
  dsimp only at h
  split at h
  · cases h; assumption
  · cases h

theorem decoded_bit {w : Word16} {xs : List Word16} {i : Instr} {rest : List Word16}
    (h : decodeBit w xs = .ok (i, rest)) :
    Decoded true (w :: xs) i rest := by
  obtain ⟨ww, -, h⟩ := bind_ok h
  dsimp only at h
  have hl := fld_lt w 2 6
  split at h
  · cases h
  · obtain ⟨⟨x, ys⟩, h1, h⟩ := bind_ok h
    rw [word1_ok h1]
    dsimp only at h
    split at h
    · obtain ⟨⟨rm, zs⟩, h2, h⟩ := bind_ok h
      obtain ⟨n, h3, h⟩ := bind_ok h
      cases h
      obtain ⟨g1, g2, g3⟩ := rmOf_ok hl h2
      exact ⟨rfl, by simp [wellFormed, g1, bitNumber_ok h3], by simp [encode, encBit]; omega⟩
    · obtain ⟨⟨rm, zs⟩, h2, h⟩ := bind_ok h
      obtain ⟨n, h3, h⟩ := bind_ok h
      cases h
      obtain ⟨g1, g2⟩ := rmDest_ok hl h2
      exact ⟨rfl, by simp [wellFormed, g1, bitNumber_ok h3], by simp [encode, encBit]; omega⟩
    · obtain ⟨⟨rm, zs⟩, h2, h⟩ := bind_ok h
      obtain ⟨n, h3, h⟩ := bind_ok h
      cases h
      obtain ⟨g1, g2⟩ := rmDest_ok hl h2
      exact ⟨rfl, by simp [wellFormed, g1, bitNumber_ok h3], by simp [encode, encBit]; omega⟩

theorem decoded_other {w : Word16} {xs : List Word16} {i : Instr} {rest : List Word16}
    (h : decodeOther w xs = .ok (i, rest)) :
    Decoded true (w :: xs) i rest := by
  unfold decodeOther at h
  split at h
  · obtain ⟨ww, -, h⟩ := bind_ok h
    split at h
    · cases h
    · cases h; exact ⟨rfl, rfl, by simp [encode]; omega⟩
  · obtain ⟨ww, -, h⟩ := bind_ok h
    split at h
    · cases h
    · cases h; exact ⟨rfl, rfl, by simp [encode]; omega⟩
  · obtain ⟨ww, -, h⟩ := bind_ok h
    split at h
    · cases h
    · obtain ⟨j, h1, h⟩ := bind_ok h
      cases h
      unfold shiftForm at h1
      split at h1 <;> cases h1 <;> exact ⟨rfl, rfl, by simp [encode]; omega⟩
  · split at h
    · cases h
    · obtain ⟨⟨x, ys⟩, h1, h⟩ := bind_ok h
      cases h
      rw [word1_ok h1]
      exact ⟨rfl, rfl, by simp [encode, encIo]; omega⟩
  · split at h
    · cases h
    · obtain ⟨⟨x, ys⟩, h1, h⟩ := bind_ok h
      cases h
      rw [word1_ok h1]
      exact ⟨rfl, rfl, by simp [encode, encIo]; omega⟩
  · exact decoded_bit h

theorem decoded_flag {w : Word16} {xs : List Word16} {i : Instr} {rest : List Word16}
    (h : decodeFlagMove w xs = .ok (i, rest)) :
    Decoded false (w :: xs) i rest := by
  unfold decodeFlagMove at h
  split at h
  · cases h
  · split at h <;> cases h <;> exact ⟨rfl, rfl, by simp [encode]; omega⟩

/-- A well-formed instruction has a program (R171, R213, R376). -/
theorem wf_program {c : Config} {i : Instr} (h : wellFormed i = true) :
    ∃ p, programOf c i = some p := by
  cases i with
  | ldMR w r rm => cases rm <;> first | exact ⟨_, rfl⟩ | cases h
  | ldRM w r rm => cases rm <;> exact ⟨_, rfl⟩
  | bitM w n rm =>
    simp only [wellFormed, Bool.and_eq_true] at h
    cases rm <;> exact ⟨_, by simp only [programOf, progBit, h.1, if_true]; rfl⟩
  | setM w n rm =>
    simp only [wellFormed, Bool.and_eq_true] at h
    cases rm <;> first
      | exact ⟨_, by simp only [programOf, progSet, h.1, if_true]; rfl⟩
      | simp [Rm.isImm] at h
  | resM w n rm =>
    simp only [wellFormed, Bool.and_eq_true] at h
    cases rm <;> first
      | exact ⟨_, by simp only [programOf, progRes, h.1, if_true]; rfl⟩
      | simp [Rm.isImm] at h
  | _ => exact ⟨_, rfl⟩

/-- What ENC_REF's decoder answers; the other group only where it is admitted (R370). -/
theorem decoded_words {adm : Bool} {ws : List Word16} {i : Instr} {rest : List Word16}
    (h : decodeWords adm ws = .ok (i, rest)) :
    ∃ b, Decoded b ws i rest ∧ (b = true → adm = true) := by
  cases ws with
  | nil => cases h
  | cons w xs =>
    simp only [decodeWords] at h
    split at h
    · exact ⟨_, decoded_alu h, fun h => by cases h⟩
    · exact ⟨_, decoded_load h, fun h => by cases h⟩
    · exact ⟨_, decoded_branch h, fun h => by cases h⟩
    · cases adm with
      | true => exact ⟨_, decoded_other h, fun _ => rfl⟩
      | false => cases h
    · exact ⟨_, decoded_flag h, fun h => by cases h⟩
    · cases h

/-- What ENC_REF's decoder answers under the parameters has a program (R171). -/
theorem decodeRef_program {c : Config} {ws : List Word16} {i : Instr} {rest : List Word16}
    (h : decodeRef c ws = .ok (i, rest)) : ∃ p, programOf c i = some p := by
  unfold decodeRef at h
  split at h
  · rename_i hd
    split at h
    · cases h
      obtain ⟨b, hg, -⟩ := decoded_words hd
      exact wf_program hg.wf
    · cases h
  · cases h

end Sys2Proof.Machine
end

