-- ==== Sys2Proof/Laws/Inv.lean ====
section
/-! SUPPORT. The invariant of the clock: what every half-step of every stage keeps, whatever the stages are
doing (spec/10_state.md R50; spec/40_fetch.md R149, R150; spec/60_exceptions.md R406). -/

namespace Sys2Proof.Machine

/-! ### The parts of the invariant -/

/-- The controller works for Fetch. -/
def FetchBusy (c : Ctl) : Prop := (∃ a n, c = .readBusy a n .fetch) ∨ ∃ d, c = .latched d .fetch

/-- Who has an access in flight (R38, R66). -/
def PortInv (c : Ctl) (pf : Bool) (ep : Option Pending) : Prop :=
  (c = .ready ∧ pf = false ∧ ep = none) ∨ (FetchBusy c ∧ pf = true ∧ ep = none) ∨
    (c.owner = some .execute ∧ pf = false ∧ ep.isSome = true)

theorem PortInv.fetch {c : Ctl} {pf : Bool} {ep : Option Pending} (h : PortInv c pf ep)
    (ho : c.owner = some .fetch) : pf = true := by
  rcases h with ⟨rfl, -⟩ | ⟨-, h, -⟩ | ⟨h, -⟩
  · cases ho
  · exact h
  · rw [h] at ho; cases ho

theorem PortInv.exec {c : Ctl} {pf : Bool} {ep : Option Pending} (h : PortInv c pf ep)
    (ho : c.owner = some .execute) : ep.isSome = true := by
  rcases h with ⟨rfl, -⟩ | ⟨h | h, -⟩ | ⟨-, -, h⟩
  · cases ho
  · obtain ⟨a, n, rfl⟩ := h; cases ho
  · obtain ⟨d, rfl⟩ := h; cases ho
  · exact h

/-- Decode's own order; `x` says that the record in Execute holds the younger ones, or has just been
resolved. -/
structure DecInv (x : Bool) (s : State) : Prop where
  hand : s.ready = true → s.dec.dstate = .waitForSlot
  counted : s.counted = true
  slot : s.ready = true → ∃ ws a, s.slot = decodeRecord s.cfg ws a
  pending : s.dec.branchPending = ((s.ready && s.slot.holds) || x)
  alone : x = true → s.ready = false

/-- The sequencer is in a state of its set, with a record and a descriptor in order (R272, R406). -/
def SeqOk (e : ExecState) : Prop :=
  match e.sstate with
  | .waitNext | .final => e.cw = none
  | .evalControl => False
  | .coreOp => ∃ r, e.cur = some r ∧ ProgOk r.prog
  | .override | .before | .after => ∃ r, e.cur = some r ∧ ProgOk r.prog ∧ DescOk e.desc

/-- The live word is the one the sequencer selects, and its operands are latched. -/
structure LiveWord (c : Config) (e : ExecState) (cw : ControlWord) : Prop where
  word : ∃ r, e.cur = some r ∧ wordOf c r e.sstate e.desc = some cw
  v0 : e.v0.isSome = true
  v1 : e.v1.isSome = true
  fl : e.fl.isSome = true

/-- Between half1 and half2: a live word has no access, one to assert, or one accepted. -/
def Mid (c : Config) (e : ExecState) : Prop :=
  ∀ cw, e.cw = some cw → LiveWord c e cw ∧
    (e.acc = .none ∨ (e.acc = .toAssert ∧ e.exPending = none) ∨ (e.acc = .accepted ∧ e.exPending.isSome = true))

/-- After half2: a live word is one whose access is still to be asserted. -/
def Done (c : Config) (e : ExecState) : Prop :=
  ∀ cw, e.cw = some cw → LiveWord c e cw ∧ e.acc = .toAssert ∧ e.exPending = none

/-- What holds of a RUNNING machine at every half-step. -/
structure Sound (s : State) : Prop where
  cfg : s.cfg.valid = true
  mem : s.mem.wf = true
  port : PortInv s.ctl s.fetch.pf.isSome s.ex.exPending
  room : s.roomy = true
  seq : SeqOk s.ex
  dec : DecInv (s.ex.holds || s.ex.brResolve.isSome) s
  once : s.ex.brResolve.isSome = true → s.ex.holds = false

/-- A machine that has stopped, by a halt or by the model fault of R407. -/
structure Stopped (s : State) : Prop where
  cfg : s.cfg.valid = true
  mem : s.mem.wf = true
  status : s.status ≠ .running
  lawful : ∀ a, s.status = .aborted a → ∃ l, a = .unwrittenRead l

/-! ### Fetch -/

theorem roomy_iff (s : State) :
    s.roomy = true ↔ s.fetch.queue.length + s.fetch.coming ≤ s.cfg.fqDepth := by
  simp [State.roomy]

theorem roomy_fetchRedirect {s : State} (h : s.roomy = true) : (fetchRedirect s).roomy = true := by
  unfold fetchRedirect
  split
  · exact h
  · rw [roomy_iff]
    simp only [FetchState.coming, List.length_nil]
    cases s.fetch.pf <;> simp

theorem roomy_fetchIssue {s : State} (h : s.roomy = true)
    (ho : s.ctl.owner = some .fetch → s.fetch.pf.isSome = true) : (fetchIssue s).roomy = true := by
  unfold fetchIssue
  split
  · rename_i hc
    simp only [Bool.and_eq_true, Option.isNone_iff_eq_none, decide_eq_true_eq] at hc
    have hassert : (∃ C, s.assertRead .fetch s.fetch.fetchAddr 2 = ({ s with ctl := C }, true)) ∨
        s.assertRead .fetch s.fetch.fetchAddr 2 = (s, false) := by
      simp only [State.assertRead, State.assertBusy]
      cases hctl : s.ctl with
      | ready => exact .inl ⟨_, rfl⟩
      | _ =>
        rw [hctl] at ho
        refine .inr (if_neg fun hown => ?_)
        have := ho hown
        rw [hc.1.1] at this
        cases this
    rcases hassert with ⟨C, ha⟩ | ha
    · rw [ha]
      simp only [if_true]
      rw [roomy_iff]
      simp only [FetchState.coming]
      omega
    · rw [ha]
      exact h
  · exact h

theorem roomy_fetchHalf2 {s : State} (h : s.roomy = true)
    (ho : s.ctl.owner = some .fetch → s.fetch.pf.isSome = true) : (fetchHalf2 s).roomy = true := by
  unfold fetchHalf2
  split
  · refine roomy_fetchIssue (roomy_fetchRedirect h) ?_
    obtain ⟨a, b⟩ := fetchRedirect_ctl s
    rw [a, b]
    exact ho
  · exact h

theorem roomy_fetchHalf1 {s : State} (h : s.roomy = true) : (fetchHalf1 s).roomy = true := by
  have hshift : ∀ u : State, u.roomy = true → (fetchShift u).roomy = true := by
    intro u hu
    unfold fetchShift
    split
    · rename_i w q h1 h2 h3
      rw [roomy_iff] at hu ⊢
      simp only [FetchState.coming, h3, List.length_cons] at hu ⊢
      omega
    · exact hu
  unfold fetchHalf1
  split
  · apply hshift
    unfold fetchCollect
    split
    · exact h
    · rename_i p hp
      split
      · rw [roomy_iff] at h ⊢
        obtain ⟨a, st⟩ := p
        cases st
        · simp only [FetchState.coming, hp, Bool.false_eq_true, if_false, List.length_append,
            List.length_singleton] at h ⊢
          omega
        · simp only [FetchState.coming, hp, if_true] at h ⊢
          exact h
      · exact h
  · exact h

/-- Fetch's half-steps leave Decode's part alone. -/
theorem DecInv.fetch {x : Bool} {s : State} (h : DecInv x s) (F : FetchState) (C : Ctl) (Dr : List Bool)
    (M : Memory) (W : List Write) (E : ExecState) :
    DecInv x { s with fetch := F, ctl := C, draws := Dr, mem := M, writes := W, ex := E } := ⟨h.hand, h.counted, h.slot,
      h.pending, h.alone⟩

theorem sound_fetchHalf2 {s : State} (h : Sound s) (hr : s.status = .running) :
    Sound (fetchHalf2 s) ∧ (fetchHalf2 s).status = .running ∧ (fetchHalf2 s).ex = s.ex ∧
      (fetchHalf2 s).cfg = s.cfg ∧ (fetchHalf2 s).fetch.redir = none := by
  obtain ⟨F, C, he, hre, hp⟩ := fetchHalf2_cases s hr h.port.fetch
  have hroom := roomy_fetchHalf2 h.room h.port.fetch
  rw [he] at hroom ⊢
  refine ⟨⟨h.cfg, h.mem, ?_, hroom, h.seq, h.dec.fetch F C s.draws s.mem s.writes s.ex, h.once⟩, hr, rfl, rfl, hre⟩
  rcases hp with ⟨rfl, h2⟩ | ⟨h1, h2, h3, a, rfl⟩
  · simp only [h2]
    exact h.port
  · refine .inr (.inl ⟨.inl ⟨a, 2, rfl⟩, h3, ?_⟩)
    rcases h.port with ⟨-, -, h⟩ | ⟨-, -, h⟩ | ⟨h, -⟩
    · exact h
    · exact h
    · rw [h2] at h; cases h

/-- The controller's tick (R66). -/
theorem sound_tick {s : State} (h : Sound s) : Sound (tick s) ∧ (tick s).status = s.status ∧
    (tick s).ex = s.ex ∧ (tick s).cfg = s.cfg := by
  have hm := wf_tick h.mem
  have ht := tick_cases s
  have hp : PortInv (tick s).ctl s.fetch.pf.isSome s.ex.exPending := by
    rcases h.port with ⟨h1, h2, h3⟩ | ⟨h1 | h1, h2, h3⟩ | ⟨h1, h2, h3⟩
    · refine .inl ⟨?_, h2, h3⟩
      simp only [tick, h1]
    · obtain ⟨a, n, h1⟩ := h1
      refine .inr (.inl ⟨?_, h2, h3⟩)
      simp only [tick, h1]
      split
      · exact .inr ⟨_, rfl⟩
      · exact .inl ⟨a, n, rfl⟩
    · obtain ⟨d, h1⟩ := h1
      refine .inr (.inl ⟨?_, h2, h3⟩)
      simp only [tick, h1]
      exact .inr ⟨d, rfl⟩
    · refine .inr (.inr ⟨?_, h2, h3⟩)
      have h1' := h1
      unfold tick
      split
      · rename_i a n o hc
        rw [hc] at h1
        split
        · exact h1
        · exact h1'
      · rename_i a n v o hc
        rw [hc] at h1
        split
        · exact h1
        · exact h1'
      · exact h1
  rw [ht] at hm hp ⊢
  refine ⟨⟨h.cfg, hm, hp, ?_, h.seq, h.dec.fetch s.fetch _ _ _ _ s.ex, h.once⟩, rfl, rfl, rfl⟩
  have := h.room
  rw [roomy_iff] at this ⊢
  exact this

theorem sound_fetchHalf1 {s : State} (h : Sound s) (hr : s.status = .running) :
    Sound (fetchHalf1 s) ∧ (fetchHalf1 s).status = .running ∧ (fetchHalf1 s).ex = s.ex ∧
      (fetchHalf1 s).cfg = s.cfg ∧ ∀ d, (fetchHalf1 s).ctl ≠ .latched d .fetch := by
  have hroom := roomy_fetchHalf1 h.room
  obtain ⟨F, hre, ⟨h1, h2, h3, he⟩ | ⟨h1, h2, he⟩⟩ := fetchHalf1_cases s hr
  · rw [he] at hroom ⊢
    refine ⟨⟨h.cfg, h.mem, .inl ⟨rfl, by simp [h3], ?_⟩, hroom, h.seq,
      h.dec.fetch F .ready s.draws s.mem s.writes s.ex, h.once⟩, hr, rfl, rfl, by simp⟩
    rcases h.port with ⟨-, -, h⟩ | ⟨-, -, h⟩ | ⟨h, -⟩
    · exact h
    · exact h
    · cases hc : s.ctl <;> simp [hc, Ctl.dataReady, Ctl.owner] at h h1
      subst h
      cases h1
  · rw [he] at hroom ⊢
    refine ⟨⟨h.cfg, h.mem, by simpa only [h2] using h.port, hroom, h.seq,
      h.dec.fetch F s.ctl s.draws s.mem s.writes s.ex, h.once⟩, hr, rfl, rfl, ?_⟩
    intro d hd
    have hd' : s.ctl = .latched d .fetch := hd
    rcases h1 with h1 | h1
    · simp [hd', Ctl.dataReady] at h1
    · have := h.port.fetch (by simp [hd', Ctl.owner])
      simp [h1] at this

/-! ### Decode -/

/-- An INVALID record is no branch (R172). -/
theorem invalid_plain (c : Config) (ws : List Word16) (a : Addr)
    (h : (decodeRecord c ws a).isInvalid = true) : (decodeRecord c ws a).isBranch = false := by
  rcases decodeRecord_cases c ws a with ⟨i, rest, p, -, -, -, e⟩ | ⟨rows, row, k, -, -, e⟩ | e <;>
    rw [e] at h ⊢
  · cases h
  · cases h
  · rfl

/-- DISPATCH, in a state in which Decode holds all its words. -/
theorem decInv_dispatch {x : Bool} {s : State} {w : Word16} {ws : List Word16}
    (hr : s.ready = false) (hb : s.dec.branchPending = x) (hw : s.dec.words = w :: ws)
    (hn : ws.length = s.cfg.nExt w) : DecInv x (decDispatch s) := by
  unfold decDispatch
  dsimp only
  split
  · refine ⟨fun h => by simp [hr] at h, ?_, fun h => by simp [hr] at h, by simp [hb, hr], fun _ => hr⟩
    simp [State.counted, hw, hn]
  · rename_i hbf
    have hbf' : s.dec.branchPending = false := by simpa using hbf
    have hx : x = false := hb.symm.trans hbf'
    have hinv := invalid_plain s.cfg s.dec.words s.dec.iaddr
    unfold publish
    simp only [hr, Bool.false_eq_true, if_false]
    refine ⟨fun _ => rfl, rfl, fun _ => ⟨_, _, rfl⟩, ?_, by simp [hx]⟩
    simp only [hbf', hx, Bool.false_or, Bool.or_false, Bool.true_and, Record.holds]
    generalize decodeRecord s.cfg s.dec.words s.dec.iaddr = r at hinv
    cases hi : r.isInvalid
    · cases r.isBranch <;> cases r.prog.static <;> rfl
    · rw [hinv hi]
      rfl

/-- A change of Decode's words that is in order. -/
theorem DecInv.words {x : Bool} {s t : State} (h : DecInv x s) (hr : s.ready = false)
    (h1 : t.ready = s.ready) (h2 : t.dec.branchPending = s.dec.branchPending)
    (h4 : t.counted = true) : DecInv x t := by
  refine ⟨fun h => by simp [h1, hr] at h, h4, fun h => by simp [h1, hr] at h, ?_, fun h => by rw [h1, hr]⟩
  have := h.pending
  rw [h2, this, h1, hr]
  simp

theorem DecInv.free {x : Bool} {s : State} (h : DecInv x s) (hr : s.ready = false) :
    s.dec.branchPending = x := by
  have := h.pending
  rw [hr] at this
  simpa using this

theorem decInv_operands {x : Bool} {s : State} (h : DecInv x s) (hr : s.ready = false)
    (hd : s.dec.dstate = .readOperands) : DecInv x (decOperands s) := by
  have hc := h.counted
  unfold State.counted at hc
  rw [hd] at hc
  cases hw : s.dec.words with
  | nil => rw [hw] at hc; cases hc
  | cons w ws =>
    rw [hw] at hc
    simp only [Bool.and_eq_true, decide_eq_true_eq, beq_iff_eq] at hc
    obtain ⟨h0, hn⟩ := hc
    unfold decOperands
    split
    · refine h.words hr rfl rfl ?_
      simp [State.counted, hw, h0, hn]
    · rename_i v hv
      dsimp only
      split
      · rename_i hgt
        refine h.words hr rfl rfl ?_
        simp only [State.counted, hw, List.cons_append, List.length_append, List.length_singleton,
          Bool.and_eq_true, decide_eq_true_eq, beq_iff_eq]
        omega
      · rename_i hgt
        refine decInv_dispatch (w := w) (ws := ws ++ [v.word]) hr (h.free hr) (by simp [hw]) ?_
        simp only [List.length_append, List.length_singleton]
        omega

theorem words_nil {s : State} (hc : s.counted = true)
    (hd : s.dec.dstate = .waitForSlot ∨ s.dec.dstate = .readOpcode) : s.dec.words = [] := by
  unfold State.counted at hc
  rcases hd with hd | hd <;> rw [hd] at hc <;> cases hw : s.dec.words <;> simp_all

theorem decInv_opcode {x : Bool} {s : State} (h : DecInv x s) (hr : s.ready = false)
    (hd : s.dec.dstate = .waitForSlot ∨ s.dec.dstate = .readOpcode) : DecInv x (decOpcode s) := by
  have hw := words_nil h.counted hd
  unfold decOpcode
  split
  · refine h.words hr rfl rfl ?_
    simp [State.counted, hw]
  · rename_i v hv
    dsimp only
    split
    · rename_i hgt
      refine h.words hr rfl rfl ?_
      simp [State.counted, hgt]
    · rename_i hgt
      exact decInv_dispatch (w := v.word) (ws := []) hr (h.free hr) rfl
        (by simp only [List.length_nil]; omega)

theorem decInv_half2 {x : Bool} {s : State} (h : DecInv x s) : DecInv x (decodeHalf2 s) := by
  have hrun : ∀ u : State, DecInv x u → DecInv x (decRun u) := by
    intro u hu
    unfold decRun
    cases hr : u.ready with
    | true =>
      rw [hu.hand hr]
      simp only [if_true]
      exact hu
    | false =>
      split
      · rename_i hd
        simp only [Bool.false_eq_true, if_false]
        exact decInv_opcode hu hr (.inl hd)
      · rename_i hd
        exact decInv_opcode hu hr (.inr hd)
      · rename_i hd
        exact decInv_operands hu hr hd
      · rename_i hd
        have hc := hu.counted
        unfold State.counted at hc
        rw [hd] at hc
        cases hw : u.dec.words with
        | nil => rw [hw] at hc; cases hc
        | cons w ws =>
          rw [hw] at hc
          exact decInv_dispatch hr (hu.free hr) hw (by simpa using hc)
  unfold decodeHalf2
  split
  · split
    · exact h
    · exact hrun _ ⟨h.hand, h.counted, h.slot, h.pending, h.alone⟩
  · exact h

/-- Fetch's queue after Decode's half2. -/
theorem decodeHalf2_queue (s : State) : (decodeHalf2 s).fetch.queue = s.fetch.queue ∧
    (decodeHalf2 s).fetch.pf = s.fetch.pf := by
  have hpub : ∀ (r : Record) (u : State), (publish r u).fetch.queue = u.fetch.queue ∧
      (publish r u).fetch.pf = u.fetch.pf := by
    intro r u
    unfold publish
    split
    · exact ⟨rfl, rfl⟩
    · dsimp only
      split <;> exact ⟨rfl, rfl⟩
  have hdis : ∀ u : State, (decDispatch u).fetch.queue = u.fetch.queue ∧
      (decDispatch u).fetch.pf = u.fetch.pf := by
    intro u
    unfold decDispatch
    dsimp only
    split
    · exact ⟨rfl, rfl⟩
    · exact hpub _ _
  have hopc : ∀ u : State, (decOpcode u).fetch.queue = u.fetch.queue ∧
      (decOpcode u).fetch.pf = u.fetch.pf := by
    intro u
    unfold decOpcode
    split
    · exact ⟨rfl, rfl⟩
    · dsimp only
      split
      · exact ⟨rfl, rfl⟩
      · exact hdis _
  have hopd : ∀ u : State, (decOperands u).fetch.queue = u.fetch.queue ∧
      (decOperands u).fetch.pf = u.fetch.pf := by
    intro u
    unfold decOperands
    split
    · exact ⟨rfl, rfl⟩
    · dsimp only
      split
      · exact ⟨rfl, rfl⟩
      · exact hdis _
  unfold decodeHalf2
  split
  · split
    · exact ⟨rfl, rfl⟩
    · unfold decRun
      split
      · split
        · exact ⟨rfl, rfl⟩
        · exact hopc _
      · exact hopc _
      · exact hopd _
      · exact hdis _
  · exact ⟨rfl, rfl⟩

theorem sound_decodeHalf2 {s : State} (h : Sound s) (hr : s.status = .running) :
    Sound (decodeHalf2 s) ∧ (decodeHalf2 s).status = .running ∧ (decodeHalf2 s).ex = s.ex ∧
      (decodeHalf2 s).cfg = s.cfg := by
  have hd := decInv_half2 h.dec
  obtain ⟨hq, hpf⟩ := decodeHalf2_queue s
  obtain ⟨F, D, R, S, he, -⟩ := decodeHalf2_cases s hr h.dec.hand
  have e1 : (decodeHalf2 s).cfg = s.cfg := by rw [he]
  have e2 : (decodeHalf2 s).ex = s.ex := by rw [he]
  have e3 : (decodeHalf2 s).mem = s.mem := by rw [he]
  have e4 : (decodeHalf2 s).ctl = s.ctl := by rw [he]
  have e5 : (decodeHalf2 s).status = s.status := by rw [he]
  refine ⟨⟨by rw [e1]; exact h.cfg, by rw [e3]; exact h.mem, by rw [e4, e2, hpf]; exact h.port, ?_,
    by rw [e2]; exact h.seq, by rw [e2]; exact hd, by rw [e2]; exact h.once⟩, e5.trans hr, e2, e1⟩
  have := h.room
  rw [roomy_iff] at this ⊢
  simpa only [FetchState.coming, hq, hpf, e1] using this

/-- Decode's half1 consumes the branch-resolution signal (R175, R291). -/
theorem sound_decodeHalf1 {s : State} (h : Sound s) (hr : s.status = .running) :
    Sound (decodeHalf1 s) ∧ (decodeHalf1 s).status = .running ∧
      (decodeHalf1 s).ex = { s.ex with brResolve := none } ∧ (decodeHalf1 s).cfg = s.cfg ∧
      (decodeHalf1 s).ctl = s.ctl ∧ (decodeHalf1 s).fetch = s.fetch := by
  have hroom := h.room
  rw [roomy_iff] at hroom
  simp only [decodeHalf1, running_of hr, if_true]
  split
  · rename_i hn
    exact ⟨h, hr, by rw [← hn], rfl, rfl, rfl⟩
  · rename_i a ha
    have hc : s.ex.holds = false := h.once (by simp [ha])
    have hrd := h.dec.alone (by simp [ha])
    refine ⟨⟨h.cfg, h.mem, h.port, by rw [roomy_iff]; exact hroom, h.seq, ?_, by simp⟩, hr, rfl, rfl, rfl, rfl⟩
    refine ⟨fun h => rfl, rfl, fun h => by simp [hrd] at h, ?_, fun h => hrd⟩
    have : ExecState.holds { s.ex with brResolve := none } = false := hc
    simp [hrd, this]
  · rename_i ha
    have hc : s.ex.holds = false := h.once (by simp [ha])
    have hrd := h.dec.alone (by simp [ha])
    refine ⟨⟨h.cfg, h.mem, h.port, by rw [roomy_iff]; exact hroom, h.seq, ?_, by simp⟩, hr, rfl, rfl, rfl, rfl⟩
    refine ⟨h.dec.hand, h.dec.counted, fun h => by simp [hrd] at h, ?_, fun h => hrd⟩
    have : ExecState.holds { s.ex with brResolve := none } = false := hc
    simp [hrd, this]

end Sys2Proof.Machine
end

