-- ==== Sys2Proof/Laws/InvExec.lean ====
section
/-! SUPPORT. The invariant of the clock, through Execute's half-steps and whole cycles: no consistency
violation is reached, and the front end stays one unbroken run of the program (spec/60_exceptions.md R406;
spec/40_fetch.md R150). -/

namespace Sys2Proof.Machine

/-! ### Small changes of Execute -/

/-- Execute's fields that the invariant looks at. -/
theorem Sound.ex {s : State} (h : Sound s) (E : ExecState) (h1 : E.sstate = s.ex.sstate)
    (h2 : E.cur = s.ex.cur) (h3 : E.desc = s.ex.desc) (h4 : E.cw = s.ex.cw)
    (h5 : E.exPending = s.ex.exPending) (h6 : E.brResolve = s.ex.brResolve) :
    Sound { s with ex := E } := by
  have hc : E.holds = s.ex.holds := by simp only [ExecState.holds, h1, h2]
  refine ⟨h.cfg, h.mem, by simp only [h5]; exact h.port, h.room, ?_, ?_, by simp only [hc, h6]; exact h.once⟩
  · have := h.seq
    unfold SeqOk at this ⊢
    simp only [h1, h2, h3, h4]
    exact this
  · have := h.dec.fetch s.fetch s.ctl s.draws s.mem s.writes E
    simp only [hc, h6]
    exact this

theorem LiveWord.ex {c : Config} {e E : ExecState} {cw : ControlWord} (h : LiveWord c e cw)
    (h1 : E.sstate = e.sstate) (h2 : E.cur = e.cur) (h3 : E.desc = e.desc) (h4 : E.v0 = e.v0)
    (h5 : E.v1 = e.v1) (h6 : E.fl = e.fl) : LiveWord c E cw :=
  ⟨by simp only [h1, h2, h3]; exact h.word, by rw [h4]; exact h.v0, by rw [h5]; exact h.v1,
    by rw [h6]; exact h.fl⟩

/-- A stop by the model fault. -/
theorem stopped_abort {s : State} (h1 : s.cfg.valid = true) (h2 : s.mem.wf = true) (l : UnwrittenLoc) :
    Stopped (s.abort (.unwrittenRead l)) :=
  ⟨h1, h2, by simp [State.abort], fun a ha => by
    simp only [State.abort, RunStatus.aborted.injEq] at ha
    exact ⟨l, ha.symm⟩⟩

/-- Consuming locations leaves the state, or stops it. -/
theorem consume_cases (s : State) (locs : List UnwrittenLoc) :
    s.consume locs = s ∨ ∃ l, s.consume locs = s.abort (.unwrittenRead l) := by
  unfold State.consume
  split
  · exact .inr ⟨_, rfl⟩
  · exact .inl rfl

theorem not_running_abort (s : State) (w : Abort) : (s.abort w).running = false := rfl

/-- An assert of Execute that has nothing in flight: the model fault, a rejection, or an acceptance by the
READY controller (R278). -/
theorem assertAccess_cases {u : State} (cw : ControlWord) (a : Addr) (hr : u.status = .running)
    (hp : PortInv u.ctl u.fetch.pf.isSome u.ex.exPending) (he : u.ex.exPending = none) :
    (∃ l, assertAccess cw a u = u.abort (.unwrittenRead l)) ∨ assertAccess cw a u = u ∨
      ∃ C M p, u.ctl = .ready ∧ C.owner = some .execute ∧ assertAccess cw a u = { u with
        ctl := C, mar := M, ex := { u.ex with acc := .accepted, exPending := some p } } := by
  unfold assertAccess
  rcases consume_cases u (assertUnwritten cw u) with h | ⟨l, h⟩
  · rw [h]
    simp only
    rw [if_pos (running_of hr)]
    have hno : u.ctl.owner ≠ some .execute := by
      intro ho
      have := hp.exec ho
      rw [he] at this
      cases this
    have hb : ∀ busy, u.assertBusy .execute busy = (u, false) ∨
        (u.ctl = .ready ∧ u.assertBusy .execute busy = ({ u with ctl := busy }, true)) := by
      intro busy
      unfold State.assertBusy
      split
      · exact .inr ⟨by assumption, rfl⟩
      · rw [if_neg hno]
        exact .inl rfl
    have hcall : callAccess cw a u = (u, false) ∨ (u.ctl = .ready ∧ ∃ C, C.owner = some .execute ∧
        callAccess cw a u = ({ u with ctl := C }, true)) := by
      unfold callAccess State.assertRead State.assertWrite
      split
      · rcases hb (.readBusy a cw.mwidth.bytes .execute) with h | ⟨h1, h2⟩
        · exact .inl h
        · exact .inr ⟨h1, _, rfl, h2⟩
      · rcases hb (.writeBusy a cw.mwidth.bytes (cw.mwidth.trunc (writeData cw u)) .execute) with h | ⟨h1, h2⟩
        · exact .inl h
        · exact .inr ⟨h1, _, rfl, h2⟩
    rcases hcall with h | ⟨h1, C, h2, h3⟩
    · rw [h]
      exact .inr (.inl rfl)
    · rw [h3]
      exact .inr (.inr ⟨C, _, _, h1, h2, rfl⟩)
  · rw [h]
    simp only [not_running_abort, Bool.false_eq_true, if_false]
    exact .inl ⟨l, rfl⟩

/-- The acceptance keeps the invariant. -/
theorem Sound.accept {s : State} (h : Sound s) (C : Ctl) (M : Latch) (p : Pending)
    (hc : s.ctl = .ready) (ho : C.owner = some .execute) :
    Sound { s with ctl := C, mar := M, ex := { s.ex with acc := .accepted, exPending := some p } } := by
  refine ⟨h.cfg, h.mem, .inr (.inr ⟨ho, ?_, rfl⟩), h.room, h.seq, ?_, h.once⟩
  · rcases h.port with ⟨-, h2, -⟩ | ⟨⟨a, n, h1⟩ | ⟨d, h1⟩, -⟩ | ⟨h1, -⟩
    · exact h2
    · rw [hc] at h1; cases h1
    · rw [hc] at h1; cases h1
    · rw [hc] at h1; cases h1
  · exact ⟨h.dec.hand, h.dec.counted, h.dec.slot, h.dec.pending, h.dec.alone⟩

/-! ### Half1 -/

/-- What Execute's half1 leaves: the machine stopped, or in order between the halves. -/
structure MidInv (s : State) : Prop where
  sound : Sound s
  run : s.status = .running
  mid : Mid s.cfg s.ex
  quiet : ∀ cw, s.ex.cw = some cw → s.ex.brResolve = none
  br : ∀ a, s.ex.brResolve ≠ some (.taken a)
  front : s.frontOk = true

/-- A live word before its half1: its operands are latched, or still to be latched. -/
structure ToRun (s : State) (cw : ControlWord) : Prop where
  sound : Sound s
  run : s.status = .running
  live : s.ex.cw = some cw
  word : ∃ r, s.ex.cur = some r ∧ wordOf s.cfg r s.ex.sstate s.ex.desc = some cw
  pend : s.ex.exPending = none
  br : s.ex.brResolve = none
  acc : s.ex.acc = .none ∨ s.ex.acc = .toAssert
  vals : s.ex.v0.isSome = true → s.ex.v1.isSome = true ∧ s.ex.fl.isSome = true
  front : s.frontOk = true

theorem frontOk_ex {s : State} (h : s.frontOk = true) (E : ExecState) (C : Ctl) (M : Latch) :
    ({ s with ex := E, ctl := C, mar := M } : State).frontOk = true :=
  ((Keeps.of_same rfl rfl rfl rfl rfl : Keeps s { s with ex := E, ctl := C, mar := M }).front h).1

theorem executeWord_mid {s : State} {cw : ControlWord} (h : ToRun s cw) :
    Stopped (executeWord cw s) ∨ MidInv (executeWord cw s) := by
  have hlatch : (∃ l, (if s.ex.v0.isNone then latchOperands cw s else s) = s.abort (.unwrittenRead l)) ∨
      ∃ E : ExecState, (if s.ex.v0.isNone then latchOperands cw s else s) = { s with ex := E } ∧
        E.sstate = s.ex.sstate ∧ E.cur = s.ex.cur ∧ E.desc = s.ex.desc ∧ E.cw = s.ex.cw ∧
        E.exPending = s.ex.exPending ∧ E.brResolve = s.ex.brResolve ∧ E.acc = s.ex.acc ∧
        E.v0.isSome = true ∧ E.v1.isSome = true ∧ E.fl.isSome = true := by
    split
    · obtain ⟨r, hcur, -⟩ := h.word
      unfold latchOperands
      simp only [hcur]
      rcases consume_cases s (unwrittenLoc s r cw.src0.loc ++ unwrittenLoc s r cw.src1.loc) with e | ⟨l, e⟩
      · rw [e, if_pos (running_of h.run)]
        exact .inr ⟨_, rfl, rfl, hcur, rfl, rfl, rfl, rfl, rfl, rfl, rfl, rfl⟩
      · rw [e]
        simp only [not_running_abort, Bool.false_eq_true, if_false]
        exact .inl ⟨l, rfl⟩
    · rename_i hv
      have h0 : s.ex.v0.isSome = true := by
        cases hx : s.ex.v0 with
        | none => simp [hx] at hv
        | some x => rfl
      exact .inr ⟨s.ex, rfl, rfl, rfl, rfl, rfl, rfl, rfl, rfl, h0, (h.vals h0).1, (h.vals h0).2⟩
  unfold executeWord
  rcases hlatch with ⟨l, e⟩ | ⟨E, e, e1, e2, e3, e4, e5, e6, e7, e8, e9, e10⟩
  · rw [e]
    simp only [not_running_abort, Bool.false_eq_true, if_false]
    exact .inl (stopped_abort h.sound.cfg h.sound.mem l)
  · rw [e]
    simp only
    rw [if_pos (running_of (by exact h.run))]
    have hs := h.sound.ex E e1 e2 e3 e4 e5 e6
    have hlive : LiveWord s.cfg E cw := ⟨by simp only [e1, e2, e3]; exact h.word, e8, e9, e10⟩
    have hbr : E.brResolve = none := e6.trans h.br
    -- the end of half1 sets `exWantsMem` only
    have hend : ∀ u : State, Sound u → u.status = .running → u.cfg = s.cfg →
        u.ex.cw = some cw → LiveWord s.cfg u.ex cw → u.ex.brResolve = none → u.frontOk = true →
        (u.ex.acc = .none ∨ (u.ex.acc = .toAssert ∧ u.ex.exPending = none) ∨
          (u.ex.acc = .accepted ∧ u.ex.exPending.isSome = true)) →
        MidInv (noteAssert u) := by
      intro u u1 u2 u3 u4 u5 u6 u7 u8
      rw [noteAssert_running u2]
      refine ⟨u1.ex _ rfl rfl rfl rfl rfl rfl, u2, ?_, fun _ _ => u6, by simp [u6],
        frontOk_ex u7 _ u.ctl u.mar⟩
      intro cw' hcw
      have : cw' = cw := by
        have : some cw' = some cw := hcw.symm.trans u4
        exact Option.some.inj this
      subst this
      exact ⟨by simp only [u3]; exact u5.ex rfl rfl rfl rfl rfl rfl, u8⟩
    show Stopped (noteAssert (assertH1 cw { s with ex := E })) ∨
      MidInv (noteAssert (assertH1 cw { s with ex := E }))
    unfold assertH1
    split
    · rename_i hmem
      have hta : E.acc = .toAssert := hmem.2
      have hs' : Sound { s with ex := { E with estate := .memAssert1 } } :=
        h.sound.ex _ e1 e2 e3 e4 e5 e6
      rcases assertAccess_cases (u := { s with ex := { E with estate := .memAssert1 } }) cw (E.v0.getD 0)
          h.run hs'.port (e5.trans h.pend) with ⟨l, ha⟩ | ha | ⟨C, M, p, ha1, ha2, ha⟩
      · left
        have := stopped_abort (s := { s with ex := { E with estate := .memAssert1 } }) h.sound.cfg
          h.sound.mem l
        rw [ha, noteAssert, if_neg (by simp [not_running_abort])]
        exact ⟨this.cfg, this.mem, this.status, this.lawful⟩
      · right
        rw [ha]
        exact hend _ hs' h.run rfl (e4.trans h.live) (hlive.ex rfl rfl rfl rfl rfl rfl) hbr
          (frontOk_ex h.front _ s.ctl s.mar) (.inr (.inl ⟨hta, e5.trans h.pend⟩))
      · right
        rw [ha]
        exact hend _ (hs'.accept C M p ha1 ha2) (by exact h.run) rfl (e4.trans h.live)
          (hlive.ex rfl rfl rfl rfl rfl rfl) hbr (frontOk_ex h.front _ C M) (.inr (.inr ⟨rfl, rfl⟩))
    · right
      refine hend _ hs h.run rfl (e4.trans h.live) hlive hbr (frontOk_ex h.front E s.ctl s.mar) ?_
      rcases h.acc with h' | h'
      · exact .inl (e7.trans h')
      · exact .inr (.inl ⟨e7.trans h', e5.trans h.pend⟩)

/-- A word the sequencer can start. -/
structure ToStart (s : State) : Prop where
  sound : Sound s
  run : s.status = .running
  cw : s.ex.cw = none
  pend : s.ex.exPending = none
  br : s.ex.brResolve = none
  front : s.frontOk = true

theorem word_of_seq {s : State} (h : SeqOk s.ex) (hs : s.ex.sstate = .coreOp ∨ s.ex.sstate = .before ∨
    s.ex.sstate = .after ∨ s.ex.sstate = .override) : ∃ r cw, s.ex.cur = some r ∧
      wordOf s.cfg r s.ex.sstate s.ex.desc = some cw ∧ cw.ok = true := by
  unfold SeqOk at h
  rcases hs with hs | hs | hs | hs <;> rw [hs] at h
  · obtain ⟨r, h1, h2⟩ := h
    exact ⟨r, r.prog.core, h1, by simp [wordOf, hs], h2.core⟩
  · obtain ⟨r, h1, h2, h3⟩ := h
    obtain ⟨cw, d', g1, g2, -⟩ := gen_ok h3 s.cfg r.words
    exact ⟨r, cw, h1, by simp [wordOf, hs, g1], g2⟩
  · obtain ⟨r, h1, h2, h3⟩ := h
    obtain ⟨cw, d', g1, g2, -⟩ := gen_ok h3 s.cfg r.words
    exact ⟨r, cw, h1, by simp [wordOf, hs, g1], g2⟩
  · obtain ⟨r, h1, h2, h3⟩ := h
    obtain ⟨cw, d', g1, g2, -⟩ := gen_ok h3 s.cfg r.words
    exact ⟨r, cw, h1, by simp [wordOf, hs, g1], g2⟩

/-- `selectWord` starts the sequencer's word. -/
theorem selectWord_eq {s : State} {r : Record} {cw : ControlWord} (hcur : s.ex.cur = some r)
    (hw : wordOf s.cfg r s.ex.sstate s.ex.desc = some cw) (hok : cw.ok = true) :
    selectWord s = startedWord cw s := by
  have h1 : selectWord s = select s := by
    unfold wordOf at hw
    unfold select
    split at hw <;> first
      | (rename_i h; rw [h])
      | cases hw
  rw [h1, select_word hcur hw hok, startWord_ok hok]

theorem ToStart.started {s : State} (h : ToStart s) {r : Record} {cw : ControlWord}
    (hcur : s.ex.cur = some r) (hw : wordOf s.cfg r s.ex.sstate s.ex.desc = some cw) :
    ToRun (startedWord cw s) cw := by
  have hs : Sound (startedWord cw s) := by
    have h0 := h.sound
    have hseq : SeqOk (startedWord cw s).ex := by
      have := h0.seq
      unfold SeqOk at this ⊢
      unfold wordOf at hw
      have e1 : (startedWord cw s).ex.sstate = s.ex.sstate := rfl
      rw [e1]
      cases hst : s.ex.sstate <;> rw [hst] at this hw <;> simp only [reduceCtorEq] at hw this ⊢ <;> exact this
    exact ⟨h0.cfg, h0.mem, h0.port, h0.room, hseq,
      ⟨h0.dec.hand, h0.dec.counted, h0.dec.slot, h0.dec.pending, h0.dec.alone⟩, h0.once⟩
  refine ⟨hs, h.run, rfl, ⟨r, hcur, hw⟩, h.pend, h.br, ?_, (fun hv => by cases hv),
    frontOk_ex h.front _ s.ctl s.mar⟩
  simp only [startedWord]
  by_cases hm : cw.mem = .none
  · exact .inl (if_pos hm)
  · exact .inr (if_neg hm)

/-- Half1 from the state `select` leaves. -/
def afterSelect (s : State) : State :=
  if s.hasAborted then s
  else
    match s.ex.cw with
    | none => { s with ex := { s.ex with exWantsMem := false } }
    | some cw => if s.running then executeWord cw s else s

/-- A RUNNING machine has not aborted. -/
theorem not_aborted {s : State} (h : s.status = .running) : s.hasAborted = false := by
  simp [State.hasAborted, h]

theorem afterSelect_started {s : State} (h : ToStart s) {r : Record} {cw : ControlWord}
    (hcur : s.ex.cur = some r) (hw : wordOf s.cfg r s.ex.sstate s.ex.desc = some cw) :
    Stopped (afterSelect (startedWord cw s)) ∨ MidInv (afterSelect (startedWord cw s)) := by
  have hr := h.started hcur hw
  have : afterSelect (startedWord cw s) = executeWord cw (startedWord cw s) := by
    unfold afterSelect
    rw [if_neg (by simp [not_aborted hr.run]), hr.live]
    simp only
    rw [if_pos (running_of hr.run)]
  rw [this]
  exact executeWord_mid hr

theorem afterSelect_word {s : State} (h : ToStart s) (hs : s.ex.sstate = .coreOp ∨
    s.ex.sstate = .before ∨ s.ex.sstate = .after ∨ s.ex.sstate = .override) :
    Stopped (afterSelect (selectWord s)) ∨ MidInv (afterSelect (selectWord s)) := by
  obtain ⟨r, cw, h1, h2, h3⟩ := word_of_seq h.sound.seq hs
  rw [selectWord_eq h1 h2 h3]
  exact afterSelect_started h h1 h2

/-- No word: half1 does nothing more. -/
theorem afterSelect_none {s : State} (h : Sound s) (hr : s.status = .running) (hc : s.ex.cw = none)
    (hb : ∀ a, s.ex.brResolve ≠ some (.taken a)) (hf : s.frontOk = true) :
    MidInv (afterSelect s) := by
  have : afterSelect s = { s with ex := { s.ex with exWantsMem := false } } := by
    unfold afterSelect
    rw [if_neg (by simp [not_aborted hr]), hc]
  rw [this]
  exact ⟨h.ex _ rfl rfl rfl rfl rfl rfl, hr, fun cw hcw => by simp [hc] at hcw,
    fun cw hcw => by simp [hc] at hcw, hb, frontOk_ex hf _ s.ctl s.mar⟩

/-- A new place of the sequencer, with a record that holds the younger ones as long as it is a branch to
be resolved. -/
theorem ToStart.enter {s : State} (h : ToStart s) (E : ExecState) (rd : Bool) (L : List LogEntry)
    (h1 : SeqOk E) (h2 : E.exPending = none)
    (h3 : s.dec.branchPending = ((rd && s.slot.holds) || (E.holds || E.brResolve.isSome)))
    (h4 : (E.holds || E.brResolve.isSome) = true → rd = false) (h5 : rd = true → s.ready = true)
    (h6 : E.brResolve.isSome = true → E.holds = false) :
    Sound { s with ready := rd, ex := E, log := L } ∧
      ({ s with ready := rd, ex := E, log := L } : State).frontOk = true := by
  have h0 := h.sound
  refine ⟨⟨h0.cfg, h0.mem, by simp only [h2]; rw [← h.pend]; exact h0.port, h0.room, h1,
    ⟨fun hr => h0.dec.hand (h5 hr), h0.dec.counted, fun hr => h0.dec.slot (h5 hr), h3, h4⟩, h6⟩, ?_⟩
  have hf := h.front
  rw [frontOk_iff] at hf ⊢
  obtain ⟨a, b, c, d, e⟩ := hf
  exact ⟨a, b, c, d, fun hr => e (h5 hr)⟩

theorem selectNext_mid {s : State} (h : ToStart s)
    (hh : s.ex.holds = false) :
    Stopped (afterSelect (selectNext s)) ∨ MidInv (afterSelect (selectNext s)) := by
  unfold selectNext
  cases hr : s.ready with
  | false =>
    simp only [Bool.false_eq_true, if_false]
    exact .inr (afterSelect_none h.sound h.run h.cw (by simp [h.br]) h.front)
  | true =>
    simp only [if_true]
    obtain ⟨ws, a, hslot⟩ := h.sound.dec.slot hr
    have hprog : ProgOk s.slot.prog := by rw [hslot]; exact decodeRecord_ok h.sound.cfg _ _
    have hbp : s.dec.branchPending = s.slot.holds := by
      have := h.sound.dec.pending
      rw [hr, hh, h.br] at this
      simpa using this
    have hplain : s.slot.isInvalid = true → s.slot.isBranch = false := by
      rw [hslot]
      exact invalid_plain _ _ _
    unfold selectEval
    cases hi : s.slot.isInvalid with
    | true =>
      simp only [if_true]
      have hholds : s.slot.holds = true := by simp [Record.holds, hi]
      unfold takeInvalidOpcode
      simp only
      split
      · -- halt
        left
        have hst : ∀ u : State, u.cfg = s.cfg → u.mem = s.mem →
            (∃ a w, u.status = .haltedInvalid a w) → u.ex.cw = none → Stopped (afterSelect u) := by
          rintro u u1 u2 ⟨a, w, u3⟩ u4
          unfold afterSelect
          rw [if_neg (by simp [State.hasAborted, u3]), u4]
          exact ⟨by simp only [u1]; exact h.sound.cfg, by simp only [u2]; exact h.sound.mem,
            by simp [u3], by simp [u3]⟩
        exact hst _ rfl rfl ⟨_, _, rfl⟩ h.cw
      · -- log and skip
        right
        simp only [h.br, Option.isSome_none, Bool.false_eq_true, if_false]
        obtain ⟨g1, g2⟩ := h.enter { s.ex with
          cur := some s.slot, sstate := .final, brResolve := some .notTaken } false
          (s.log ++ [⟨excInvalidOpcode, s.slot.instrAddr, s.slot.words.headD 0⟩])
          (by unfold SeqOk; exact h.cw) h.pend (by simp [hbp, hholds]) (by simp) (by simp)
          (fun _ => by simp [ExecState.holds])
        exact afterSelect_none g1 h.run h.cw (by simp) g2
      · -- trap
        rename_i v hv
        right
        have hb : (trapRecord s.slot v).isBranch = true := rfl
        have hst : (trapRecord s.slot v).prog.static = false := rfl
        obtain ⟨g1, g2⟩ := h.enter { s.ex with
          cur := some (trapRecord s.slot v), desc := (trapRecord s.slot v).prog.before
          sstate := .before } false s.log
          (by
            unfold SeqOk
            refine ⟨_, rfl, trapRecord_ok _ _, ?_⟩
            rcases (trapRecord_ok s.slot v).before with h | h
            · cases h
            · exact h) h.pend (by simp [ExecState.holds, hb, hst, hbp, hholds]) (by simp) (by simp) (by simp [h.br])
        exact afterSelect_none g1 h.run h.cw (by simp [h.br]) g2
    | false =>
      simp only [Bool.false_eq_true, if_false]
      have hholds : s.slot.holds = (s.slot.isBranch && !s.slot.prog.static) := by simp [Record.holds, hi]
      have hov : s.slot.prog.override.isNone = false → s.slot.holds = false := by
        intro hn
        rw [hholds]
        rcases hprog.plain with h' | h' | h'
        · rw [hn] at h'; cases h'
        · simp [Record.isBranch, h']
        · simp [h']
      split
      · rename_i hbf
        have hn : s.slot.prog.override.isNone = false := by simpa using hbf
        have hd : DescOk s.slot.prog.override := by
          rcases hprog.override with h' | h'
          · simp [h'] at hbf
          · exact h'
        obtain ⟨g1, g2⟩ := h.enter { s.ex with
          cur := some s.slot, desc := s.slot.prog.override, sstate := .override } false s.log
          (by unfold SeqOk; exact ⟨_, rfl, hprog, hd⟩) h.pend
          (by simp [ExecState.holds, hbp, hov hn, h.br]) (by simp) (by simp) (by simp [h.br])
        exact afterSelect_word ⟨g1, h.run, h.cw, h.pend, h.br, g2⟩ (.inr (.inr (.inr rfl)))
      split
      · rename_i hbf
        have hd : DescOk s.slot.prog.before := by
          rcases hprog.before with h' | h'
          · simp [h'] at hbf
          · exact h'
        obtain ⟨g1, g2⟩ := h.enter { s.ex with
          cur := some s.slot, desc := s.slot.prog.before, sstate := .before } false s.log
          (by unfold SeqOk; exact ⟨_, rfl, hprog, hd⟩) h.pend
          (by simp [ExecState.holds, hbp, hholds, h.br]) (by simp) (by simp) (by simp [h.br])
        exact afterSelect_word ⟨g1, h.run, h.cw, h.pend, h.br, g2⟩ (.inr (.inl rfl))
      · obtain ⟨g1, g2⟩ := h.enter { s.ex with cur := some s.slot, sstate := .coreOp } false s.log
          (by unfold SeqOk; exact ⟨_, rfl, hprog⟩) h.pend
          (by simp [ExecState.holds, hbp, hholds, h.br]) (by simp) (by simp) (by simp [h.br])
        exact afterSelect_word ⟨g1, h.run, h.cw, h.pend, h.br, g2⟩ (.inl rfl)

/-- Execute's half1 after MEM_WAIT (R272, R275). -/
theorem executeStart_mid {s : State} (h : Sound s) (hr : s.status = .running) (hd : Done s.cfg s.ex)
    (hb : s.ex.brResolve = none) (hf : s.frontOk = true) :
    Stopped (executeStart s) ∨ MidInv (executeStart s) := by
  unfold executeStart
  rw [if_pos (running_of hr)]
  cases hp : s.ex.exPending with
  | some p =>
    right
    simp only [Option.isSome_some, if_true]
    have hc : s.ex.cw = none := by
      cases hc : s.ex.cw with
      | none => rfl
      | some cw =>
        have := (hd cw hc).2.2
        rw [hp] at this
        cases this
    exact ⟨h.ex _ rfl rfl rfl rfl rfl rfl, hr, fun cw hcw => by simp [hc] at hcw,
      fun cw hcw => by simp [hc] at hcw, by simp [hb], frontOk_ex hf _ s.ctl s.mar⟩
  | none =>
    simp only [Option.isSome_none, Bool.false_eq_true, if_false]
    cases hc : s.ex.cw with
    | some cw =>
      obtain ⟨l1, l2, l3⟩ := hd cw hc
      have htr : ToRun s cw := ⟨h, hr, hc, l1.word, hp, hb, .inr l2, fun _ => ⟨l1.v1, l1.fl⟩, hf⟩
      simp only [Option.isNone_some, Bool.false_eq_true, if_false, hc]
      rw [if_neg (by simp [not_aborted hr]), if_pos (running_of hr)]
      exact executeWord_mid htr
    | none =>
      simp only [Option.isNone_none, if_true]
      have hts : ToStart s := ⟨h, hr, hc, hp, hb, hf⟩
      show Stopped (afterSelect (select s)) ∨ MidInv (afterSelect (select s))
      unfold select
      split
      · rename_i hst
        have hch : s.ex.holds = false := by
          unfold ExecState.holds
          split <;> simp [hst]
        have hpend := h.dec.pending
        rw [hch, hb] at hpend
        obtain ⟨g1, g2⟩ := hts.enter { s.ex with cur := none, sstate := .waitNext } s.ready s.log
          (by unfold SeqOk; exact hc) hp (by simpa [ExecState.holds, hb] using hpend) (by simp [ExecState.holds, hb]) id
          (by simp [hb])
        exact selectNext_mid ⟨g1, hr, hc, hp, hb, g2⟩ rfl
      · rename_i hst
        refine selectNext_mid hts ?_
        unfold ExecState.holds
        split <;> simp [hst]
      · rename_i hst
        have := h.seq
        unfold SeqOk at this
        rw [hst] at this
        exact this.elim
      · rename_i hst
        exact afterSelect_word hts (.inr (.inr (.inr hst)))
      · rename_i hst
        exact afterSelect_word hts (.inr (.inl hst))
      · rename_i hst
        exact afterSelect_word hts (.inr (.inr (.inl hst)))
      · rename_i hst
        exact afterSelect_word hts (.inl hst)

end Sys2Proof.Machine
end

