-- ==== Sys2Proof/Laws/InvTurn.lean ====
section
/-! SUPPORT. The invariant of the clock, through Execute's half2, a whole cycle, and a whole step. -/

namespace Sys2Proof.Machine

/-! ### Half2 -/

/-- The front end after half2: one unbroken run, or a taken branch is signalled. -/
def FrontDone (s : State) : Prop :=
  (s.frontOk = true ∧ ∀ a, s.ex.brResolve ≠ some (.taken a)) ∨
    (s.chained = true ∧ ∃ a, s.ex.brResolve = some (.taken a))

/-- What Execute's half2 leaves. -/
structure EndInv (s : State) : Prop where
  sound : Sound s
  run : s.status = .running
  done : Done s.cfg s.ex
  front : FrontDone s

theorem frontDone_ok {s : State} (h : s.frontOk = true) (hb : s.ex.brResolve = none) : FrontDone s :=
  .inl ⟨h, by simp [hb]⟩

/-- A change of the registers, F, MAR and MDR. -/
theorem Sound.regs {s : State} (h : Sound s) (R : Vector GReg 8) (F : Flags) (Ma Md : Latch) :
    Sound { s with regs := R, f := F, mar := Ma, mdr := Md } :=
  ⟨h.cfg, h.mem, h.port, h.room, h.seq,
    ⟨h.dec.hand, h.dec.counted, h.dec.slot, h.dec.pending, h.dec.alone⟩, h.once⟩

/-- The places of the sequencer in which a word is live (R272). -/
def InWord (st : SState) : Prop := st = .coreOp ∨ st = .before ∨ st = .after ∨ st = .override

/-- The sequencer's next place is in order (R273). -/
theorem seq_leave {c : Config} {e : ExecState} {r : Record} (h : SeqOk e) (hcur : e.cur = some r)
    (hs : InWord e.sstate) :
    ∃ nx, nextOf c r e.sstate e.desc = some nx ∧ SeqOk (e.leave nx.1 nx.2) ∧
      (e.sstate = .coreOp → (e.leave nx.1 nx.2).holds = false) ∧
      (e.sstate ≠ .coreOp → (e.leave nx.1 nx.2).holds = e.holds) := by
  unfold SeqOk at h
  rcases hs with hs | hs | hs | hs <;> rw [hs] at h
  · obtain ⟨r', h1, h2⟩ := h
    obtain rfl : r' = r := by rw [hcur] at h1; exact (Option.some.inj h1).symm
    rw [hs]
    simp only [nextOf]
    by_cases ha : r'.prog.after.isNone = true
    · refine ⟨_, rfl, ?_, fun _ => ?_, fun h => absurd rfl h⟩ <;>
        simp [ha, SeqOk, ExecState.leave, ExecState.holds, hcur]
    · have hd : DescOk r'.prog.after := h2.after.resolve_left ha
      refine ⟨_, rfl, ?_, fun _ => ?_, fun h => absurd rfl h⟩
      · simp only [ha, SeqOk, ExecState.leave]
        exact ⟨r', hcur, h2, hd⟩
      · simp [ha, ExecState.leave, ExecState.holds, hcur]
  · obtain ⟨r', h1, h2, h3⟩ := h
    obtain rfl : r' = r := by rw [hcur] at h1; exact (Option.some.inj h1).symm
    obtain ⟨cw, d', g1, g2, g3, g4⟩ := gen_ok h3 c r'.words
    rw [hs]
    simp only [nextOf, g1, Option.map_some]
    refine ⟨_, rfl, ?_, fun h => by simp at h, fun _ => ?_⟩
    · unfold afterChain
      cases hn : d'.isNone with
      | true =>
        simp only [if_true, SeqOk, ExecState.leave]
        exact ⟨r', hcur, h2⟩
      | false =>
        simp only [Bool.false_eq_true, if_false, SeqOk, ExecState.leave]
        refine ⟨r', hcur, h2, g4.resolve_left (by simp [hn])⟩
    · unfold afterChain
      simp only [ExecState.holds, ExecState.leave, hcur, hs]
      cases d'.isNone <;> rfl
  · obtain ⟨r', h1, h2, h3⟩ := h
    obtain rfl : r' = r := by rw [hcur] at h1; exact (Option.some.inj h1).symm
    obtain ⟨cw, d', g1, g2, g3, g4⟩ := gen_ok h3 c r'.words
    rw [hs]
    simp only [nextOf, g1, Option.map_some]
    refine ⟨_, rfl, ?_, fun h => by simp at h, fun _ => ?_⟩
    · unfold afterChain
      cases hn : d'.isNone with
      | true => simp only [if_true, SeqOk, ExecState.leave]
      | false =>
        simp only [Bool.false_eq_true, if_false, SeqOk, ExecState.leave]
        refine ⟨r', hcur, h2, g4.resolve_left (by simp [hn])⟩
    · unfold afterChain
      simp only [ExecState.holds, ExecState.leave, hcur, hs]
      cases d'.isNone <;> rfl
  · obtain ⟨r', h1, h2, h3⟩ := h
    obtain rfl : r' = r := by rw [hcur] at h1; exact (Option.some.inj h1).symm
    obtain ⟨cw, d', g1, g2, g3, g4⟩ := gen_ok h3 c r'.words
    rw [hs]
    simp only [nextOf, g1, Option.map_some]
    refine ⟨_, rfl, ?_, fun h => by simp at h, fun _ => ?_⟩
    · unfold afterChain
      cases hn : d'.isNone with
      | true => simp only [if_true, SeqOk, ExecState.leave]
      | false =>
        simp only [Bool.false_eq_true, if_false, SeqOk, ExecState.leave]
        refine ⟨r', hcur, h2, g4.resolve_left (by simp [hn])⟩
    · unfold afterChain
      simp only [ExecState.holds, ExecState.leave, hcur, hs]
      cases d'.isNone <;> rfl

theorem live_place {c : Config} {e : ExecState} {cw : ControlWord}
    (hl : LiveWord c e cw) : InWord e.sstate := by
  obtain ⟨r, -, hw⟩ := hl.word
  unfold wordOf at hw
  unfold InWord
  cases hs : e.sstate <;> simp only [hs, reduceCtorEq] at hw ⊢ <;> simp

theorem live_pc {c : Config} {e : ExecState} {cw : ControlWord} {r : Record} (h : SeqOk e)
    (hcur : e.cur = some r) (hw : wordOf c r e.sstate e.desc = some cw) :
    pcWriteOk cw r e.sstate = true := by
  unfold wordOf at hw
  unfold SeqOk at h
  cases hs : e.sstate <;> simp only [hs, reduceCtorEq] at hw h
  · obtain ⟨r', h1, h2, h3⟩ := h
    obtain ⟨cw', d', g1, g2, g3, g4⟩ := gen_ok h3 c r.words
    rw [g1] at hw
    simp only [Option.map_some, Option.some.injEq] at hw
    subst hw
    simp [pcWriteOk, g3]
  · obtain ⟨r', h1, h2, h3⟩ := h
    obtain ⟨cw', d', g1, g2, g3, g4⟩ := gen_ok h3 c r.words
    rw [g1] at hw
    simp only [Option.map_some, Option.some.injEq] at hw
    subst hw
    simp [pcWriteOk, g3]
  · obtain ⟨r', h1, h2⟩ := h
    obtain rfl : r' = r := by rw [hcur] at h1; exact (Option.some.inj h1).symm
    simp only [Option.some.injEq] at hw
    subst hw
    by_cases hp : r'.prog.core.dest = .pc
    · have := h2.pc hp
      simp only [pcWriteOk, Record.isBranch, this]
      simp
    · simp [pcWriteOk, hp]
  · obtain ⟨r', h1, h2, h3⟩ := h
    obtain ⟨cw', d', g1, g2, g3, g4⟩ := gen_ok h3 c r.words
    rw [g1] at hw
    simp only [Option.map_some, Option.some.injEq] at hw
    subst hw
    simp [pcWriteOk, g3]

theorem consume_unusable {s : State} {locs : List UnwrittenLoc} (h : ¬ Usable s.cfg locs) :
    ∃ l, s.consume locs = s.abort (.unwrittenRead l) := by
  unfold Usable at h
  unfold State.consume
  cases hc : s.cfg.unwrittenRead with
  | value => exact absurd (.inl hc) h
  | abort =>
    cases locs with
    | nil => exact absurd (.inr rfl) h
    | cons l ls => exact ⟨l, rfl⟩

/-- The commit of a live word (R283, R284, R290). -/
theorem commit_end {u : State} {cw : ControlWord} {r : Record} (fl : Flags) (out : AluOut)
    (h : Sound u) (hr : u.status = .running) (hcur : u.ex.cur = some r)
    (hw : wordOf u.cfg r u.ex.sstate u.ex.desc = some cw)
    (hp : InWord u.ex.sstate)
    (hb : u.ex.brResolve = none) (hf : u.frontOk = true) :
    Stopped (commit cw r fl out u) ∨ EndInv (commit cw r fl out u) := by
  obtain ⟨nx, n1, n2, n3, n4⟩ := seq_leave (c := u.cfg) h.seq hcur hp
  have hpend := h.dec.pending
  have halone := h.dec.alone
  rw [hb] at hpend halone
  simp only [Option.isSome_none, Bool.or_false] at hpend halone
  -- the commit when the branch's condition can be read
  have main : Usable u.cfg (branchLocs u.cfg r u.ex.sstate fl) → EndInv (commit cw r fl out u) := by
    intro hu
    rw [commit_eq hr hcur hb (live_pc h.seq hcur hw) n1 hu]
    obtain ⟨R, Fl, Ma, Md, hwr⟩ : ∃ R Fl Ma Md, writeLoc u r cw.dest out.result =
        { u with regs := R, f := Fl, mar := Ma, mdr := Md } := ⟨_, _, _, _, writeLoc_frame _ _ _ _⟩
    unfold committed
    simp only [hwr]
    by_cases hres : u.ex.sstate = .coreOp ∧ r.isBranch = true ∧ r.prog.static = false
    · -- a branch that Execute resolves
      have hch : u.ex.holds = true := by simp [ExecState.holds, hcur, hres.1, hres.2.1, hres.2.2]
      have hrd := halone hch
      have hbp : u.dec.branchPending = true := by rw [hpend, hch]; simp
      have hnew : ∀ (F : FetchState) (b : BrResolve) (f' : Flags), F.queue = u.fetch.queue →
          F.pf = u.fetch.pf → Sound { u with
            regs := R, mar := Ma, mdr := Md, f := f', fetch := F
            ex := { u.ex.leave nx.1 nx.2 with brResolve := some b } } := by
        intro F b f' f1 f2
        have hc0 : ExecState.holds { u.ex.leave nx.1 nx.2 with brResolve := some b } = false := n3 hres.1
        refine ⟨h.cfg, h.mem, by simp only [f2]; exact h.port, ?_, n2, ?_, fun _ => hc0⟩
        · have := h.room
          rw [roomy_iff] at this ⊢
          simpa only [FetchState.coming, f1, f2] using this
        · exact ⟨h.dec.hand, h.dec.counted, h.dec.slot, by simp [hbp], fun _ => hrd⟩
      unfold branchAsk
      rw [if_pos hres]
      by_cases hc : condHolds u.cfg.flagPos fl r.prog.pred = true
      · rw [if_pos hc]
        refine ⟨hnew _ _ _ rfl rfl, hr, fun cw' hcw => by simp [ExecState.leave] at hcw, .inr ⟨?_, _, rfl⟩⟩
        exact (frontOk_iff.1 hf).1
      · rw [if_neg hc]
        refine ⟨hnew _ _ _ rfl rfl, hr, fun cw' hcw => by simp [ExecState.leave] at hcw, .inl ⟨?_, by simp⟩⟩
        exact ((Keeps.of_same rfl rfl rfl rfl rfl : Keeps u _).front hf).1
    · -- no branch to resolve
      unfold branchAsk
      rw [if_neg hres]
      have hch : ExecState.holds { u.ex.leave nx.1 nx.2 with brResolve := none } = u.ex.holds := by
        by_cases hst : u.ex.sstate = .coreOp
        · have h0 : u.ex.holds = false := by
            unfold ExecState.holds
            rw [hcur]
            simp only [hst]
            cases hb1 : r.isBranch <;> cases hb2 : r.prog.static <;> simp_all
          rw [h0]
          exact n3 hst
        · exact n4 hst
      refine ⟨⟨h.cfg, h.mem, h.port, ?_, n2, ?_, by simp⟩, hr,
        fun cw' hcw => by simp [ExecState.leave] at hcw, frontDone_ok ?_ rfl⟩
      · have := h.room
        rw [roomy_iff] at this ⊢
        exact this
      · refine ⟨h.dec.hand, h.dec.counted, h.dec.slot, ?_, ?_⟩
        · simp only [hch, Option.isSome_none, Bool.or_false]
          exact hpend
        · simp only [hch, Option.isSome_none, Bool.or_false]
          exact halone
      · exact ((Keeps.of_same rfl rfl rfl rfl rfl : Keeps u _).front hf).1
  by_cases hu : Usable u.cfg (branchLocs u.cfg r u.ex.sstate fl)
  · exact .inr (main hu)
  · -- the condition's flag is unwritten
    left
    have hres : u.ex.sstate = .coreOp ∧ r.isBranch = true ∧ r.prog.static = false := by
      by_contra hres
      apply hu
      unfold branchLocs
      rw [if_neg hres]
      exact .inr rfl
    have hu' : ¬ Usable u.cfg (unwrittenCond u.cfg.flagPos fl r.prog.pred) := by
      unfold branchLocs at hu
      rwa [if_pos hres] at hu
    obtain ⟨R, Fl, Ma, Md, hwr⟩ : ∃ R Fl Ma Md, writeLoc u r cw.dest out.result =
        { u with regs := R, f := Fl, mar := Ma, mdr := Md } := ⟨_, _, _, _, writeLoc_frame _ _ _ _⟩
    unfold commit
    rw [if_pos (live_pc h.seq hcur hw)]
    simp only [hwr, hres.1, hres.2.1, and_self, if_true]
    have hab : ∀ v : State, v.cfg = u.cfg → ∃ l, resolveBranch r out.result fl v = v.abort (.unwrittenRead l) := by
      intro v hv
      unfold resolveBranch
      rw [if_neg (by simp [hres.2.2])]
      obtain ⟨l, e⟩ := consume_unusable (s := v) (locs := unwrittenCond v.cfg.flagPos fl r.prog.pred)
        (by rw [hv]; exact hu')
      rw [e]
      exact ⟨l, by simp [not_running_abort]⟩
    obtain ⟨l, hl⟩ := hab { u with
      regs := R, f := commitFlags u.cfg.flagPos cw.fmask out.flags Fl, mar := Ma, mdr := Md } rfl
    rw [hl]
    simp only [not_running_abort, Bool.false_eq_true, if_false]
    exact stopped_abort (by exact h.cfg) (by exact h.mem) l

/-- Execute's half2 (R284). -/
theorem executeHalf2_end {s : State} (h : MidInv s) :
    Stopped (executeHalf2 s) ∨ EndInv (executeHalf2 s) := by
  have hr := h.run
  unfold executeHalf2
  rw [if_pos (running_of hr)]
  cases hc : s.ex.cw with
  | none =>
    exact .inr ⟨h.sound, hr, fun cw hcw => by simp [hc] at hcw, .inl ⟨h.front, h.br⟩⟩
  | some cw =>
    obtain ⟨hl, hacc⟩ := h.mid cw hc
    have hb := h.quiet cw hc
    obtain ⟨v0, hv0⟩ := Option.isSome_iff_exists.1 hl.v0
    obtain ⟨v1, hv1⟩ := Option.isSome_iff_exists.1 hl.v1
    obtain ⟨fl, hfl⟩ := Option.isSome_iff_exists.1 hl.fl
    obtain ⟨r, hcur, hw⟩ := hl.word
    have hp := live_place hl
    rw [hv0, hv1, hfl]
    show Stopped (finishWord cw v0 v1 fl s) ∨ EndInv (finishWord cw v0 v1 fl s)
    -- the ALU result
    have hlatch : (∃ l, latchResult cw v0 v1 fl s = s.abort (.unwrittenRead l)) ∨
        ∃ (o : AluOut) (e : EState), latchResult cw v0 v1 fl s =
          { s with ex := { s.ex with res := some o, estate := e } } := by
      unfold latchResult
      split
      · rename_i hres
        obtain ⟨o, ho⟩ := Option.isSome_iff_exists.1 hres
        refine .inr ⟨o, s.ex.estate, ?_⟩
        rw [← ho]
      · rcases consume_cases s (aluUnwritten s.cfg cw fl) with e | ⟨l, e⟩
        · rw [e]
          simp only
          rw [if_pos (running_of hr)]
          exact .inr ⟨_, _, rfl⟩
        · rw [e]
          simp only [not_running_abort, Bool.false_eq_true, if_false]
          exact .inl ⟨l, rfl⟩
    unfold finishWord
    rcases hlatch with ⟨l, e⟩ | ⟨o, es, e⟩
    · rw [e]
      simp only [not_running_abort, Bool.false_eq_true, if_false]
      exact .inl (stopped_abort h.sound.cfg h.sound.mem l)
    · rw [e]
      simp only
      rw [if_pos (running_of (by exact hr))]
      -- the commit of a word whose access is done with
      have hcommit : ∀ u : State, Sound u → u.status = .running → u.ex.cur = some r →
          wordOf u.cfg r u.ex.sstate u.ex.desc = some cw →
          InWord u.ex.sstate →
          u.ex.brResolve = none → u.frontOk = true → u.ex.res = some o → u.ex.acc ≠ .toAssert →
          Stopped (commitUnlessBlocked cw fl u) ∨ EndInv (commitUnlessBlocked cw fl u) := by
        intro u u1 u2 u3 u4 u5 u6 u7 u8 u9
        have : commitUnlessBlocked cw fl u = commit cw r fl o u := by
          unfold commitUnlessBlocked
          rw [if_pos (by simp [running_of u2, u9]), u3, u8]
        rw [this]
        exact commit_end fl o u1 u2 u3 u4 u5 u6 u7
      -- a word that is still to assert its access
      have hblocked : ∀ u : State, Sound u → u.status = .running → LiveWord u.cfg u.ex cw →
          u.ex.cw = some cw → u.ex.brResolve = none → u.frontOk = true → u.ex.exPending = none →
          u.ex.acc = .toAssert → EndInv (commitUnlessBlocked cw fl u) := by
        intro u u1 u2 u3 u4 u5 u6 u7 u8
        have : commitUnlessBlocked cw fl u = u := by
          unfold commitUnlessBlocked
          rw [if_neg (by simp [u8])]
        rw [this]
        refine ⟨u1, u2, fun cw' hcw => ?_, frontDone_ok u6 u5⟩
        obtain rfl : cw' = cw := by rw [u4] at hcw; exact (Option.some.inj hcw).symm
        exact ⟨u3, u8, u7⟩
      have hs0 : ∀ e : EState, Sound { s with ex := { s.ex with res := some o, estate := e } } :=
        fun e => h.sound.ex _ rfl rfl rfl rfl rfl rfl
      have hf0 : ∀ e : EState, ({ s with ex := { s.ex with res := some o, estate := e } } : State).frontOk = true :=
        fun e => frontOk_ex h.front _ s.ctl s.mar
      have hl0 : ∀ e : EState, LiveWord s.cfg { s.ex with res := some o, estate := e } cw :=
        fun e => hl.ex rfl rfl rfl rfl rfl rfl
      -- an assert of half2
      have hassert : s.ex.acc = .toAssert → s.ex.exPending = none → ∀ (a : Addr),
          Stopped (commitUnlessBlocked cw fl (assertAccess cw a
            { s with ex := { s.ex with res := some o, estate := .memAssert2 } })) ∨
          EndInv (commitUnlessBlocked cw fl (assertAccess cw a
            { s with ex := { s.ex with res := some o, estate := .memAssert2 } })) := by
        intro hta hpn a
        rcases assertAccess_cases (u := { s with ex := { s.ex with res := some o, estate := .memAssert2 } })
          cw a hr h.sound.port hpn with ⟨l, ha⟩ | ha | ⟨C, M, p, ha1, ha2, ha⟩
        · rw [ha]
          left
          have : ∀ v : State, v.running = false → commitUnlessBlocked cw fl v = v := by
            intro v hv
            unfold commitUnlessBlocked
            rw [if_neg (by simp [hv])]
          rw [this _ (not_running_abort _ _)]
          exact stopped_abort (by exact h.sound.cfg) (by exact h.sound.mem) l
        · rw [ha]
          exact .inr (hblocked _ (hs0 _) hr (hl0 _) hc hb (hf0 _) hpn hta)
        · rw [ha]
          exact hcommit _ ((hs0 _).accept C M p ha1 ha2) hr hcur hw hp hb
            (frontOk_ex h.front _ C M) rfl (by simp)
      unfold assertHalf2
      by_cases hta : s.ex.acc = .toAssert
      · have hpn : s.ex.exPending = none := by
          rcases hacc with h' | ⟨-, h'⟩ | ⟨h', -⟩
          · rw [hta] at h'; cases h'
          · exact h'
          · rw [hta] at h'; cases h'
        rw [if_pos hta]
        split
        · exact hassert hta hpn _
        · exact hassert hta hpn _
        · exact .inr (hblocked _ (hs0 _) hr (hl0 _) hc hb (hf0 _) hpn hta)
      · rw [if_neg hta]
        exact hcommit _ (hs0 _) hr hcur hw hp hb (hf0 _) rfl hta

/-! ### A whole cycle -/

/-- What holds of a RUNNING machine at the cut, right after MEM_WAIT, but for `Asked`. -/
structure CutCore (s : State) : Prop where
  sound : Sound s
  run : s.status = .running
  done : Done s.cfg s.ex
  br : s.ex.brResolve = none
  front : s.frontOk = true
  port : s.ex.exPending = none → FreePort s.ctl s.fetch

/-- What holds of a RUNNING machine at the cut. -/
structure CutInv (s : State) : Prop extends CutCore s where
  asked : Asked s

theorem not_running {s : State} (h : s.status ≠ .running) : s.running = false := by
  simp [State.running, h]

/-- A machine that has stopped only ticks (R39, R288). -/
theorem stopped_rest {s : State} (h : Stopped s) :
    Stopped (half1Front (tick (executeHalf2 (decodeHalf2 (fetchHalf2 s))))) := by
  have h1 : fetchHalf2 s = s := by simp [fetchHalf2, not_running h.status]
  have h2 : decodeHalf2 s = s := by simp [decodeHalf2, not_running h.status]
  have h3 : executeHalf2 s = s := by simp [executeHalf2, not_running h.status]
  have hst : (tick s).status = s.status := by rw [tick_cases]
  have hcf : (tick s).cfg = s.cfg := by rw [tick_cases]
  have hn : (tick s).running = false := not_running (by rw [hst]; exact h.status)
  have h4 : half1Front (tick s) = tick s := by
    simp [half1Front, fetchHalf1, decodeHalf1, memWait, hn]
  rw [h1, h2, h3, h4]
  exact ⟨by rw [hcf]; exact h.cfg, wf_tick h.mem, by rw [hst]; exact h.status, by rw [hst]; exact h.lawful⟩

theorem stopped_tick {s : State} (h : Stopped s) : Stopped (half1Front (tick s)) := by
  have h1 : fetchHalf2 s = s := by simp [fetchHalf2, not_running h.status]
  have h2 : decodeHalf2 s = s := by simp [decodeHalf2, not_running h.status]
  have h3 : executeHalf2 s = s := by simp [executeHalf2, not_running h.status]
  have := stopped_rest h
  rwa [h1, h2, h3] at this

/-- MEM_WAIT (R276). -/
theorem sound_memWait {s : State} (h : Sound s) (hr : s.status = .running) (hd : Done s.cfg s.ex)
    (hl : ∀ d, s.ctl ≠ .latched d .fetch) :
    Sound (memWait s) ∧ (memWait s).status = .running ∧ Done (memWait s).cfg (memWait s).ex ∧
      (memWait s).ex.brResolve = s.ex.brResolve ∧
      ((memWait s).ex.exPending = none → FreePort (memWait s).ctl (memWait s).fetch) := by
  have hfree : ∀ c pf, PortInv c pf.isSome none → (∀ d, c ≠ .latched d .fetch) → c.owner ≠ some .execute →
      ∀ f : FetchState, f.pf = pf → FreePort c f := by
    rintro c pf (⟨h1, h2, -⟩ | ⟨⟨a, n, h1⟩ | ⟨d, h1⟩, h2, -⟩ | ⟨h1, -⟩) hn ho f rfl
    · exact .inl ⟨h1, by simpa using h2⟩
    · exact .inr ⟨a, n, h1, h2⟩
    · exact absurd h1 (hn d)
    · exact absurd h1 ho
  unfold memWait
  rw [if_pos (running_of hr)]
  cases hp : s.ex.exPending with
  | none =>
    refine ⟨h, hr, hd, rfl, fun _ => ?_⟩
    have hport := h.port
    rw [hp] at hport
    refine hfree _ _ hport hl (fun ho => ?_) _ rfl
    have := hport.exec ho
    cases this
  | some p =>
    have hport := h.port
    rw [hp] at hport
    have hcw : s.ex.cw = none := by
      cases hc : s.ex.cw with
      | none => rfl
      | some cw =>
        have := (hd cw hc).2.2
        rw [hp] at this
        cases this
    have hpf : s.fetch.pf = none := by
      rcases hport with ⟨-, -, h3⟩ | ⟨-, -, h3⟩ | ⟨-, h2, -⟩
      · cases h3
      · cases h3
      · simpa using h2
    dsimp only
    split
    · refine ⟨?_, hr, fun cw hc => by simp [hcw] at hc, rfl, fun _ => .inl ⟨rfl, hpf⟩⟩
      refine ⟨h.cfg, h.mem, .inl ⟨rfl, by simp [hpf], rfl⟩, h.room, h.seq, ?_, h.once⟩
      exact ⟨h.dec.hand, h.dec.counted, h.dec.slot, h.dec.pending, h.dec.alone⟩
    · exact ⟨h, hr, hd, rfl, fun he => by rw [hp] at he; cases he⟩

/-- From the end of half2 to the cut. -/
theorem settle_cut {s : State} (h : EndInv s) : CutCore (half1Front (tick s)) := by
  obtain ⟨t1, t2, t3, t4⟩ := sound_tick h.sound
  obtain ⟨f1, f2, f3, f4, f5⟩ := sound_fetchHalf1 t1 (t2.trans h.run)
  obtain ⟨d1, d2, d3, d4, d5, d6⟩ := sound_decodeHalf1 f1 f2
  have hex : (decodeHalf1 (fetchHalf1 (tick s))).ex = { s.ex with brResolve := none } := by
    rw [d3, f3, t3]
  have hdone : Done (decodeHalf1 (fetchHalf1 (tick s))).cfg (decodeHalf1 (fetchHalf1 (tick s))).ex := by
    rw [hex, d4, f4, t4]
    intro cw hcw
    obtain ⟨a, b⟩ := h.done cw hcw
    exact ⟨a.ex rfl rfl rfl rfl rfl rfl, b⟩
  obtain ⟨m1, m2, m3, m4, m5⟩ := sound_memWait d1 d2 hdone (by rw [d5]; exact f5)
  refine ⟨m1, m2, m3, ?_, ?_, m5⟩
  · show (memWait (decodeHalf1 (fetchHalf1 (tick s)))).ex.brResolve = none
    rw [m4, hex]
  · rcases h.front with ⟨hf, hb⟩ | ⟨hc, a, hb⟩
    · exact ((keeps_settle s hb).front hf).1
    · obtain ⟨g1, g2, g3⟩ := settle_taken s a h.run hb
      have hrd : (half1Front (tick s)).ready = false := by
        have hx := m1.dec.alone
        have hs := h.sound.dec.alone (by simp [hb])
        have e1 : ∀ u : State, (memWait u).ready = u.ready := by
          intro u; unfold memWait; repeat' split
          all_goals rfl
        have e2 : ∀ u : State, (decodeHalf1 u).ready = u.ready := by
          intro u; unfold decodeHalf1; repeat' split
          all_goals rfl
        have e3 : ∀ u : State, (fetchHalf1 u).ready = u.ready := by
          intro u; unfold fetchHalf1 fetchShift fetchCollect; repeat' split
          all_goals rfl
        have e4 : (tick s).ready = s.ready := by rw [tick_cases]
        unfold half1Front
        rw [e1, e2, e3, e4, hs]
      rw [frontOk_iff]
      refine ⟨g3 hc, .inr g1, ?_, .inl g1, fun h => by rw [hrd] at h; cases h⟩
      simp [g1, g2]

/-- A whole cycle keeps the invariant, or stops the machine. -/
theorem turn_core {s : State} (h : CutCore s) : Stopped (turn s) ∨ CutCore (turn s) ∧
    DecInv ((fetchHalf2 (executeStart s)).ex.holds || (fetchHalf2 (executeStart s)).ex.brResolve.isSome)
      (fetchHalf2 (executeStart s)) := by
  unfold turn
  rcases executeStart_mid h.sound h.run h.done h.br h.front with h1 | h1
  · exact .inl (stopped_rest h1)
  · obtain ⟨f1, f2, f3, f4, f5⟩ := sound_fetchHalf2 h1.sound h1.run
    obtain ⟨d1, d2, d3, d4⟩ := sound_decodeHalf2 f1 f2
    have hk := keeps_front2 (executeStart s) h1.run h1.sound.port.fetch h1.sound.dec.hand
    have hex : (decodeHalf2 (fetchHalf2 (executeStart s))).ex = (executeStart s).ex := d3.trans f3
    have hm : MidInv (decodeHalf2 (fetchHalf2 (executeStart s))) := by
      refine ⟨d1, d2, ?_, ?_, ?_, (hk.front h1.front).1⟩
      · rw [hex, d4, f4]; exact h1.mid
      · rw [hex]; exact h1.quiet
      · rw [hex]; exact h1.br
    rcases executeHalf2_end hm with h2 | h2
    · exact .inl (stopped_tick h2)
    · exact .inr ⟨settle_cut h2, f1.dec⟩

theorem turn_cut {s : State} (h : CutInv s) : Stopped (turn s) ∨ CutInv (turn s) := by
  rcases turn_core h.toCutCore with h1 | ⟨h1, h2⟩
  · exact .inl h1
  · exact .inr ⟨h1, asked_turn h.asked h2.hand⟩

/-! ### Whole steps -/

theorem stopped_runTurns {s : State} (h : Stopped s) (n : Nat) : runTurns n s = s := by
  cases n <;> simp [runTurns, not_running h.status]

theorem stopped_fillTurns {s : State} (h : Stopped s) (n : Nat) : fillTurns n s = s := by
  cases n <;> simp [fillTurns, not_running h.status]

/-- A finished machine is in order once it has passed through FINAL (R272). -/
theorem retire_cut {u : State} (h : CutInv u) (hf : u.finished = true) : CutInv u.retire := by
  simp only [State.finished, Bool.and_eq_true, beq_iff_eq, Option.isNone_iff_eq_none] at hf
  obtain ⟨⟨h1, h2⟩, h3⟩ := hf
  have hch : u.ex.holds = false := by
    unfold ExecState.holds
    split <;> simp [h1]
  have hch' : u.retire.ex.holds = false := rfl
  have hs := h.sound
  refine ⟨⟨⟨hs.cfg, hs.mem, hs.port, hs.room, ?_, ?_, fun _ => hch'⟩, h.run, ?_, h.br,
    ((retire_keeps u).front h.front).1, h.port⟩, h.asked.step ⟨rfl, rfl, rfl, rfl, .inl rfl⟩⟩
  · unfold SeqOk
    exact h2
  · have hd := hs.dec
    rw [hch] at hd
    rw [hch']
    exact ⟨hd.hand, hd.counted, hd.slot, hd.pending, hd.alone⟩
  · intro cw hcw
    have : u.ex.cw = some cw := hcw
    rw [h2] at this
    cases this

/-- Where a run of cycles ends. -/
theorem runTurns_cut (n : Nat) : ∀ {s : State}, CutInv s → Stopped (runTurns n s) ∨ CutInv (runTurns n s) := by
  induction n with
  | zero =>
    intro s h
    simp only [runTurns, running_of h.run, Bool.true_and]
    split
    · exact .inr (retire_cut h (by assumption))
    · exact .inr h
  | succ n ih =>
    intro s h
    simp only [runTurns, running_of h.run, Bool.not_true, Bool.false_eq_true, if_false]
    split
    · exact .inr (retire_cut h (by assumption))
    · rcases turn_cut h with h1 | h1
      · rw [stopped_runTurns h1]
        exact .inl h1
      · exact ih h1

/-- Where a fill ends. -/
theorem fillTurns_cut (n : Nat) : ∀ {s : State}, CutInv s → Stopped (fillTurns n s) ∨ CutInv (fillTurns n s) := by
  induction n with
  | zero => exact fun h => .inr h
  | succ n ih =>
    intro s h
    simp only [fillTurns, running_of h.run, Bool.not_true, Bool.false_or]
    split
    · exact .inr h
    · rcases turn_cut h with h1 | h1
      · rw [stopped_fillTurns h1]
        exact .inl h1
      · exact ih h1

/-! ### The order between two steps, and the invariant of the clock -/

theorem portOk_iff {s : State} : s.portOk = true ↔
    (s.ex.exPending = none ∧ FreePort s.ctl s.fetch) ∨
      (s.ex.exPending.isSome = true ∧ s.ctl.owner = some .execute ∧ s.fetch.pf = none) := by
  unfold State.portOk
  cases s.ex.exPending <;>
    simp [portFree_iff]

theorem progOk_of {e : ExecState} : e.progOk = true ↔ ∃ r, e.cur = some r ∧ ProgOk r.prog := by
  unfold ExecState.progOk
  cases e.cur <;> simp [progOk_iff]

theorem placed_iff {e : ExecState} : e.placed = true ↔ SeqOk e := by
  unfold ExecState.placed SeqOk
  cases e.sstate <;> simp only [Bool.and_eq_true, progOk_of, descOk_iff, Option.isNone_iff_eq_none,
    Bool.false_eq_true]
  all_goals exact ⟨fun ⟨⟨r, h1, h2⟩, h3⟩ => ⟨r, h1, h2, h3⟩, fun ⟨r, h1, h2, h3⟩ => ⟨⟨r, h1, h2⟩, h3⟩⟩

theorem wordOk_iff {s : State} : s.wordOk = true ↔ Done s.cfg s.ex := by
  unfold State.wordOk Done
  constructor
  · intro h cw hcw
    rw [hcw] at h
    cases hcur : s.ex.cur with
    | none => rw [hcur] at h; cases h
    | some r =>
      rw [hcur] at h
      simp only [Bool.and_eq_true, beq_iff_eq, Option.isNone_iff_eq_none] at h
      obtain ⟨⟨⟨⟨⟨h1, h2⟩, h3⟩, h4⟩, h5⟩, h6⟩ := h
      exact ⟨⟨⟨r, hcur, h1⟩, h2, h3, h4⟩, h5, h6⟩
  · intro h
    cases hcw : s.ex.cw with
    | none => rfl
    | some cw =>
      obtain ⟨⟨⟨r, h0, h1⟩, h2, h3, h4⟩, h5, h6⟩ := h cw hcw
      simp [h0, h1, h2, h3, h4, h5, h6]

/-- A RUNNING machine that keeps the clock's invariant is in order. -/
theorem CutInv.ordered {s : State} (h : CutInv s) : s.Ordered := by
  have hd := h.sound.dec
  rw [h.br] at hd
  simp only [Option.isSome_none, Bool.or_false] at hd
  refine ⟨h.front, h.sound.room, ?_, hd.counted, ?_, h.br, placed_iff.2 h.sound.seq, wordOk_iff.2 h.done,
    hd.pending, fun hr => ⟨hd.hand hr, ?_⟩, hd.slot⟩
  · have ha := h.asked
    unfold State.asked
    split
    · rename_i a n p hc hpf
      obtain ⟨q, h1, h2, h3⟩ := ha.busy a n hc
      obtain rfl : q = p := by rw [hpf] at h1; exact (Option.some.inj h1).symm
      simp [h2, h3]
    · rfl
  · rw [portOk_iff]
    cases hp : s.ex.exPending with
    | none => exact .inl ⟨rfl, h.port hp⟩
    | some p =>
      have hport := h.sound.port
      rw [hp] at hport
      rcases hport with ⟨-, -, h3⟩ | ⟨-, -, h3⟩ | ⟨h1, h2, -⟩
      · cases h3
      · cases h3
      · exact .inr ⟨rfl, h1, by simpa using h2⟩
  · cases hh : s.ex.holds with
    | false => rfl
    | true => rw [hd.alone hh] at hr; cases hr

/-- A machine in order keeps the clock's invariant. -/
theorem ordered_cut {s : State} (h : Inv s) (hr : s.status = .running) : CutInv s := by
  have ho := h.ordered hr
  have hport := portOk_iff.1 ho.port
  have hak := ho.asked
  unfold State.asked at hak
  have hd : DecInv (s.ex.holds || s.ex.brResolve.isSome) s := by
    rw [ho.resolved]
    simp only [Option.isSome_none, Bool.or_false]
    refine ⟨fun hr => (ho.hand hr).1, ho.counted, ho.slot, ho.pending, fun hx => ?_⟩
    cases hrd : s.ready with
    | false => rfl
    | true => rw [(ho.hand hrd).2] at hx; cases hx
  refine ⟨⟨⟨h.cfg, h.mem, ?_, ho.room, placed_iff.1 ho.placed, hd, by simp [ho.resolved]⟩, hr,
    wordOk_iff.1 ho.word, ho.resolved, ho.front, fun hp => ?_⟩, ?_⟩
  · rcases hport with ⟨h1, ⟨f1, f2⟩ | ⟨x, n, f1, f2⟩⟩ | ⟨h1, h2, h3⟩
    · exact .inl ⟨f1, by simp [f2], h1⟩
    · exact .inr (.inl ⟨.inl ⟨x, n, f1⟩, f2, h1⟩)
    · exact .inr (.inr ⟨h2, by simp [h3], h1⟩)
  · rcases hport with ⟨-, h2⟩ | ⟨h1, -⟩
    · exact h2
    · rw [hp] at h1; cases h1
  · rcases hport with ⟨h1, ⟨f1, f2⟩ | ⟨x, n, f1, f2⟩⟩ | ⟨h1, h2, h3⟩
    · exact ⟨by simp [f1], by simp [f1], by simp [f1]⟩
    · obtain ⟨p, hp⟩ := Option.isSome_iff_exists.1 f2
      rw [f1, hp] at hak
      simp only [Bool.and_eq_true, beq_iff_eq] at hak
      refine ⟨fun a' n' he => ?_, by simp [f1], by simp [f1]⟩
      rw [f1] at he
      simp only [Ctl.readBusy.injEq, and_true] at he
      exact ⟨p, hp, by rw [← hak.1]; exact he.1, by rw [← he.2]; exact hak.2⟩
    · refine ⟨fun a n he => ?_, fun d he => ?_, fun a n v he => ?_⟩ <;>
        rw [he] at h2 <;> cases h2

theorem stopped_inv {t : State} (h : Stopped t) : Inv t :=
  ⟨h.cfg, h.mem, h.lawful, fun hr => absurd hr h.status⟩

theorem cut_inv {t : State} (h : CutInv t) : Inv t :=
  ⟨h.sound.cfg, h.sound.mem, (fun a ha => by rw [h.run] at ha; cases ha), fun _ => h.ordered⟩

/-- A run of cycles keeps the invariant. -/
theorem runTurns_inv {s : State} (h : CutInv s) (n : Nat) : Inv (runTurns n s) :=
  (runTurns_cut n h).elim stopped_inv cut_inv

/-! ### Whole steps -/

/-- A record taken from the slot at the cut. -/
theorem taken_cut {s : State} {r : Record} (h : CutInv s) (hb : s.atBoundary = true)
    (hrd : s.ready = true) (hr : r.isInvalid = false) (hp : ProgOk r.prog) (hh : r.holds = s.slot.holds) :
    CutInv (taken s r (entry s r).1 (entry s r).2) := by
  obtain ⟨h1, h2⟩ := (boundary_iff s).1 hb
  obtain ⟨a, b, c, d, e, f⟩ := (idle_iff s).1 h1
  have hch0 : s.ex.holds = false := by
    unfold ExecState.holds
    split <;> simp [b]
  have hbp : s.dec.branchPending = r.holds := by
    have := h.sound.dec.pending
    rw [hch0, e, hrd] at this
    rw [hh]
    simpa using this
  have hent : ((entry s r).1 = .coreOp ∨ (entry s r).1 = .before) ∧
      SeqOk (taken s r (entry s r).1 (entry s r).2).ex := by
    unfold entry
    by_cases hn : r.prog.before.isNone = true
    · rw [if_pos hn]
      exact ⟨.inl rfl, by unfold SeqOk; exact ⟨r, rfl, hp⟩⟩
    · rw [if_neg hn]
      refine ⟨.inr rfl, ?_⟩
      unfold SeqOk
      exact ⟨r, rfl, hp, hp.before.resolve_left hn⟩
  have hch : (taken s r (entry s r).1 (entry s r).2).ex.holds = r.holds := by
    simp only [ExecState.holds, taken, Record.holds, hr, Bool.or_false]
    rcases hent.1 with h | h <;> rw [h] <;> simp
  have hfr := h.front
  refine ⟨⟨⟨h.sound.cfg, h.sound.mem, h.sound.port, h.sound.room, hent.2, ?_, ?_⟩, a, ?_, e, ?_,
    fun _ => f⟩, h.asked.step ⟨rfl, rfl, rfl, rfl, .inl rfl⟩⟩
  · refine ⟨fun hx => by simp [taken] at hx, h.sound.dec.counted, fun hx => by simp [taken] at hx, ?_,
      fun _ => rfl⟩
    rw [hch]
    simp [taken, hbp, e]
  · intro hx
    have : (taken s r (entry s r).1 (entry s r).2).ex.brResolve = none := e
    rw [this] at hx
    cases hx
  · intro cw hcw
    have : (taken s r (entry s r).1 (entry s r).2).ex.cw = none := c
    rw [this] at hcw
    cases hcw
  · rw [frontOk_iff] at hfr ⊢
    obtain ⟨a, b, c, d, e⟩ := hfr
    exact ⟨a, b, c, d, fun hx => by simp [taken] at hx⟩

theorem exec_program (i : Instr) (s : State) : exec i s = runProgram i (programOf s.cfg i) s := by
  cases i <;> rfl

/-- Execute waits for an instruction throughout a fill. -/
structure Waits (s : State) : Prop where
  st : s.ex.sstate = .waitNext
  cw : s.ex.cw = none
  pend : s.ex.exPending = none

/-- A cycle in which Execute has no record to take (R272). -/
theorem executeStart_waits {s : State} (hr : s.status = .running) (h : Waits s) (hrd : s.ready = false) :
    executeStart s = { s with ex := { s.ex with exWantsMem := false } } := by
  have hsel : select s = s := by
    simp only [select, h.st, selectNext, hrd, Bool.false_eq_true, if_false]
  unfold executeStart
  rw [if_pos (running_of hr)]
  simp only [h.pend, Option.isSome_none, Bool.false_eq_true, if_false, h.cw, Option.isNone_none, if_true,
    hsel, not_aborted hr]

theorem executeHalf2_waits {s : State} (h : s.ex.cw = none) : executeHalf2 s = s := by
  unfold executeHalf2
  split
  · rw [h]
  · rfl

/-- Such a cycle, as the front end's half-steps and the tick. -/
theorem turn_waits {s : State} (h : CutInv s) (hw : Waits s) (hrd : s.ready = false) :
    turn s = half1Front (tick (decodeHalf2 (fetchHalf2 { s with ex := { s.ex with exWantsMem := false } }))) ∧
      Waits (turn s) := by
  have hs := executeStart_waits h.run hw hrd
  obtain ⟨f1, f2, f3, -, -⟩ := sound_fetchHalf2 (h.sound.ex { s.ex with exWantsMem := false } rfl rfl rfl rfl rfl rfl)
    h.run
  obtain ⟨d1, d2, d3, -⟩ := sound_decodeHalf2 f1 f2
  have hex := d3.trans f3
  have ht : turn s = half1Front (tick (decodeHalf2 (fetchHalf2
      { s with ex := { s.ex with exWantsMem := false } }))) := by
    unfold turn
    rw [hs, executeHalf2_waits]
    rw [hex]
    exact hw.cw
  refine ⟨ht, ?_⟩
  rw [ht]
  obtain ⟨t1, t2, t3, -⟩ := sound_tick d1
  obtain ⟨g1, g2, g3, -, -⟩ := sound_fetchHalf1 t1 (t2.trans d2)
  obtain ⟨k1, k2, k3, -, -, -⟩ := sound_decodeHalf1 g1 g2
  have hex' : (decodeHalf1 (fetchHalf1 (tick (decodeHalf2 (fetchHalf2
      { s with ex := { s.ex with exWantsMem := false } }))))).ex =
      { s.ex with exWantsMem := false, brResolve := none } := by
    rw [k3, g3, t3, hex]
  have hm : memWait (decodeHalf1 (fetchHalf1 (tick (decodeHalf2 (fetchHalf2
      { s with ex := { s.ex with exWantsMem := false } }))))) =
      decodeHalf1 (fetchHalf1 (tick (decodeHalf2 (fetchHalf2
      { s with ex := { s.ex with exWantsMem := false } })))) := by
    unfold memWait
    split
    · rw [hex']
      simp only [hw.pend]
    · rfl
  unfold half1Front
  rw [hm]
  exact ⟨by rw [hex']; exact hw.st, by rw [hex']; exact hw.cw, by rw [hex']; exact hw.pend⟩

/-- A fill of a waiting machine leaves it waiting. -/
theorem fillTurns_waits (n : Nat) : ∀ {s : State}, CutInv s → Waits s →
    Stopped (fillTurns n s) ∨ (CutInv (fillTurns n s) ∧ Waits (fillTurns n s)) := by
  induction n with
  | zero => exact fun h hw => .inr ⟨h, hw⟩
  | succ n ih =>
    intro s h hw
    simp only [fillTurns, running_of h.run, Bool.not_true, Bool.false_or]
    split
    · exact .inr ⟨h, hw⟩
    · rename_i hrd
      rcases turn_cut h with h1 | h1
      · rw [stopped_fillTurns h1]
        exact .inl h1
      · exact ih h1 (turn_waits h hw (by simpa using hrd)).2

theorem waits_boundary {s : State} (h : CutInv s) (hw : Waits s) (hrd : s.ready = true) :
    s.atBoundary = true := by
  rw [boundary_iff, idle_iff]
  exact ⟨⟨h.run, hw.st, hw.cw, hw.pend, h.br, h.port hw.pend⟩, h.sound.dec.hand hrd⟩

/-- Running the record in the slot. -/
theorem runSlot_inv {s t : State} (h : CutInv s) (hw : Waits s) (hrd : s.ready = true)
    (ht : runSlot s = .next t) : Inv t := by
  have hbd := waits_boundary h hw hrd
  obtain ⟨ws, a, hslot⟩ := h.sound.dec.slot hrd
  unfold runSlot at ht
  cases hc : s.slot.cls with
  | invalid b w =>
    rw [hc] at ht
    obtain rfl := Host.Outcome.next.inj ht
    exact runTurns_inv h _
  | row k =>
    rw [hc] at ht
    obtain rfl := Host.Outcome.next.inj ht
    exact runTurns_inv h _
  | instr i =>
    rw [hc] at ht
    simp only at ht
    rw [exec_program] at ht
    obtain ⟨p, hp, hpr⟩ : ∃ p, programOf s.cfg i = some p ∧ s.slot.prog = p := by
      rw [hslot] at hc ⊢
      rcases decodeRecord_cases s.cfg ws a with ⟨j, rest, p, -, -, hp, e⟩ | ⟨rows, row, k, -, -, e⟩ | e <;>
        rw [e] at hc ⊢
      · obtain rfl : j = i := by simpa [mkRecord] using hc
        exact ⟨p, hp, rfl⟩
      · cases hc
      · cases hc
    rw [hp] at ht
    unfold runProgram at ht
    rw [if_pos (running_of h.run)] at ht
    generalize hR : recordOf s.cfg i (some p) (s.wordsFor i) s.slot.instrAddr = r at ht
    have r1 : r.prog = p := by rw [← hR]; rfl
    have r2 : r.isInvalid = false := by rw [← hR]; rfl
    have hpo : ProgOk r.prog := by rw [r1]; exact programOf_ok hp
    have hov : r.prog.override.isNone = true := by rw [r1]; exact programOf_override hp
    have hsi : s.slot.isInvalid = false := by
      unfold Record.isInvalid
      rw [hc]
    have hh : r.holds = s.slot.holds := by
      simp only [Record.holds, Record.isBranch, r1, r2, hpr, hsi]
    have hcut := taken_cut h hbd hrd r2 hpo hh
    have hex := executeStart_taken hbd r r2 hov
    have hn : s.fuel = (s.draws.length + 63) + 1 := by unfold State.fuel; omega
    have hnf : ({ s with slot := r, ready := true } : State).finished = false := by
      simp [State.finished, hw.st]
    rw [hn, runTurns_succ (by exact h.run) hnf, turn_congr hex] at ht
    obtain rfl := Host.Outcome.next.inj ht
    rcases turn_cut hcut with h1 | h1
    · rw [stopped_runTurns h1]
      exact stopped_inv h1
    · exact runTurns_inv h1 _

end Sys2Proof.Machine
end

