-- ==== Sys2Proof/Laws/Fill.lean ====
section
/-! SUPPORT. The front end fills the slot: from any machine in order whose fetched words are current, the
record Decode publishes is the one of the instruction at the program counter, and nothing else changes
(spec/40_fetch.md R150, R152; spec/41_decode.md R174). -/

namespace Sys2Proof.Machine

theorem fresh_iff {s : State} : s.fresh = true ↔
    (∀ w, s.fetch.out = some w → w.word = s.wordAt w.addr) ∧
      (∀ w ∈ s.fetch.queue, w.word = s.wordAt w.addr) ∧
      s.dec.words = s.wordsFrom s.dec.words.length s.dec.iaddr ∧
      (s.ready = true → s.slot = decodeRecord s.cfg (s.instrWords s.slot.instrAddr) s.slot.instrAddr) := by
  unfold State.fresh
  simp only [Bool.and_eq_true, List.all_eq_true, Option.mem_toList, State.current, beq_iff_eq,
    Bool.or_eq_true, Bool.not_eq_true', and_assoc]
  have : ∀ P : Prop, (s.ready = false ∨ P) ↔ (s.ready = true → P) := by
    intro P
    cases s.ready <;> simp
  rw [this]

theorem wordAt_congr {s t : State} (h : t.load = s.load) (a : Addr) : t.wordAt a = s.wordAt a := by
  unfold State.wordAt
  rw [h]

theorem wordsFrom_congr {s t : State} (h1 : t.load = s.load) (h2 : t.cfg = s.cfg) (n : Nat) (a : Addr) :
    t.wordsFrom n a = s.wordsFrom n a := by
  induction n generalizing a with
  | zero => rfl
  | succ n ih => simp only [State.wordsFrom, wordAt_congr h1, h2, ih]

theorem instrWords_congr {s t : State} (h1 : t.load = s.load) (h2 : t.cfg = s.cfg) (a : Addr) :
    t.instrWords a = s.instrWords a := by
  unfold State.instrWords
  rw [wordsFrom_congr h1 h2, wordAt_congr h1, h2]

theorem wordsFrom_length (s : State) (n : Nat) (a : Addr) : (s.wordsFrom n a).length = n := by
  induction n generalizing a with
  | zero => rfl
  | succ n ih => simp [State.wordsFrom, ih]

theorem wordsFrom_succ (s : State) (n : Nat) (a : Addr) :
    s.wordsFrom (n + 1) a = s.wordsFrom n a ++ [s.wordAt (seqIter s.cfg.pcWrap n a)] := by
  induction n generalizing a with
  | zero => rfl
  | succ n ih =>
    rw [State.wordsFrom, ih]
    simp [State.wordsFrom, seqIter]

/-- `fresh` of a state with other fetch and decode fields over the same memory. -/
structure Fresh (s : State) : Prop where
  out : ∀ w, s.fetch.out = some w → w.word = s.wordAt w.addr
  queue : ∀ w ∈ s.fetch.queue, w.word = s.wordAt w.addr
  words : s.dec.words = s.wordsFrom s.dec.words.length s.dec.iaddr
  slot : s.ready = true → s.slot = decodeRecord s.cfg (s.instrWords s.slot.instrAddr) s.slot.instrAddr

theorem Fresh.iff {s : State} : s.fresh = true ↔ Fresh s := by
  rw [fresh_iff]
  exact ⟨fun ⟨a, b, c, d⟩ => ⟨a, b, c, d⟩, fun h => ⟨h.out, h.queue, h.words, h.slot⟩⟩

theorem Fresh.over {s t : State} (hm : t.load = s.load) (hc : t.cfg = s.cfg)
    (ho : ∀ w, t.fetch.out = some w → w.word = s.wordAt w.addr)
    (hq : ∀ w ∈ t.fetch.queue, w.word = s.wordAt w.addr)
    (hw : t.dec.words = s.wordsFrom t.dec.words.length t.dec.iaddr)
    (hs : t.ready = true →
      t.slot = decodeRecord s.cfg (s.instrWords t.slot.instrAddr) t.slot.instrAddr) : Fresh t := by
  refine ⟨fun w h => ?_, fun w h => ?_, ?_, fun hr => ?_⟩
  · rw [wordAt_congr hm]; exact ho w h
  · rw [wordAt_congr hm]; exact hq w h
  · rw [wordsFrom_congr hm hc]; exact hw
  · rw [instrWords_congr hm hc, hc]; exact hs hr

theorem Fresh.of {s t : State} (h : Fresh s) (hm : t.load = s.load) (hc : t.cfg = s.cfg)
    (ho : ∀ w, t.fetch.out = some w → s.fetch.out = some w)
    (hq : ∀ w ∈ t.fetch.queue, w ∈ s.fetch.queue) (h1 : t.dec.words = s.dec.words)
    (h2 : t.dec.iaddr = s.dec.iaddr) (h3 : t.ready = s.ready) (h4 : t.slot = s.slot) : Fresh t :=
  .over hm hc (fun w hw => h.out w (ho w hw)) (fun w hw => h.queue w (hq w hw))
    (by rw [h1, h2]; exact h.words) (fun hr => by rw [h4]; exact h.slot (h3 ▸ hr))

/-! ### Fetch -/

theorem fresh_fetchHalf2 {s : State} (h : Fresh s) : Fresh (fetchHalf2 s) := by
  have hre : ∀ u : State, Fresh u → Fresh (fetchRedirect u) := by
    intro u hu
    unfold fetchRedirect
    split
    · exact hu
    · exact hu.of rfl rfl (by simp) (by simp) rfl rfl rfl rfl
  have his : ∀ u : State, Fresh u → Fresh (fetchIssue u) := by
    intro u hu
    unfold fetchIssue
    split
    · unfold State.assertRead State.assertBusy
      cases hc : u.ctl with
      | ready => exact hu.of rfl rfl (by simp) (by simp) rfl rfl rfl rfl
      | _ =>
        dsimp only
        split
        · exact hu.of rfl rfl (fun _ h => h) (fun _ h => h) rfl rfl rfl rfl
        · exact hu
    · exact hu
  unfold fetchHalf2
  split
  · exact his _ (hre _ h)
  · exact h

theorem fresh_fetchHalf1 {s : State} (h : Fresh s) (ha : Asked s) : Fresh (fetchHalf1 s) := by
  have hsh : ∀ u : State, Fresh u → Fresh (fetchShift u) := by
    intro u hu
    unfold fetchShift
    split
    · rename_i w q h1 h2 h3
      refine .over (s := u) rfl rfl (fun w' hw' => ?_) (fun w' hw' => ?_) hu.words hu.slot
      · have : w = w' := by simpa using hw'
        subst this
        exact hu.queue w (by rw [h3]; simp)
      · exact hu.queue w' (by rw [h3]; exact List.mem_cons_of_mem _ hw')
    · exact hu
  unfold fetchHalf1
  split
  · apply hsh
    unfold fetchCollect
    split
    · exact h
    · rename_i p hp
      split
      · rename_i hd
        refine .over (s := s) rfl rfl h.out (fun w hw => ?_) h.words h.slot
        dsimp only at hw
        split at hw
        · exact h.queue w hw
        · rcases List.mem_append.1 hw with hw | hw
          · exact h.queue w hw
          · rw [List.mem_singleton] at hw
            subst hw
            unfold Ctl.dataReady at hd
            split at hd
            · rename_i d o hc
              have ho : o = .fetch := by
                cases o with
                | fetch => rfl
                | execute => cases hd
              subst ho
              obtain ⟨q, h1, h2⟩ := ha.latched d hc
              have : q = p := by
                have : some q = some p := h1.symm.trans hp
                exact Option.some.inj this
              subst this
              simp only [hc, h2, Ctl.latchedData]
              rfl
            · cases hd
      · exact h
  · exact h

/-! ### Decode -/

/-- DISPATCH with the words of the instruction. -/
theorem fresh_dispatch {s : State} {w : Word16} {ws : List Word16} (h : Fresh s) (hr : s.ready = false)
    (hw : s.dec.words = w :: ws) (hn : ws.length = s.cfg.nExt w) :
    Fresh (decDispatch s) := by
  have hlen : s.dec.words.length = 1 + s.cfg.nExt w := by
    rw [hw, ← hn, List.length_cons, Nat.add_comm]
  have hw0 : w = s.wordAt s.dec.iaddr := by
    have := h.words
    rw [hw] at this
    simp only [List.length_cons, State.wordsFrom, List.cons.injEq] at this
    exact this.1
  have hiw : s.dec.words = s.instrWords s.dec.iaddr := by
    rw [h.words, hlen]
    unfold State.instrWords
    rw [← hw0]
  unfold decDispatch
  dsimp only
  split
  · exact h.of rfl rfl (fun _ h => h) (fun _ h => h) rfl rfl rfl rfl
  · unfold publish
    simp only [hr, Bool.false_eq_true, if_false]
    have hia := (follow_decodeRecord s.cfg s.dec.words s.dec.iaddr _ rfl).1
    refine .over (s := s) rfl rfl ?_ ?_ rfl (fun _ => ?_)
    · dsimp only
      split <;> exact h.out
    · dsimp only
      split <;> exact h.queue
    · dsimp only
      rw [hia, ← hiw]

theorem fresh_decodeHalf2 {s : State} (h : Fresh s) (hc : s.counted = true)
    (hh : s.ready = true → s.dec.dstate = .waitForSlot) (hf : s.frontOk = true) :
    Fresh (decodeHalf2 s) := by
  have hopc : ∀ u : State, Fresh u → u.ready = false → Fresh (decOpcode u) := by
    intro u hu hr
    unfold decOpcode
    split
    · exact hu.of rfl rfl (fun _ h => h) (fun _ h => h) rfl rfl rfl rfl
    · rename_i v hv
      have hv' := hu.out v hv
      have hf : Fresh { u with
          fetch := { u.fetch with out := none }
          dec := { u.dec with
            iaddr := v.addr, words := [v.word], need := u.cfg.nExt v.word } } :=
        .over (s := u) rfl rfl (by simp) hu.queue
          (by simp only [List.length_singleton, State.wordsFrom]; rw [hv']) (fun h => by simp [hr] at h)
      dsimp only
      split
      · exact hf.of rfl rfl (fun _ h => h) (fun _ h => h) rfl rfl rfl rfl
      · rename_i hgt
        exact fresh_dispatch (w := v.word) (ws := []) hf hr rfl (by simp only [List.length_nil]; omega)
  have hopd : ∀ u : State, Fresh u → u.ready = false → u.counted = true →
      u.dec.dstate = .readOperands → u.frontOk = true → Fresh (decOperands u) := by
    intro u hu hr hcu hd hfu
    unfold State.counted at hcu
    rw [hd] at hcu
    cases hw : u.dec.words with
    | nil => rw [hw] at hcu; cases hcu
    | cons w ws =>
      rw [hw] at hcu
      simp only [Bool.and_eq_true, decide_eq_true_eq, beq_iff_eq] at hcu
      obtain ⟨h0, hn⟩ := hcu
      unfold decOperands
      split
      · exact hu.of rfl rfl (fun _ h => h) (fun _ h => h) rfl rfl rfl rfl
      · rename_i v hv
        have hv' := hu.out v hv
        have haddr : v.addr = seqIter u.cfg.pcWrap u.dec.words.length u.dec.iaddr := by
          have := (frontOk_iff.1 hfu).2.2.2.1
          rcases this with h | h
          · rw [hw] at h; cases h
          · rw [(held_take (p := u.cfg.pcWrap) hv).1] at h
            simpa using h
        have hf : Fresh { u with
            fetch := { u.fetch with out := none }
            dec := { u.dec with
              dstate := .readOperands, words := u.dec.words ++ [v.word], need := u.dec.need - 1 } } := by
          refine .over (s := u) rfl rfl (by simp) hu.queue ?_ (fun h => by simp [hr] at h)
          simp only [List.length_append, List.length_singleton]
          rw [wordsFrom_succ, ← hu.words, hv', haddr]
        dsimp only
        split
        · exact hf
        · rename_i hgt
          refine fresh_dispatch (w := w) (ws := ws ++ [v.word]) hf hr (by simp [hw]) ?_
          simp only [List.length_append, List.length_singleton]
          omega
  unfold decodeHalf2
  split
  · split
    · exact h
    · have hu : Fresh { s with dec := { s.dec with awaitRedirect := false } } :=
        h.of rfl rfl (fun _ h => h) (fun _ h => h) rfl rfl rfl rfl
      have hfu : ({ s with dec := { s.dec with awaitRedirect := false } } : State).frontOk = true := by
        rw [frontOk_iff] at hf ⊢
        exact hf
      unfold decRun
      cases hr : s.ready with
      | true =>
        have hd := hh hr
        simp only [hd, if_true]
        exact h.of rfl rfl (fun _ h => h) (fun _ h => h) rfl rfl hr.symm rfl
      | false =>
        split
        · simp only [Bool.false_eq_true, if_false]
          exact hopc _ (h.of rfl rfl (fun _ h => h) (fun _ h => h) rfl rfl hr.symm rfl) rfl
        · exact hopc _ (h.of rfl rfl (fun _ h => h) (fun _ h => h) rfl rfl hr.symm rfl) rfl
        · rename_i hd
          refine hopd _ (h.of rfl rfl (fun _ h => h) (fun _ h => h) rfl rfl hr.symm rfl) rfl hc hd ?_
          have : ({ s with ready := false } : State) = s := by rw [← hr]
          rw [frontOk_iff] at hf ⊢
          obtain ⟨a, b, c, d, e⟩ := hf
          exact ⟨a, b, c, d, by simp⟩
        · rename_i hd
          unfold State.counted at hc
          rw [show s.dec.dstate = .dispatch from hd] at hc
          cases hw : s.dec.words with
          | nil => rw [hw] at hc; cases hc
          | cons w ws =>
            rw [hw] at hc
            exact fresh_dispatch (w := w) (ws := ws)
              (h.of rfl rfl (fun _ h => h) (fun _ h => h) rfl rfl hr.symm rfl) rfl hw (by simpa using hc)
  · exact h

/-! ### Progress (R152) -/

/-- What the output latch and the prefetch still lack. -/
def lack (f : FetchState) : Nat :=
  match f.out, f.pf with
  | some _, _ => 0
  | none, some ⟨_, true⟩ => 2
  | none, _ => 1

theorem lack_le (f : FetchState) : lack f ≤ 2 := by
  unfold lack
  split <;> omega

/-- A bound of the cycles until a record is in the slot. -/
def toGo (s : State) : Nat :=
  s.draws.length + 3 * (6 - s.dec.words.length) + lack s.fetch + (if s.fetch.redir.isSome then 20 else 0)

/-- The tick and Fetch's half1, for an output latch that lacks a word. -/
theorem settle_lack {u : State} (hr : u.status = .running) (hre : u.fetch.redir = none)
    (hfa : u.fair = true) (hp : FreePort u.ctl u.fetch) :
    (fetchHalf1 (tick u)).fetch.redir = none ∧ (tick u).draws.length ≤ u.draws.length ∧
      (fetchHalf1 (tick u)).dec = u.dec ∧ (fetchHalf1 (tick u)).draws = (tick u).draws ∧
      (u.fetch.out.isSome = true → lack (fetchHalf1 (tick u)).fetch = 0) ∧
      (u.fetch.out = none → u.fetch.queue ≠ [] → lack (fetchHalf1 (tick u)).fetch = 0) ∧
      (u.fetch.out = none → u.fetch.queue = [] → u.fetch.pf.isSome = true →
        lack (fetchHalf1 (tick u)).fetch + (tick u).draws.length < lack u.fetch + u.draws.length) := by
  obtain ⟨F, hpf, hF⟩ : ∃ F : FetchState, u.fetch = F ∧ True := ⟨_, rfl, trivial⟩
  rcases hp with ⟨hc, hn⟩ | ⟨a, n, hc, hs⟩
  · have ht : tick u = u := by simp [tick, hc]
    rw [ht]
    have hcol : fetchCollect u = u := by
      unfold fetchCollect
      rw [hn]
    simp only [fetchHalf1, running_of hr, if_true, hcol, fetchShift, hre]
    cases ho : u.fetch.out with
    | some w => simp [lack, ho, hre]
    | none =>
      cases hq : u.fetch.queue with
      | nil => simp [hn, hre]
      | cons w q => simp [lack]
  · obtain ⟨p, hpf'⟩ := Option.isSome_iff_exists.1 hs
    have hd : (u.drawDone = true ∧ u.draws.tail.length ≤ u.draws.length) ∨
        (u.drawDone = false ∧ u.draws.tail.length < u.draws.length) := by
      unfold State.drawDone
      cases u.draws with
      | nil => exact .inl ⟨hfa, by simp⟩
      | cons d ds => cases d <;> simp
    rcases hd with ⟨hd, hl⟩ | ⟨hd, hl⟩
    · have ht : tick u = { u with
          ctl := .latched (some (u.load a n)) .fetch, draws := u.draws.tail } := by
        simp only [tick, hc, hd, if_true]
      rw [ht]
      simp only [fetchHalf1]
      rw [if_pos (running_of (by exact hr))]
      simp only [fetchCollect, hpf', Ctl.dataReady, beq_self_eq_true, if_true, fetchShift, hre]
      obtain ⟨pa, st⟩ := p
      cases ho : u.fetch.out with
      | some w => simp [lack, ho]
      | none =>
        cases hq : u.fetch.queue with
        | nil =>
          cases st
          · simp only [Bool.false_eq_true, if_false, List.nil_append]
            simp only [lack, ho, hpf']
            simp
            omega
          · simp only [if_true]
            simp only [lack, ho, hpf']
            simp
            omega
        | cons w q =>
          cases st
          · simp only [Bool.false_eq_true, if_false, List.cons_append]
            simp [lack]
          · simp only [if_true]
            simp [lack]
    · have ht : tick u = { u with draws := u.draws.tail } := by
        simp only [tick, hc, hd, Bool.false_eq_true, if_false]
      rw [ht]
      simp only [fetchHalf1]
      rw [if_pos (running_of (by exact hr))]
      simp only [fetchCollect, hpf', hc, Ctl.dataReady, Bool.false_eq_true, if_false, fetchShift, hre]
      cases ho : u.fetch.out with
      | some w => simp [lack, ho, hre]
      | none =>
        cases hq : u.fetch.queue with
        | nil => simp [hre]; omega
        | cons w q => simp [lack]

/-- What Decode's half2 does to a state with no redirect and no record held: it publishes, or it takes the
word of the output latch, or there is none. -/
theorem decode_progress {s : State} (hr : s.status = .running) (hrd : s.ready = false)
    (hv : s.cfg.valid = true) (hre : s.fetch.redir = none) (hc : s.counted = true)
    (hb : s.dec.branchPending = false) :
    (decodeHalf2 s).ready = true ∨
      ((decodeHalf2 s).fetch.redir = none ∧
        ((s.fetch.out.isSome = true ∧ (decodeHalf2 s).dec.words.length = s.dec.words.length + 1 ∧
            s.dec.words.length < 5) ∨
          (s.fetch.out = none ∧ (decodeHalf2 s).dec.words = s.dec.words ∧
            (decodeHalf2 s).fetch = s.fetch))) := by
  have hdis : ∀ u : State, u.ready = false → u.dec.branchPending = false →
      (decDispatch u).ready = true := by
    intro u h1 h2
    unfold decDispatch publish
    simp [h1, h2]
  have hopc : ∀ u : State, u.ready = false → u.dec.branchPending = false → u.dec.words = [] →
      u.fetch.redir = none → (decOpcode u).ready = true ∨ ((decOpcode u).fetch.redir = none ∧
        ((u.fetch.out.isSome = true ∧ (decOpcode u).dec.words.length = u.dec.words.length + 1 ∧
            u.dec.words.length < 5) ∨
          (u.fetch.out = none ∧ (decOpcode u).dec.words = u.dec.words ∧
            (decOpcode u).fetch = u.fetch))) := by
    intro u h1 h2 h3 h4
    unfold decOpcode
    split
    · rename_i hn
      exact .inr ⟨h4, .inr ⟨hn, rfl, rfl⟩⟩
    · rename_i v hv
      dsimp only
      split
      · exact .inr ⟨h4, .inl ⟨by simp [hv], by simp [h3], by simp [h3]⟩⟩
      · exact .inl (hdis _ h1 h2)
  unfold decodeHalf2
  rw [if_pos (running_of hr)]
  simp only [hre, Option.isSome_none, Bool.and_false, Bool.false_eq_true, if_false]
  unfold decRun
  simp only [hrd, Bool.false_eq_true, if_false]
  split
  · rename_i hd
    exact hopc _ rfl hb (words_nil hc (.inl hd)) hre
  · rename_i hd
    exact hopc _ rfl hb (words_nil hc (.inr hd)) hre
  · rename_i hd
    unfold State.counted at hc
    rw [show s.dec.dstate = .readOperands from hd] at hc
    cases hw : s.dec.words with
    | nil => rw [hw] at hc; cases hc
    | cons w ws =>
      rw [hw] at hc
      simp only [Bool.and_eq_true, decide_eq_true_eq, beq_iff_eq] at hc
      have hle := nExt_le hv w
      unfold decOperands
      split
      · rename_i hn
        exact .inr ⟨hre, .inr ⟨hn, rfl, rfl⟩⟩
      · rename_i v hv
        dsimp only at hv ⊢
        split
        · refine .inr ⟨hre, .inl ⟨by simp [hv], by simp, ?_⟩⟩
          simp only [List.length_cons]
          omega
        · exact .inl (hdis _ rfl hb)
  · exact .inl (hdis _ rfl hb)

/-- Fetch's half2 without a redirect, while Execute waits: the output latch and the queue stay, and a
prefetch is outstanding when the queue is empty (R147, R148). -/
theorem issue_progress {s : State} (hr : s.status = .running) (hre : s.fetch.redir = none)
    (hp : FreePort s.ctl s.fetch) (hw : s.ex.exWantsMem = false) (hd : 1 ≤ s.cfg.fqDepth) :
    (fetchHalf2 s).fetch.out = s.fetch.out ∧ (fetchHalf2 s).fetch.queue = s.fetch.queue ∧
      (s.fetch.queue = [] → (fetchHalf2 s).fetch.pf.isSome = true) ∧
      lack (fetchHalf2 s).fetch = lack s.fetch := by
  have h0 : fetchRedirect s = s := by
    unfold fetchRedirect
    rw [hre]
  unfold fetchHalf2
  rw [if_pos (running_of hr), h0]
  unfold fetchIssue
  rcases hp with ⟨hc, hn⟩ | ⟨a, n, hc, hs⟩
  · simp only [hn, Option.isNone_none, hw, Bool.not_false, Bool.and_self, Bool.true_and,
      decide_eq_true_eq]
    split
    · simp only [State.assertRead, State.assertBusy, hc, if_true]
      refine ⟨trivial, trivial, by simp, ?_⟩
      unfold lack
      cases s.fetch.out <;> simp [hn]
    · rename_i hlt
      exact ⟨rfl, rfl, fun hq => absurd (by rw [hq]; exact hd) hlt, rfl⟩
  · obtain ⟨p, hpf⟩ := Option.isSome_iff_exists.1 hs
    simp only [hpf, Option.isNone_some, Bool.false_and, Bool.false_eq_true, if_false]
    simp

/-! ### A cycle of the fill -/

/-- A cycle in which Execute waits for a record. -/
theorem turn_fill {s : State} (h : CutInv s) (hw : Waits s) (hrd : s.ready = false) :
    turn s = fetchHalf1 (tick (decodeHalf2 (fetchHalf2
      { s with ex := { s.ex with exWantsMem := false } }))) := by
  rw [(turn_waits h hw hrd).1]
  unfold half1Front
  have hs := h.sound.ex { s.ex with exWantsMem := false } rfl rfl rfl rfl rfl rfl
  obtain ⟨f1, f2, f3, -, -⟩ := sound_fetchHalf2 hs h.run
  obtain ⟨d1, d2, d3, -⟩ := sound_decodeHalf2 f1 f2
  obtain ⟨t1, t2, t3, -⟩ := sound_tick d1
  obtain ⟨g1, g2, g3, -, -⟩ := sound_fetchHalf1 t1 (t2.trans d2)
  have hex := ((g3.trans t3).trans d3).trans f3
  generalize fetchHalf1 (tick (decodeHalf2 (fetchHalf2
    { s with ex := { s.ex with exWantsMem := false } }))) = u at hex g2 g1
  have hd : decodeHalf1 u = u := by
    unfold decodeHalf1
    rw [if_pos (running_of g2), hex]
    simp only [h.br]
  rw [hd]
  unfold memWait
  rw [if_pos (running_of g2), hex]
  simp only [hw.pend]

/-- A cycle of the fill changes nothing architectural, keeps the words current, and comes nearer to a record
in the slot. -/
theorem turn_progress {s : State} (h : CutInv s) (hw : Waits s) (hrd : s.ready = false) :
    CutInv (turn s) ∧ Waits (turn s) ∧ (turn s).arch = s.arch ∧ Keeps s (turn s) ∧
      (Fresh s → Fresh (turn s)) ∧
      (s.fair = true → (turn s).ready = true ∨ toGo (turn s) < toGo s) := by
  have ht := turn_fill h hw hrd
  have htw := (turn_waits h hw hrd)
  have huw := htw.2
  have hu := h.sound.ex { s.ex with exWantsMem := false } rfl rfl rfl rfl rfl rfl
  have hasku : Asked { s with ex := { s.ex with exWantsMem := false } } := h.asked.step ⟨rfl, rfl, rfl, rfl, .inl rfl⟩
  have hku : Keeps s { s with ex := { s.ex with exWantsMem := false } } := .of_same rfl rfl rfl rfl rfl
  generalize hU : ({ s with ex := { s.ex with exWantsMem := false } } : State) = u at *
  have ur : u.status = .running := by rw [← hU]; exact h.run
  have uw : u.ex.exWantsMem = false := by rw [← hU]
  have up : FreePort u.ctl u.fetch := by rw [← hU]; exact h.port hw.pend
  have up0 : u.ex.exPending = none := by rw [← hU]; exact hw.pend
  have ub : u.ex.brResolve = none := by rw [← hU]; exact h.br
  have urd : u.ready = false := by rw [← hU]; exact hrd
  have ua : u.arch = s.arch := by rw [← hU]; rfl
  have uf : u.fetch = s.fetch ∧ u.dec = s.dec ∧ u.draws = s.draws ∧ u.cfg = s.cfg ∧ u.mem = s.mem := by
    rw [← hU]; exact ⟨rfl, rfl, rfl, rfl, rfl⟩
  have ubp : u.dec.branchPending = false := by
    have := hu.dec.pending
    have hc : u.ex.holds = false := by
      rw [← hU]
      unfold ExecState.holds
      split <;> simp [hw.st]
    rw [hc, ub, urd] at this
    simpa using this
  obtain ⟨A1, A2, A3, A4, A5⟩ := sound_fetchHalf2 hu ur
  obtain ⟨B1, B2, B3, B4⟩ := sound_decodeHalf2 A1 A2
  obtain ⟨F, C, D, R, S, he, -, hhand, -, hport⟩ := front2_cases u ur hu.port.fetch hu.dec.hand
  have hport' : FreePort C F := by
    rcases hport with ⟨rfl, hpf⟩ | ⟨-, -, hpf, a, rfl⟩
    · rcases up with ⟨h1, h2⟩ | ⟨a, n, h1, h2⟩
      · refine .inl ⟨h1, ?_⟩
        rw [h2] at hpf
        simpa using hpf
      · exact .inr ⟨a, n, h1, hpf.trans h2⟩
    · exact .inr ⟨a, 2, rfl, hpf⟩
  have harch : (turn s).arch = s.arch := by
    rw [htw.1, he]
    obtain ⟨F', C', D', Dr, hs', -⟩ := settle_free
      { u with fetch := F, ctl := C, dec := D, ready := R, slot := S } ur up0 hport' hhand
    rw [hs']
    exact ua
  have hrun : (turn s).status = .running := by
    rw [(arch_all harch).2.2.2.2.2.2.2.1]
    exact h.run
  have hcut : CutInv (turn s) := (turn_cut h).resolve_left fun hs => hs.status hrun
  have hkeeps : Keeps s (turn s) := by
    rw [htw.1]
    refine (hku.trans (keeps_front2 u ur hu.port.fetch hu.dec.hand)).trans (keeps_settle _ ?_)
    intro a
    rw [B3, A3, ub]
    simp
  refine ⟨hcut, huw, harch, hkeeps, ?_, ?_⟩
  · intro hfr
    have fu : Fresh u := by
      rw [← hU]
      exact hfr.of rfl rfl (fun _ h => h) (fun _ h => h) rfl rfl rfl rfl
    have fa := fresh_fetchHalf2 fu
    have kA := (hku.trans (keeps_fetchHalf2 u hu.port.fetch)).front h.front
    have fb := fresh_decodeHalf2 fa A1.dec.counted A1.dec.hand kA.1
    have aB := (asked_fetchHalf2 hasku).step (ctl_decodeHalf2 _ A2 A1.dec.hand)
    have hmem : (tick (decodeHalf2 (fetchHalf2 u))).mem = (decodeHalf2 (fetchHalf2 u)).mem := by
      unfold tick
      split
      · split <;> rfl
      · rename_i a n v o hc
        have hcc : (decodeHalf2 (fetchHalf2 u)).ctl = C := by rw [he]
        rw [hcc] at hc
        rcases hport' with ⟨h1, -⟩ | ⟨x, m, h1, -⟩ <;> rw [h1] at hc <;> cases hc
      · rfl
    have hwr : (tick (decodeHalf2 (fetchHalf2 u))).writes = (decodeHalf2 (fetchHalf2 u)).writes := by
      unfold tick
      split
      · split <;> rfl
      · rename_i a n v o hc
        have hcc : (decodeHalf2 (fetchHalf2 u)).ctl = C := by rw [he]
        rw [hcc] at hc
        rcases hport' with ⟨h1, -⟩ | ⟨x, m, h1, -⟩ <;> rw [h1] at hc <;> cases hc
      · rfl
    have hcf : (tick (decodeHalf2 (fetchHalf2 u))).cfg = (decodeHalf2 (fetchHalf2 u)).cfg := by
      rw [tick_cases]
    have ft : Fresh (tick (decodeHalf2 (fetchHalf2 u))) := by
      have hti := tick_cases (decodeHalf2 (fetchHalf2 u))
      refine fb.of (State.load_congr hcf hmem hwr) ?_ ?_ ?_ ?_ ?_ ?_ ?_ <;> rw [hti] <;> first | rfl | exact fun _ h => h
    rw [ht]
    exact fresh_fetchHalf1 ft (asked_tick aB)
  · intro hfa
    rw [ht]
    have hfq : 1 ≤ u.cfg.fqDepth := by
      have := hu.cfg
      simp only [Config.valid, Bool.and_eq_true, decide_eq_true_eq] at this
      omega
    have ard : (fetchHalf2 u).ready = false := by
      obtain ⟨F, C, he, -⟩ := fetchHalf2_cases u ur hu.port.fetch
      rw [he]
      exact urd
    have adec : (fetchHalf2 u).dec = s.dec ∧ (fetchHalf2 u).draws = s.draws := by
      obtain ⟨F, C, he, -⟩ := fetchHalf2_cases u ur hu.port.fetch
      rw [he]
      exact ⟨uf.2.1, uf.2.2.1⟩
    have hbd : (decodeHalf2 (fetchHalf2 u)).draws = s.draws := by rw [he]; exact uf.2.2.1
    have hfB : (decodeHalf2 (fetchHalf2 u)).fair = true := by
      rw [he, ← hU]
      exact hfa
    have hpB : FreePort (decodeHalf2 (fetchHalf2 u)).ctl (decodeHalf2 (fetchHalf2 u)).fetch := by
      rw [he]; exact hport'
    have hrdD : (fetchHalf1 (tick (decodeHalf2 (fetchHalf2 u)))).ready =
        (decodeHalf2 (fetchHalf2 u)).ready := by
      have e3 : ∀ u : State, (fetchHalf1 u).ready = u.ready := by
        intro u; unfold fetchHalf1 fetchShift fetchCollect; repeat' split
        all_goals rfl
      rw [e3, tick_cases]
    rcases decode_progress A2 ard A1.cfg A5 A1.dec.counted (by rw [adec.1, ← uf.2.1]; exact ubp) with hp | ⟨hre, hp⟩
    · exact .inl (hrdD.trans hp)
    · refine .inr ?_
      obtain ⟨l1, l2, l3, l4, -, l6, l7⟩ := settle_lack (u := decodeHalf2 (fetchHalf2 u)) B2 hre hfB hpB
      rw [hbd] at l2 l7
      unfold toGo
      rw [l1, l3, l4]
      simp only [Option.isSome_none, Bool.false_eq_true, if_false, Nat.add_zero]
      have hle := lack_le (fetchHalf1 (tick (decodeHalf2 (fetchHalf2 u)))).fetch
      cases hsr : s.fetch.redir with
      | some r =>
        have hwn : s.dec.words = [] := by
          rcases (frontOk_iff.1 h.front).2.1 with h1 | h1
          · rw [hsr] at h1; cases h1
          · exact h1
        simp only [Option.isSome_some, if_true, hwn, List.length_nil]
        omega
      | none =>
        obtain ⟨i1, i2, i3, i4⟩ := issue_progress ur (uf.1 ▸ hsr) up uw hfq
        rw [uf.1] at i1 i2 i3 i4
        rw [adec.1] at hp
        simp only [Option.isSome_none, Bool.false_eq_true, if_false, Nat.add_zero]
        rcases hp with ⟨p1, p2, p3⟩ | ⟨p1, p2, p3⟩
        · omega
        · rw [p2]
          rw [p3] at l6 l7
          by_cases hq : (fetchHalf2 u).fetch.queue = []
          · have := l7 p1 hq (i3 (i2 ▸ hq))
            omega
          · have h0 := l6 p1 hq
            have h1 : lack s.fetch ≠ 0 := by
              rw [← i4]
              unfold lack
              rw [p1]
              split
              · rename_i hx; cases hx
              · omega
              · omega
            omega

/-- A fill of a waiting machine: nothing architectural changes, and unless the machine stops no consistency
violation is met. -/
theorem fillTurns_keeps : ∀ (n : Nat) (s : State), CutInv s → Waits s →
    CutInv (fillTurns n s) ∧ Waits (fillTurns n s) ∧ (fillTurns n s).arch = s.arch ∧
      Keeps s (fillTurns n s) ∧ (Fresh s → Fresh (fillTurns n s)) := by
  intro n
  induction n with
  | zero => exact fun s h hw => ⟨h, hw, rfl, .refl s, id⟩
  | succ n ih =>
    intro s h hw
    cases hrd : s.ready with
    | true =>
      have : fillTurns (n + 1) s = s := by simp [fillTurns, hrd]
      rw [this]
      exact ⟨h, hw, rfl, .refl s, id⟩
    | false =>
      obtain ⟨c1, c2, c3, c4, c5, -⟩ := turn_progress h hw hrd
      have hstep : fillTurns (n + 1) s = fillTurns n (turn s) := by
        simp [fillTurns, hrd, running_of h.run]
      rw [hstep]
      obtain ⟨t2, t3, t5, t6, t7⟩ := ih (turn s) c1 c2
      exact ⟨t2, t3, t5.trans c3, c4.trans t6, fun hf => t7 (c5 hf)⟩

/-- The front end fills the slot when the controller completes its accesses (R66): the record is the one of
the instruction at the program counter. -/
theorem fillTurns_fills : ∀ (n : Nat) (s : State), CutInv s → Waits s → s.fair = true → toGo s ≤ n →
    (fillTurns n s).ready = true := by
  intro n
  induction n with
  | zero =>
    intro s h hw hfa hn
    cases hrd : s.ready with
    | true => simp [fillTurns, hrd]
    | false =>
      exfalso
      have hc := h.sound.dec.counted
      have : s.dec.words.length < 6 := by
        unfold State.counted at hc
        split at hc
        · rename_i e; rw [e]; decide
        · rename_i e; rw [e]; decide
        · rename_i w ws _ e
          simp only [Bool.and_eq_true, decide_eq_true_eq, beq_iff_eq] at hc
          have := nExt_le h.sound.cfg w
          rw [e, List.length_cons]
          omega
        · rename_i w ws _ e
          simp only [beq_iff_eq] at hc
          have := nExt_le h.sound.cfg w
          rw [e, List.length_cons]
          omega
        · cases hc
      unfold toGo at hn
      omega
  | succ n ih =>
    intro s h hw hfa hn
    cases hrd : s.ready with
    | true => simp [fillTurns, hrd]
    | false =>
      obtain ⟨c1, c2, c3, c4, c5, c6⟩ := turn_progress h hw hrd
      have hstep : fillTurns (n + 1) s = fillTurns n (turn s) := by
        simp [fillTurns, hrd, running_of h.run]
      rw [hstep]
      rcases c6 hfa with c6 | c6
      · cases n <;> simp [fillTurns, c6]
      · exact ih (turn s) c1 c2 ((arch_all c3).2.2.2.2.2.2.2.2.2.1.trans hfa) (by omega)

theorem toGo_fuel (s : State) : toGo s ≤ s.fuel := by
  have := lack_le s.fetch
  unfold toGo State.fuel
  split <;> omega

end Sys2Proof.Machine
end

