-- ==== Sys2Proof/Laws/PerInstr.lean ====
section
/-! SUPPORT. The statements made for every instruction, one lemma a constructor: the decoder reads the words
of a well-formed instruction back as that instruction (spec/30_encoding.md R122 to R127). -/

namespace Sys2Proof.Laws.RoundTrip

/-- The words of `i`, whatever follows them, decode to `i` and leave what follows. -/
def Statement (i : Instr) : Prop :=
  wellFormed i = true → ∀ rest, decodeWords true (encode i ++ rest) = .ok (i, rest)

theorem addR (w : Width) (d s : Reg) : Statement (.addR w d s) :=
  fun _ rest => decode_aluR 0 w d s rest (by decide)

theorem addI (w : Width) (d : Reg) (v : Data) : Statement (.addI w d v) :=
  fun h rest => decode_aluI 0 w d v rest (by decide) h

theorem adcR (w : Width) (d s : Reg) : Statement (.adcR w d s) :=
  fun _ rest => decode_aluR 1 w d s rest (by decide)

theorem adcI (w : Width) (d : Reg) (v : Data) : Statement (.adcI w d v) :=
  fun h rest => decode_aluI 1 w d v rest (by decide) h

theorem subR (w : Width) (d s : Reg) : Statement (.subR w d s) :=
  fun _ rest => decode_aluR 2 w d s rest (by decide)

theorem subI (w : Width) (d : Reg) (v : Data) : Statement (.subI w d v) :=
  fun h rest => decode_aluI 2 w d v rest (by decide) h

theorem sbcR (w : Width) (d s : Reg) : Statement (.sbcR w d s) :=
  fun _ rest => decode_aluR 3 w d s rest (by decide)

theorem sbcI (w : Width) (d : Reg) (v : Data) : Statement (.sbcI w d v) :=
  fun h rest => decode_aluI 3 w d v rest (by decide) h

theorem andR (w : Width) (d s : Reg) : Statement (.andR w d s) :=
  fun _ rest => decode_aluR 4 w d s rest (by decide)

theorem andI (w : Width) (d : Reg) (v : Data) : Statement (.andI w d v) :=
  fun h rest => decode_aluI 4 w d v rest (by decide) h

theorem orR (w : Width) (d s : Reg) : Statement (.orR w d s) :=
  fun _ rest => decode_aluR 5 w d s rest (by decide)

theorem orI (w : Width) (d : Reg) (v : Data) : Statement (.orI w d v) :=
  fun h rest => decode_aluI 5 w d v rest (by decide) h

theorem xorR (w : Width) (d s : Reg) : Statement (.xorR w d s) :=
  fun _ rest => decode_aluR 6 w d s rest (by decide)

theorem xorI (w : Width) (d : Reg) (v : Data) : Statement (.xorI w d v) :=
  fun h rest => decode_aluI 6 w d v rest (by decide) h

theorem cmpR (w : Width) (d s : Reg) : Statement (.cmpR w d s) :=
  fun _ rest => decode_aluR 7 w d s rest (by decide)

theorem cmpI (w : Width) (d : Reg) (v : Data) : Statement (.cmpI w d v) :=
  fun h rest => decode_aluI 7 w d v rest (by decide) h

theorem ldRR (w : Width) (r s : Reg) : Statement (.ldRR w r s) := by
  intro _ rest
  have hs := s.isLt
  obtain ⟨f1, f2, f3, f4, f5, f6, f7⟩ := load_fields 0 w r (s.val * 8) (by omega) (by omega)
  rw [Nat.mul_div_cancel _ (by decide)] at f6
  rw [Nat.mul_mod_left] at f7
  simp [encode, decodeWords, f1, decodeLoad, f2, f3, f4, f6, f7, widthOf_code, regOf_val, bind, Except.bind, pure, Except.pure]

theorem ldRI (w : Width) (r : Reg) (v : Data) : Statement (.ldRI w r v) := by
  intro h rest
  obtain ⟨f1, f2, f3, f4, f5, f6, f7⟩ := load_fields 1 w r 0 (by omega) (by omega)
  have hv : immFits w v = true := h
  simp [encode, decodeWords, f1, decodeLoad, f2, f3, f4, f5, widthOf_code, regOf_val, bind, Except.bind, pure, Except.pure,
    immOf_words hv]

theorem ldRM (w : Width) (r : Reg) (rm : Rm) : Statement (.ldRM w r rm) := by
  intro h rest
  have hl := rmCode_lt rm
  obtain ⟨f1, f2, f3, f4, f5, f6, f7⟩ := load_fields 2 w r (rmCode rm) (by omega) (by omega)
  have hv : rm.fits w = true := h
  simp [encode, decodeWords, f1, decodeLoad, f2, f3, f4, f5, widthOf_code, regOf_val, bind, Except.bind, pure, Except.pure,
    rmOf_words hv]

theorem ldMR (w : Width) (r : Reg) (rm : Rm) : Statement (.ldMR w r rm) := by
  intro h rest
  have hl := rmCode_lt rm
  obtain ⟨f1, f2, f3, f4, f5, f6, f7⟩ := load_fields 3 w r (rmCode rm) (by omega) (by omega)
  have hv : rm.isImm = false := by simpa [wellFormed] using h
  simp [encode, decodeWords, f1, decodeLoad, f2, f3, f4, f5, widthOf_code, regOf_val, bind, Except.bind, pure, Except.pure,
    rmDest_words hv]

theorem jpAbs (cc : Cond) (a : Addr) : Statement (.jpAbs cc a) := by
  intro _ rest
  obtain ⟨f1, f2, f3, f4, f5, f6⟩ := branch_fields 0 cc 0 (by omega) (by omega)
  simp [encode, decodeWords, f1, decodeBranch, f2, f3, f4, condOf_code, bind, Except.bind, pure, Except.pure, word24_split]

theorem jrRel (cc : Cond) (d : Byte) : Statement (.jrRel cc d) := by
  intro _ rest
  obtain ⟨f1, f2, f3, f4, f5, f6⟩ := branch_fields 1 cc 0 (by omega) (by omega)
  have hd := ofNat16_8 d
  simp only [encode, List.cons_append, List.nil_append, decodeWords, f1, decodeBranch, f2, f3, f4,
    condOf_code, bind, Except.bind, pure, Except.pure, word1, hd]
  rfl

theorem jpReg (cc : Cond) (r : Reg) : Statement (.jpReg cc r) := by
  intro _ rest
  have hr := r.isLt
  obtain ⟨f1, f2, f3, f4, f5, f6⟩ := branch_fields 2 cc (r.val * 4) (by omega) (by omega)
  rw [Nat.mul_div_cancel _ (by decide)] at f5
  rw [Nat.mul_mod_left] at f6
  simp [encode, decodeWords, f1, decodeBranch, f2, f3, f5, f6, condOf_code, regOf_val, bind, Except.bind, pure, Except.pure]

theorem callAbs (a : Addr) : Statement (.callAbs a) := by
  intro _ rest
  obtain ⟨f1, f2, f3, f4, f5, f6⟩ := branch_fields 3 .t 0 (by omega) (by omega)
  simp [encode, decodeWords, f1, decodeBranch, f2, f3, f4, condCode, bind, Except.bind, pure, Except.pure, word24_split]

theorem retn : Statement .retn := by
  intro _ rest
  obtain ⟨f1, f2, f3, f4, f5, f6⟩ := branch_fields 4 .t 0 (by omega) (by omega)
  simp [encode, decodeWords, f1, decodeBranch, f2, f3, f4, condCode, pure, Except.pure]

theorem pushR (w : Width) (r : Reg) : Statement (.pushR w r) :=
  fun _ rest => decode_stack 0 w r rest (by decide)

theorem popR (w : Width) (r : Reg) : Statement (.popR w r) :=
  fun _ rest => decode_stack 1 w r rest (by decide)

theorem bitM (w : Width) (n : BitVec 5) (rm : Rm) : Statement (.bitM w n rm) := by
  intro h rest
  obtain ⟨f1, f2, f3, f4, f5⟩ := bit_fields 2 w rm (by omega)
  obtain ⟨hn, hv⟩ : bitInside w n = true ∧ rm.fits w = true := by simpa [wellFormed] using h
  have hb := bitNumber_word hn
  simp only [encode, encBit, List.cons_append, decodeWords, f1, if_true, decodeOther, f2, decodeBit, f3,
    widthOf_code, f5, bind, Except.bind, pure, Except.pure, ne_eq, not_true, if_false, word1, f4, rmOf_words hv, hb]

theorem setM (w : Width) (n : BitVec 5) (rm : Rm) : Statement (.setM w n rm) := by
  intro h rest
  obtain ⟨f1, f2, f3, f4, f5⟩ := bit_fields 3 w rm (by omega)
  obtain ⟨hn, hv⟩ : bitInside w n = true ∧ rm.isImm = false := by simpa [wellFormed] using h
  have hb := bitNumber_word hn
  simp only [encode, encBit, List.cons_append, decodeWords, f1, if_true, decodeOther, f2, decodeBit, f3,
    widthOf_code, f5, bind, Except.bind, pure, Except.pure, ne_eq, not_true, if_false, word1, f4, rmDest_words hv, hb]

theorem resM (w : Width) (n : BitVec 5) (rm : Rm) : Statement (.resM w n rm) := by
  intro h rest
  obtain ⟨f1, f2, f3, f4, f5⟩ := bit_fields 4 w rm (by omega)
  obtain ⟨hn, hv⟩ : bitInside w n = true ∧ rm.isImm = false := by simpa [wellFormed] using h
  have hb := bitNumber_word hn
  simp only [encode, encBit, List.cons_append, decodeWords, f1, if_true, decodeOther, f2, decodeBit, f3,
    widthOf_code, f5, bind, Except.bind, pure, Except.pure, ne_eq, not_true, if_false, word1, f4, rmDest_words hv, hb]

theorem shlR (w : Width) (r : Reg) : Statement (.shlR w r) :=
  fun _ rest => decode_shift 0 w r _ rest (by decide) rfl

theorem rlR (w : Width) (r : Reg) : Statement (.rlR w r) :=
  fun _ rest => decode_shift 1 w r _ rest (by decide) rfl

theorem rolR (w : Width) (r : Reg) : Statement (.rolR w r) :=
  fun _ rest => decode_shift 2 w r _ rest (by decide) rfl

theorem shrR (w : Width) (r : Reg) : Statement (.shrR w r) :=
  fun _ rest => decode_shift 3 w r _ rest (by decide) rfl

theorem sarR (w : Width) (r : Reg) : Statement (.sarR w r) :=
  fun _ rest => decode_shift 4 w r _ rest (by decide) rfl

theorem rrR (w : Width) (r : Reg) : Statement (.rrR w r) :=
  fun _ rest => decode_shift 5 w r _ rest (by decide) rfl

theorem rorR (w : Width) (r : Reg) : Statement (.rorR w r) :=
  fun _ rest => decode_shift 6 w r _ rest (by decide) rfl

theorem inR (r : Reg) (n : Byte) : Statement (.inR r n) := by
  intro _ rest
  obtain ⟨f1, f2, f3, f4⟩ := io_fields 6 r (by omega)
  have hd := ofNat16_8 n
  simp only [encode, encIo, List.cons_append, List.nil_append, decodeWords, f1, if_true, decodeOther, f2,
    f3, f4, bind, Except.bind, pure, Except.pure, ne_eq, not_true, if_false, word1, hd, regOf_val]

theorem outR (r : Reg) (n : Byte) : Statement (.outR r n) := by
  intro _ rest
  obtain ⟨f1, f2, f3, f4⟩ := io_fields 7 r (by omega)
  have hd := ofNat16_8 n
  simp only [encode, encIo, List.cons_append, List.nil_append, decodeWords, f1, if_true, decodeOther, f2,
    f3, f4, bind, Except.bind, pure, Except.pure, ne_eq, not_true, if_false, word1, hd, regOf_val]

theorem ldRF (r : Reg) : Statement (.ldRF r) := by
  intro _ rest
  have hr := r.isLt
  have f1 : fld (BitVec.ofNat 16 (0xA000 + r.val)) 13 3 = 5 := by rw [fld_ofNat _ _ _ (by omega)]; omega
  have f2 : fld (BitVec.ofNat 16 (0xA000 + r.val)) 3 9 = 0 := by rw [fld_ofNat _ _ _ (by omega)]; omega
  have f3 : fld (BitVec.ofNat 16 (0xA000 + r.val)) 12 1 = 0 := by rw [fld_ofNat _ _ _ (by omega)]; omega
  have f4 : fld (BitVec.ofNat 16 (0xA000 + r.val)) 0 3 = r.val := by rw [fld_ofNat _ _ _ (by omega)]; omega
  simp [encode, decodeWords, f1, decodeFlagMove, f2, f3, f4, regOf_val]

theorem ldFR (r : Reg) : Statement (.ldFR r) := by
  intro _ rest
  have hr := r.isLt
  have f1 : fld (BitVec.ofNat 16 (0xB000 + r.val)) 13 3 = 5 := by rw [fld_ofNat _ _ _ (by omega)]; omega
  have f2 : fld (BitVec.ofNat 16 (0xB000 + r.val)) 3 9 = 0 := by rw [fld_ofNat _ _ _ (by omega)]; omega
  have f3 : fld (BitVec.ofNat 16 (0xB000 + r.val)) 12 1 = 1 := by rw [fld_ofNat _ _ _ (by omega)]; omega
  have f4 : fld (BitVec.ofNat 16 (0xB000 + r.val)) 0 3 = r.val := by rw [fld_ofNat _ _ _ (by omega)]; omega
  simp [encode, decodeWords, f1, decodeFlagMove, f2, f3, f4, regOf_val]

end Sys2Proof.Laws.RoundTrip
end

