-- ==== Sys2Proof/Laws/Stall.lean ====
section
/-! SUPPORT. A machine whose access the Memory Controller never completes (R276, R411): Execute waits, and
every cycle leaves the access, the record and the architectural state as they are. -/

namespace Sys2Proof.Machine

/-- Execute waits for an access, and every draw to come is false; nothing it holds has changed since `u`. -/
structure Stuck (s u : State) : Prop where
  run : s.status = .running
  pend : s.ex.exPending.isSome = true
  cw : s.ex.cw = none
  ctl : (∃ a n, s.ctl = .readBusy a n .execute) ∨ ∃ a n v, s.ctl = .writeBusy a n v .execute
  draws : s.draws = []
  fair : s.fair = false
  pf : s.fetch.pf = none
  hand : s.ready = true → s.dec.dstate = .waitForSlot
  same : u.ex.exPending = s.ex.exPending ∧ u.ctl = s.ctl ∧ u.ex.cur = s.ex.cur ∧
    u.ex.sstate = s.ex.sstate ∧ s.arch = u.arch

theorem Stuck.not_ready {s u : State} (h : Stuck s u) (o : Owner) : s.ctl.dataReady o = false := by
  rcases h.ctl with ⟨a, n, hc⟩ | ⟨a, n, v, hc⟩ <;> simp [hc, Ctl.dataReady]

theorem Stuck.not_finished {s u : State} (h : Stuck s u) : s.finished = false := by
  obtain ⟨p, hp⟩ := Option.isSome_iff_exists.1 h.pend
  simp [State.finished, hp]

/-- MEM_WAIT collects nothing. -/
theorem Stuck.waits {s u : State} (h : Stuck s u) : Stuck (memWait s) u := by
  have : memWait s = s := by
    unfold memWait
    split
    · split
      · rfl
      · simp [h.not_ready]
    · rfl
  rw [this]
  exact h

/-- A draw that is false changes nothing when no draw is listed. -/
theorem tick_undone {s : State} (h1 : s.draws = []) (h2 : s.fair = false) : tick s = s := by
  have e1 : s.drawDone = false := by simp [State.drawDone, h1, h2]
  have e2 : ({ s with draws := s.draws.tail } : State) = s := by
    rw [h1]
    show ({ s with draws := [] } : State) = s
    rw [← h1]
  unfold tick
  split
  · rw [e1, if_neg (by simp), e2]
  · rw [e1, if_neg (by simp), e2]
  · rfl

/-- A cycle of a stuck machine. -/
theorem Stuck.turns {s u : State} (h : Stuck s u) : Stuck (turn s) u := by
  have hown : s.ctl.owner = some .execute := by
    rcases h.ctl with ⟨a, n, hc⟩ | ⟨a, n, v, hc⟩ <;> simp [hc, Ctl.owner]
  have e1 : executeStart s = { s with ex := { s.ex with exWantsMem := true, estate := .memWait } } := by
    unfold executeStart
    rw [if_pos (running_of h.run), if_pos h.pend]
  generalize hm : ({ s with ex := { s.ex with exWantsMem := true, estate := .memWait } } : State) = m at e1
  have m1 : m.status = .running := by rw [← hm]; exact h.run
  have m2 : m.ex.cw = none := by rw [← hm]; exact h.cw
  have m3 : m.ready = true → m.dec.dstate = .waitForSlot := by rw [← hm]; exact h.hand
  have mctl : m.ctl = s.ctl := by rw [← hm]
  have mdr : m.draws = [] := by rw [← hm]; exact h.draws
  have mfa : m.fair = false := by rw [← hm]; exact h.fair
  obtain ⟨F, C, D, R, S, he, -, hhand, -, hport⟩ := front2_cases m m1
    (fun hx => by rw [mctl, hown] at hx; cases hx) m3
  obtain ⟨rfl, hpf⟩ : C = s.ctl ∧ F.pf = none := by
    rcases hport with ⟨h1, h2⟩ | ⟨h1, -⟩
    · refine ⟨h1.trans mctl, ?_⟩
      rw [← hm] at h2
      simpa [h.pf] using h2
    · rw [← hm] at h1
      cases h1
  have ht : turn s = half1Front { m with fetch := F, ctl := s.ctl, dec := D, ready := R, slot := S } := by
    unfold turn
    rw [e1, he, executeHalf2_waits (s := { m with
        fetch := F, ctl := s.ctl, dec := D, ready := R, slot := S }) m2,
      tick_undone (s := { m with
        fetch := F, ctl := s.ctl, dec := D, ready := R, slot := S }) mdr mfa]
  rw [ht]
  obtain ⟨F', -, hF⟩ := fetchHalf1_cases { m with
    fetch := F, ctl := s.ctl, dec := D, ready := R, slot := S } m1
  rcases hF with ⟨h1, -, -, -⟩ | ⟨-, h2, h3⟩
  · simp [h.not_ready] at h1
  unfold half1Front
  rw [h3]
  obtain ⟨D', hd, h4, -⟩ := decodeHalf1_cases { m with
    fetch := F', ctl := s.ctl, dec := D, ready := R, slot := S } m1 hhand
  rw [hd]
  obtain ⟨g1, g2, g3, g4, g5⟩ := h.same
  refine Stuck.waits ⟨m1, by rw [← hm]; exact h.pend, m2, h.ctl, mdr, mfa, h2.trans hpf, h4,
    by rw [← hm]; exact g1, g2, by rw [← hm]; exact g3, by rw [← hm]; exact g4,
    by rw [← g5, ← hm]; rfl⟩

/-- A run of a stuck machine. -/
theorem Stuck.runs {s u : State} (h : Stuck s u) (n : Nat) : Stuck (runTurns n s) u := by
  induction n generalizing s with
  | zero => simpa [runTurns, h.not_finished] using h
  | succ n ih =>
    rw [runTurns_succ h.run h.not_finished]
    exact ih h.turns

end Sys2Proof.Machine
end

