-- ==== Sys2Proof/Tests/Slice0.lean ====
section
/-! SUPPORT. Tests: ill-formed terms that WellFormed refuses, words written out from the spec's encoding,
one step on small states with values from the spec's examples, and a witness for the hypotheses of every
obligation that has some. -/

namespace Sys2Proof.Tests

open Sys2Proof.Machine

/-! ### WellFormed refuses (R115, R213, R376) -/

theorem test_wf_immediates :
    [.addI .w8 0 0x100, .addI .w16 0 0x10000, .adcI .w8 0 0x100,
      .adcI .w16 0 0x10000, .subI .w8 0 0x100, .subI .w16 0 0x10000,
      .sbcI .w8 0 0x100, .sbcI .w16 0 0x10000, .andI .w8 0 0x100,
      .andI .w16 0 0x10000, .orI .w8 0 0x100, .orI .w16 0 0x10000,
      .xorI .w8 0 0x100, .xorI .w16 0 0x10000, .cmpI .w8 0 0x100,
      .cmpI .w16 0 0x10000, .ldRI .w8 0 0x100, .ldRI .w16 0 0x10000].all (fun i => !wellFormed i) = true := by decide

theorem test_wf_rm_immediates :
    [.ldRM .w8 0 (.imm 0x100), .ldRM .w16 0 (.imm 0x10000), .bitM .w8 0 (.imm 0x100),
      .bitM .w16 0 (.imm 0x10000)].all (fun i => !wellFormed i) = true := by decide

theorem test_wf_bit_number :
    [.bitM .w8 8 (.reg 0), .setM .w8 8 (.reg 0), .resM .w8 8 (.reg 0), .bitM .w16 16 (.reg 0),
      .setM .w16 16 (.reg 0), .resM .w16 16 (.reg 0), .bitM .w24 24 (.reg 0), .setM .w24 24 (.reg 0),
      .resM .w24 24 (.reg 0)].all (fun i => !wellFormed i) = true := by decide

theorem test_wf_destinations :
    [.ldMR .w8 0 (.imm 0), .setM .w8 0 (.imm 0), .resM .w8 0 (.imm 0)].all
      (fun i => !wellFormed i) = true := by decide

theorem test_wf_boundary :
    [.addI .w8 0 0xFF, .ldRI .w16 0 0xFFFF, .cmpI .w24 0 0xFFFFFF, .bitM .w8 7 (.imm 0xFF),
      .setM .w24 23 (.ind 0), .resM .w16 15 (.abs 0xFFFFFF)].all wellFormed = true := by decide

/-! ### Decoding: words written out field by field (R122 to R127) -/

/-- The words decode to the instruction, with nothing left, and it encodes to them. -/
def reads (ws : List Word16) (i : Instr) : Bool :=
  (match decodeWords true ws with
    | .ok (j, []) => j == i
    | _ => false) && encode i == ws

theorem test_decode_addR : reads [0b001_000_00_101_010_0_0]
    (.addR .w8 5 2) = true := by decide

theorem test_decode_addI : reads [0b001_000_00_101_000_1_0, 0x00A5]
    (.addI .w8 5 0xA5) = true := by decide

theorem test_decode_adcR : reads [0b001_001_01_110_011_0_0]
    (.adcR .w16 6 3) = true := by decide

theorem test_decode_adcI : reads [0b001_001_01_110_000_1_0, 0xBEEF]
    (.adcI .w16 6 0xBEEF) = true := by decide

theorem test_decode_subR : reads [0b001_010_10_001_111_0_0]
    (.subR .w24 1 7) = true := by decide

theorem test_decode_subI : reads [0b001_010_10_001_000_1_0, 0x5678, 0x0034]
    (.subI .w24 1 0x345678) = true := by decide

theorem test_decode_sbcR : reads [0b001_011_00_100_001_0_0]
    (.sbcR .w8 4 1) = true := by decide

theorem test_decode_sbcI : reads [0b001_011_00_100_000_1_0, 0x00A5]
    (.sbcI .w8 4 0xA5) = true := by decide

theorem test_decode_andR : reads [0b001_100_01_101_010_0_0]
    (.andR .w16 5 2) = true := by decide

theorem test_decode_andI : reads [0b001_100_01_101_000_1_0, 0xBEEF]
    (.andI .w16 5 0xBEEF) = true := by decide

theorem test_decode_orR : reads [0b001_101_10_110_011_0_0]
    (.orR .w24 6 3) = true := by decide

theorem test_decode_orI : reads [0b001_101_10_110_000_1_0, 0x5678, 0x0034]
    (.orI .w24 6 0x345678) = true := by decide

theorem test_decode_xorR : reads [0b001_110_00_001_111_0_0]
    (.xorR .w8 1 7) = true := by decide

theorem test_decode_xorI : reads [0b001_110_00_001_000_1_0, 0x00A5]
    (.xorI .w8 1 0xA5) = true := by decide

theorem test_decode_cmpR : reads [0b001_111_01_100_001_0_0]
    (.cmpR .w16 4 1) = true := by decide

theorem test_decode_cmpI : reads [0b001_111_01_100_000_1_0, 0xBEEF]
    (.cmpI .w16 4 0xBEEF) = true := by decide

theorem test_decode_ldRR : reads [0b010_00_01_110_011_000]
    (.ldRR .w16 6 3) = true := by decide

theorem test_decode_ldRI : reads [0b010_01_10_101_000000, 0x4321, 0x0065]
    (.ldRI .w24 5 0x654321) = true := by decide

/-- Every RM mode (R124). -/
theorem test_decode_ldRM :
    [([0b010_10_00_100_000_001], .reg 1),
      ([0b010_10_00_100_001_010], .ind 2),
      ([0b010_10_00_100_010_011], .postInc 3),
      ([0b010_10_00_100_011_100], .postDec 4),
      ([0b010_10_00_100_100_101], .preInc 5),
      ([0b010_10_00_100_101_110], .preDec 6),
      ([0b010_10_00_100_110_111, 0xFFFE], .disp 7 0xFFFE),
      ([0b010_10_00_100_111_000, 0x0080], .pc8 0x80),
      ([0b010_10_00_100_111_001, 0x8001], .pc16 0x8001),
      ([0b010_10_00_100_111_010, 0x3456, 0x0012], .pc24 0x123456),
      ([0b010_10_00_100_111_011, 0x4000, 0x0001], .abs 0x014000),
      ([0b010_10_00_100_111_100, 0x4000, 0b110_00000_00000001], .absIdx 0x014000 6),
      ([0b010_10_00_100_111_101, 0x0042], .imm 0x42)].all
      (fun p : List Word16 × Rm => reads p.1 (.ldRM .w8 4 p.2)) = true := by decide

theorem test_decode_ldMR : reads [0b010_11_10_010_101_111]
    (.ldMR .w24 2 (.preDec 7)) = true := by decide

theorem test_decode_jpAbs : reads [0b011_0000_0110_00000, 0x2345, 0x0001]
    (.jpAbs .ns 0x012345) = true := by decide

theorem test_decode_jrRel : reads [0b011_0001_1000_00000, 0x00FE]
    (.jrRel .nv 0xFE) = true := by decide

theorem test_decode_jpReg : reads [0b011_0010_0011_101_00]
    (.jpReg .c 5) = true := by decide

theorem test_decode_callAbs : reads [0b011_0011_0000_00000, 0x1000, 0x00AB]
    (.callAbs 0xAB1000) = true := by decide

theorem test_decode_retn : reads [0b011_0100_0000_00000]
    (.retn) = true := by decide

theorem test_decode_pushR : reads [0b100_000_01_011_00000]
    (.pushR .w16 3) = true := by decide

theorem test_decode_popR : reads [0b100_001_10_101_00000]
    (.popR .w24 5) = true := by decide

theorem test_decode_bitM : reads [0b100_010_00_000_110_00, 0x0005]
    (.bitM .w8 5 (.reg 6)) = true := by decide

theorem test_decode_setM : reads [0b100_011_01_001_010_00, 0x000F]
    (.setM .w16 15 (.ind 2)) = true := by decide

theorem test_decode_resM : reads [0b100_100_10_111_011_00, 0x0017, 0x4000, 0x0001]
    (.resM .w24 23 (.abs 0x014000)) = true := by decide

theorem test_decode_shlR : reads [0b100_101_01_110_000_00]
    (.shlR .w16 6) = true := by decide

theorem test_decode_rlR : reads [0b100_101_01_110_001_00]
    (.rlR .w16 6) = true := by decide

theorem test_decode_rolR : reads [0b100_101_01_110_010_00]
    (.rolR .w16 6) = true := by decide

theorem test_decode_shrR : reads [0b100_101_01_110_011_00]
    (.shrR .w16 6) = true := by decide

theorem test_decode_sarR : reads [0b100_101_01_110_100_00]
    (.sarR .w16 6) = true := by decide

theorem test_decode_rrR : reads [0b100_101_01_110_101_00]
    (.rrR .w16 6) = true := by decide

theorem test_decode_rorR : reads [0b100_101_01_110_110_00]
    (.rorR .w16 6) = true := by decide

theorem test_decode_inR : reads [0b100_110_001_0000000, 0x0010]
    (.inR 1 0x10) = true := by decide

theorem test_decode_outR : reads [0b100_111_110_0000000, 0x00FF]
    (.outR 6 0xFF) = true := by decide

theorem test_decode_ldRF : reads [0b101_0_000000000_010]
    (.ldRF 2) = true := by decide

theorem test_decode_ldFR : reads [0b101_1_000000000_011]
    (.ldFR 3) = true := by decide

/-- Every cause of R400 for an opcode word, at the edges of its range. -/
theorem test_decode_refuses :
    [0x0000, 0x1FFF, 0xC000, 0xFFFF, 0x2300, 0x4600, 0x8300, 0x2001, 0x2006, 0x4001, 0x4801, 0x6001,
      0x6401, 0x8001, 0x8802, 0x9801, 0xA008, 0x6120, 0x61E0, 0x6A00, 0x7E00, 0x6620, 0x6820, 0x941C,
      0x503E, 0x503F, 0x587D, 0x88F8, 0x8CF4, 0x90F4].all
      (fun w => match decodeWords true [BitVec.ofNat 16 w, 0, 0, 0, 0] with
        | .ok _ => false
        | .error _ => true) = true := by decide

/-- A bit number outside the operand (R376), and group 100 when it is not admitted (R400). -/
theorem test_decode_bit_and_group :
    (match decodeWords true [0x8800, 8], decodeWords true [0x8D00, 16], decodeWords true [0x9200, 24],
        decodeWords false [0x8000] with
      | .error _, .error _, .error _, .error _ => true
      | _, _, _, _ => false) = true := by decide

/-! ### The encoding table as a parameter (R5, R8, R92) -/

/-- A table with two rows: 0xF0nn moves its extension word, below 0x100, to the register of its low bits, and
every other word with its top bit set does nothing. -/
def twoRows : Config :=
  { resetConfig with
    enc := .table [⟨⟨0xFF00, 0xF000⟩, [⟨0xFF00, 0⟩],
        .plain .none { ControlWord.base .w24 .w24 with src1 := ⟨.imm 1, .w16, false⟩, dest := .rsel 0 0 .w24 }
          .none⟩,
      ⟨⟨0x8000, 0x8000⟩, [], .plain .none .nop .none⟩] }

theorem test_table_lengths :
    twoRows.valid = true ∧
      [0xF003, 0xE003, 0x7003].map (fun w => twoRows.nExt (BitVec.ofNat 16 w)) = [1, 0, 0] := by decide

theorem test_table_records :
    (decodeRecord twoRows [0xF003, 0x00AB] 0x000100).cls = .row 0 ∧
      (decodeRecord twoRows [0xF003, 0x01AB] 0x000100).isInvalid = true ∧
      (decodeRecord twoRows [0xE003] 0x000100).cls = .row 1 ∧
      (decodeRecord twoRows [0x2004] 0x000100).isInvalid = true := by decide

/-- A row's program runs: r3 takes the extension word, and the program goes on after it. -/
theorem test_table_runs :
    (match step ((State.resetWith twoRows []).withFetchWord 32 0x00ABF003) with
      | .next t => (t.x24 3, t.pc, t.status)
      | _ => (0, 0, .running)) = (0x0000AB, 0x000104, .running) := by decide

/-- A width that is not admitted is Invalid Opcode (R8). -/
theorem test_widths_admitted :
    ([0x2004, 0x2104, 0x2204] : List Word16).map (fun w =>
      (decodeRecord { resetConfig with widthsAdmitted := ⟨true, false, true⟩ } [w] 0).isInvalid) =
        [false, true, false] := by decide

/-! ### One step (R322, R339 to R341, R361, R388) -/

/-- A machine after reset with registers, flags and bytes of memory set. -/
def start (regs : List (Reg × Data)) (f : Byte) (bytes : List (Nat × Byte)) : State :=
  let s := regs.foldl (fun s r => s.setReg r.1 .w24 r.2) State.reset
  { s with f := ⟨f, 0xFF#8⟩, mem := s.mem.writeAll bytes }

/-- The state after one step that runs the instruction whose bits are `w`. -/
def run (s : State) (nbits w : Nat) : State :=
  match step (s.withFetchWord nbits w) with
  | .next t => t
  | _ => s

/-- A register, the flags and the run status after one step. -/
def result (s : State) (nbits w : Nat) (i : Reg) : Data × Byte × RunStatus :=
  let t := run s nbits w
  (t.x24 i, t.f.bits, t.status)

theorem test_add : result (start [(0, 0x3F), (1, 0x01)] 0 []) 16 0x2004 0 =
    (0x40, 0, .running) := by decide

theorem test_add_wraps : result (start [(0, 0xFF), (1, 0x01)] 0 []) 16 0x2004 0 =
    (0x00, 0x03, .running) := by decide

theorem test_addI_overflows : result (start [(0, 0x7F)] 0 []) 32 0x00012002 0 =
    (0x80, 0x0C, .running) := by decide

theorem test_adc : result (start [(0, 0xFF), (1, 0x00)] 0x01 []) 16 0x2404 0 =
    (0x00, 0x03, .running) := by decide

theorem test_sub_borrows : result (start [(2, 0x0005), (3, 0x0007)] 0 []) 16 0x294C 2 =
    (0xFFFE, 0x09, .running) := by decide

theorem test_sub_overflows : result (start [(0, 0x80), (1, 0x01)] 0 []) 16 0x2804 0 =
    (0x7F, 0x04, .running) := by decide

theorem test_sbc : result (start [(0, 0x00), (1, 0x00)] 0x01 []) 16 0x2C04 0 =
    (0xFF, 0x09, .running) := by decide

theorem test_cmpI : result (start [(4, 0x000010)] 0 []) 48 0x000000103E82 4 =
    (0x000010, 0x02, .running) := by decide

theorem test_andI : result (start [(0, 0x3C)] 0 []) 32 0x000F3002 0 =
    (0x0C, 0x04, .running) := by decide

theorem test_or : result (start [(0, 0x30), (1, 0x01)] 0 []) 16 0x3404 0 =
    (0x31, 0x00, .running) := by decide

theorem test_xor_self : result (start [(0, 0x55)] 0 []) 16 0x3800 0 =
    (0x00, 0x06, .running) := by decide

theorem test_shl : result (start [(0, 0x81)] 0 []) 16 0x9400 0 =
    (0x02, 0x01, .running) := by decide

theorem test_sar : result (start [(1, 0x81)] 0 []) 16 0x9430 1 =
    (0xC0, 0x09, .running) := by decide

theorem test_rl : result (start [(0, 0x80)] 0 []) 16 0x9404 0 =
    (0x00, 0x03, .running) := by decide

theorem test_ror : result (start [(0, 0x0001)] 0 []) 16 0x9518 0 =
    (0x8000, 0x09, .running) := by decide

theorem test_shr : result (start [(0, 0x000001)] 0 []) 16 0x960C 0 =
    (0x000000, 0x03, .running) := by decide

theorem test_bit_set : result (start [(0, 0x08)] 0x02 []) 32 0x00038800 0 =
    (0x08, 0x00, .running) := by decide

theorem test_bit_clear : result (start [(0, 0xF7)] 0 []) 32 0x00038800 0 =
    (0xF7, 0x02, .running) := by decide

theorem test_narrow_merge : result (start [(0, 0x123456), (1, 0xFF)] 0 []) 16 0x4008 0 =
    (0x1234FF, 0, .running) := by decide

theorem test_ldRF : result (start [(0, 0x123456)] 0xA5 []) 16 0xA000 0 =
    (0x1234A5, 0xA5, .running) := by decide

theorem test_ldFR : result (start [(3, 0x1FF)] 0 []) 16 0xB003 3 =
    (0x1FF, 0xFF, .running) := by decide

theorem test_ld_disp : result (start [(5, 0x010010)] 0 [(0x02000E, 0x77)]) 32 0xFFFE50F5 3 =
    (0x77, 0, .running) := by decide

theorem test_in : result (start [(1, 0)] 0 [(0xFFFF10, 0x5A)]) 32 0x00109880 1 =
    (0x5A, 0, .running) := by decide

theorem test_pop : result (start [(7, 0x007FFD)] 0 [(0x7FFD, 0x56), (0x7FFE, 0x34), (0x7FFF, 0x12)]) 16 0x8660 3 =
    (0x123456, 0, .running) := by decide

/-- R339: the base register goes up by the operand's width, and the value is in the destination. -/
theorem test_post_increment :
    (let t := run (start [(1, 0x003000)] 0 [(0x003000, 0x34), (0x003001, 0x12)]) 16 0x5211
     (t.x24 0, t.x24 1)) = (0x1234, 0x003002) := by decide

/-- R340: a store with pre-decrement, least significant byte lowest. -/
theorem test_store_pre_decrement :
    (let t := run (start [(7, 0x001000), (2, 0xABCDEF)] 0 []) 16 0x5CAF
     (t.x24 7, t.mem.read 0x000FFD, t.mem.read 0x000FFE, t.mem.read 0x000FFF)) =
      (0x000FFD, 0xEF, 0xCD, 0xAB) := by decide

/-- R388: SET in memory. -/
theorem test_set_memory :
    (let t := run (start [(2, 0x000200)] 0 [(0x000200, 0x01)]) 32 0x000F8D28
     (t.mem.read 0x000200, t.mem.read 0x000201)) = (0x01, 0x80) := by decide

/-- R388: RES at an absolute address. -/
theorem test_res_memory :
    (run (start [] 0 [(0x014000, 0xFF)]) 64 0x00014000000090EC).mem.read 0x014000 = 0xFE := by decide

/-- R388: OUT. -/
theorem test_out : (run (start [(1, 0x5A)] 0 []) 32 0x00109C80).mem.read 0xFFFF10 = 0x5A := by decide

/-- R361: a conditional jump, taken and not taken. -/
theorem test_jp_nz :
    ((run (start [] 0 []) 48 0x000123456040).pc, (run (start [] 0x02 []) 48 0x000123456040).pc) =
      (0x012345, 0x000106) := by decide

/-- R361: a relative jump to itself plus -2. -/
theorem test_jr : (run (start [] 0 []) 32 0x00FE6200).pc = 0x0000FE := by decide

/-- R361: a jump to a register. -/
theorem test_jp_reg : (run (start [(1, 0x002000)] 0 []) 16 0x6404).pc = 0x002000 := by decide

/-- R361: CALL pushes the address after it. -/
theorem test_call :
    (let t := run (start [(7, 0x008000)] 0 []) 48 0x000010006600
     (t.pc, t.x24 7, t.mem.read 0x007FFD, t.mem.read 0x007FFE, t.mem.read 0x007FFF)) =
      (0x001000, 0x007FFD, 0x06, 0x01, 0x00) := by decide

/-- R361: RET. -/
theorem test_ret :
    (let t := run (start [(7, 0x007FFD)] 0 [(0x7FFD, 0x06), (0x7FFE, 0x01)]) 16 0x6800
     (t.pc, t.x24 7)) = (0x000106, 0x008000) := by decide

/-- R320: 6 is added on a nibble carry when D is set. -/
theorem test_decimal : result (start [(0, 0x09), (1, 0x08)] 0x10 []) 16 0x2004 0 =
    (0x17, 0x10, .running) := by decide

/-- R402: an invalid word halts the core by default; R401: under `log_and_skip` it is logged. -/
theorem test_invalid :
    (run State.reset 16 0x0000).status = .haltedInvalid 0x000100 0x0000 ∧
      (run (State.resetWith { resetConfig with invalidAction := .logAndSkip } []) 16 0xC123).log =
        [⟨1, 0x000100, 0xC123⟩] := by decide

/-! ### Witnesses: the hypotheses of each obligation hold together -/

/-- A machine at rest whose registers and flags are all written, under `unwritten_read = abort`. -/
def full (f : Byte) : State :=
  { State.resetWith { resetConfig with unwrittenRead := .abort } [] with
    regs := .replicate 8 ⟨0x800000#24, 0b111#3⟩, f := ⟨f, 0xFF#8⟩ }

/-- A machine whose slot holds the decoder's record of some words at 0x000100, with the front end in order
behind it. -/
def inSlot (c : Config) (f : Byte) (ws : List Word16) : State :=
  let r := decodeRecord c ws 0x000100
  { full f with
    cfg := c, slot := r, ready := true
    fetch := { FetchState.reset 0 with fetchAddr := r.follow }
    dec := { (full f).dec with branchPending := r.holds } }

/-- A machine that is to fetch the words of an instruction. -/
def fetching (nbits w : Nat) : State := (full 0).withFetchWord nbits w

theorem inv_fetching : Machine.Inv (fetching 16 0x2004) :=
  ⟨by decide, by decide, (fun _ h => by cases h), fun _ =>
    ⟨by decide, by decide, by decide, by decide, by decide, by decide, by decide, by decide, by decide,
      (fun h => by cases h), (fun h => by cases h)⟩⟩

theorem witness_StepKeepsInv :
    Machine.Inv (fetching 16 0x2004) ∧ ∃ t, step (fetching 16 0x2004) = .next t :=
  ⟨inv_fetching, _, rfl⟩

theorem witness_RoundTrip : wellFormed (.setM .w24 23 (.absIdx 0xFFFFFF 7)) = true := by decide

theorem witness_DecodedWellFormed :
    decodeWords false [0xB003, 0x0000] = .ok (.ldFR 3, [0x0000]) ∧
      decodeWords true [0x8D28, 0x000F] = .ok (.setM .w16 15 (.ind 2), []) := ⟨rfl, rfl⟩

theorem witness_InvalidCauses : 3 ≤ [(0 : Word16), 0, 0].length := by decide

theorem witness_StepRunsDecoded :
    Machine.Inv (fetching 16 0x2004) ∧ (fetching 16 0x2004).status = .running ∧
      (fetching 16 0x2004).waiting = true ∧ (fetching 16 0x2004).fair = true ∧
      (fetching 16 0x2004).fresh = true ∧ (fetching 16 0x2004).cfg.enc = .ref ∧
      decodeRef (fetching 16 0x2004).cfg
        ((fetching 16 0x2004).instrWords (fetching 16 0x2004).pc) = .ok (.addR .w8 0 1, []) :=
  ⟨inv_fetching, rfl, by decide, rfl, by decide, rfl, rfl⟩

theorem witness_StepRunsSlot :
    (inSlot resetConfig 0 [0x2004]).atBoundary = true ∧ (inSlot resetConfig 0 [0x2004]).ready = true ∧
      (inSlot resetConfig 0 [0x2004]).slot.cls = .instr (.addR .w8 0 1) := by decide

/-- Each clause of StoppedCore: the port free, an access waiting, done, and done without its data collected. -/
theorem witness_StoppedCore :
    ([(.ready, []), (.writeBusy 0 2 0 .execute, [false]), (.writeBusy 0 2 0 .execute, [true]),
        (.readBusy 0 2 .fetch, []), (.latched none .execute, [])] : List (Ctl × List Bool)).map (fun p =>
      let s : State := { full 0 with status := .haltedInvalid 0 0, ctl := p.1, draws := p.2 }
      (s.status == .running, s.drawDone)) =
        [(false, true), (false, false), (false, true), (false, true), (false, true)] := by decide

/-- A machine whose slot holds an INVALID record. -/
def invalidSlot (x : InvalidAction) : State :=
  inSlot { resetConfig with invalidAction := x, unwrittenRead := .abort } 0 [0x0000]

theorem witness_InvalidHalts :
    (invalidSlot .halt).atBoundary = true ∧ (invalidSlot .halt).ready = true ∧
      (invalidSlot .halt).slot.isInvalid = true ∧ (invalidSlot .halt).cfg.invalidAction = .halt := by decide

theorem witness_InvalidLogged :
    (invalidSlot .logAndSkip).atBoundary = true ∧ (invalidSlot .logAndSkip).ready = true ∧
      (invalidSlot .logAndSkip).slot.isInvalid = true ∧
      (invalidSlot .logAndSkip).cfg.invalidAction = .logAndSkip ∧
      (invalidSlot .logAndSkip).frontOk = true := by decide

theorem witness_InvalidTraps :
    let s := invalidSlot (.trap 0xFFFFFE)
    s.atBoundary = true ∧ s.ready = true ∧ s.slot.isInvalid = true ∧
      s.cfg.invalidAction = .trap 0xFFFFFE ∧ usableReg s s.cfg.spIndex .w24 = true ∧ s.mem.wf = true ∧
      s.fair = true ∧ s.frontOk = true ∧ s.dec.branchPending = true := by decide

/-- A machine under `unwritten_read = abort` with some registers and some flag bits written. -/
def partly (lanes : Reg → BitVec 3) (written : BitVec 8) : State :=
  { full 0 with regs := Vector.ofFn fun i => ⟨0, lanes i⟩, f := ⟨0, written⟩ }

/-- The premises of UnwrittenAborts, with the location named: each place in the order, a store and a push whose
datum is in MDR before the address lacks, a call, a return, a condition, and F. -/
theorem witness_UnwrittenAborts :
    (partly (fun _ => 0b111#3) 0xEF#8).atBoundary = true ∧
      (partly (fun _ => 0b111#3) 0xEF#8).cfg.unwrittenRead = .abort ∧
      ([(0, 0xFF, .addR .w24 0 1, .reg 0 .w24), (1, 0xFF, .adcR .w16 0 1, .reg 1 .w16),
          (7, 0xFE, .sbcI .w8 0 0xFF, .flag .c), (7, 0xEF, .cmpI .w8 0 0xFF, .flag .d),
          (7, 0xFE, .rlR .w8 0, .flag .c), (2, 0xFF, .ldMR .w24 0 (.preDec 2), .reg 2 .w24),
          (2, 0xFF, .ldRM .w8 0 (.absIdx 0 2), .reg 2 .w24), (7, 0xFF, .pushR .w8 0, .reg 7 .w24),
          (7, 0xFF, .pushR .w8 7, .reg 7 .w8), (7, 0xFF, .callAbs 0, .reg 7 .w24), (7, 0xFF, .retn, .reg 7 .w24),
          (7, 0xFD, .jpAbs .z 0, .flag .z), (1, 0xFD, .jpReg .z 1, .reg 1 .w24),
          (1, 0xFF, .setM .w8 7 (.postInc 1), .reg 1 .w24), (1, 0xFF, .outR 1 0, .reg 1 .w8),
          (7, 0x7F, .ldRF 0, .flags), (1, 0xFF, .ldFR 1, .reg 1 .w8)] :
          List (Reg × BitVec 8 × Instr × UnwrittenLoc)).all (fun p =>
        let s := partly (fun i => if i = p.1 then 0b000#3 else 0b111#3) p.2.1
        wellFormed p.2.2.1 && (lacks s p.2.2.1).head? == some p.2.2.2) = true := by decide


theorem witness_AddResultAndFlags :
    SourceTwo (full 0) .w24 (.addR .w24 0) (.addI .w24 0) (.addR .w24 0 1) 0x800000 ∧
      SourceTwo (full 0) .w8 (.addR .w8 0) (.addI .w8 0) (.addI .w8 0 0xFF) 0xFF ∧
      (full 0).atBoundary = true ∧ usableReg (full 0) 0 .w24 = true ∧ usableFlag (full 0) .c = true ∧
      usableFlag (full 0) .d = true ∧ (full 0).f.get (full 0).cfg.flagPos .d = false ∧
      (full 0).cfg.xformMask = false :=
  ⟨.inl ⟨1, rfl, by decide, by decide⟩, .inr ⟨0xFF, rfl, by decide⟩, by decide, by decide, by decide,
    by decide, by decide, rfl⟩

theorem witness_AdcResultAndFlags :
    SourceTwo (full 0) .w24 (.adcR .w24 0) (.adcI .w24 0) (.adcR .w24 0 1) 0x800000 ∧
      SourceTwo (full 0) .w8 (.adcR .w8 0) (.adcI .w8 0) (.adcI .w8 0 0xFF) 0xFF ∧
      (full 0).atBoundary = true ∧ usableReg (full 0) 0 .w24 = true ∧ usableFlag (full 0) .c = true ∧
      usableFlag (full 0) .d = true ∧ (full 0).f.get (full 0).cfg.flagPos .d = false ∧
      (full 0).cfg.xformMask = false :=
  ⟨.inl ⟨1, rfl, by decide, by decide⟩, .inr ⟨0xFF, rfl, by decide⟩, by decide, by decide, by decide,
    by decide, by decide, rfl⟩

theorem witness_SubResultAndFlags :
    SourceTwo (full 0) .w24 (.subR .w24 0) (.subI .w24 0) (.subR .w24 0 1) 0x800000 ∧
      SourceTwo (full 0) .w8 (.subR .w8 0) (.subI .w8 0) (.subI .w8 0 0xFF) 0xFF ∧
      (full 0).atBoundary = true ∧ usableReg (full 0) 0 .w24 = true ∧ usableFlag (full 0) .c = true ∧
      usableFlag (full 0) .d = true ∧ (full 0).f.get (full 0).cfg.flagPos .d = false ∧
      (full 0).cfg.xformMask = false :=
  ⟨.inl ⟨1, rfl, by decide, by decide⟩, .inr ⟨0xFF, rfl, by decide⟩, by decide, by decide, by decide,
    by decide, by decide, rfl⟩

theorem witness_SbcResultAndFlags :
    SourceTwo (full 0) .w24 (.sbcR .w24 0) (.sbcI .w24 0) (.sbcR .w24 0 1) 0x800000 ∧
      SourceTwo (full 0) .w8 (.sbcR .w8 0) (.sbcI .w8 0) (.sbcI .w8 0 0xFF) 0xFF ∧
      (full 0).atBoundary = true ∧ usableReg (full 0) 0 .w24 = true ∧ usableFlag (full 0) .c = true ∧
      usableFlag (full 0) .d = true ∧ (full 0).f.get (full 0).cfg.flagPos .d = false ∧
      (full 0).cfg.xformMask = false :=
  ⟨.inl ⟨1, rfl, by decide, by decide⟩, .inr ⟨0xFF, rfl, by decide⟩, by decide, by decide, by decide,
    by decide, by decide, rfl⟩

theorem witness_CmpFlagsOnly :
    SourceTwo (full 0) .w24 (.cmpR .w24 0) (.cmpI .w24 0) (.cmpR .w24 0 1) 0x800000 ∧
      SourceTwo (full 0) .w8 (.cmpR .w8 0) (.cmpI .w8 0) (.cmpI .w8 0 0xFF) 0xFF ∧
      (full 0).atBoundary = true ∧ usableReg (full 0) 0 .w24 = true ∧ usableFlag (full 0) .c = true ∧
      usableFlag (full 0) .d = true ∧ (full 0).f.get (full 0).cfg.flagPos .d = false ∧
      (full 0).cfg.xformMask = false :=
  ⟨.inl ⟨1, rfl, by decide, by decide⟩, .inr ⟨0xFF, rfl, by decide⟩, by decide, by decide, by decide,
    by decide, by decide, rfl⟩

theorem witness_AndResultAndFlags :
    SourceTwo (full 0) .w24 (.andR .w24 0) (.andI .w24 0) (.andR .w24 0 1) 0x800000 ∧
      SourceTwo (full 0) .w8 (.andR .w8 0) (.andI .w8 0) (.andI .w8 0 0xFF) 0xFF ∧
      (full 0).atBoundary = true ∧ usableReg (full 0) 0 .w24 = true ∧ usableFlag (full 0) .c = true ∧
      usableFlag (full 0) .d = true ∧ (full 0).f.get (full 0).cfg.flagPos .d = false ∧
      (full 0).cfg.xformMask = false :=
  ⟨.inl ⟨1, rfl, by decide, by decide⟩, .inr ⟨0xFF, rfl, by decide⟩, by decide, by decide, by decide,
    by decide, by decide, rfl⟩

theorem witness_OrResultAndFlags :
    SourceTwo (full 0) .w24 (.orR .w24 0) (.orI .w24 0) (.orR .w24 0 1) 0x800000 ∧
      SourceTwo (full 0) .w8 (.orR .w8 0) (.orI .w8 0) (.orI .w8 0 0xFF) 0xFF ∧
      (full 0).atBoundary = true ∧ usableReg (full 0) 0 .w24 = true ∧ usableFlag (full 0) .c = true ∧
      usableFlag (full 0) .d = true ∧ (full 0).f.get (full 0).cfg.flagPos .d = false ∧
      (full 0).cfg.xformMask = false :=
  ⟨.inl ⟨1, rfl, by decide, by decide⟩, .inr ⟨0xFF, rfl, by decide⟩, by decide, by decide, by decide,
    by decide, by decide, rfl⟩

theorem witness_XorResultAndFlags :
    SourceTwo (full 0) .w24 (.xorR .w24 0) (.xorI .w24 0) (.xorR .w24 0 1) 0x800000 ∧
      SourceTwo (full 0) .w8 (.xorR .w8 0) (.xorI .w8 0) (.xorI .w8 0 0xFF) 0xFF ∧
      (full 0).atBoundary = true ∧ usableReg (full 0) 0 .w24 = true ∧ usableFlag (full 0) .c = true ∧
      usableFlag (full 0) .d = true ∧ (full 0).f.get (full 0).cfg.flagPos .d = false ∧
      (full 0).cfg.xformMask = false :=
  ⟨.inl ⟨1, rfl, by decide, by decide⟩, .inr ⟨0xFF, rfl, by decide⟩, by decide, by decide, by decide,
    by decide, by decide, rfl⟩

/-- The machine of the decimal statements: D set, under some decimal correction. -/
def decimal (b : BcdAdjust) : State :=
  { full 0x10 with cfg := { resetConfig with unwrittenRead := .abort, bcd := b } }

theorem witness_DecimalMode :
    SourceTwo (decimal .literal) .w8 (SumOp.sbc.regForm .w8 0) (SumOp.sbc.immForm .w8 0) (.sbcI .w8 0 0xFF)
        0xFF ∧
      (decimal .literal).atBoundary = true ∧ usableReg (decimal .literal) 0 .w8 = true ∧
      usableFlag (decimal .literal) .c = true ∧ usableFlag (decimal .literal) .d = true ∧
      (decimal .literal).f.get (decimal .literal).cfg.flagPos .d = true ∧
      (decimal .literal).cfg.bcd = .literal :=
  ⟨.inr ⟨0xFF, rfl, by decide⟩, by decide, by decide, by decide, by decide, by decide, rfl⟩

theorem witness_DecimalFree :
    SourceTwo (decimal .custom) .w24 (SumOp.adc.regForm .w24 0) (SumOp.adc.immForm .w24 0) (.adcR .w24 0 1)
        0x800000 ∧
      (decimal .custom).atBoundary = true ∧ usableReg (decimal .custom) 0 .w24 = true ∧
      usableFlag (decimal .custom) .c = true ∧ usableFlag (decimal .custom) .d = true ∧
      (decimal .custom).f.get (decimal .custom).cfg.flagPos .d = true ∧
      (decimal .custom).cfg.bcd = .custom ∧
      ∃ p, programOf (decimal .custom).cfg (.adcR .w24 0 1) = some p :=
  ⟨.inl ⟨1, rfl, by decide, by decide⟩, by decide, by decide, by decide, by decide, by decide, rfl, _,
    rfl⟩

/-- The machine of the reduced transforms. -/
def masked : State := { full 0x01 with cfg := { resetConfig with unwrittenRead := .abort, xformMask := true } }

theorem witness_MaskedTransforms :
    SourceTwo masked .w8 (SumOp.sub.regForm .w8 0) (SumOp.sub.immForm .w8 0) (.subI .w8 0 0x00) 0x00 ∧
      masked.atBoundary = true ∧ usableReg masked 0 .w8 = true ∧ usableFlag masked .c = true ∧
      usableFlag masked .d = true ∧ masked.f.get masked.cfg.flagPos .d = false ∧
      masked.cfg.xformMask = true :=
  ⟨.inr ⟨0x00, rfl, by decide⟩, by decide, by decide, by decide, by decide, by decide, rfl⟩

/-- A word that adds, or subtracts, with the flags of the group. -/
def sumWord (w : Width) (neg : Bool) : ControlWord :=
  { ControlWord.base w w with op := .add, neg := neg, cinv := neg, fmask := .all }

theorem witness_AddIdentity :
    let cw := sumWord .w8 false
    cw.op = .add ∧ cw.addc = false ∧ cw.neg = false ∧ cw.add1 = false ∧ cw.shift = .none ∧
      cw.csrc = .alu ∧ cw.cinv = false ∧
      (cw.fmask.c && Flags.get ⟨0xEF, 0xFF⟩ resetConfig.flagPos .d) = false := by decide

theorem witness_SubtractIdentity :
    let cw := sumWord .w24 true
    cw.op = .add ∧ cw.addc = false ∧ cw.neg = true ∧ cw.add1 = false ∧ cw.shift = .none ∧
      cw.csrc = .alu ∧ resetConfig.xformMask = false ∧
      (cw.fmask.c && Flags.get ⟨0xEF, 0xFF⟩ resetConfig.flagPos .d) = false := by decide

theorem witness_WriteMask :
    defaultFlagPos.distinct = true ∧ FMask.zOnly.z = true ∧ FMask.zOnly.c = false ∧ FMask.all.c = true := by
  decide

/-- One operand of every addressing mode. -/
def operands : List Rm :=
  [.reg 7, .ind 0, .postInc 1, .postDec 2, .preInc 3, .preDec 4, .disp 5 0xFFFF, .pc8 0x80, .pc16 0xFFFF,
    .pc24 0xFFFFFF, .abs 0xFFFFFF, .absIdx 0xFFFFFF 7, .imm 0xFF]

theorem witness_MoveRegister :
    (full 0).atBoundary = true ∧
      usableReg (full 0) 7 .w24 = true := by decide

theorem witness_MoveImmediate :
    (full 0).atBoundary = true ∧
      immFits .w8 0xFF = true ∧
      immFits .w16 0xFFFF = true ∧
      immFits .w24 0xFFFFFF = true := by decide

theorem witness_LoadOperand :
    (full 0).atBoundary = true ∧ (full 0).fair = true ∧
      operands.all (usableRm (full 0) .w24) = true ∧
      operands.all (usableRm (full 0) .w8) = true := by decide

theorem witness_StoreOperand :
    (full 0).atBoundary = true ∧ (full 0).fair = true ∧
      usableReg (full 0) 7 .w24 = true ∧
      operands.all (usableRm (full 0) .w24) = true ∧
      rmIsMem (.preDec 7) = true ∧
      (full 0).mem.wf = true := by decide

theorem witness_ReadFlags :
    (full 0).atBoundary = true ∧
      usableF (full 0) = true := by decide

theorem witness_WriteFlags :
    (full 0).atBoundary = true ∧
      usableReg (full 0) 7 .w8 = true := by decide

theorem witness_JumpAbsolute :
    (full 0).atBoundary = true ∧
      [Cond.t, .z, .nz, .c, .nc, .s, .ns, .v, .nv].all (usableCond (full 0)) = true := by decide

theorem witness_JumpRelative :
    (full 0).atBoundary = true ∧
      [Cond.t, .z, .nz, .c, .nc, .s, .ns, .v, .nv].all (usableCond (full 0)) = true := by decide

theorem witness_JumpRegister :
    (full 0).atBoundary = true ∧
      usableReg (full 0) 7 .w24 = true ∧
      [Cond.t, .z, .nz, .c, .nc, .s, .ns, .v, .nv].all (usableCond (full 0)) = true := by decide

theorem witness_Call :
    (full 0).atBoundary = true ∧ (full 0).fair = true ∧
      usableReg (full 0) (full 0).cfg.spIndex .w24 = true ∧
      (full 0).mem.wf = true := by decide

theorem witness_Return :
    (full 0).atBoundary = true ∧ (full 0).fair = true ∧
      usableReg (full 0) (full 0).cfg.spIndex .w24 = true := by decide

theorem witness_Push :
    (full 0).atBoundary = true ∧ (full 0).fair = true ∧
      usableReg (full 0) 7 .w24 = true ∧
      usableReg (full 0) (full 0).cfg.spIndex .w24 = true ∧
      (full 0).mem.wf = true := by decide

theorem witness_Pop :
    (full 0).atBoundary = true ∧ (full 0).fair = true ∧
      usableReg (full 0) (full 0).cfg.spIndex .w24 = true := by decide

theorem witness_TestBit :
    (full 0).atBoundary = true ∧ (full 0).fair = true ∧
      [(Width.w8, (0 : BitVec 5)), (.w8, 7), (.w16, 15), (.w24, 23)].all (fun p => bitInside p.1 p.2) = true ∧
      operands.all (usableRm (full 0) .w8) = true := by decide

theorem witness_SetBit :
    (full 0).atBoundary = true ∧ (full 0).fair = true ∧
      [(Width.w8, (0 : BitVec 5)), (.w8, 7), (.w16, 15), (.w24, 23)].all (fun p => bitInside p.1 p.2) = true ∧
      operands.all (usableRm (full 0) .w24) = true ∧
      rmIsMem (.postInc 0) = true ∧
      (full 0).mem.wf = true := by decide

theorem witness_ResetBit :
    (full 0).atBoundary = true ∧ (full 0).fair = true ∧
      [(Width.w8, (0 : BitVec 5)), (.w8, 7), (.w16, 15), (.w24, 23)].all (fun p => bitInside p.1 p.2) = true ∧
      operands.all (usableRm (full 0) .w24) = true ∧
      rmIsMem (.postInc 0) = true ∧
      (full 0).mem.wf = true := by decide

theorem witness_ShiftsLeft :
    (full 0).atBoundary = true ∧
      usableReg (full 0) 0 .w24 = true ∧
      usableFlag (full 0) .c = true := by decide

theorem witness_ShiftsRight :
    (full 0).atBoundary = true ∧
      usableReg (full 0) 0 .w24 = true ∧
      usableFlag (full 0) .c = true := by decide

theorem witness_Input :
    (full 0).atBoundary = true ∧ (full 0).fair = true := by decide

theorem witness_Output :
    (full 0).atBoundary = true ∧ (full 0).fair = true ∧
      usableReg (full 0) 7 .w8 = true ∧
      (full 0).mem.wf = true := by decide


/-- The premises under which a static branch goes to its target (R178): JP T, JR T, whose ignored bits are
not 0, and CALL. -/
theorem witness_StaticBranches :
    ([([0x6000, 0x2345, 0x0001], .jpAbs .t 0x012345), ([0x6200, 0xFF80], .jrRel .t 0x80),
        ([0x6600, 0x1000, 0x0000], .callAbs 0x001000)] : List (List Word16 × Instr)).all
      (fun p =>
        let s := inSlot { resetConfig with unwrittenRead := .abort } 0 p.1
        s.atBoundary && s.ready && s.cfg.enc == .ref && s.frontOk && !s.dec.branchPending
          && (match decodeRef s.cfg p.1 with
            | .ok (i, []) => i == p.2
            | _ => false)
          && s.slot == decodeRecord s.cfg p.1 s.slot.instrAddr) = true := by decide

/-- The premises under which Execute's redirect goes to its target (R290): JP NZ taken, JP T (r), RET. -/
theorem witness_Redirects :
    ([[0x6040, 0x2345, 0x0001], [0x6404], [0x6800]] : List (List Word16)).all
      (fun ws =>
        let s := inSlot { resetConfig with unwrittenRead := .abort } 0 ws
        s.atBoundary && s.ready && s.frontOk && s.dec.branchPending && condHolds s.cfg.flagPos s.f .nz) =
      true := by decide

theorem witness_MemoryBytes : Memory.wf [(0, 1), (0xFFFFFF, 2)] = true ∧ 3 ≤ 3 := by decide

theorem witness_MemoryCanonical : Memory.wf [(0, 1), (0xFFFFFF, 2)] = true := by decide

theorem witness_RegisterWrite :
    resetConfig.narrowWrite = .merge ∧
      ({ resetConfig with narrowWrite := .zeroExtend } : Config).narrowWrite = .zeroExtend := by decide

theorem witness_ChainLengths :
    (resolve (.preDec 7) .read .w24 1).isSome = true ∧ (resolve (.preDec 7) .write .w24 1).isSome = true ∧
      (resolve (.imm 0) .read .w8 1).isSome = true ∧ (resolve (.ind 0) .rmw .w8 2).isSome = true := by decide

/-- StaticTargets: one branch of each clause, where group 100 is not admitted. -/
theorem witness_StaticTargets :
    ([([0x6000, 0x2345, 0x0001], .jpAbs .t 0x012345), ([0x6200, 0xFF80], .jrRel .t 0x80),
        ([0x6040, 0x2345, 0x0001], .jpAbs .nz 0x012345), ([0x6404], .jpReg .t 1), ([0x6800], .retn)] :
        List (List Word16 × Instr)).all
      (fun p => match decodeRef { resetConfig with admitOther := false } p.1 with
        | .ok (i, []) => i == p.2
        | _ => false) = true := by decide

/-- A redirect that waits, with a read in flight or with the port free. -/
def redirected (pf : Option Prefetch) (c : Ctl) : State :=
  { full 0 with ctl := c, fetch := { (full 0).fetch with redir := some ⟨0x001000, .execute⟩, pf := pf } }

theorem witness_RedirectFlushes :
    [redirected none .ready, redirected (some ⟨0, false⟩) (.readBusy 0 2 .fetch)].all (fun s =>
      s.status == .running && s.fetch.redir == some ⟨0x001000, .execute⟩) = true := by decide

theorem witness_AssertProtocol :
    (full 0).ctl = .ready ∧ Ctl.readBusy 0 2 .fetch ≠ .ready ∧
      (Ctl.readBusy 0 2 .fetch).owner ≠ some .execute ∧ (Ctl.readBusy 0 2 .fetch).owner = some .fetch := by
  decide

theorem witness_FetchBacksOff :
    ({ full 0 with ex := { (full 0).ex with exWantsMem := true } } : State).ex.exWantsMem = true := by decide

/-- A word blocked at its assert while a prefetch holds the port. -/
def blocked (m : MemMode) : State :=
  { full 0 with
    ctl := .readBusy 0x000100 2 .fetch
    mar := ⟨0, true⟩
    mdr := ⟨0, true⟩
    ex := { (full 0).ex with
      cw := some { ControlWord.base .w24 .w24 with mem := m }
      v0 := some 0, v1 := some 0, fl := some (full 0).f, res := some ⟨0, (full 0).f⟩, acc := .toAssert } }

theorem witness_StallStable :
    [MemMode.h1, .h2, .addr].all (fun m =>
      let s := blocked m
      let cw : ControlWord := { ControlWord.base .w24 .w24 with mem := m }
      s.status == .running && s.ex.exPending.isNone && s.ex.cw == some cw && s.ex.v0.isSome
        && s.ex.v1.isSome && s.ex.fl.isSome && s.ex.res.isSome && s.ex.acc == .toAssert
        && m != .none && s.ctl != .ready && s.ctl.owner != some .execute
        && assertUnwritten cw s == []) = true := by decide

/-- A load whose access the controller never completes. -/
def starved : State :=
  let c := { resetConfig with unwrittenRead := .abort }
  let r := decodeRecord c [0x5011] 0x000100
  { full 0 with
    ctl := .readBusy 0x800000 1 .execute
    fair := false
    fetch := { FetchState.reset 0 with fetchAddr := r.follow }
    ex := { (full 0).ex with sstate := .coreOp, cur := some r, exPending := some ⟨.read, 1⟩ } }

/-- The premises of the second clause, with the invariant. -/
theorem witness_StallStable_access :
    Machine.Inv starved ∧ starved.status = .running ∧ starved.ex.exPending.isSome = true ∧
      (∀ d o, starved.ctl ≠ .latched d o) ∧ starved.draws = [] ∧ starved.fair = false :=
  ⟨⟨by decide, by decide, (fun _ h => by cases h), fun _ =>
    ⟨by decide, by decide, by decide, by decide, by decide, by decide, by decide, by decide, by decide,
      (fun h => by cases h), (fun h => by cases h)⟩⟩, rfl, by decide, (fun _ _ h => by cases h), rfl, rfl⟩

end Sys2Proof.Tests
end

