-- ==== Sys2Proof/Proofs/StateFamily.lean ====
section
/-! PROOFS. The statements of spec/10_state.md: a write of a register under both settings of `narrow_write`
(R22, R25), and a core that is not RUNNING (R39). -/

namespace Sys2Proof.Machine

/-! ### A write of one register (R22) -/

/-- Under `merge` the new value is the old upper bits with the low bits of `v` below them. -/
theorem GReg.put_merge_val_toNat (w : Width) (r : GReg) (v : Data) :
    (r.put .merge w v).val.toNat = r.val.toNat / w.modulus * w.modulus + v.toNat % w.modulus := by
  have hlow : v.toNat % w.modulus < w.modulus := Nat.mod_lt _ w.modulus_pos
  have hupper : r.val.toNat / w.modulus < 2 ^ 24 / w.modulus :=
    Nat.div_lt_div_of_lt_of_dvd w.modulus_dvd r.val.isLt
  have hfits : r.val.toNat / w.modulus * w.modulus + v.toNat % w.modulus < 2 ^ 24 :=
    calc r.val.toNat / w.modulus * w.modulus + v.toNat % w.modulus
        < (r.val.toNat / w.modulus + 1) * w.modulus := by rw [Nat.add_one_mul]; omega
      _ ≤ 2 ^ 24 / w.modulus * w.modulus := Nat.mul_le_mul_right _ hupper
      _ = 2 ^ 24 := Nat.div_mul_cancel w.modulus_dvd
  exact (BitVec.toNat_ofNat _ _).trans (Nat.mod_eq_of_lt hfits)

theorem GReg.put_zeroExtend_val_toNat (w : Width) (r : GReg) (v : Data) :
    (r.put .zeroExtend w v).val.toNat = v.toNat % w.modulus := w.trunc_toNat v

/-- The view written is the value, under both settings. -/
theorem GReg.trunc_put_val (n : NarrowWrite) (w : Width) (r : GReg) (v : Data) :
    w.trunc (r.put n w v).val = w.trunc v := by
  apply BitVec.eq_of_toNat_eq
  cases n with
  | merge => simp [GReg.put_merge_val_toNat, Nat.mul_add_mod_self_right]
  | zeroExtend => simp [GReg.put_zeroExtend_val_toNat]

theorem GReg.put_merge_upper (w : Width) (r : GReg) (v : Data) :
    (r.put .merge w v).val.toNat / w.modulus = r.val.toNat / w.modulus := by
  rw [GReg.put_merge_val_toNat, Nat.add_comm, Nat.add_mul_div_right _ _ w.modulus_pos,
    Nat.div_eq_of_lt (Nat.mod_lt _ w.modulus_pos), Nat.zero_add]

theorem GReg.put_zeroExtend_upper (w : Width) (r : GReg) (v : Data) :
    (r.put .zeroExtend w v).val.toNat / w.modulus = 0 := by
  rw [GReg.put_zeroExtend_val_toNat]
  exact Nat.div_eq_of_lt (Nat.mod_lt _ w.modulus_pos)

/-- The lanes of a view are those below its byte count (R25). -/
theorem laneMask_getLsbD (w : Width) (k : Fin 3) :
    (laneMask w).getLsbD k.val = decide (k.val < w.bytes) := by
  revert k
  cases w <;> decide

theorem GReg.put_merge_lane (w : Width) (r : GReg) (v : Data) (k : Fin 3) :
    (r.put .merge w v).lanes.getLsbD k.val = (r.lanes.getLsbD k.val || decide (k.val < w.bytes)) :=
  (BitVec.getLsbD_or ..).trans (congrArg _ (laneMask_getLsbD w k))

theorem GReg.put_zeroExtend_lane (w : Width) (r : GReg) (v : Data) (k : Fin 3) :
    (r.put .zeroExtend w v).lanes.getLsbD k.val = true := by
  revert k
  exact (by decide : ∀ k : Fin 3, (0b111#3).getLsbD k.val = true)

/-- The lanes of the view written are all marked, under both settings (R25). -/
theorem GReg.put_lanes_and_laneMask (n : NarrowWrite) (w : Width) (r : GReg) (v : Data) :
    (r.put n w v).lanes &&& laneMask w = laneMask w := by
  cases n with
  | merge =>
    have absorb : ∀ l m : BitVec 3, (l ||| m) &&& m = m := by decide
    exact absorb r.lanes (laneMask w)
  | zeroExtend => exact BitVec.allOnes_and

/-- Settles O51. Each clause is the fact about the one register written. -/
theorem registerWrite : Obligations.RegisterWrite := by
  intro s i w v t
  have hput : t.regs[i] = s.regs[i].put s.cfg.narrowWrite w v := s.setReg_same i w v
  have hval : t.x24 i = (s.regs[i].put s.cfg.narrowWrite w v).val := congrArg GReg.val hput
  refine ⟨?view, fun hmerge => ⟨?mergeUpper, fun k => ?mergeLane⟩,
    fun hzero => ⟨?zeroUpper, fun k => ?zeroLane⟩, ?written,
    fun j hj => s.setReg_other w v hj.symm, rfl⟩
  case view => exact (congrArg w.trunc hval).trans (GReg.trunc_put_val _ w _ v)
  case mergeUpper => rw [hval, hmerge]; exact GReg.put_merge_upper w _ v
  case mergeLane => rw [hput, hmerge]; exact GReg.put_merge_lane w _ v k
  case zeroUpper => rw [hval, hzero]; exact GReg.put_zeroExtend_upper w _ v
  case zeroLane => rw [hput, hzero]; exact GReg.put_zeroExtend_lane w _ v k
  case written =>
    unfold State.regUnwritten
    rw [hput]
    simp [GReg.put_lanes_and_laneMask]

/-! ### The controller's tick (R66) -/

/-- With no access in flight the tick does nothing (R66). -/
theorem tick_of_ready {s : State} (h : s.ctl = .ready) : tick s = s := by
  simp [tick, h]

/-- A completed access stays until its owner collects it (R66, R157). -/
theorem tick_of_latched {s : State} {d : Option Data} {o : Owner} (h : s.ctl = .latched d o) :
    tick s = s := by
  simp [tick, h]

theorem tick_of_readBusy {s : State} {a : Addr} {n : Nat} {o : Owner} (h : s.ctl = .readBusy a n o) :
    tick s = if s.drawDone then
        { s with ctl := .latched (some (s.load a n)) o, draws := s.draws.tail }
      else { s with draws := s.draws.tail } := by
  simp [tick, h]

theorem tick_of_writeBusy {s : State} {a : Addr} {n : Nat} {v : Data} {o : Owner}
    (h : s.ctl = .writeBusy a n v o) :
    tick s = if s.drawDone then
        { s with ctl := .latched none o, draws := s.draws.tail
                 mem := s.mem.store s.cfg.endian a n v, writes := s.writes ++ [⟨a, n, v⟩] }
      else { s with draws := s.draws.tail } := by
  simp [tick, h]

/-- Only a write in flight can change memory or the history of writes. -/
theorem tick_mem_of_not_writeBusy {s : State} (h : ∀ a n v o, s.ctl ≠ .writeBusy a n v o) :
    (tick s).mem = s.mem ∧ (tick s).writes = s.writes := by
  cases hctl : s.ctl with
  | ready => rw [tick_of_ready hctl]; exact ⟨rfl, rfl⟩
  | readBusy a n o => rw [tick_of_readBusy hctl]; split <;> exact ⟨rfl, rfl⟩
  | writeBusy a n v o => exact absurd hctl (h a n v o)
  | latched d o => rw [tick_of_latched hctl]; exact ⟨rfl, rfl⟩

/-- A false draw leaves the access in flight where it is (R66). -/
theorem tick_of_not_drawDone {s : State} (h : s.drawDone = false) :
    (tick s).ctl = s.ctl ∧ (tick s).mem = s.mem ∧ (tick s).writes = s.writes := by
  cases hctl : s.ctl with
  | ready => rw [tick_of_ready hctl]; exact ⟨hctl, rfl, rfl⟩
  | readBusy a n o => rw [tick_of_readBusy hctl, h]; exact ⟨hctl, rfl, rfl⟩
  | writeBusy a n v o => rw [tick_of_writeBusy hctl, h]; exact ⟨hctl, rfl, rfl⟩
  | latched d o => rw [tick_of_latched hctl]; exact ⟨hctl, rfl, rfl⟩

theorem tick_of_read_done {s : State} {a : Addr} {n : Nat} {o : Owner} (h : s.ctl = .readBusy a n o)
    (hdone : s.drawDone = true) : (tick s).ctl = .latched (some (s.load a n)) o := by
  rw [tick_of_readBusy h, if_pos hdone]

theorem tick_of_write_done {s : State} {a : Addr} {n : Nat} {v : Data} {o : Owner}
    (h : s.ctl = .writeBusy a n v o) (hdone : s.drawDone = true) :
    (tick s).ctl = .latched none o ∧ (tick s).mem = s.mem.store s.cfg.endian a n v ∧
      (tick s).writes = s.writes ++ [⟨a, n, v⟩] := by
  rw [tick_of_writeBusy h, if_pos hdone]
  exact ⟨rfl, rfl, rfl⟩

/-! ### A core that is not RUNNING (R39) -/

/-- A stopped core's step is one tick of the controller (R39, log 12). -/
theorem step_of_not_running {s : State} (h : s.status ≠ .running) : step s = .next (tick s) := by
  simp [step, State.running, h]

/-- Settles O10: the frame is the tick's, and each clause about the access is the tick's in that state of
the controller. -/
theorem stoppedCore : Obligations.StoppedCore := by
  intro s hs
  have frame {α : Type} (field : State → α) := congrArg field (tick_cases s)
  refine ⟨tick s, step_of_not_running hs, frame State.status, frame State.regs, frame State.f,
    frame State.mar, frame State.mdr, frame State.shadowSelect, frame State.fetch, frame State.dec,
    frame State.ready, frame State.slot, frame State.ex, frame State.log, frame State.cfg,
    frame State.fair, frame State.freeCount, tick_mem_of_not_writeBusy, tick_of_not_drawDone,
    fun hready => congrArg State.ctl (tick_of_ready hready),
    fun d o hlatched => congrArg State.ctl (tick_of_latched hlatched),
    fun a n o => tick_of_read_done, fun a n v o => tick_of_write_done⟩

end Sys2Proof.Machine
end

