-- ==== Sys2Proof/Proofs/MemoryFamily.lean ====
section
/-! PROOFS. The statements of spec/20_memory.md: the bytes of an access (R62, R64, R65), the canonical form
of the backing store (R69, log 6), and the assert of an access (R60, R67). -/

namespace Sys2Proof.Machine

/-! ### The canonical form (R69, log 6) -/

theorem Memory.read_cons_same (a : Nat) (v : Byte) (m : Memory) : Memory.read ((a, v) :: m) a = v :=
  if_pos rfl

theorem Memory.read_cons_of_ne {a x : Nat} (v : Byte) (m : Memory) (h : x ≠ a) :
    Memory.read ((a, v) :: m) x = Memory.read m x := if_neg h

theorem wfFrom_cons {lo a : Nat} {v : Byte} {m : Memory} :
    Memory.wfFrom lo ((a, v) :: m) = true ↔
      lo ≤ a ∧ a < 2 ^ 24 ∧ v ≠ unlistedByte ∧ Memory.wfFrom (a + 1) m = true := by
  simp only [Memory.wfFrom, Bool.and_eq_true, decide_eq_true_eq, and_assoc]

/-- Of two canonical memories that read the same, the second does not start above the first: below its
first address a canonical memory is unlisted. -/
theorem first_listed_le {lo lo' a b : Nat} {v u : Byte} {m m' : Memory}
    (hw : Memory.wfFrom lo ((a, v) :: m) = true) (hw' : Memory.wfFrom lo' ((b, u) :: m') = true)
    (h : ∀ x, Memory.read ((a, v) :: m) x = Memory.read ((b, u) :: m') x) : b ≤ a := by
  obtain ⟨-, -, hv, -⟩ := wfFrom_cons.1 hw
  obtain ⟨-, hb, hu, htail⟩ := wfFrom_cons.1 hw'
  by_contra hab
  have hfrom : Memory.wfFrom b ((b, u) :: m') = true := wfFrom_cons.2 ⟨le_rfl, hb, hu, htail⟩
  refine hv ?_
  calc v = Memory.read ((a, v) :: m) a := (Memory.read_cons_same a v m).symm
    _ = Memory.read ((b, u) :: m') a := h a
    _ = unlistedByte := read_below hfrom (not_le.1 hab)

/-- A canonical memory that lists a byte does not read as the empty one. -/
theorem read_cons_ne_unlisted {lo a : Nat} {v : Byte} {m : Memory}
    (hw : Memory.wfFrom lo ((a, v) :: m) = true) : Memory.read ((a, v) :: m) a ≠ unlistedByte := by
  obtain ⟨-, -, hv, -⟩ := wfFrom_cons.1 hw
  rwa [Memory.read_cons_same]

/-- Behind the same first address, tails of canonical memories that read the same read the same. -/
theorem tails_read_eq {a : Nat} {v u : Byte} {m m' : Memory} (hw : Memory.wfFrom (a + 1) m = true)
    (hw' : Memory.wfFrom (a + 1) m' = true)
    (h : ∀ x, Memory.read ((a, v) :: m) x = Memory.read ((a, u) :: m') x) (x : Nat) :
    Memory.read m x = Memory.read m' x := by
  by_cases hx : x = a
  · rw [read_below hw (by omega), read_below hw' (by omega)]
  · rw [← Memory.read_cons_of_ne v m hx, ← Memory.read_cons_of_ne u m' hx, h x]

/-- Canonical memories with the same contents are the same list (log 6). -/
theorem eq_of_wfFrom_of_read_eq {lo : Nat} {m1 m2 : Memory} (h1 : Memory.wfFrom lo m1 = true)
    (h2 : Memory.wfFrom lo m2 = true) (h : ∀ x, m1.read x = m2.read x) : m1 = m2 := by
  induction m1 generalizing lo m2 with
  | nil =>
    cases m2 with
    | nil => rfl
    | cons c m2 => exact absurd (h c.1).symm (read_cons_ne_unlisted h2)
  | cons c m1 ih =>
    obtain ⟨a, v⟩ := c
    cases m2 with
    | nil => exact absurd (h a) (read_cons_ne_unlisted h1)
    | cons d m2 =>
      obtain ⟨b, u⟩ := d
      obtain rfl : a = b :=
        le_antisymm (first_listed_le h2 h1 fun x => (h x).symm) (first_listed_le h1 h2 h)
      obtain ⟨-, -, -, ht1⟩ := wfFrom_cons.1 h1
      obtain ⟨-, -, -, ht2⟩ := wfFrom_cons.1 h2
      have hvalue : v = u := by
        rw [← Memory.read_cons_same a v m1, h a, Memory.read_cons_same]
      rw [hvalue, ih ht1 ht2 (tails_read_eq ht1 ht2 h)]

/-- Settles O53: both clauses are laws of the backing store. -/
theorem memoryCanonical : Obligations.MemoryCanonical :=
  ⟨fun _ e a n v => wf_store e a n v, fun _ _ => eq_of_wfFrom_of_read_eq⟩

/-! ### The bytes of an access (R62, R64, R65) -/

/-- Little: byte `k` has the weight `256^k`. -/
theorem leValue_map_range (f : Nat → Byte) (n : Nat) :
    leValue ((List.range n).map f) = ((List.range n).map fun k => (f k).toNat * 2 ^ (8 * k)).sum := by
  induction n generalizing f with
  | zero => rfl
  | succ n ih =>
    have hweight (k : Nat) :
        (f (k + 1)).toNat * 2 ^ (8 * (k + 1)) = 256 * ((f (k + 1)).toNat * 2 ^ (8 * k)) := by
      rw [Nat.mul_add, Nat.pow_add]; ring
    simp only [List.range_succ_eq_map, List.map_cons, List.map_map, List.sum_cons, leValue, ih,
      Function.comp_def, Nat.succ_eq_add_one, hweight, List.sum_map_mul_left]
    simp

/-- Big: byte `k` of `n` has the weight `256^(n - 1 - k)`. -/
theorem leValue_reverse_map_range (f : Nat → Byte) (n : Nat) :
    leValue ((List.range n).map f).reverse =
      ((List.range n).map fun k => (f k).toNat * 2 ^ (8 * (n - 1 - k))).sum := by
  induction n with
  | zero => rfl
  | succ n ih =>
    have hweight : ∀ k ∈ List.range n, (f k).toNat * 2 ^ (8 * (n + 1 - 1 - k)) =
        256 * ((f k).toNat * 2 ^ (8 * (n - 1 - k))) := by
      intro k hk
      have hlt := List.mem_range.1 hk
      rw [show 8 * (n + 1 - 1 - k) = 8 * (n - 1 - k) + 8 by omega, Nat.pow_add]; ring
    simp only [List.range_succ, List.map_append, List.map_singleton, List.reverse_append,
      List.reverse_singleton, List.singleton_append, leValue, ih, List.sum_append,
      List.map_congr_left hweight, List.sum_map_mul_left]
    simp [Nat.add_comm]

/-- The bytes of a value give back the part of it that they hold. -/
theorem leValue_leBytes (n v : Nat) : leValue (leBytes n v) = v % 256 ^ n := by
  induction n generalizing v with
  | zero => simp [leBytes, leValue, Nat.mod_one]
  | succ n ih => rw [leBytes, leValue, ih, BitVec.toNat_ofNat, pow_succ' 256 n, Nat.mod_mul]

theorem orderBytes_orderBytes (e : Endian) (l : List Byte) : orderBytes e (orderBytes e l) = l := by
  cases e with
  | little => rfl
  | big => exact l.reverse_reverse

theorem map_accessAddrs {α : Type} (f : Nat → α) (a : Addr) (n : Nat) :
    (accessAddrs a n).map f = (List.range n).map fun k => f ((a.toNat + k) % 2 ^ 24) :=
  List.map_map

/-- After a store the addresses of the access hold the value's bytes in the order of `endian`. -/
theorem map_read_store {m : Memory} (h : m.wf = true) (e : Endian) (a : Addr) {n : Nat} (hn : n ≤ 3)
    (v : Data) :
    (accessAddrs a n).map (m.store e a n v).read = orderBytes e (leBytes n v.toNat) := by
  rw [map_accessAddrs]
  refine List.ext_getElem ?length fun k hk _ => ?byte
  case length => rw [List.length_map, List.length_range, orderBytes_length, leBytes_length]
  case byte =>
    rw [List.getElem_map, List.getElem_range, orderBytes_get]
    exact (store_reads h e a hn v).1 k (by simpa using hk)

/-- A load after a store of the same bytes gives the value's low bytes. -/
theorem load_store_toNat {m : Memory} (h : m.wf = true) (e : Endian) (a : Addr) {n : Nat} (hn : n ≤ 3)
    (v : Data) : ((m.store e a n v).load e a n).toNat = v.toNat % 256 ^ n := by
  rw [Memory.load, loadBytes_toNat _ e a hn, map_read_store h e a hn v, orderBytes_orderBytes,
    leValue_leBytes]

/-- Settles O52: each order's load by the weights of its bytes, then what a store leaves. -/
theorem memoryBytes : Obligations.MemoryBytes := by
  intro m a n v hwf hn byte
  refine ⟨?little, ?big, fun e => ?store⟩
  case little =>
    rw [Memory.load, loadBytes_toNat _ _ a hn, map_accessAddrs]
    exact leValue_map_range _ n
  case big =>
    rw [Memory.load, loadBytes_toNat _ _ a hn, map_accessAddrs]
    exact leValue_reverse_map_range _ n
  case store =>
    obtain ⟨hbytes, hother⟩ := store_reads hwf e a hn v
    exact ⟨hbytes, hother, load_store_toNat hwf e a hn v⟩

/-! ### The assert of an access (R60, R67) -/

theorem assertBusy_of_ready {s : State} (o : Owner) (busy : Ctl) (h : s.ctl = .ready) :
    s.assertBusy o busy = ({ s with ctl := busy }, true) := by
  simp only [State.assertBusy, h]

theorem assertBusy_of_not_ready {s : State} (o : Owner) (busy : Ctl) (h : s.ctl ≠ .ready) :
    s.assertBusy o busy =
      if s.ctl.owner = some o then (s.violate .ownerReassert, false) else (s, false) := by
  unfold State.assertBusy
  split
  · exact absurd ‹s.ctl = .ready› h
  · rfl

theorem Ctl.ne_ready_of_owner {c : Ctl} {o : Owner} (h : c.owner = some o) : c ≠ .ready := by
  rintro rfl
  cases h

/-- The assert of a stage that does not own the access in flight is rejected (R67). -/
theorem assertBusy_of_other_owner {s : State} {o : Owner} (busy : Ctl) (h : s.ctl ≠ .ready)
    (ho : s.ctl.owner ≠ some o) : s.assertBusy o busy = (s, false) := by
  rw [assertBusy_of_not_ready o busy h, if_neg ho]

/-- The owner's second assert is the caller error (R67, R406). -/
theorem assertBusy_of_owner {s : State} {o : Owner} (busy : Ctl) (ho : s.ctl.owner = some o) :
    s.assertBusy o busy = (s.violate .ownerReassert, false) := by
  rw [assertBusy_of_not_ready o busy (Ctl.ne_ready_of_owner ho), if_pos ho]

/-- Settles O58: a read's and a write's assert differ in the state they leave the controller in. -/
theorem assertProtocol : Obligations.AssertProtocol := fun _ o _ _ _ =>
  ⟨fun h => ⟨assertBusy_of_ready o _ h, assertBusy_of_ready o _ h⟩,
    fun h ho => ⟨assertBusy_of_other_owner _ h ho, assertBusy_of_other_owner _ h ho⟩,
    fun ho => ⟨assertBusy_of_owner _ ho, assertBusy_of_owner _ ho⟩⟩

end Sys2Proof.Machine
end

