-- ==== Sys2Proof/Proofs/EncodingFamily.lean ====
section
/-! PROOFS. The statements of spec/30_encoding.md: the words of a well-formed instruction decode to it and
its opcode word counts them (R92, R122 to R127), and what the decoder answers is well-formed and decodes
back. -/

namespace Sys2Proof

/-! ### The words of an instruction decode to it (R122 to R127) -/

/-- One case for each row of the opcode table. -/
theorem decodeWords_encode (i : Instr) : Laws.RoundTrip.Statement i := by
  open Laws.RoundTrip in
  cases i with
  | addR w d s => exact addR w d s
  | addI w d v => exact addI w d v
  | adcR w d s => exact adcR w d s
  | adcI w d v => exact adcI w d v
  | subR w d s => exact subR w d s
  | subI w d v => exact subI w d v
  | sbcR w d s => exact sbcR w d s
  | sbcI w d v => exact sbcI w d v
  | andR w d s => exact andR w d s
  | andI w d v => exact andI w d v
  | orR w d s => exact orR w d s
  | orI w d v => exact orI w d v
  | xorR w d s => exact xorR w d s
  | xorI w d v => exact xorI w d v
  | cmpR w d s => exact cmpR w d s
  | cmpI w d v => exact cmpI w d v
  | ldRR w r s => exact ldRR w r s
  | ldRI w r v => exact ldRI w r v
  | ldRM w r rm => exact ldRM w r rm
  | ldMR w r rm => exact ldMR w r rm
  | jpAbs cc a => exact jpAbs cc a
  | jrRel cc d => exact jrRel cc d
  | jpReg cc r => exact jpReg cc r
  | callAbs a => exact callAbs a
  | retn => exact retn
  | pushR w r => exact pushR w r
  | popR w r => exact popR w r
  | bitM w n rm => exact bitM w n rm
  | setM w n rm => exact setM w n rm
  | resM w n rm => exact resM w n rm
  | shlR w r => exact shlR w r
  | rlR w r => exact rlR w r
  | rolR w r => exact rolR w r
  | shrR w r => exact shrR w r
  | sarR w r => exact sarR w r
  | rrR w r => exact rrR w r
  | rorR w r => exact rorR w r
  | inR r n => exact inR r n
  | outR r n => exact outR r n
  | ldRF r => exact ldRF r
  | ldFR r => exact ldFR r

/-! ### The opcode word alone counts the words (R92)

`encNExt` decodes the opcode word with extension words of zeros. Those words are the encoding of the
instruction with its extension fields zeroed, so the round trip itself says how many of them are taken. -/

/-- The RM operand whose extension words are zeros. -/
def Rm.zeroed : Rm → Rm
  | .disp b _ => .disp b 0
  | .pc8 _ => .pc8 0
  | .pc16 _ => .pc16 0
  | .pc24 _ => .pc24 0
  | .abs _ => .abs 0
  | .absIdx _ _ => .absIdx 0 0
  | .imm _ => .imm 0
  | rm => rm

/-- The instruction of the same opcode word whose extension words are zeros. -/
def Instr.zeroed : Instr → Instr
  | .addI w d _ => .addI w d 0
  | .adcI w d _ => .adcI w d 0
  | .subI w d _ => .subI w d 0
  | .sbcI w d _ => .sbcI w d 0
  | .andI w d _ => .andI w d 0
  | .orI w d _ => .orI w d 0
  | .xorI w d _ => .xorI w d 0
  | .cmpI w d _ => .cmpI w d 0
  | .ldRI w r _ => .ldRI w r 0
  | .ldRM w r rm => .ldRM w r rm.zeroed
  | .ldMR w r rm => .ldMR w r rm.zeroed
  | .jpAbs cc _ => .jpAbs cc 0
  | .jrRel cc _ => .jrRel cc 0
  | .callAbs _ => .callAbs 0
  | .bitM w _ rm => .bitM w 0 rm.zeroed
  | .setM w _ rm => .setM w 0 rm.zeroed
  | .resM w _ rm => .resM w 0 rm.zeroed
  | .inR r _ => .inR r 0
  | .outR r _ => .outR r 0
  | i => i

theorem immFits_zero (w : Width) : immFits w 0 = true := by cases w <;> rfl

theorem bitInside_zero (w : Width) : bitInside w 0#5 = true := by cases w <;> rfl

theorem immWords_zero (w : Width) (v : Data) :
    immWords w 0 = List.replicate (immWords w v).length 0 := by cases w <;> rfl

theorem immWords_length_le (w : Width) (v : Data) : (immWords w v).length ≤ 2 := by
  cases w <;> simp [immWords, split24]

theorem Rm.fits_zeroed (w : Width) (rm : Rm) : rm.zeroed.fits w = true := by
  cases rm with
  | imm => exact immFits_zero w
  | _ => rfl

@[simp] theorem Rm.isImm_zeroed (rm : Rm) : rm.zeroed.isImm = rm.isImm := by cases rm <;> rfl

@[simp] theorem rmCode_zeroed (rm : Rm) : rmCode rm.zeroed = rmCode rm := by cases rm <;> rfl

theorem rmWords_zeroed (w : Width) (rm : Rm) :
    rmWords w rm.zeroed = List.replicate (rmWords w rm).length 0 := by
  cases rm with
  | imm v => exact immWords_zero w v
  | _ => rfl

theorem rmWords_length_le (w : Width) (rm : Rm) : (rmWords w rm).length ≤ 2 := by
  cases rm with
  | imm v => exact immWords_length_le w v
  | _ => simp [rmWords, split24]

theorem wellFormed_zeroed {i : Instr} (h : wellFormed i = true) : wellFormed i.zeroed = true := by
  cases i with
  | addI w | adcI w | subI w | sbcI w | andI w | orI w | xorI w | cmpI w | ldRI w =>
    exact immFits_zero w
  | ldRM w r rm => exact rm.fits_zeroed w
  | ldMR w r rm => simpa [Instr.zeroed, wellFormed] using h
  | bitM w n rm => simp [Instr.zeroed, wellFormed, bitInside_zero, Rm.fits_zeroed]
  | setM w n rm | resM w n rm =>
    have hdest : (!rm.isImm) = true := (Bool.and_eq_true_iff.mp h).2
    simp [Instr.zeroed, wellFormed, bitInside_zero, hdest]
  | _ => rfl

/-- Zeroing the extension fields keeps the opcode word and the number of words. -/
theorem encode_zeroed (i : Instr) :
    encode i.zeroed = (encode i).headD 0 :: List.replicate (encode i).tail.length 0 := by
  cases i with
  | addI w d v | adcI w d v | subI w d v | sbcI w d v | andI w d v | orI w d v | xorI w d v
  | cmpI w d v | ldRI w r v =>
    exact congrArg (List.cons _) (immWords_zero w v)
  | ldRM w r rm | ldMR w r rm => simp [Instr.zeroed, encode, rmWords_zeroed]
  | bitM w n rm | setM w n rm | resM w n rm =>
    simp [Instr.zeroed, encode, encBit, rmWords_zeroed, List.replicate_succ]
  | _ => rfl

theorem encode_ne_nil (i : Instr) : encode i ≠ [] := by
  cases i <;> exact List.cons_ne_nil _ _

/-- No instruction has more extension words than the record has slots for them (R90, R104). -/
theorem encode_tail_length_le (i : Instr) : (encode i).tail.length ≤ 4 := by
  cases i with
  | addI w d v | adcI w d v | subI w d v | sbcI w d v | andI w d v | orI w d v | xorI w d v
  | cmpI w d v | ldRI w r v =>
    exact (immWords_length_le w v).trans (by decide)
  | ldRM w r rm | ldMR w r rm => exact (rmWords_length_le w rm).trans (by decide)
  | bitM w n rm | setM w n rm | resM w n rm =>
    exact Nat.succ_le_succ ((rmWords_length_le w rm).trans (by decide))
  | _ => simp [encode, encAluR, encIo, split24]

/-- `n_ext` of a well-formed instruction's opcode word is the number of its extension words (R92). -/
theorem encNExt_encode {i : Instr} (h : wellFormed i = true) :
    encNExt true ((encode i).headD 0) = (encode i).tail.length := by
  have hk := encode_tail_length_le i
  have hround := decodeWords_encode i.zeroed (wellFormed_zeroed h)
    (List.replicate (4 - (encode i).tail.length) 0)
  rw [encode_zeroed, List.cons_append, List.replicate_append_replicate, Nat.add_sub_cancel' hk] at hround
  have hzeros : decodeWords true [(encode i).headD 0, 0, 0, 0, 0] =
      .ok (i.zeroed, List.replicate (4 - (encode i).tail.length) 0) := hround
  simp only [encNExt, hzeros, List.length_replicate]
  omega

/-- Settles O4: the round trip row by row, and the count by the round trip of the zeroed instruction. -/
theorem roundTrip : Obligations.RoundTrip := by
  intro i rest h
  refine ⟨decodeWords_encode i h rest, ?_⟩
  rw [encNExt_encode h, List.length_tail]
  have := List.length_pos_of_ne_nil (encode_ne_nil i)
  omega

/-! ### What the decoder answers decodes back -/

/-- The parameter `admit_other` decides on the instructions of the other group alone (R370). -/
theorem decodeWords_of_admitted {adm : Bool} {ws rest : List Word16} {i : Instr}
    (h : decodeWords true ws = .ok (i, rest)) (hadm : Machine.isOther i = true → adm = true) :
    decodeWords adm ws = .ok (i, rest) := by
  cases ws with
  | nil => cases h
  | cons w xs =>
    simp only [decodeWords] at h ⊢
    split at h
    -- the fourth arm is group 100, the only one that reads `adm`
    case h_4 =>
      rw [if_pos (hadm (Machine.decoded_other h).other)]
      exact h
    all_goals exact h

/-- Settles O5: the group of what was decoded is admitted, so its own words decode by the round trip. -/
theorem decodedWellFormed : Obligations.DecodedWellFormed := by
  intro admitted ws i rest h
  obtain ⟨other, ⟨hother, hwf, hlen⟩, hadm⟩ := Machine.decoded_words h
  have hround : decodeWords true (encode i) = .ok (i, []) := by
    simpa using decodeWords_encode i hwf []
  exact ⟨hwf, decodeWords_of_admitted hround fun ho => hadm (hother.symm.trans ho), hlen⟩

end Sys2Proof
end

