-- ==== Sys2Proof/Proofs/FetchFamily.lean ====
section
/-! PROOFS. The statements of spec/40_fetch.md: a redirect empties Fetch (R145 to R147), Fetch leaves the
port to Execute (R148), the front end writes nothing the program sees (R37, R151), and every step keeps the
machine's invariant (R149, R150). -/

namespace Sys2Proof.Machine

/-! ### Every step keeps the invariant (R39, R272, R406) -/

/-- The tick of a stopped core can complete a write, which keeps memory canonical. -/
theorem tick_inv_of_not_running {s : State} (h : Inv s) (hs : s.status ≠ .running) : Inv (tick s) := by
  have hstatus : (tick s).status = s.status := by rw [tick_cases]
  have hcfg : (tick s).cfg = s.cfg := by rw [tick_cases]
  refine ⟨hcfg ▸ h.cfg, wf_tick h.mem, fun a ha => h.lawful a (hstatus ▸ ha), fun hrun => ?_⟩
  exact absurd (hstatus.symm.trans hrun) hs

theorem waiting_iff (s : State) : s.waiting = true ↔ Waits s := by
  simp only [State.waiting, Bool.and_eq_true, beq_iff_eq, Option.isNone_iff_eq_none]
  exact ⟨fun ⟨⟨hst, hcw⟩, hpend⟩ => ⟨hst, hcw, hpend⟩, fun ⟨hst, hcw, hpend⟩ => ⟨⟨hst, hcw⟩, hpend⟩⟩

/-- A step of a waiting core fills the slot, then runs the record in it (R272, log 1). -/
theorem step_of_waits {s : State} (hr : s.status = .running) (hw : Waits s) :
    step s = if (fillTurns s.fuel s).running && (fillTurns s.fuel s).ready
      then runSlot (fillTurns s.fuel s) else .next (fillTurns s.fuel s) := by
  simp [step, running_of hr, (waiting_iff s).2 hw]

/-- A step that finds a record in Execute goes on with it (R276, log 13). -/
theorem step_of_not_waits {s : State} (hr : s.status = .running) (hw : ¬ Waits s) :
    step s = .next (runTurns s.fuel s) := by
  simp [step, running_of hr, mt (waiting_iff s).1 hw]

/-- A step of a waiting core keeps the invariant: the fill stops the machine, or leaves it waiting, with a
record to run or without one. -/
theorem step_inv_of_waits {s t : State} (h : CutInv s) (hw : Waits s) (ht : step s = .next t) :
    Inv t := by
  rw [step_of_waits h.run hw] at ht
  rcases fillTurns_waits s.fuel h hw with hstopped | ⟨hcut, hwaits⟩
  · rw [not_running hstopped.status] at ht
    obtain rfl := Host.Outcome.next.inj ht
    exact stopped_inv hstopped
  · rw [running_of hcut.run, Bool.true_and] at ht
    split at ht
    next hready => exact runSlot_inv hcut hwaits hready ht
    next =>
      obtain rfl := Host.Outcome.next.inj ht
      exact cut_inv hcut

/-- Settles O3: a stopped core ticks, a waiting one fills the slot and runs it, and any other one goes on
with the record in Execute. -/
theorem stepKeepsInv : Obligations.StepKeepsInv := by
  intro s t h ht
  by_cases hr : s.status = .running
  · have hcut := ordered_cut h hr
    by_cases hw : Waits s
    · exact step_inv_of_waits hcut hw ht
    · rw [step_of_not_waits hr hw] at ht
      obtain rfl := Host.Outcome.next.inj ht
      exact runTurns_inv hcut _
  · rw [step_of_not_running hr] at ht
    obtain rfl := Host.Outcome.next.inj ht
    exact tick_inv_of_not_running h hr

/-! ### The two parts of Fetch's half2 (R145, R147, R148) -/

/-- Servicing a redirect changes Fetch only. -/
theorem fetchRedirect_eq (s : State) :
    fetchRedirect s = { s with fetch := (fetchRedirect s).fetch } := by
  unfold fetchRedirect
  split <;> rfl

theorem fetchRedirect_of_some {s : State} {r : Redirect} (h : s.fetch.redir = some r) :
    fetchRedirect s = { s with fetch :=
      { fetchAddr := r.target, queue := [], out := none
        pf := s.fetch.pf.map fun p => { p with stale := true }, redir := none } } := by
  simp only [fetchRedirect, h]

/-- Fetch after its read at the fetch address has been accepted (R147). -/
def FetchState.issued (c : Config) (f : FetchState) : FetchState :=
  { f with pf := some ⟨f.fetchAddr, false⟩, fetchAddr := seqAddr c.pcWrap f.fetchAddr }

/-- What the issue can do: nothing, the caller error of R67, or a read that the READY controller accepts. -/
theorem fetchIssue_cases (s : State) :
    fetchIssue s = s ∨ fetchIssue s = s.violate .ownerReassert ∨
      (s.fetch.pf = none ∧ fetchIssue s = { s with
        ctl := .readBusy s.fetch.fetchAddr 2 .fetch, fetch := s.fetch.issued s.cfg }) := by
  unfold fetchIssue State.assertRead
  split
  next hasks =>
    simp only [Bool.and_eq_true, Option.isNone_iff_eq_none] at hasks
    obtain ⟨⟨hpf, -⟩, -⟩ := hasks
    by_cases hready : s.ctl = .ready
    · rw [assertBusy_of_ready _ _ hready]
      exact .inr (.inr ⟨hpf, rfl⟩)
    · by_cases howner : s.ctl.owner = some .fetch
      · rw [assertBusy_of_owner _ howner]
        exact .inr (.inl rfl)
      · rw [assertBusy_of_other_owner _ hready howner]
        exact .inl rfl
  next => exact .inl rfl

/-- Fetch asks for nothing while Execute wants the port (R148). -/
theorem fetchIssue_of_wanted {s : State} (h : s.ex.exWantsMem = true) : fetchIssue s = s := by
  simp [fetchIssue, h]

/-- The issue leaves Fetch as it is, or it asks for the word at the fetch address. -/
theorem fetchIssue_fetch (s : State) :
    (fetchIssue s).fetch = s.fetch ∨
      (s.fetch.pf = none ∧ (fetchIssue s).fetch = s.fetch.issued s.cfg) := by
  rcases fetchIssue_cases s with h | h | ⟨hpf, h⟩
  · exact .inl (by rw [h])
  · exact .inl (by rw [h, State.violate_fetch])
  · exact .inr ⟨hpf, by rw [h]⟩

/-- Settles O56: the redirect is serviced first, and the issue after it keeps what it leaves or asks for the
word at the target. -/
theorem redirectFlushes : Obligations.RedirectFlushes := by
  intro s r hrun hredir
  have hflush := fetchRedirect_of_some hredir
  simp only [fetchHalf2, running_of hrun, if_true]
  rcases fetchIssue_fetch (fetchRedirect s) with hkept | ⟨hpf, hissued⟩
  · rw [hkept, hflush]
    exact ⟨rfl, rfl, rfl, .inl ⟨rfl, rfl⟩⟩
  · rw [hissued]
    rw [hflush] at hpf ⊢
    exact ⟨rfl, rfl, rfl, .inr ⟨Option.map_eq_none_iff.1 hpf, rfl, rfl⟩⟩

/-- Settles O57: with the issue held back, half2 is the servicing of a redirect. -/
theorem fetchBacksOff : Obligations.FetchBacksOff := by
  intro s hwants
  have hex : (fetchRedirect s).ex = s.ex := by rw [fetchRedirect_eq]
  have hstatus : (fetchRedirect s).status = s.status := by rw [fetchRedirect_eq]
  obtain ⟨hctl, hpf⟩ := fetchRedirect_ctl s
  unfold fetchHalf2
  split
  · rw [fetchIssue_of_wanted (by rw [hex, hwants])]
    exact ⟨hctl, hpf, hstatus⟩
  · exact ⟨rfl, rfl, rfl⟩

/-! ### What the front end leaves alone (R37, R151) -/

/-- The part of the state that Fetch and Decode may not write. -/
def State.behindFront (s : State) : Vector GReg 8 × Flags × Latch × Latch × Memory × List Write ×
    List LogEntry × Config × Fin 1 :=
  (s.regs, s.f, s.mar, s.mdr, s.mem, s.writes, s.log, s.cfg, s.shadowSelect)

theorem fetchCollect_behindFront (s : State) : (fetchCollect s).behindFront = s.behindFront := by
  unfold fetchCollect
  split
  · rfl
  · split <;> rfl

theorem fetchShift_behindFront (s : State) : (fetchShift s).behindFront = s.behindFront := by
  unfold fetchShift
  split <;> rfl

theorem fetchHalf1_behindFront (s : State) : (fetchHalf1 s).behindFront = s.behindFront := by
  unfold fetchHalf1
  split
  · rw [fetchShift_behindFront, fetchCollect_behindFront]
  · rfl

theorem fetchRedirect_behindFront (s : State) : (fetchRedirect s).behindFront = s.behindFront := by
  rw [fetchRedirect_eq]
  rfl

theorem fetchIssue_behindFront (s : State) : (fetchIssue s).behindFront = s.behindFront := by
  rcases fetchIssue_cases s with h | h | ⟨-, h⟩ <;> rw [h] <;> rfl

theorem fetchHalf2_behindFront (s : State) : (fetchHalf2 s).behindFront = s.behindFront := by
  unfold fetchHalf2
  split
  · rw [fetchIssue_behindFront, fetchRedirect_behindFront]
  · rfl

theorem decodeHalf1_behindFront (s : State) : (decodeHalf1 s).behindFront = s.behindFront := by
  unfold decodeHalf1
  split
  · split <;> rfl
  · rfl

theorem publish_behindFront (r : Record) (s : State) : (publish r s).behindFront = s.behindFront := by
  unfold publish
  split <;> rfl

theorem decDispatch_behindFront (s : State) : (decDispatch s).behindFront = s.behindFront := by
  unfold decDispatch
  dsimp only
  split
  · rfl
  · exact publish_behindFront _ s

theorem decOperands_behindFront (s : State) : (decOperands s).behindFront = s.behindFront := by
  unfold decOperands
  split
  · rfl
  · dsimp only
    split
    · rfl
    · exact decDispatch_behindFront _

theorem decOpcode_behindFront (s : State) : (decOpcode s).behindFront = s.behindFront := by
  unfold decOpcode
  split
  · rfl
  · dsimp only
    split
    · rfl
    · exact decDispatch_behindFront _

theorem decRun_behindFront (s : State) : (decRun s).behindFront = s.behindFront := by
  unfold decRun
  cases s.dec.dstate with
  | waitForSlot =>
    dsimp only
    split
    · rfl
    · exact decOpcode_behindFront s
  | readOpcode => exact decOpcode_behindFront s
  | readOperands => exact decOperands_behindFront s
  | dispatch => exact decDispatch_behindFront s

theorem decodeHalf2_behindFront (s : State) : (decodeHalf2 s).behindFront = s.behindFront := by
  unfold decodeHalf2
  split
  · split
    · rfl
    · exact decRun_behindFront _
  · rfl

/-- Settles O59, half-step by half-step. -/
theorem frontEndFrame : Obligations.FrontEndFrame := by
  intro s t ht
  have hsame : t.behindFront = s.behindFront := by
    rcases ht with rfl | rfl | rfl | rfl
    · exact fetchHalf1_behindFront s
    · exact fetchHalf2_behindFront s
    · exact decodeHalf1_behindFront s
    · exact decodeHalf2_behindFront s
  simpa only [State.behindFront, Prod.mk.injEq] using hsame

end Sys2Proof.Machine
end

