-- ==== Sys2Proof/Proofs/DecodeFamily.lean ====
section
/-! PROOFS. The statements of spec/41_decode.md: what Decode redirects for and what it holds the younger
records behind (R178, R179), and a step as the run of the record that Decode publishes (R170, R174). -/

namespace Sys2Proof.Machine

/-! ### The record of decoded words (R170, R171) -/

/-- Words that ENC_REF reads as an instruction give the record of its program. -/
theorem decodeRecord_of_decodeRef {c : Config} {ws rest : List Word16} {i : Instr} {p : Program}
    (henc : c.enc = .ref) (hdec : decodeRef c ws = .ok (i, rest)) (hprog : programOf c i = some p)
    (ia : Addr) : decodeRecord c ws ia = mkRecord c ws ia (.instr i) p := by
  simp only [decodeRecord, henc, refRecord, hdec, hprog]

/-- The parameters only refuse: what they admit is read from the words as ENC_REF reads it (R8). -/
theorem decodeWords_of_decodeRef {c : Config} {ws rest : List Word16} {i : Instr}
    (h : decodeRef c ws = .ok (i, rest)) : decodeWords c.admitOther ws = .ok (i, rest) := by
  unfold decodeRef at h
  split at h
  next hwords =>
    split at h <;> cases h
    exact hwords
  next => cases h

theorem operandsAt_decodeRef {c : Config} {ws : List Word16} {i : Instr}
    (h : decodeRef c ws = .ok (i, [])) : operandsAt ws i :=
  operandsAt_decoded (decodeWords_of_decodeRef h)

/-! ### Branches that Decode redirects for, and branches that hold (R178, R179) -/

theorem sext_w8_word (x : Word16) :
    Width.sext .w8 (BitVec.ofNat 24 x.toNat) = (BitVec.ofNat 8 x.toNat).signExtend 24 := by
  rw [Width.sext, BitVec.setWidth_ofNat_of_le (by decide)]

theorem Record.follow_of_static {r : Record} (hbranch : r.isBranch = true) (hstatic : r.prog.static = true) :
    r.follow = staticTarget r := by
  simp [Record.follow, hbranch, hstatic]

theorem Record.holds_of_static {r : Record} (hvalid : r.isInvalid = false) (hstatic : r.prog.static = true) :
    r.holds = false := by
  simp [Record.holds, hvalid, hstatic]

theorem Record.holds_of_not_static {r : Record} (hbranch : r.isBranch = true)
    (hstatic : r.prog.static = false) : r.holds = true := by
  simp [Record.holds, hbranch, hstatic]

theorem staticTarget_absImm {r : Record} (hkind : r.prog.bkind = .absImm) :
    staticTarget r = slotData r.words 1 := by
  simp only [staticTarget, hkind]

theorem staticTarget_relImm {r : Record} (hkind : r.prog.bkind = .relImm) :
    staticTarget r = r.instrAddr + (BitVec.ofNat 8 (slotWord r.words 1).toNat).signExtend 24 := by
  simp only [staticTarget, hkind, sext_w8_word]

theorem isStatic_of_ne {cc : Cond} (h : cc ≠ .t) (k : BKind) : isStatic cc k = false := by
  simp [isStatic, h]

theorem isStatic_reg (cc : Cond) : isStatic cc .reg = false := Bool.and_false _

/-- Settles O55: the record is that of the branch's program, whose kind and `static` say whether it
follows its static target or holds, and its words hold the target. -/
theorem staticTargets : Obligations.StaticTargets := by
  intro c ws ia i henc hdec r
  have hrecord {p : Program} (hprog : programOf c i = some p) : r = mkRecord c ws ia (.instr i) p :=
    decodeRecord_of_decodeRef henc hdec hprog ia
  have hwords := operandsAt_decodeRef hdec
  refine ⟨?_, ?_, ?_, ?_⟩
  · rintro a (rfl | rfl) <;> obtain ⟨-, rfl⟩ := hwords <;> rw [hrecord rfl] <;>
      exact ⟨(Record.follow_of_static rfl rfl).trans (staticTarget_absImm rfl),
        Record.holds_of_static rfl rfl⟩
  · rintro d rfl
    obtain ⟨-, rfl⟩ := hwords
    rw [hrecord rfl]
    exact ⟨(Record.follow_of_static rfl rfl).trans (staticTarget_relImm rfl),
      Record.holds_of_static rfl rfl⟩
  · rintro cc a d hcc (rfl | rfl) <;> rw [hrecord rfl] <;>
      exact Record.holds_of_not_static rfl (isStatic_of_ne hcc _)
  · rintro cc q (rfl | rfl) <;> rw [hrecord rfl]
    · exact Record.holds_of_not_static rfl (isStatic_reg cc)
    · exact Record.holds_of_not_static rfl rfl

/-! ### The step of a waiting core (R150, R153, R174) -/

theorem instrWords_ne_nil (s : State) (a : Addr) : s.instrWords a ≠ [] := by
  simp [State.instrWords, Nat.add_comm 1, State.wordsFrom]

/-- A full slot of a fresh machine holds the record of the words at the program counter. -/
theorem Fresh.slot_pc {s : State} (h : Fresh s) (hready : s.ready = true) :
    s.slot = decodeRecord s.cfg (s.instrWords s.pc) s.pc := by
  rw [pc_ready hready]
  exact h.slot hready

/-- While Execute has no record, Decode holds the younger ones exactly for the record in the slot. -/
theorem branchPending_of_waits {s : State} (h : CutInv s) (hw : Waits s) (hready : s.ready = true) :
    s.dec.branchPending = s.slot.holds := by
  have hpending := h.sound.dec.pending
  have hholds : s.ex.holds = false := by
    unfold ExecState.holds
    split <;> simp [hw.st]
  simpa [hready, hholds, h.br] using hpending

/-- A slot with the record of words that ENC_REF reads as `i` is run by `exec i`. -/
theorem runSlot_of_decodeRef {s : State} {ws rest : List Word16} {ia : Addr} {i : Instr}
    (henc : s.cfg.enc = .ref) (hdec : decodeRef s.cfg ws = .ok (i, rest))
    (hslot : s.slot = decodeRecord s.cfg ws ia) : runSlot s = exec i s := by
  obtain ⟨p, hprog⟩ := decodeRef_program hdec
  have hcls : s.slot.cls = .instr i := by
    rw [hslot, decodeRecord_of_decodeRef henc hdec hprog]
    rfl
  simp only [runSlot, hcls]

/-- Settles O8: the fill leaves a waiting machine with a full slot, the same architectural state and the same
program counter, and what is fresh stays fresh; so the slot is the record of the words that stood there. -/
theorem stepRunsDecoded : Obligations.StepRunsDecoded := by
  intro s hinv hrun hwaiting hfair hfresh
  have hcut := ordered_cut hinv hrun
  have hwaits := (waiting_iff s).1 hwaiting
  have hready := fillTurns_fills s.fuel s hcut hwaits hfair (toGo_fuel s)
  obtain ⟨hcut', hwaits', harch, hkeeps, hfresh'⟩ := fillTurns_keeps s.fuel s hcut hwaits
  have hstep := step_of_waits hrun hwaits
  generalize fillTurns s.fuel s = s1 at *
  replace hfresh' := hfresh' (Fresh.iff.1 hfresh)
  obtain ⟨hfront, hpc⟩ := hkeeps.front hcut.front
  obtain ⟨hcfg, hregs, hf, -, hmar, hmdr, hmem, -, hlog, hfair', hwrites, -⟩ := arch_all harch
  have hslot : s1.slot = decodeRecord s.cfg (s.instrWords s.pc) s.pc := by
    rw [hfresh'.slot_pc hready, hpc, instrWords_congr (State.load_congr hcfg hmem hwrites) hcfg, hcfg]
  obtain ⟨haddr, hnext⟩ := follow_decodeRecord s.cfg (s.instrWords s.pc) s.pc s1.slot hslot
  have hrunSlot : step s = runSlot s1 := by
    rw [hstep, if_pos (by rw [running_of hcut'.run, hready]; rfl)]
  refine ⟨s1, hrunSlot, waits_boundary hcut' hwaits' hready, hready, hfront, Fresh.iff.2 hfresh', hslot,
    haddr, hnext (instrWords_ne_nil s s.pc), branchPending_of_waits hcut' hwaits' hready, hcfg, hregs, hf,
    hmar, hmdr, hmem, hwrites, hlog, hfair', fun i rest henc hdec => ?_⟩
  rw [← hcfg] at henc hdec hslot
  exact hrunSlot.trans (runSlot_of_decodeRef henc hdec hslot)

end Sys2Proof.Machine
end

