-- ==== Sys2Proof/Proofs/MicrocodeFamily.lean ====
section
/-! PROOFS. The statements of spec/42_microcode.md: how many words the chains of an operand, of the push of
the program counter and of an I/O access have (R215, R217). -/

namespace Sys2Proof.Machine

/-! ### The length of a chain, word by word (R202, R217) -/

@[simp] theorem chainLen_none (c : Config) (ws : List Word16) (n : Nat) : chainLen c ws n .none = 0 := by
  cases n <;> rfl

/-- A generated word counts one, and the chain goes on with one step of fuel less. -/
theorem chainLen_of_gen {c : Config} {ws : List Word16} {d d' : Desc} {cw : ControlWord}
    (hgen : gen c ws d = some (cw, d')) (n : Nat) :
    chainLen c ws (n + 1) d = chainLen c ws n d' + 1 := by
  simp only [chainLen, hgen, Nat.add_comm 1]

/-- A chain that ends with the word of its first descriptor. -/
theorem chainLen_one {c : Config} {ws : List Word16} {d : Desc} {cw : ControlWord}
    (hgen : gen c ws d = some (cw, .none)) (n : Nat) : chainLen c ws (n + 1) d = 1 := by
  rw [chainLen_of_gen hgen, chainLen_none]

/-- A chain that ends with the word of its second descriptor. -/
theorem chainLen_two {c : Config} {ws : List Word16} {d d' : Desc} {cw cw' : ControlWord}
    (hgen : gen c ws d = some (cw, d')) (hgen' : gen c ws d' = some (cw', .none)) (n : Nat) :
    chainLen c ws (n + 2) d = 2 := by
  rw [chainLen_of_gen hgen, chainLen_one hgen']

/-! ### The chains of an operand (R205 to R213, R215) -/

/-- A mode's chain is as long in either direction: the generator takes the direction into the word alone. -/
theorem chainLen_firstDesc (c : Config) (ws : List Word16) (rm : Rm) (dir : Dir) (w : Width) (k n : Nat) :
    chainLen c ws (n + 2) (firstDesc rm dir w k) = modeSteps rm := by
  cases rm with
  | reg _ | imm _ => exact chainLen_none c ws _
  | ind _ | pc8 _ | pc16 _ | pc24 _ | abs _ | absIdx _ _ => exact chainLen_one rfl _
  | postInc _ | postDec _ | preInc _ | preDec _ | disp _ _ => exact chainLen_two rfl rfl n

/-- What the resolver answers: an operand without memory has no chains, and one in memory has the chains of
its mode under the role. -/
theorem resolve_cases {rm : Rm} {role : Role} {w : Width} {k : Nat} {x : Resolved}
    (h : resolve rm role w k = some x) :
    (rmIsMem rm = false ∧ x.before = .none ∧ x.after = .none) ∨
      (rmIsMem rm = true ∧ x = resolveMem rm role w k) := by
  cases rm with
  | reg b =>
    cases h
    exact .inl ⟨rfl, rfl, rfl⟩
  | imm v =>
    cases role with
    | read =>
      cases h
      exact .inl ⟨rfl, rfl, rfl⟩
    | write | rmw => cases h
  | _ =>
    cases h
    exact .inr ⟨rfl, rfl⟩

theorem modeSteps_of_not_mem {rm : Rm} (h : rmIsMem rm = false) : modeSteps rm = 0 := by
  cases rm with
  | reg _ | imm _ => rfl
  | _ => cases h

section
variable (c : Config) (ws : List Word16) {rm : Rm} {w : Width} {k : Nat} {x : Resolved} (n : Nat)

theorem chainLen_resolve_read (h : resolve rm .read w k = some x) :
    chainLen c ws (n + 2) x.before = modeSteps rm ∧ chainLen c ws (n + 2) x.after = 0 := by
  rcases resolve_cases h with ⟨hmem, hbefore, hafter⟩ | ⟨-, rfl⟩
  · simp [hbefore, hafter, modeSteps_of_not_mem hmem]
  · exact ⟨chainLen_firstDesc c ws rm .read w k n, chainLen_none c ws _⟩

theorem chainLen_resolve_write (h : resolve rm .write w k = some x) :
    chainLen c ws (n + 2) x.before = 0 ∧ chainLen c ws (n + 2) x.after = modeSteps rm := by
  rcases resolve_cases h with ⟨hmem, hbefore, hafter⟩ | ⟨-, rfl⟩
  · simp [hbefore, hafter, modeSteps_of_not_mem hmem]
  · exact ⟨chainLen_none c ws _, chainLen_firstDesc c ws rm .write w k n⟩

/-- The write-back of a read-modify-write is one word at the address in MAR (R215). -/
theorem chainLen_resolve_rmw (h : resolve rm .rmw w k = some x) :
    chainLen c ws (n + 2) x.before = modeSteps rm ∧
      chainLen c ws (n + 2) x.after = if rmIsMem rm then 1 else 0 := by
  rcases resolve_cases h with ⟨hmem, hbefore, hafter⟩ | ⟨hmem, rfl⟩
  · simp [hbefore, hafter, modeSteps_of_not_mem hmem, hmem]
  · rw [hmem]
    exact ⟨chainLen_firstDesc c ws rm .read w k n, chainLen_one rfl _⟩

end

/-! ### The push of the program counter and I/O (R214, R221) -/

/-- The push copies PC to MDR and goes on as a store below the stack pointer, which has two words. -/
theorem chainLen_pushPc (c : Config) (ws : List Word16) (dir : Dir) (n : Nat) :
    chainLen c ws (n + 3) { Desc.none with kind := .pushPc, dir := dir, sg := true } = 3 := by
  have hstore : chainLen c ws (n + 2) ⟨.preAccess, c.spIndex, .w24, .write, 0, true⟩ = 2 :=
    chainLen_firstDesc c ws (.preDec c.spIndex) .write .w24 0 n
  exact (chainLen_of_gen rfl (n + 2)).trans (congrArg (· + 1) hstore)

theorem chainLen_io (c : Config) (ws : List Word16) (dir : Dir) (n : Nat) :
    chainLen c ws (n + 1) ⟨.io, 0, .w8, dir, 1, false⟩ = 1 :=
  chainLen_one rfl n

/-- Settles O54: an operand's chains are those of its mode and the write-back, two words at the most; the
push of the program counter alone takes the fuel of 3. -/
theorem chainLengths : Obligations.ChainLengths := by
  intro c ws rm w k n
  exact ⟨fun _ => chainLen_resolve_read c ws (n + 1), fun _ => chainLen_resolve_write c ws (n + 1),
    fun _ => chainLen_resolve_rmw c ws (n + 1), fun dir => chainLen_pushPc c ws dir n,
    fun dir => chainLen_io c ws dir (n + 2)⟩

end Sys2Proof.Machine
end

