-- ==== Sys2Proof/Proofs/AluFamily.lean ====
section
/-! PROOFS. The statements of spec/43_alu.md: the write mask (R255), the identities of the adder (R257, R258),
and the sums with reduced transforms (R243) and under a free decimal correction (R256). -/

namespace Sys2Proof.Machine

/-! ### The write mask (R255) -/

section
variable (f : Flags) (p : FlagPos) (m : FMask) (n : FlagVals) (j : Fin 8)

/-- One bit after the masked update: the flags are written in the order Z, S, V, C, so the last of them that
has the bit counts. -/
theorem Flags.update_bit :
    (f.update p m n).bits.getLsbD j.val =
      if m.c = true ∧ j = p.c then n.c else if m.v = true ∧ j = p.v then n.v
      else if m.s = true ∧ j = p.s then n.s else if m.z = true ∧ j = p.z then n.z
      else f.bits.getLsbD j.val := by
  simp only [Flags.update, putIf_bit]
  rfl

theorem Flags.update_written :
    (f.update p m n).written.getLsbD j.val =
      if m.c = true ∧ j = p.c then true else if m.v = true ∧ j = p.v then true
      else if m.s = true ∧ j = p.s then true else if m.z = true ∧ j = p.z then true
      else f.written.getLsbD j.val := by
  simp only [Flags.update, putIf_written]
  rfl

theorem Flags.get_update (q : FlagName) :
    (f.update p m n).get p q =
      if m.c = true ∧ flagIndex p q = p.c then n.c else if m.v = true ∧ flagIndex p q = p.v then n.v
      else if m.s = true ∧ flagIndex p q = p.s then n.s else if m.z = true ∧ flagIndex p q = p.z then n.z
      else f.get p q :=
  Flags.update_bit f p m n (flagIndex p q)

theorem Flags.has_update (q : FlagName) :
    (f.update p m n).has p q =
      if m.c = true ∧ flagIndex p q = p.c then true else if m.v = true ∧ flagIndex p q = p.v then true
      else if m.s = true ∧ flagIndex p q = p.s then true else if m.z = true ∧ flagIndex p q = p.z then true
      else f.has p q :=
  Flags.update_written f p m n (flagIndex p q)

end

/-- Settles O29. On distinct bits no later flag writes over an earlier one, and a bit that no flag of the mask
has falls through to the old one. -/
theorem writeMask : Obligations.WriteMask := by
  intro f p m n hdistinct g
  obtain ⟨hcz, hcv, hcs, -, hzv, hzs, -, hvs, -, -⟩ := of_decide_eq_true hdistinct
  refine ⟨fun hz => ?z, fun hs => ?s, fun hv => ?v, fun hc => ?c, fun j hz hs hv hc => ?other⟩
  case z => simp [g, Flags.get_update, Flags.has_update, flagIndex, hz, hcz.symm, hzv, hzs]
  case s => simp [g, Flags.get_update, Flags.has_update, flagIndex, hs, hcs.symm, hvs.symm]
  case v => simp [g, Flags.get_update, Flags.has_update, flagIndex, hv, hcv.symm]
  case c => simp [g, Flags.get_update, Flags.has_update, flagIndex, hc]
  case other =>
    have keep {on : Bool} {i : Fin 8} (h : on = true → j ≠ i) : ¬(on = true ∧ j = i) :=
      fun ⟨hon, hj⟩ => h hon hj
    simp only [g, Flags.update_bit, Flags.update_written, keep hz, keep hs, keep hv, keep hc,
      if_false, and_self]

/-! ### The adder (R242 to R250) -/

/-- What the ALU computes for an addition of `a` and the transformed source 2 `t`, before any decimal
adjustment. -/
def sumOut (c : Config) (cw : ControlWord) (a t : Nat) : RawOut :=
  let result := (a + t) % cw.w.modulus
  { a := a, s := t, r := a + t, result := result
    vals :=
      { z := result == 0
        s := signBit cw.w result
        v := overflowOf c.parityEven cw a t result 0
        c := decide (cw.w.modulus ≤ a + t) ^^ cw.cinv } }

section
variable {c : Config} {cw : ControlWord} {v0 v1 : Data} {f : Flags}

theorem aluRaw_add (hop : cw.op = .add) (hshift : cw.shift = .none) (hcsrc : cw.csrc = .alu) :
    aluRaw c cw v0 v1 f = sumOut c cw (v0.toNat % cw.w.modulus)
      (transform c.xformMask cw (v1.toNat % cw.w.modulus) (carryIn c.flagPos f)) := by
  simp only [aluRaw, secondOperand, hshift, hop, aluCore, carryOf, hcsrc, carryOut, sumOut]

/-- Without the decimal adjustment the ALU's outputs are the raw ones (R247). -/
theorem aluVals_unadjusted (h : (cw.fmask.c && f.get c.flagPos .d) = false) :
    aluVals c cw v0 v1 f = ((aluRaw c cw v0 v1 f).result, (aluRaw c cw v0 v1 f).vals) := by
  have hword : (decimalWord cw && f.get c.flagPos .d) = false := by
    rw [decimalWord, Bool.and_assoc, h, Bool.and_false]
  simp only [aluVals, hword, Bool.false_eq_true, if_false]

/-- With D set, a word that adds and writes C is adjusted (R256). -/
theorem aluVals_adjusted (hop : cw.op = .add) (hmask : cw.fmask.c = true)
    (hd : f.get c.flagPos .d = true) :
    aluVals c cw v0 v1 f = bcdAdjust c cw (aluRaw c cw v0 v1 f) := by
  simp [aluVals, decimalWord, hop, hmask, hd]

theorem transform_plain {mask : Bool} {b cin : Nat} (haddc : cw.addc = false) (hneg : cw.neg = false)
    (hadd1 : cw.add1 = false) : transform mask cw b cin = b := by
  simp [transform, haddc, hneg, hadd1]

/-- The negation alone, not reduced (R243). -/
theorem transform_neg {b cin : Nat} (haddc : cw.addc = false) (hneg : cw.neg = true)
    (hadd1 : cw.add1 = false) : transform false cw b cin = cw.w.modulus - b := by
  simp [transform, maskStep, haddc, hneg, hadd1]

end

/-- Settles O27: with no transform the adder's second operand is source 2 itself. -/
theorem addIdentity : Obligations.AddIdentity := by
  intro c cw v0 v1 f hop haddc hneg hadd1 hshift hcsrc hcinv hplain a b
  rw [aluVals_unadjusted hplain, aluRaw_add hop hshift hcsrc, transform_plain haddc hneg hadd1]
  exact ⟨rfl, by simp only [sumOut, hcinv, Bool.xor_false, a, b]⟩

/-- Settles O28: the negated source 2 is `M - b`, which is `~b + 1`, and `a + (M - b)` reaches M exactly when
`b ≤ a`. -/
theorem subtractIdentity : Obligations.SubtractIdentity := by
  intro c cw v0 v1 f hop haddc hneg hadd1 hshift hcsrc hmask hplain a b
  have hb : b < cw.w.modulus := Nat.mod_lt _ cw.w.modulus_pos
  have hsum : a + (cw.w.modulus - b) = a + (cw.w.modulus - 1 - b) + 1 := by omega
  have hcarry : cw.w.modulus ≤ a + (cw.w.modulus - b) ↔ b ≤ a := by omega
  rw [aluVals_unadjusted hplain, aluRaw_add hop hshift hcsrc, hmask, transform_neg haddc hneg hadd1]
  refine ⟨congrArg (· % cw.w.modulus) hsum, ?_, fun w d r => rfl⟩
  exact congrArg (· ^^ cw.cinv) (decide_eq_decide.2 hcarry)

/-! ### How an instruction completes that writes no memory -/

/-- An instruction that ends with nothing of the architectural state changed but registers, flags, MAR and
MDR. -/
theorem EndsOn.completes {s t : State} {i : Instr} {regs : Vector GReg 8} {f : Flags} {mar mdr : Latch}
    (h : EndsOn s (exec i s) t { s with regs := regs, f := f, mar := mar, mdr := mdr }) :
    Completes s i regs f mar mdr := by
  obtain ⟨hcfg, hregs, hf, hshadow, hmar, hmdr, hmem, -, hlog, hfair, hwrites, hfree⟩ := arch_all h.arch
  exact ⟨t, h.out, ⟨h.order, hregs, hf, hmar, hmdr, hcfg, hshadow, hlog, hfair, hfree⟩,
    ⟨fun _ => congrArg (Memory.read · _) hmem,
      fun _ => congrFun (State.readByte_congr hcfg hmem hwrites) _, hwrites⟩, h.goes⟩

/-! ### The arithmetic-logic instructions (R310) -/

/-- `src` is a source of `i`'s core word that can be read, and it reads `v`. -/
structure ReadsSource (s : State) (i : Instr) (src : Source) (v : Data) : Prop where
  inRange : src.loc.inRange = true
  usable : ∀ p, Usable s.cfg (unwrittenLoc s (recOf s i p) src.loc)
  value : ∀ p, readSource s (recOf s i p) src = v

theorem readsSource_reg {s : State} {r : Reg} {w : Width} (h : usableReg s r w = true) (i : Instr) :
    ReadsSource s i (regSource r w) (s.view r w) :=
  ⟨rfl, fun _ => usable_reg h, fun _ => read_reg s _ r w⟩

theorem readsSource_imm {s : State} {i : Instr} {w : Width} {v : Data}
    (h : RmAt (s.wordsFor i) 1 w (.imm v)) : ReadsSource s i (immSource w 1) (w.trunc v) :=
  ⟨imm_inRange (.inl rfl), fun p => usable_imm s.cfg (r := recOf s i p) h,
    fun p => read_imm (r := recOf s i p) h⟩

theorem view_toNat_lt (s : State) (i : Reg) (w : Width) : (s.view i w).toNat < w.modulus := by
  rw [State.view, Width.trunc_toNat]
  exact Nat.mod_lt _ w.modulus_pos

/-- The two forms of an instruction read `b`, below the modulus, from a register or from the words. -/
theorem SourceTwo.readsSource {s : State} {w : Width} {regForm : Reg → Instr} {immForm : Data → Instr}
    {i : Instr} {b : Nat} (h : SourceTwo s w regForm immForm i b)
    (himm : ∀ v, operandsAt (s.wordsFor (immForm v)) (immForm v) →
      RmAt (s.wordsFor (immForm v)) 1 w (.imm v)) :
    b < w.modulus ∧ ∃ v : Data, v.toNat = b ∧
      ((∃ r, i = regForm r ∧ ReadsSource s i (regSource r w) v) ∨
        ∃ x, i = immForm x ∧ ReadsSource s i (immSource w 1) v) := by
  rcases h with ⟨r, rfl, hr, rfl⟩ | ⟨x, rfl, rfl⟩
  · exact ⟨view_toNat_lt s r w, s.view r w, rfl, .inl ⟨r, rfl, readsSource_reg hr _⟩⟩
  · exact ⟨Nat.mod_lt _ w.modulus_pos, w.trunc x, w.trunc_toNat x,
      .inr ⟨x, rfl, readsSource_imm (himm x (operandsAt_words s _))⟩⟩

section
variable {s : State} {i : Instr} {w : Width} {d : Reg} {src : Source} {op : AluOp} {addc neg cinv : Bool}
  {vsrc : VSrc} {dest : BusLoc} {v : Data}

/-- The flags a core word of the group consumes: C with `addc`, and D with a sum (R252). -/
theorem usable_aluWord_flags (hc : addc = true → usableFlag s .c = true)
    (hd : op = .add → usableFlag s .d = true) :
    Usable s.cfg (aluUnwritten s.cfg (aluWord w d src op addc neg vsrc cinv dest) s.f) := by
  refine Usable.append ?carry ?decimal
  case carry =>
    cases addc with
    | false => exact .nil _
    | true => exact usable_flag (hc rfl)
  case decimal =>
    split
    · next hword =>
      have hop : op = .add := beq_iff_eq.1 ((Bool.and_eq_true_iff.1 hword).1)
      exact usable_flag (hd hop)
    · exact .nil _

/-- A core word of the group can run. -/
theorem plainCore_aluWord {p : Program} (hsrc : ReadsSource s i src v) (hreg : usableReg s d w = true)
    (hdest : dest = .reg d w ∨ dest = .zero)
    (hflags : Usable s.cfg (aluUnwritten s.cfg (aluWord w d src op addc neg vsrc cinv dest) s.f)) :
    PlainCore s (recOf s i p) (aluWord w d src op addc neg vsrc cinv dest) where
  ok := by rcases hdest with rfl | rfl <;> exact hsrc.inRange
  mem := rfl
  pc := by rcases hdest with rfl | rfl <;> exact BusLoc.noConfusion
  ops := Usable.append (usable_reg hreg) (hsrc.usable p)
  flags := hflags

end

/-! ### The sums (R311 to R314, R318) -/

/-- The core word of a sum (R319). -/
def SumOp.word (o : SumOp) (w : Width) (d : Reg) (src : Source) : ControlWord :=
  aluWord w d src .add o.carries o.subtracts .arith o.subtracts (if o = .cmp then .zero else .reg d w)

section
variable (o : SumOp) (s : State) (w : Width) (d : Reg)

theorem programOf_sum_reg (c : Config) (r : Reg) :
    programOf c (o.regForm w d r) = some (coreOnly (o.word w d (regSource r w))) := by
  cases o <;> rfl

theorem programOf_sum_imm (c : Config) (x : Data) :
    programOf c (o.immForm w d x) = some (coreOnly (o.word w d (immSource w 1))) := by
  cases o <;> rfl

theorem exec_sum_reg (r : Reg) :
    exec (o.regForm w d r) s = runProgram (o.regForm w d r) (programOf s.cfg (o.regForm w d r)) s := by
  cases o <;> rfl

theorem exec_sum_imm (x : Data) :
    exec (o.immForm w d x) s = runProgram (o.immForm w d x) (programOf s.cfg (o.immForm w d x)) s := by
  cases o <;> rfl

theorem operandsAt_sum_imm {ws : List Word16} {x : Data} (h : operandsAt ws (o.immForm w d x)) :
    RmAt ws 1 w (.imm x) := by
  cases o <;> exact h

end

section
variable {o : SumOp} {s : State} {w : Width} {d : Reg} {src : Source} {v : Data}

theorem transform_word (mask : Bool) (b cin : Nat) :
    transform mask (o.word w d src) b cin = o.addend mask w b cin := by
  cases o <;> rfl

/-- What the core word of a sum changes: the destination, but for CMP, and the four flags. -/
theorem coreResult_word {i : Instr} {p : Program} (hv : readSource s (recOf s i p) src = v) :
    let out := aluVals s.cfg (o.word w d src) (s.view d w) v s.f
    coreResult (o.word w d src) (recOf s i p) s =
      { s with regs := o.regs s w d out.1, f := s.f.update s.cfg.flagPos .all out.2 } := by
  intro out
  have hout : wordOut (o.word w d src) (recOf s i p) s =
      ⟨BitVec.ofNat 24 out.1, s.f.update s.cfg.flagPos .all out.2⟩ := by
    rw [wordOut, show (o.word w d src).src0 = regSource d w from rfl,
      show (o.word w d src).src1 = src from rfl, hv, regSource, read_reg]
    rfl
  have hcommit := commit_update s.cfg.flagPos .all out.2 s.f
  generalize out = x at hout hcommit ⊢
  by_cases hcmp : o = .cmp
  · rw [core_zero (by rw [SumOp.word, if_pos hcmp]; rfl) hout hcommit, SumOp.regs, if_pos hcmp]
  · rw [core_reg (by rw [SumOp.word, if_neg hcmp]; rfl) hout hcommit, SumOp.regs, if_neg hcmp]
    rfl

/-- An instruction that runs the core word of a sum completes with what the ALU computes of its operands. -/
theorem word_completes {i : Instr} (hsrc : ReadsSource s i src v) (hat : s.atBoundary = true)
    (hreg : usableReg s d w = true) (hc : o.carries = true → usableFlag s .c = true)
    (hd : usableFlag s .d = true) (hexec : exec i s = runProgram i (some (coreOnly (o.word w d src))) s) :
    let out := aluVals s.cfg (o.word w d src) (s.view d w) v s.f
    Completes s i (o.regs s w d out.1) (s.f.update s.cfg.flagPos .all out.2) s.mar s.mdr := by
  have hdest : (if o = .cmp then BusLoc.zero else .reg d w) = .reg d w ∨
      (if o = .cmp then BusLoc.zero else .reg d w) = .zero := (ite_eq_or_eq _ _ _).symm
  obtain ⟨t, ht⟩ := plain_core hat
    (plainCore_aluWord hsrc hreg hdest (usable_aluWord_flags hc fun _ => hd))
  rw [← SumOp.word, ← hexec, coreResult_word (hsrc.value _)] at ht
  exact ht.completes

/-- A sum runs that word in both forms. -/
theorem sum_completes {i : Instr} {b : Nat} (h : SourceTwo s w (o.regForm w d) (o.immForm w d) i b)
    (hat : s.atBoundary = true) (hreg : usableReg s d w = true)
    (hc : o.carries = true → usableFlag s .c = true) (hd : usableFlag s .d = true) :
    b < w.modulus ∧ ∃ src v, programOf s.cfg i = some (coreOnly (o.word w d src)) ∧ v.toNat = b ∧
      let out := aluVals s.cfg (o.word w d src) (s.view d w) v s.f
      Completes s i (o.regs s w d out.1) (s.f.update s.cfg.flagPos .all out.2) s.mar s.mdr := by
  obtain ⟨hb, v, hv, ⟨r, rfl, hsrc⟩ | ⟨x, rfl, hsrc⟩⟩ :=
    h.readsSource fun x => operandsAt_sum_imm o w d
  · have hprog := programOf_sum_reg o w d s.cfg r
    have hexec := (exec_sum_reg o s w d r).trans (by rw [hprog])
    exact ⟨hb, _, v, hprog, hv, word_completes hsrc hat hreg hc hd hexec⟩
  · have hprog := programOf_sum_imm o w d s.cfg x
    have hexec := (exec_sum_imm o s w d x).trans (by rw [hprog])
    exact ⟨hb, _, v, hprog, hv, word_completes hsrc hat hreg hc hd hexec⟩

/-- The raw output of a sum's core word, for operands below the modulus. -/
theorem aluRaw_word (ha : (s.view d w).toNat < w.modulus) (hv : v.toNat < w.modulus) :
    aluRaw s.cfg (o.word w d src) (s.view d w) v s.f =
      sumOut s.cfg (o.word w d src) (s.view d w).toNat
        (o.addend s.cfg.xformMask w v.toNat (s.f.get s.cfg.flagPos .c).toNat) := by
  have hw : (o.word w d src).w = w := rfl
  rw [aluRaw_add rfl rfl rfl, hw, Nat.mod_eq_of_lt ha, Nat.mod_eq_of_lt hv, transform_word, carryIn]

/-- A reduced second operand is below the modulus (R243). -/
theorem addend_masked_lt {b : Nat} (hb : b < w.modulus) (cin : Nat) : o.addend true w b cin < w.modulus := by
  cases o with
  | add => exact hb
  | _ => exact Nat.mod_lt _ w.modulus_pos

end

/-- Settles O25. The adjustment of the model's free correction is applied to the raw output of the sum. -/
theorem decimalFree : Obligations.DecimalFree := by
  intro s o w d i b p h hat hreg hc hd hdset hbcd hp a t out
  obtain ⟨hb, src, v, hprog, rfl, hdone⟩ := sum_completes h hat hreg hc hd
  obtain rfl : coreOnly (o.word w d src) = p := Option.some.inj (hprog.symm.trans hp)
  have hvals : aluVals s.cfg (o.word w d src) (s.view d w) v s.f =
      (out.result.toNat % w.modulus, ⟨out.z, out.s, out.v, out.c⟩) := by
    rw [aluVals_adjusted rfl rfl hdset, aluRaw_word (view_toNat_lt s d w) hb, bcdAdjust, hbcd]
    rfl
  rw [hvals] at hdone
  exact hdone

/-- Settles O26. The reduced second operand is already below the modulus, and with D clear the raw output
stands. -/
theorem maskedTransforms : Obligations.MaskedTransforms := by
  intro s o w d i b h hat hreg hc hd hdclear hmask a u t r
  obtain ⟨hb, src, v, -, rfl, hdone⟩ := sum_completes h hat hreg hc hd
  have ht : o.addend s.cfg.xformMask w v.toNat (s.f.get s.cfg.flagPos .c).toNat = t := by
    rw [hmask]
    rfl
  have htlt : t < w.modulus := by
    rw [← ht, hmask]
    exact addend_masked_lt hb _
  have hvals : aluVals s.cfg (o.word w d src) (s.view d w) v s.f =
      (r, ⟨r == 0, signBit w r, arithOverflow w a t r, decide (w.modulus ≤ a + t) ^^ o.subtracts⟩) := by
    rw [aluVals_unadjusted (by rw [hdclear, Bool.and_false]), aluRaw_word (view_toNat_lt s d w) hb, ht]
    have hv : arithOverflow w a (t % w.modulus) r = arithOverflow w a t r := by rw [Nat.mod_eq_of_lt htlt]
    rw [← hv]
    rfl
  rw [hvals] at hdone
  exact hdone

end Sys2Proof.Machine
end

