-- ==== Sys2Proof/Proofs/ExecuteFamily.lean ====
section
/-! PROOFS. The statements of spec/44_execute.md: the branch predicates (R289), a full slot run by its
instruction's meaning (R271, R272), and what waiting for the Memory Controller leaves as it is (R276, R285). -/

namespace Sys2Proof.Machine

/-! ### The branch predicates (R289) -/

/-- Settles O41: a predicate is its flag's bit, or that bit's complement. -/
theorem predicates : Obligations.Predicates := by
  intro p f
  have complement (b : Bool) : (!b) = true ↔ b = false := .of_eq (Bool.not_eq_true' b)
  exact ⟨rfl, .rfl, complement _, .rfl, complement _, .rfl, complement _, .rfl, complement _⟩

/-! ### A full slot (R271, R272) -/

theorem runSlot_of_instr {s : State} {i : Instr} (h : s.slot.cls = .instr i) : runSlot s = exec i s := by
  simp only [runSlot, h]

/-- A fill has nothing to do where the slot is full. -/
theorem fillTurns_of_ready {s : State} (h : s.ready = true) (n : Nat) : fillTurns n s = s := by
  cases n with
  | zero => rfl
  | succ n => simp [fillTurns, h]

/-- Settles O9: a waiting core with a full slot has no cycle to fill, and runs the slot. -/
theorem stepRunsSlot : Obligations.StepRunsSlot := by
  intro s i hboundary hready hinstr
  obtain ⟨hidle, -⟩ := (boundary_iff s).1 hboundary
  obtain ⟨hrun, hst, hcw, hpend, -, -⟩ := (idle_iff s).1 hidle
  rw [step_of_waits hrun ⟨hst, hcw, hpend⟩, fillTurns_of_ready hready, running_of hrun, hready]
  exact runSlot_of_instr hinstr

/-! ### A rejected assert (R278, R283, R285) -/

/-- A word with its operands and result latched, whose assert the controller rejects because another stage
owns the access in flight. -/
structure Rejected (cw : ControlWord) (s : State) : Prop where
  run : s.status = .running
  pend : s.ex.exPending = none
  word : s.ex.cw = some cw
  v0 : s.ex.v0.isSome = true
  v1 : s.ex.v1.isSome = true
  fl : s.ex.fl.isSome = true
  res : s.ex.res.isSome = true
  acc : s.ex.acc = .toAssert
  busy : s.ctl ≠ .ready
  other : s.ctl.owner ≠ some .execute
  usable : Usable s.cfg (assertUnwritten cw s)

/-- The two fields of Execute that a cycle of a rejected word writes: `ex_wants_mem` and `estate`. -/
def State.noting (s : State) (wants : Bool) (e : EState) : State :=
  { s with ex := { s.ex with exWantsMem := wants, estate := e } }

theorem callAccess_of_other_owner {s : State} (cw : ControlWord) (a : Addr) (h : s.ctl ≠ .ready)
    (ho : s.ctl.owner ≠ some .execute) : callAccess cw a s = (s, false) := by
  unfold callAccess
  split <;> exact assertBusy_of_other_owner _ h ho

section
variable {cw : ControlWord} {s : State}

/-- A rejected word stays rejected whatever it notes. -/
theorem Rejected.noting (h : Rejected cw s) (wants : Bool) (e : EState) : Rejected cw (s.noting wants e) :=
  ⟨h.run, h.pend, h.word, h.v0, h.v1, h.fl, h.res, h.acc, h.busy, h.other, h.usable⟩

/-- The rejected assert changes nothing (R278). -/
theorem Rejected.assertAccess_eq (h : Rejected cw s) (a : Addr) : assertAccess cw a s = s := by
  simp [assertAccess, consume_usable h.usable, running_of h.run,
    callAccess_of_other_owner cw a h.busy h.other]

/-- The assert of half1, where the word has one there, notes its place. -/
theorem Rejected.assertH1_eq (h : Rejected cw s) : ∃ e, assertH1 cw s = s.noting s.ex.exWantsMem e := by
  unfold assertH1
  split
  · exact ⟨.memAssert1, (h.noting s.ex.exWantsMem .memAssert1).assertAccess_eq _⟩
  · exact ⟨s.ex.estate, rfl⟩

/-- The assert of half2, where the word has one there, notes its place. -/
theorem Rejected.assertHalf2_eq (h : Rejected cw s) :
    ∃ e, assertHalf2 cw s = s.noting s.ex.exWantsMem e := by
  have hassert := (h.noting s.ex.exWantsMem .memAssert2).assertAccess_eq
  unfold assertHalf2
  rw [if_pos h.acc]
  split
  · exact ⟨.memAssert2, hassert _⟩
  · exact ⟨.memAssert2, hassert _⟩
  · exact ⟨s.ex.estate, rfl⟩

/-- Half1 asks Fetch for the port (R277). -/
theorem Rejected.executeHalf1_eq (h : Rejected cw s) : ∃ e, executeHalf1 s = s.noting true e := by
  have hwait : memWait s = s := by simp [memWait, h.pend]
  have hlatched : s.ex.v0.isNone = false := by simp [← Option.not_isSome, h.v0]
  obtain ⟨e, hassert⟩ := h.assertH1_eq
  have hnoted := h.noting s.ex.exWantsMem e
  have hwants : ((s.noting s.ex.exWantsMem e).ex.acc == .toAssert) = true := beq_iff_eq.2 hnoted.acc
  refine ⟨e, ?_⟩
  simp only [executeHalf1, hwait, executeStart_live h.run h.pend h.word, executeWord, hlatched,
    Bool.false_eq_true, if_false, running_of h.run, if_true, hassert, running_of hnoted.run, hwants]
  rfl

/-- Half2 has the result already and commits nothing (R283, R284). -/
theorem Rejected.executeHalf2_eq (h : Rejected cw s) :
    ∃ e, executeHalf2 s = s.noting s.ex.exWantsMem e := by
  obtain ⟨v0, hv0⟩ := Option.isSome_iff_exists.1 h.v0
  obtain ⟨v1, hv1⟩ := Option.isSome_iff_exists.1 h.v1
  obtain ⟨fl, hfl⟩ := Option.isSome_iff_exists.1 h.fl
  obtain ⟨e, hassert⟩ := h.assertHalf2_eq
  have hnoted := h.noting s.ex.exWantsMem e
  refine ⟨e, ?_⟩
  rw [executeHalf2_live h.run h.word hv0 hv1 hfl]
  simp [finishWord, latchResult, h.res, running_of h.run, hassert, commitUnlessBlocked, hnoted.acc]

/-- A whole cycle of Execute notes that it wants the port (R285). -/
theorem Rejected.cycle_eq (h : Rejected cw s) :
    ∃ e, executeHalf2 (executeHalf1 s) = s.noting true e := by
  obtain ⟨e1, half1⟩ := h.executeHalf1_eq
  obtain ⟨e2, half2⟩ := (h.noting true e1).executeHalf2_eq
  exact ⟨e2, by rw [half1, half2]; rfl⟩

end

/-! ### An access that is not done (R276, R411) -/

theorem Ctl.busy_of_owner {c : Ctl} {o : Owner} (h : c.owner = some o) (hdone : ∀ d o, c ≠ .latched d o) :
    (∃ a n, c = .readBusy a n o) ∨ ∃ a n v, c = .writeBusy a n v o := by
  cases c with
  | ready => cases h
  | readBusy a n o' => cases h; exact .inl ⟨a, n, rfl⟩
  | writeBusy a n v o' => cases h; exact .inr ⟨a, n, v, rfl⟩
  | latched d o' => exact absurd rfl (hdone d o')

/-- The invariant gives Execute's pending access the port, and no word beside it (R38, R283). -/
theorem stuck_of_inv {s : State} (h : Inv s) (hrun : s.status = .running)
    (hpend : s.ex.exPending.isSome = true) (hdone : ∀ d o, s.ctl ≠ .latched d o) (hdraws : s.draws = [])
    (hfair : s.fair = false) : Stuck s s := by
  have hordered := h.ordered hrun
  have hnone : s.ex.exPending ≠ none := Option.isSome_iff_ne_none.1 hpend
  obtain ⟨-, howner, hpf⟩ := (portOk_iff.1 hordered.port).resolve_left fun hfree => hnone hfree.1
  have hcw : s.ex.cw = none := by
    by_contra hlive
    obtain ⟨cw, hcw⟩ := Option.ne_none_iff_exists'.1 hlive
    obtain ⟨-, -, hpend'⟩ := wordOk_iff.1 hordered.word cw hcw
    exact hnone hpend'
  exact ⟨hrun, hpend, hcw, Ctl.busy_of_owner howner hdone, hdraws, hfair, hpf,
    fun hready => (hordered.hand hready).1, rfl, rfl, rfl, rfl, rfl⟩

/-- Settles O60: each half of a rejected word's cycle changes only what it notes, and a stuck machine stays
stuck through all the cycles of a step. -/
theorem stallStable : Obligations.StallStable := by
  refine ⟨?rejected, ?waiting⟩
  case rejected =>
    intro s cw hrun hpend hcw hv0 hv1 hfl hres hacc _ hbusy hother husable
    exact Rejected.cycle_eq ⟨hrun, hpend, hcw, hv0, hv1, hfl, hres, hacc, hbusy, hother, husable⟩
  case waiting =>
    intro s hinv hrun hpend hdone hdraws hfair
    have hstuck := (stuck_of_inv hinv hrun hpend hdone hdraws hfair).runs s.fuel
    obtain ⟨hpend', hctl, hcur, hsstate, harch⟩ := hstuck.same
    obtain ⟨-, hregs, hf, -, hmar, hmdr, hmem, -, hlog, -, hwrites, -⟩ := arch_all harch
    have hbusy : ¬ Waits s := fun hwaits => Option.isSome_iff_ne_none.1 hpend hwaits.pend
    exact ⟨runTurns s.fuel s, step_of_not_waits hrun hbusy, hstuck.run, hpend'.symm, hctl.symm,
      hcur.symm, hsstate.symm, hregs, hf, hmar, hmdr, hmem, hwrites, hlog⟩

end Sys2Proof.Machine
end

