-- ==== Sys2Proof/Proofs/ArithLogicFamily.lean ====
section
/-! PROOFS. The statements of spec/45_arith_logic.md: the table of the group (R319), the results and flags of
the sums (R311 to R314, R318) with and without the literal decimal correction (R320) and of the bitwise
operations (R315 to R317), and the words of the spec's examples (R322). -/

namespace Sys2Proof.Machine

/-! ### The sums (R311 to R314, R318, R320) -/

/-- Both forms read a source 2 below the modulus. -/
theorem SourceTwo.lt_modulus {s : State} {w : Width} {regForm : Reg → Instr} {immForm : Data → Instr}
    {i : Instr} {b : Nat} (h : SourceTwo s w regForm immForm i b) : b < w.modulus := by
  rcases h with ⟨r, -, -, rfl⟩ | ⟨x, -, rfl⟩
  · exact view_toNat_lt s r w
  · exact Nat.mod_lt _ w.modulus_pos

/-- The complement of the raw carry of `a - t` is its borrow (R250, R258). -/
theorem carry_xor_true_eq_borrow {m a t : Nat} (ht : t ≤ m) :
    (decide (m ≤ a + (m - t)) ^^ true) = decide (a < t) := by
  have hborrow : ¬ m ≤ a + (m - t) ↔ a < t := by omega
  rw [Bool.xor_true, ← decide_not]
  exact decide_eq_decide.2 hborrow

section
variable {s : State} {o : SumOp} {w : Width} {d : Reg} {i : Instr} {b : Nat}

/-- With D clear a sum leaves the adder's own result and flags. -/
theorem sum_completes_of_not_decimal (h : SourceTwo s w (o.regForm w d) (o.immForm w d) i b)
    (hat : s.atBoundary = true) (hreg : usableReg s d w = true)
    (hc : o.carries = true → usableFlag s .c = true) (hd : usableFlag s .d = true)
    (hdclear : s.f.get s.cfg.flagPos .d = false) :
    let a := (s.view d w).toNat
    let t := o.addend s.cfg.xformMask w b (s.f.get s.cfg.flagPos .c).toNat
    let r := (a + t) % w.modulus
    Completes s i (o.regs s w d r)
      (s.f.update s.cfg.flagPos .all
        ⟨r == 0, signBit w r, arithOverflow w a (t % w.modulus) r,
          decide (w.modulus ≤ a + t) ^^ o.subtracts⟩) s.mar s.mdr := by
  obtain ⟨hb, src, v, -, rfl, hdone⟩ := sum_completes h hat hreg hc hd
  rw [aluVals_unadjusted (by rw [hdclear, Bool.and_false]), aluRaw_word (view_toNat_lt s d w) hb] at hdone
  exact hdone

end

/-- Settles O24. The literal correction is applied to the raw output of the sum. -/
theorem decimalMode : Obligations.DecimalMode := by
  intro s o w d i b h hat hreg hc hd hdset hbcd a t x r
  obtain ⟨hb, src, v, -, rfl, hdone⟩ := sum_completes h hat hreg hc hd
  have hvals : aluVals s.cfg (o.word w d src) (s.view d w) v s.f =
      (r, ⟨r == 0, signBit w r, arithOverflow w a (t % w.modulus) x,
        decide (w.modulus ≤ a + t) ^^ o.subtracts⟩) := by
    rw [aluVals_adjusted rfl rfl hdset, aluRaw_word (view_toNat_lt s d w) hb, bcdAdjust, hbcd]
    rfl
  rw [hvals] at hdone
  exact hdone

/-- Settles O16: source 2 is added as it is, and `cinv` is clear. -/
theorem addResultAndFlags : Obligations.AddResultAndFlags := by
  intro s w d i b h hat hreg hd hdclear a r
  have hdone := sum_completes_of_not_decimal (o := .add) h hat hreg nofun hd hdclear
  simpa [SumOp.addend, SumOp.regs, SumOp.carries, SumOp.subtracts, Nat.mod_eq_of_lt h.lt_modulus] using hdone

/-- Settles O17: the addend is source 2 and C. -/
theorem adcResultAndFlags : Obligations.AdcResultAndFlags := by
  intro s w d i b h hat hreg hc hd hdclear hmask a t r
  have hdone := sum_completes_of_not_decimal (o := .adc) h hat hreg (fun _ => hc) hd hdclear
  simpa [SumOp.addend, SumOp.regs, SumOp.carries, SumOp.subtracts, hmask] using hdone

section
variable {s : State} {o : SumOp} {w : Width} {d : Reg} {i : Instr} {b : Nat}

/-- With unreduced transforms the addend of a difference is `M - t`, and `cinv` turns the carry into the
borrow. -/
theorem difference_completes (h : SourceTwo s w (o.regForm w d) (o.immForm w d) i b)
    (hat : s.atBoundary = true) (hreg : usableReg s d w = true)
    (hc : o.carries = true → usableFlag s .c = true) (hd : usableFlag s .d = true)
    (hdclear : s.f.get s.cfg.flagPos .d = false) (hmask : s.cfg.xformMask = false)
    (hsub : o.subtracts = true) :
    let a := (s.view d w).toNat
    let t := if o.carries then b + (s.f.get s.cfg.flagPos .c).toNat else b
    let r := (a + (w.modulus - t)) % w.modulus
    Completes s i (o.regs s w d r)
      (s.f.update s.cfg.flagPos .all
        ⟨r == 0, signBit w r, arithOverflow w a ((w.modulus - t) % w.modulus) r, decide (a < t)⟩)
      s.mar s.mdr := by
  intro a t r
  have hdone := sum_completes_of_not_decimal h hat hreg hc hd hdclear
  have haddend : o.addend s.cfg.xformMask w b (s.f.get s.cfg.flagPos .c).toNat = w.modulus - t := by
    simp [SumOp.addend, hmask, hsub, t]
  have ht : t ≤ w.modulus := by
    have hb := h.lt_modulus
    have hcarry := Bool.toNat_le (s.f.get s.cfg.flagPos .c)
    simp only [t]
    split <;> omega
  rw [haddend, hsub] at hdone
  rw [← carry_xor_true_eq_borrow ht]
  exact hdone

end

/-- Settles O18: SUB is a difference without a borrow coming in. -/
theorem subResultAndFlags : Obligations.SubResultAndFlags := by
  intro s w d i b h hat hreg hd hdclear hmask
  exact difference_completes (o := .sub) h hat hreg nofun hd hdclear hmask rfl

/-- Settles O19: the borrow enters with source 2. -/
theorem sbcResultAndFlags : Obligations.SbcResultAndFlags := by
  intro s w d i b h hat hreg hc hd hdclear hmask
  exact difference_completes (o := .sbc) h hat hreg (fun _ => hc) hd hdclear hmask rfl

/-- Settles O20: the core word is that of SUB with no destination. -/
theorem cmpFlagsOnly : Obligations.CmpFlagsOnly := by
  intro s w d i b h hat hreg hd hdclear hmask
  exact difference_completes (o := .cmp) h hat hreg nofun hd hdclear hmask rfl

/-! ### The bitwise operations (R315 to R317) -/

/-- The instructions whose core word has a bitwise `op` (R319). -/
inductive LogicOp where
  | and | or | xor

/-- The register form. -/
def LogicOp.regForm : LogicOp → Width → Reg → Reg → Instr
  | .and => .andR
  | .or => .orR
  | .xor => .xorR

/-- The immediate form. -/
def LogicOp.immForm : LogicOp → Width → Reg → Data → Instr
  | .and => .andI
  | .or => .orI
  | .xor => .xorI

/-- `op` (R319). -/
def LogicOp.aluOp : LogicOp → AluOp
  | .and => .and
  | .or => .or
  | .xor => .xor

/-- The bitwise operation on exact integers (R246). -/
def LogicOp.apply : LogicOp → Nat → Nat → Nat
  | .and, a, b => a &&& b
  | .or, a, b => a ||| b
  | .xor, a, b => a ^^^ b

/-- The core word of a bitwise operation (R319). -/
def LogicOp.word (o : LogicOp) (w : Width) (d : Reg) (src : Source) : ControlWord :=
  aluWord w d src o.aluOp false false .parity false (.reg d w)

section
variable (o : LogicOp) (w : Width) (d : Reg)

theorem programOf_logic_reg (c : Config) (r : Reg) :
    programOf c (o.regForm w d r) = some (coreOnly (o.word w d (regSource r w))) := by
  cases o <;> rfl

theorem programOf_logic_imm (c : Config) (x : Data) :
    programOf c (o.immForm w d x) = some (coreOnly (o.word w d (immSource w 1))) := by
  cases o <;> rfl

theorem operandsAt_logic_imm {ws : List Word16} {x : Data} (h : operandsAt ws (o.immForm w d x)) :
    RmAt ws 1 w (.imm x) := by
  cases o <;> exact h

theorem LogicOp.aluOp_ne_add : o.aluOp ≠ .add := by
  cases o <;> exact AluOp.noConfusion

theorem aluCore_logic (a b : Nat) : aluCore o.aluOp w a b = o.apply a (b % w.modulus) := by
  cases o <;> rfl

/-- A bitwise operation sets no bit at which both operands are 0. -/
theorem LogicOp.apply_lt_modulus {a b : Nat} (ha : a < w.modulus) (hb : b < w.modulus) :
    o.apply a b < w.modulus := by
  rw [w.modulus_eq] at ha hb ⊢
  cases o with
  | and => exact Nat.and_lt_two_pow a hb
  | or => exact Nat.or_lt_two_pow ha hb
  | xor => exact Nat.xor_lt_two_pow ha hb

end

/-- Only an addition is adjusted for decimal mode (R256). -/
theorem aluVals_of_not_add {c : Config} {cw : ControlWord} {v0 v1 : Data} {f : Flags} (hop : cw.op ≠ .add) :
    aluVals c cw v0 v1 f = ((aluRaw c cw v0 v1 f).result, (aluRaw c cw v0 v1 f).vals) := by
  simp [aluVals, decimalWord, hop]

section
variable {o : LogicOp} {s : State} {w : Width} {d : Reg} {src : Source} {v : Data}

theorem aluRaw_logic_result (ha : (s.view d w).toNat < w.modulus) (hv : v.toNat < w.modulus) :
    (aluRaw s.cfg (o.word w d src) (s.view d w) v s.f).result = o.apply (s.view d w).toNat v.toNat := by
  change aluCore o.aluOp w ((s.view d w).toNat % w.modulus) (v.toNat % w.modulus) % w.modulus = _
  rw [aluCore_logic, Nat.mod_eq_of_lt ha, Nat.mod_eq_of_lt hv, Nat.mod_eq_of_lt hv,
    Nat.mod_eq_of_lt (o.apply_lt_modulus w ha hv)]

/-- V is the parity of the result and C is 0 (R246, R249). -/
theorem aluRaw_logic_vals :
    let out := aluRaw s.cfg (o.word w d src) (s.view d w) v s.f
    out.vals = ⟨out.result == 0, signBit w out.result, parityOf s.cfg.parityEven out.result, false⟩ := by
  cases o <;> rfl

/-- What the ALU computes for a bitwise operation, whatever D is. -/
theorem aluVals_logic (ha : (s.view d w).toNat < w.modulus) (hv : v.toNat < w.modulus) :
    let r := o.apply (s.view d w).toNat v.toNat
    aluVals s.cfg (o.word w d src) (s.view d w) v s.f =
      (r, ⟨r == 0, signBit w r, parityOf s.cfg.parityEven r, false⟩) := by
  rw [aluVals_of_not_add o.aluOp_ne_add, aluRaw_logic_vals, aluRaw_logic_result ha hv]

/-- What the core word of a bitwise operation changes: the destination and the four flags. -/
theorem coreResult_logic {i : Instr} {p : Program} (hv : readSource s (recOf s i p) src = v) :
    let out := aluVals s.cfg (o.word w d src) (s.view d w) v s.f
    coreResult (o.word w d src) (recOf s i p) s =
      { s with regs := (s.setReg d w (BitVec.ofNat 24 out.1)).regs,
               f := s.f.update s.cfg.flagPos .all out.2 } := by
  have hout : wordOut (o.word w d src) (recOf s i p) s =
      alu s.cfg (o.word w d src) (s.view d w) v s.f := by
    rw [wordOut, show (o.word w d src).src0 = regSource d w from rfl,
      show (o.word w d src).src1 = src from rfl, hv, regSource, read_reg]
  exact core_reg (d := d) (w := w) rfl hout (alu_flags ..)

/-- An instruction that runs the core word of a bitwise operation completes with what the ALU computes. -/
theorem logicWord_completes {i : Instr} (hsrc : ReadsSource s i src v) (hat : s.atBoundary = true)
    (hreg : usableReg s d w = true) (hprog : programOf s.cfg i = some (coreOnly (o.word w d src))) :
    let out := aluVals s.cfg (o.word w d src) (s.view d w) v s.f
    Completes s i (s.setReg d w (BitVec.ofNat 24 out.1)).regs
      (s.f.update s.cfg.flagPos .all out.2) s.mar s.mdr := by
  have hflags := usable_aluWord_flags (s := s) (w := w) (d := d) (src := src) (op := o.aluOp) (addc := false)
    (neg := false) (cinv := false) (vsrc := .parity) (dest := .reg d w) nofun (absurd · o.aluOp_ne_add)
  obtain ⟨t, ht⟩ := plain_core hat (plainCore_aluWord hsrc hreg (.inl rfl) hflags)
  rw [← LogicOp.word, ← hprog, ← exec_program, coreResult_logic (hsrc.value _)] at ht
  exact ht.completes

/-- A bitwise operation in both forms: no flag is consumed, so D and C need not be written. -/
theorem logic_completes {i : Instr} {b : Nat} (h : SourceTwo s w (o.regForm w d) (o.immForm w d) i b)
    (hat : s.atBoundary = true) (hreg : usableReg s d w = true) :
    let r := o.apply (s.view d w).toNat b
    Completes s i (s.setReg d w (BitVec.ofNat 24 r)).regs
      (s.f.update s.cfg.flagPos .all ⟨r == 0, signBit w r, parityOf s.cfg.parityEven r, false⟩)
      s.mar s.mdr := by
  obtain ⟨hb, v, rfl, ⟨r, rfl, hsrc⟩ | ⟨x, rfl, hsrc⟩⟩ :=
    h.readsSource fun x => operandsAt_logic_imm o w d
  · have hdone := logicWord_completes hsrc hat hreg (programOf_logic_reg o w d s.cfg r)
    rwa [aluVals_logic (view_toNat_lt s d w) hb] at hdone
  · have hdone := logicWord_completes hsrc hat hreg (programOf_logic_imm o w d s.cfg x)
    rwa [aluVals_logic (view_toNat_lt s d w) hb] at hdone

end

/-- Settles O21: AND is a bitwise operation of the group. -/
theorem andResultAndFlags : Obligations.AndResultAndFlags := by
  intro s w d i b h hat hreg
  exact logic_completes (o := .and) h hat hreg

/-- Settles O22: OR is a bitwise operation of the group. -/
theorem orResultAndFlags : Obligations.OrResultAndFlags := by
  intro s w d i b h hat hreg
  exact logic_completes (o := .or) h hat hreg

/-- Settles O23: XOR is a bitwise operation of the group. -/
theorem xorResultAndFlags : Obligations.XorResultAndFlags := by
  intro s w d i b h hat hreg
  exact logic_completes (o := .xor) h hat hreg

/-! ### The table of the group (R319) -/

/-- The fields of the table's row are those of the core word, and the fixed ones are the group's. -/
theorem aluWord_row {c : Config} {i : Instr} {w : Width} {d : Reg} {src : Source} {op : AluOp}
    {addc neg cinv : Bool} {vsrc : VSrc} {dest : BusLoc}
    (h : programOf c i = some (coreOnly (aluWord w d src op addc neg vsrc cinv dest))) :
    (programOf c i).map (fun p =>
        (p.core.op, p.core.addc, p.core.neg, p.core.vsrc, p.core.cinv, p.core.dest)) =
          some (op, addc, neg, vsrc, cinv, dest) ∧
      (programOf c i).map (fun p => (p.core.add1, p.core.fmask, p.core.csrc)) = some (false, .all, .alu) := by
  rw [h]
  exact ⟨rfl, rfl⟩

/-- Settles O15, from the programs of the sums and of the bitwise operations. -/
theorem aluTable : Obligations.AluTable := by
  intro c w d r v row
  have sumReg (o : SumOp) := aluWord_row (programOf_sum_reg o w d c r)
  have sumImm (o : SumOp) := aluWord_row (programOf_sum_imm o w d c v)
  have logicReg (o : LogicOp) := aluWord_row (programOf_logic_reg o w d c r)
  have logicImm (o : LogicOp) := aluWord_row (programOf_logic_imm o w d c v)
  exact ⟨sumReg .add, sumImm .add, sumReg .adc, sumImm .adc, sumReg .sub, sumImm .sub, sumReg .sbc,
    sumImm .sbc, logicReg .and, logicImm .and, logicReg .or, logicImm .or, logicReg .xor, logicImm .xor,
    sumReg .cmp, sumImm .cmp⟩

/-! ### The words of the spec's examples (R322, R339 to R341, R361, R388) -/

/-- Words that are a well-formed instruction's encoding decode to it. -/
theorem decodeWords_of_encode {i : Instr} {ws : List Word16} (hwords : encode i = ws)
    (hwf : wellFormed i = true) : decodeWords true ws = .ok (i, []) := by
  subst hwords
  simpa using decodeWords_encode i hwf []

/-- Settles O7: each list of words is the encoding of its instruction, so the round trip decodes it. -/
theorem knownWords : Obligations.KnownWords := by
  refine ⟨?_, ?_, ?_, ?_, ?_, ?_, ?_, ?_, ?_, ?_, ?_, ?_, ?_, ?_, ?_, ?_, ?_⟩ <;>
    exact decodeWords_of_encode (by decide) (by decide)

end Sys2Proof.Machine
end

