-- ==== Sys2Proof/Proofs/LoadMoveFamily.lean ====
section
/-! PROOFS. The statements of spec/46_load_move.md: a move of a register, an immediate or F (R331, R332, R335,
R336), and a move from and to every RM operand (R333, R334). -/

namespace Sys2Proof.Machine

/-! ### Values of a width (R111) -/

/-- An immediate that fits its width is not cut (R115). -/
theorem trunc_of_immFits {w : Width} {v : Data} (h : immFits w v = true) : w.trunc v = v :=
  BitVec.eq_of_toNat_eq ((w.trunc_toNat v).trans (Nat.mod_eq_of_lt (of_decide_eq_true h)))

theorem trunc_w8_setWidth (b : Byte) : Width.w8.trunc (b.setWidth 24) = b.setWidth 24 := by
  have hb : b.toNat < 256 := b.isLt
  apply BitVec.eq_of_toNat_eq
  simp only [Width.trunc_toNat, Width.modulus, BitVec.toNat_setWidth]
  omega

theorem setWidth_view_w8 (s : State) (r : Reg) : (s.view r .w8).setWidth 8 = (s.x24 r).setWidth 8 := by
  apply BitVec.eq_of_toNat_eq
  simp [State.view, Width.modulus]

/-! ### Moves of the core word alone (R331, R332, R335, R336) -/

section
variable {s : State} {i : Instr} {w : Width} {src : Source} {d : Reg} {v : Data}

/-- An instruction of a move word alone completes with what the word changes. -/
theorem move_completes {dest : BusLoc} {regs : Vector GReg 8} {f : Flags} (hsrc : ReadsSource s i src v)
    (hat : s.atBoundary = true) (hrange : dest.inRange = true) (hwritable : dest.writable = true)
    (hpc : dest ≠ .pc) (hprog : programOf s.cfg i = some (coreOnly (moveWord w src dest)))
    (hcore : coreResult (moveWord w src dest) (recOf s i (coreOnly (moveWord w src dest))) s =
      { s with regs := regs, f := f }) :
    Completes s i regs f s.mar s.mdr := by
  obtain ⟨t, ht⟩ := exec_move hat hsrc.inRange hrange hwritable hpc (hsrc.usable _)
  rw [← hprog, ← exec_program, hcore] at ht
  exact ht.completes

/-- A move word alone brings a value of its width into a register. -/
theorem moveReg_completes (hsrc : ReadsSource s i src v) (hv : w.trunc v = v) (hat : s.atBoundary = true)
    (hprog : programOf s.cfg i = some (coreOnly (moveWord w src (.reg d w)))) :
    Completes s i (s.setReg d w v).regs s.f s.mar s.mdr := by
  have hcore := move_reg (w := w) (d := d) (hsrc.value (coreOnly (moveWord w src (.reg d w))))
  rw [hv] at hcore
  exact move_completes (dest := .reg d w) hsrc hat rfl rfl BusLoc.noConfusion hprog hcore

theorem readsSource_flags (h : usableF s = true) (i : Instr) :
    ReadsSource s i ⟨.flags, .w8, false⟩ (s.f.bits.setWidth 24) where
  inRange := rfl
  usable _ := by
    simp only [usableF, Bool.or_eq_true, beq_iff_eq] at h
    exact h.imp_right fun hwritten => if_pos hwritten
  value _ := by
    simp only [readSource, readLoc, Bool.false_eq_true, if_false, BitVec.ofNat_toNat, trunc_w8_setWidth]

/-- A move into F writes every bit of it (R336). -/
theorem move_f {r : Record} (hv : readSource s r src = v) :
    coreResult (moveWord w src .flags) r s = { s with f := ⟨(w.trunc v).setWidth 8, 0xFF#8⟩ } := by
  rw [coreResult, move_out hv]
  rfl

end

/-- Settles O30: the source is the register's view, which has its width. -/
theorem moveRegister : Obligations.MoveRegister := by
  intro s w d r hat hr
  exact moveReg_completes (readsSource_reg hr _) (trunc_view s r w) hat rfl

/-- Settles O31: the words hold the immediate, and one that fits is not cut. -/
theorem moveImmediate : Obligations.MoveImmediate := by
  intro s w d v hat hfits
  have hsrc : ReadsSource s (.ldRI w d v) (immSource w 1) (w.trunc v) :=
    readsSource_imm (operandsAt_words s (.ldRI w d v))
  rw [trunc_of_immFits hfits] at hsrc
  exact moveReg_completes hsrc (trunc_of_immFits hfits) hat rfl

/-- Settles O34: the source is F, whose eight bits fill an 8-bit value. -/
theorem readFlags : Obligations.ReadFlags := by
  intro s r hat hf
  exact moveReg_completes (readsSource_flags hf _) (trunc_w8_setWidth _) hat rfl

/-- Settles O35: the destination is F, and the view's low byte is the register's. -/
theorem writeFlags : Obligations.WriteFlags := by
  intro s r hat hr
  have hsrc := readsSource_reg hr (.ldFR r)
  have hcore := move_f (w := .w8) (hsrc.value (progLdFR r))
  rw [trunc_view, setWidth_view_w8] at hcore
  exact move_completes (dest := .flags) hsrc hat rfl rfl BusLoc.noConfusion rfl hcore

/-! ### Moves from and to memory (R333, R334) -/

/-- An RM operand is a register, an immediate, or in memory (R124). -/
theorem rm_cases (rm : Rm) : (∃ b, rm = .reg b) ∨ (∃ v, rm = .imm v) ∨ rmIsMem rm = true := by
  cases rm with
  | reg b => exact .inl ⟨b, rfl⟩
  | imm v => exact .inr (.inl ⟨v, rfl⟩)
  | _ => exact .inr (.inr rfl)

/-- The resolver's answer for an operand in memory (R215). -/
theorem resolve_of_mem {rm : Rm} (h : rmIsMem rm = true) (role : Role) (w : Width) (k : Nat) :
    resolve rm role w k = some (resolveMem rm role w k) := by
  cases rm with
  | reg _ | imm _ => cases h
  | _ => rfl

/-- An operand in memory has the value that is loaded from its address. -/
theorem rmValue_of_mem {rm : Rm} (h : rmIsMem rm = true) (s : State) (ia : Addr) (w : Width) :
    rmValue s ia w rm = s.load (rmAddr s ia w rm) w.bytes := by
  cases rm with
  | reg _ | imm _ => cases h
  | _ => rfl

/-- A move word whose source can be read can run as a core word. -/
theorem coreOk_move {s : State} {r : Record} {w : Width} {src : Source} {dest : BusLoc}
    (hcore : r.prog.core = moveWord w src dest) (hsrc : src.loc.inRange = true)
    (hrange : dest.inRange = true) (hwritable : dest.writable = true) (hpc : dest ≠ .pc)
    (hu : Usable s.cfg (unwrittenLoc s r src.loc)) : CoreOk s r where
  ok := hcore ▸ move_ok hsrc hrange hwritable
  mem := hcore ▸ rfl
  pc := .inl (hcore ▸ hpc)
  ops := hcore ▸ Usable.append (.nil _) hu
  flags := hcore ▸ move_flags _ _ _ rfl rfl rfl

/-- A load from a memory mode: the chain brings the operand to MDR, and the core word moves it on. -/
theorem load_completes {s : State} {w : Width} {rm : Rm} (hat : s.atBoundary = true)
    (hmem : rmIsMem rm = true) (hu : usableRm s w rm = true) (hfair : s.fair = true) (d : Reg) :
    let a := rmAddr s s.slot.instrAddr w rm
    let v := s.load a w.bytes
    Completes s (.ldRM w d rm) ((rmStep s w rm).setReg d w v).regs s.f ⟨a, true⟩ ⟨v, true⟩ := by
  intro a v
  have hprog : programOf s.cfg (.ldRM w d rm) =
      some (.plain (firstDesc rm .read w 1) (moveWord w ⟨.mdr, w, false⟩ (.reg d w)) .none) :=
    congrArg (Option.map _) (resolve_of_mem hmem .read w 1)
  obtain ⟨t, ht⟩ := exec_before (i := .ldRM w d rm) (cw := moveWord w ⟨.mdr, w, false⟩ (.reg d w))
    hat hfair hmem (operandsAt_words s (.ldRM w d rm)) hu fun u hchain => by
      obtain ⟨-, -, -, -, -, hmdr, -⟩ := arch_all hchain
      exact coreOk_move (dest := .reg d w) rfl rfl rfl rfl BusLoc.noConfusion
        (.inr (by rw [unwrittenLoc, hmdr]; rfl))
  have hread (p : Program) : readSource (chainPost s s.slot.instrAddr rm .read w .coreOp)
      (recOf s (.ldRM w d rm) p) ⟨.mdr, w, false⟩ = v := (read_mdr _ _ w).trans (s.load_trunc a w)
  rw [← hprog, ← exec_program, move_reg (hread _), s.load_trunc a w] at ht
  refine (ht.congr ?_).completes
  rw [chainPost, rmStep_frame]
  rfl

/-- An instruction that ends with one write made, and nothing else of the architectural state changed but
registers, flags, MAR and MDR. -/
theorem EndsOn.stores {s t : State} {i : Instr} {regs : Vector GReg 8} {f : Flags} {mar mdr : Latch}
    {a : Addr} {n : Nat} {v : Data} (hwf : s.mem.wf = true) (hn : n ≤ 3)
    (h : EndsOn s (exec i s) t
      { s with
        regs := regs, f := f, mar := mar, mdr := mdr
        mem := s.mem.store s.cfg.endian a n v, writes := s.writes ++ [⟨a, n, v⟩] }) :
    Stores s i regs f mar mdr a n v := by
  obtain ⟨hcfg, hregs, hf, hshadow, hmar, hmdr, hmem, -, hlog, hfair, hwrites, hfree⟩ := arch_all h.arch
  obtain ⟨hbytes, hother⟩ := store_reads hwf s.cfg.endian a hn v
  refine ⟨t, h.out, ⟨h.order, hregs, hf, hmar, hmdr, hcfg, hshadow, hlog, hfair, hfree⟩, ?_, h.goes⟩
  rw [Stored, hmem]
  exact ⟨hbytes, hother, hwrites⟩

/-- What the chain of a store leaves when the datum has been put into MDR. -/
theorem chainPost_write_arch (s : State) (v : Data) (ia : Addr) (rm : Rm) (w : Width) (done : SState) :
    (chainPost { s with mdr := ⟨v, true⟩ } ia rm .write w done).arch =
      { s with
        regs := (rmStep s w rm).regs, mar := ⟨rmAddr s ia w rm, true⟩, mdr := ⟨v, true⟩
        mem := s.mem.store s.cfg.endian (rmAddr s ia w rm) w.bytes (w.trunc v)
        writes := s.writes ++ [⟨rmAddr s ia w rm, w.bytes, w.trunc v⟩] : State }.arch := by
  cases rm <;> rfl

/-- A store to a memory mode: the core word brings the register's view to MDR, and the chain stores it. -/
theorem store_completes {s : State} {w : Width} {r : Reg} {rm : Rm} (hat : s.atBoundary = true)
    (hr : usableReg s r w = true) (hmem : rmIsMem rm = true) (hu : usableRm s w rm = true)
    (hwf : s.mem.wf = true) (hfair : s.fair = true) :
    let a := rmAddr s s.slot.instrAddr w rm
    Stores s (.ldMR w r rm) (rmStep s w rm).regs s.f ⟨a, true⟩ ⟨s.view r w, true⟩ a w.bytes
      (s.view r w) := by
  intro a
  have hprog : programOf s.cfg (.ldMR w r rm) =
      some (.plain .none (moveWord w (regSource r w) .mdr) (firstDesc rm .write w 1)) :=
    congrArg (Option.map _) (resolve_of_mem hmem .write w 1)
  have hsrc := readsSource_reg hr (.ldMR w r rm)
  obtain ⟨t, ht⟩ := exec_after (i := .ldMR w r rm) (cw := moveWord w (regSource r w) .mdr)
    hat hfair hmem (operandsAt_words s (.ldMR w r rm)) hu
    (coreOk_move (dest := .mdr) rfl hsrc.inRange rfl rfl BusLoc.noConfusion (hsrc.usable _))
    (move_mdr (hsrc.value _)) rfl
  rw [← hprog, ← exec_program, trunc_view] at ht
  have hbytes : w.bytes ≤ 3 := by cases w <;> decide
  refine (ht.congr ?_).stores hwf hbytes
  rw [chainPost_write_arch, trunc_view]

/-- Settles O32: a register or an immediate by the core word alone, an operand in memory by its chain. -/
theorem loadOperand : Obligations.LoadOperand := by
  intro s w d rm hat hu hfair ia v
  obtain ⟨b, rfl⟩ | ⟨x, rfl⟩ | hmem := rm_cases rm
  · exact moveReg_completes (readsSource_reg hu _) (trunc_view s b w) hat rfl
  · exact moveReg_completes (readsSource_imm (operandsAt_words s (.ldRM w d (.imm x))))
      (w.trunc_trunc x) hat rfl
  · have hv : v = s.load (rmAddr s ia w rm) w.bytes := rmValue_of_mem hmem s ia w
    rw [if_pos hmem, if_pos hmem, hv]
    exact load_completes hat hmem hu (hfair hmem) d

/-- Settles O33: a register by the core word alone, a memory mode by its chain. -/
theorem storeOperand : Obligations.StoreOperand := by
  intro s w r rm hat hr
  refine ⟨?register, fun hmem hu hwf hfair => store_completes hat hr hmem hu hwf hfair⟩
  rintro b rfl
  exact moveReg_completes (readsSource_reg hr _) (trunc_view s r w) hat rfl

end Sys2Proof.Machine
end

