-- ==== Sys2Proof/Proofs/BranchFamily.lean ====
section
/-! PROOFS. The statements of spec/47_branch.md: the jumps (R351 to R354), the call (R355) and the return
(R356). -/

namespace Sys2Proof.Machine

/-! ### What a branch leaves, and where Decode has gone on (R178) -/

/-- An end with nothing of the architectural state changed but registers, flags, MAR and MDR, wherever the
program goes. -/
theorem Ends.leaves {s t : State} {o : Host.Outcome State Fault Refusal} {regs : Vector GReg 8} {f : Flags}
    {mar mdr : Latch} (h : Ends o t { s with regs := regs, f := f, mar := mar, mdr := mdr }) :
    Leaves s t regs f mar mdr ∧ SameMem s t := by
  obtain ⟨hcfg, hregs, hf, hshadow, hmar, hmdr, hmem, -, hlog, hfair, hwrites, hfree⟩ := arch_all h.arch
  exact ⟨⟨h.order, hregs, hf, hmar, hmdr, hcfg, hshadow, hlog, hfair, hfree⟩,
    fun _ => congrArg (Memory.read · _) hmem,
    fun _ => congrFun (State.readByte_congr hcfg hmem hwrites) _, hwrites⟩

/-- Behind the words that ENC_REF reads as `i`, at the slot's address, Decode continues at `a` (R174, R178). -/
def FollowsAt (s : State) (i : Instr) (a : Addr) : Prop :=
  ∀ ws, s.cfg.enc = .ref → decodeRef s.cfg ws = .ok (i, []) →
    (decodeRecord s.cfg ws s.slot.instrAddr).follow = a

theorem followsAt_imm24 {s : State} {i : Instr} {a : Addr} (h : i = .jpAbs .t a ∨ i = .callAbs a) :
    FollowsAt s i a := by
  intro ws henc hdec
  obtain ⟨habs, -⟩ := staticTargets s.cfg ws s.slot.instrAddr i henc hdec
  exact (habs a h).1

theorem followsAt_disp8 (s : State) (d : Byte) :
    FollowsAt s (.jrRel .t d) (s.slot.instrAddr + d.signExtend 24) := by
  intro ws henc hdec
  obtain ⟨-, hrel, -⟩ := staticTargets s.cfg ws s.slot.instrAddr (.jrRel .t d) henc hdec
  exact (hrel d rfl).1

/-- Behind a delivered instruction the front end holds what follows its record. -/
theorem GoesOn.pc_of_delivered {s t : State} {i : Instr} {a : Addr} (hgoes : GoesOn s t)
    (hfollow : FollowsAt s i a) (h : s.delivered i) : t.pc = a := by
  obtain ⟨hready, henc, hfront, ws, hdec, hslot⟩ := h
  obtain ⟨-, -, -, -, hnext⟩ := frontOk_iff.1 hfront
  calc t.pc = s.nextPc := (hgoes hfront).2
    _ = s.slot.follow := hnext hready
    _ = (decodeRecord s.cfg ws s.slot.instrAddr).follow := congrArg Record.follow hslot
    _ = a := hfollow ws henc hdec

/-! ### Sources of a target (R351 to R353) -/

section
variable {s : State} {i : Instr}

theorem usable_imm24 (c : Config) {r : Record} (hlen : r.words.length = 3) :
    Usable c (unwrittenLoc s r (.imm24 1)) :=
  .append (usable_slot (by omega)) (usable_slot (by omega))

theorem readsSource_imm24 {a : Addr} (h : (s.wordsFor i).length = 3 ∧ slotData (s.wordsFor i) 1 = a) :
    ReadsSource s i ⟨.imm24 1, .w24, false⟩ a where
  inRange := rfl
  usable p := usable_imm24 s.cfg (r := recOf s i p) h.1
  value _ := (Width.trunc_w24 _).trans h.2

theorem readsSource_disp8 {d : Byte}
    (h : (s.wordsFor i).length = 2 ∧ BitVec.ofNat 8 (slotWord (s.wordsFor i) 1).toNat = d) :
    ReadsSource s i ⟨.imm 1, .w8, true⟩ (d.signExtend 24) where
  inRange := rfl
  usable _ := usable_slot (ws := s.wordsFor i) (by omega)
  value p := (read_imm8s s (recOf s i p) 1).trans (congrArg (BitVec.signExtend 24) h.2)

/-- A predicate that can be read consumes no unwritten flag (R289). -/
theorem usable_cond {cc : Cond} (h : usableCond s cc = true) :
    Usable s.cfg (unwrittenCond s.cfg.flagPos s.f cc) := by
  cases cc with
  | t => exact .nil _
  | z | nz | c | nc | s | ns | v | nv => exact usable_flag h

/-! ### Branches of the core word alone (R350) -/

/-- The program of `i` is a branch of its core word alone, which can run and brings `a` to `PC` (R350). -/
structure BranchWord (s : State) (i : Instr) (cc : Cond) (k : BKind) (core : ControlWord) (a : Addr) :
    Prop where
  program : programOf s.cfg i = some (branchProgram cc k core)
  runs : BranchCore s (recOf s i (branchProgram cc k core))
  target : (wordOut core (recOf s i (branchProgram cc k core)) s).result = a

variable {cc : Cond} {k : BKind} {core : ControlWord} {a : Addr}

/-- A branch word passes its source on to `PC` as a move does. -/
theorem branchCore_runs {r : Record} {src : Source} (hcore : r.prog.core = branchCore src)
    (hbranch : r.isBranch = true) (hrange : src.loc.inRange = true)
    (hu : Usable s.cfg (unwrittenLoc s r src.loc)) : BranchCore s r where
  ok := hcore ▸ move_ok (w := .w24) (dest := .pc) hrange rfl rfl
  mem := hcore ▸ rfl
  dest := hcore ▸ rfl
  mask := hcore ▸ rfl
  addc := hcore ▸ rfl
  shift := hcore ▸ rfl
  branch := hbranch
  ops := hcore ▸ .append (.nil _) hu

/-- A branch whose target is a source (R351, R353). -/
theorem branchWord_source {src : Source} (hsrc : ReadsSource s i src a)
    (hprog : programOf s.cfg i = some (branchProgram cc k (branchCore src))) (hk : (k != .none) = true) :
    BranchWord s i cc k (branchCore src) a where
  program := hprog
  runs := branchCore_runs rfl hk hsrc.inRange (hsrc.usable _)
  target := (congrArg AluOut.result (move_out (w := .w24) (dest := .pc) (hsrc.value _))).trans
    (Width.trunc_w24 a)

/-- The branch word that adds its source to the record's own address (R352). -/
def relativeCore (src : Source) : ControlWord :=
  { branchCore src with src0 := ⟨.iaddr, .w24, false⟩, op := .add }

/-- A branch whose target is its own address plus a source (R352). -/
theorem branchWord_relative {src : Source} {v : Data} (hsrc : ReadsSource s i src v)
    (hprog : programOf s.cfg i = some (branchProgram cc k (relativeCore src))) (hk : (k != .none) = true) :
    BranchWord s i cc k (relativeCore src) (s.slot.instrAddr + v) where
  program := hprog
  runs :=
    { ok := hsrc.inRange
      mem := rfl
      dest := rfl
      mask := rfl
      addc := rfl
      shift := rfl
      branch := hk
      ops := .append (.nil _) (hsrc.usable _) }
  target := by
    rw [wordOut, alu_add24 _ _ _ rfl rfl rfl rfl rfl rfl rfl]
    exact congrArg₂ (· + ·) (Width.trunc_w24 _) (hsrc.value _)

/-- Decode has redirected for a static branch, and Execute lets the program go on (R178). -/
theorem BranchWord.static (h : BranchWord s i cc k core a) (hat : s.atBoundary = true)
    (hstatic : isStatic cc k = true) (hfollow : FollowsAt s i a) : BranchesStatically s i a := by
  obtain ⟨t, ht⟩ := ends_static hat rfl rfl rfl rfl h.runs hstatic
  rw [← runProgram_some hat, ← h.program, ← exec_program] at ht
  obtain ⟨hleaves, hmem⟩ := ht.toEnds.leaves
  exact ⟨t, ht.out, hleaves, hmem, ht.goes, ht.goes.pc_of_delivered hfollow⟩

/-- Execute resolves any other branch (R290). -/
theorem BranchWord.resolved (h : BranchWord s i cc k core a) (hat : s.atBoundary = true)
    (hstatic : isStatic cc k = false) (hcond : usableCond s cc = true) :
    Branches s i (condHolds s.cfg.flagPos s.f cc) a := by
  obtain ⟨t, ht, htaken, hnot⟩ := ends_branch hat rfl rfl rfl rfl h.runs hstatic (usable_cond hcond)
  rw [← runProgram_some hat, ← h.program, ← exec_program] at ht
  obtain ⟨hleaves, hmem⟩ := ht.leaves
  refine ⟨t, ht.out, hleaves, hmem, ?_⟩
  split
  · next hholds => exact h.target ▸ htaken hholds
  · next hfails => exact (hnot (Bool.eq_false_iff.2 hfails)).1

end

/-- Settles O36: the target is the immediate of the words; only T is static. -/
theorem jumpAbsolute : Obligations.JumpAbsolute := by
  intro s cc a hat hcond
  have hword : BranchWord s (.jpAbs cc a) cc .absImm _ a :=
    branchWord_source (readsSource_imm24 (operandsAt_words s (.jpAbs cc a))) rfl rfl
  refine ⟨?_, fun hcc => hword.resolved hat (isStatic_of_ne hcc _) hcond⟩
  rintro rfl
  exact hword.static hat rfl (followsAt_imm24 (.inl rfl))

/-- Settles O37: the target is the sum of the record's address and the signed byte of the words. -/
theorem jumpRelative : Obligations.JumpRelative := by
  intro s cc d hat hcond a
  have hword : BranchWord s (.jrRel cc d) cc .relImm _ a :=
    branchWord_relative (readsSource_disp8 (operandsAt_words s (.jrRel cc d))) rfl rfl
  refine ⟨?_, fun hcc => hword.resolved hat (isStatic_of_ne hcc _) hcond⟩
  rintro rfl
  exact hword.static hat rfl (followsAt_disp8 s d)

/-- Settles O38: the target is the register's view of 24 bits, and no condition makes the branch static. -/
theorem jumpRegister : Obligations.JumpRegister := by
  intro s cc r hat hr hcond
  have hview : s.view r .w24 = s.x24 r := Width.trunc_w24 _
  have hword : BranchWord s (.jpReg cc r) cc .reg _ (s.x24 r) :=
    branchWord_source (hview ▸ readsSource_reg hr _) rfl rfl
  exact hword.resolved hat (isStatic_reg cc) hcond

/-! ### The call and the return (R355, R356) -/

/-- A record of three words is followed by the third word after its address (R91). -/
theorem recOf_nextAddr {s : State} {i : Instr} (p : Program) (hlen : (s.wordsFor i).length = 3) :
    (recOf s i p).nextAddr = seqIter s.cfg.pcWrap 3 s.slot.instrAddr := by
  rw [recOf, mkRecord, hlen]

/-- Settles O39: the chain pushes the record's next address, and the core word's target is the one Decode
has redirected to. -/
theorem callPushesLink : Obligations.CallPushesLink := by
  intro s target hat hu hwf hfair sp link
  have hwords : (s.wordsFor (.callAbs target)).length = 3 ∧ slotData _ 1 = target :=
    operandsAt_words s (.callAbs target)
  obtain ⟨t, ht⟩ := ends_call (r := recOf s (.callAbs target) progCall) hat hfair rfl rfl rfl rfl hu
    (fun v _ => branchCore_runs rfl rfl rfl (usable_imm24 v.cfg hwords.1)) rfl
  rw [← runProgram_some hat, recOf_nextAddr _ hwords.1] at ht
  obtain ⟨t, hout, hleaves, hstored, hgoes⟩ : Stores s (.callAbs target)
      (s.setReg s.cfg.spIndex .w24 sp).regs s.f ⟨sp, true⟩ ⟨link, true⟩ sp 3 link :=
    EndsOn.stores hwf le_rfl (ht.congr rfl)
  exact ⟨t, hout, hleaves, hstored, hgoes, hgoes.pc_of_delivered (followsAt_imm24 (.inr rfl))⟩

/-- Settles O40: the chain pops the three bytes into MDR, from which the core word redirects. -/
theorem returnPopsLink : Obligations.ReturnPopsLink := by
  intro s hat hu hfair sp v
  obtain ⟨t, ht, hgoes⟩ := ends_return (r := recOf s .retn (progRet s.cfg.spIndex)) hat hfair rfl rfl hu
  rw [← runProgram_some hat] at ht
  have hends : Ends (exec .retn s) t
      { s with
        regs := (s.setReg s.cfg.spIndex .w24 (sp + 3)).regs, f := s.f
        mar := ⟨sp, true⟩, mdr := ⟨v, true⟩ } := ⟨ht.out, ht.order, ht.arch⟩
  obtain ⟨hleaves, hmem⟩ := hends.leaves
  exact ⟨t, ht.out, hleaves, hmem, hgoes⟩

end Sys2Proof.Machine
end

