-- ==== Sys2Proof/Proofs/OtherFamily.lean ====
section
/-! PROOFS. The statements of spec/48_other.md: the stack (R371, R372), the bit operations (R373 to R376), the
shifts and rotates (R377 to R384) and I/O (R385, R386). -/

namespace Sys2Proof.Machine

theorem bytes_le_three (w : Width) : w.bytes ≤ 3 := by cases w <;> decide

/-! ### The stack (R371, R372) -/

/-- Settles O42: the core word brings the register's view to MDR, and the chain of `-(sp)` stores it. -/
theorem pushStoresOldValue : Obligations.PushStoresOldValue := by
  intro s w r hat hr hsp hwf hfair a
  have hsrc := readsSource_reg hr (.pushR w r)
  have hwords : RmAt (s.wordsFor (.pushR w r)) 0 w (.preDec s.cfg.spIndex) :=
    rmAt_none _ _ _ s.cfg.spIndex _ (Nat.zero_le _) (by simp)
  obtain ⟨t, ht⟩ := exec_after (i := .pushR w r) (cw := moveWord w (regSource r w) .mdr)
    hat hfair rfl hwords hsp
    (coreOk_move (dest := .mdr) rfl hsrc.inRange rfl rfl BusLoc.noConfusion (hsrc.usable _))
    (move_mdr (hsrc.value _)) rfl
  rw [trunc_view] at ht
  refine EndsOn.stores hwf (bytes_le_three w) (ht.congr ?_)
  rw [chainPost_write_arch, trunc_view]
  rfl

/-- A move word that reads MDR can run behind a chain that has written it. -/
theorem coreOk_moveMdr {s : State} {r : Record} {w : Width} {d : Reg}
    (hcore : r.prog.core = moveWord w ⟨.mdr, w, false⟩ (.reg d w)) (hmdr : s.mdr.written = true) :
    CoreOk s r :=
  coreOk_move hcore rfl rfl rfl BusLoc.noConfusion (.inr (if_pos hmdr))

/-- A loaded value in MDR is read as it is. -/
theorem move_loaded {s : State} {r : Record} {w : Width} {d : Reg} {u : State} {a : Addr}
    (hmdr : u.mdr.val = s.load a w.bytes) :
    coreResult (moveWord w ⟨.mdr, w, false⟩ (.reg d w)) r u = u.setReg d w (s.load a w.bytes) := by
  rw [move_reg (read_mdr u r w), hmdr, s.load_trunc, s.load_trunc]

/-- Settles O43: the chain of `(sp)+` brings the value to MDR, and the core word moves it on. -/
theorem popTakesStackValue : Obligations.PopTakesStackValue := by
  intro s w r hat hsp hfair a v
  have hwords : RmAt (s.wordsFor (.popR w r)) 0 w (.postInc s.cfg.spIndex) :=
    rmAt_none _ _ _ s.cfg.spIndex _ (Nat.zero_le _) (by simp)
  obtain ⟨t, ht⟩ := exec_before (i := .popR w r) (cw := moveWord w ⟨.mdr, w, false⟩ (.reg r w))
    hat hfair rfl hwords hsp fun u hchain => by
      obtain ⟨-, -, -, -, -, hmdr, -⟩ := arch_all hchain
      exact coreOk_moveMdr rfl (hmdr ▸ rfl)
  rw [move_loaded (s := s) (a := a) rfl] at ht
  exact EndsOn.completes (ht.congr rfl)

/-! ### I/O (R385, R386) -/

/-- Settles O49: the I/O chain brings the byte to MDR, and the core word moves it on. -/
theorem inputByte : Obligations.InputByte := by
  intro s r n hat hfair a v
  obtain ⟨-, hslot⟩ : (s.wordsFor (.inR r n)).length = 2 ∧ _ := operandsAt_words s (.inR r n)
  obtain ⟨t, ht⟩ := exec_in (cw := moveWord .w8 ⟨.mdr, .w8, false⟩ (.reg r .w8)) hat hfair hslot
    fun u hchain => by
      obtain ⟨-, -, -, -, -, hmdr, -⟩ := arch_all hchain
      exact coreOk_moveMdr rfl (hmdr ▸ rfl)
  rw [move_loaded (s := s) (a := ioAddr s.cfg n) rfl] at ht
  simp only [a, v, ← ioAddr_eq]
  exact EndsOn.completes (ht.congr rfl)

/-- Settles O50: the core word brings the register's low byte to MDR, and the I/O chain stores it. -/
theorem outputByte : Obligations.OutputByte := by
  intro s r n hat hr hwf hfair a
  have hsrc := readsSource_reg hr (.outR r n)
  obtain ⟨-, hslot⟩ : (s.wordsFor (.outR r n)).length = 2 ∧ _ := operandsAt_words s (.outR r n)
  obtain ⟨t, ht⟩ := exec_out (cw := moveWord .w8 (regSource r .w8) .mdr) hat hfair hslot
    (coreOk_move (dest := .mdr) rfl hsrc.inRange rfl rfl BusLoc.noConfusion (hsrc.usable _))
    (move_mdr (hsrc.value _)) rfl
  rw [trunc_view] at ht
  simp only [a, ← ioAddr_eq]
  refine EndsOn.stores hwf (by decide) (ht.congr ?_)
  rw [ioPost, memAfter, writesAfter, trunc_view]
  rfl

/-! ### The shifts and rotates (R377 to R384) -/

/-- The core word of a shift mode (R377). -/
def shiftWord (mode : Shift) (w : Width) (r : Reg) : ControlWord :=
  { ControlWord.base w w with
    src1 := regSource r w, dest := .reg r w, shift := mode, fmask := .all, csrc := .shift, vsrc := .clear }

theorem shiftProgram_eq (mode : Shift) (w : Width) (r : Reg) :
    shiftProgram mode w r = coreOnly (shiftWord mode w r) := rfl

/-- The top bit of a value of width W is its quotient (R245). -/
theorem msb_of_lt {w : Width} {x : Nat} (hx : x < w.modulus) : msb w x = x / 2 ^ (w.bits - 1) := by
  refine Nat.mod_eq_of_lt (Nat.div_lt_of_lt_mul ?_)
  rw [w.modulus_eq] at hx
  cases w <;> exact hx

/-- A bit that enters a left shift takes the place the shift has left 0 (R245). -/
theorem double_add_bit_mod {w : Width} {x b : Nat} (hb : b ≤ 1) :
    (x * 2 + b) % w.modulus = 2 * x % w.modulus + b := by
  cases w <;> simp only [Width.modulus] <;> omega

/-- A bit that enters a right shift at the top keeps the value in its width. -/
theorem half_add_top_lt {w : Width} {x b : Nat} (hx : x < w.modulus) (hb : b ≤ 1) :
    x / 2 + b * 2 ^ (w.bits - 1) < w.modulus := by
  cases w <;> simp only [Width.modulus, Width.bits] at hx ⊢ <;> omega

/-- A shifter mode's value has the operand's width. -/
theorem shifter_lt_modulus (mode : Shift) {w : Width} {x cin : Nat} (hx : x < w.modulus) (hcin : cin ≤ 1) :
    (shifter mode w x cin).1 < w.modulus := by
  have hmsb : msb w x ≤ 1 := Nat.lt_succ_iff.1 (Nat.mod_lt _ Nat.two_pos)
  have hlow : x % 2 ≤ 1 := Nat.lt_succ_iff.1 (Nat.mod_lt _ Nat.two_pos)
  cases mode with
  | none => exact hx
  | l | lc | lb => exact Nat.mod_lt _ w.modulus_pos
  | rl => exact Nat.lt_of_le_of_lt (Nat.div_le_self x 2) hx
  | ra => exact half_add_top_lt hx hmsb
  | rc => exact half_add_top_lt hx hcin
  | rb => exact half_add_top_lt hx hlow

section
variable {mode : Shift} {s : State} {w : Width} {r : Reg} {i : Instr}

/-- No transform precedes the shifter in a shift's word (R243, R377). -/
theorem secondOperand_shift (hmode : mode ≠ .none) (mask : Bool) (b cin : Nat) :
    secondOperand mask (shiftWord mode w r) b cin = shifter mode w (b % w.modulus) cin := by
  cases mode with
  | none => exact absurd rfl hmode
  | _ => rfl

/-- What the ALU computes for a shift: the shifter's value, with the bit shifted out in C and V clear. -/
theorem aluVals_shift (hmode : mode ≠ .none) (c : Config) (v0 v1 : Data) (f : Flags)
    (hv : v1.toNat < w.modulus) :
    let out := shifter mode w v1.toNat (f.get c.flagPos .c).toNat
    aluVals c (shiftWord mode w r) v0 v1 f = (out.1, ⟨out.1 == 0, signBit w out.1, false, out.2 == 1⟩) := by
  intro out
  have hw : (shiftWord mode w r).w = w := rfl
  have hsecond : secondOperand c.xformMask (shiftWord mode w r) (v1.toNat % w.modulus)
      (carryIn c.flagPos f) = out := by
    rw [secondOperand_shift hmode, Nat.mod_mod, Nat.mod_eq_of_lt hv, carryIn]
  have hout : out.1 % w.modulus = out.1 :=
    Nat.mod_eq_of_lt (shifter_lt_modulus mode hv (Bool.toNat_le _))
  rw [aluVals_of_not_add AluOp.noConfusion]
  simp only [aluRaw, hw, hsecond]
  simp only [shiftWord, ControlWord.base, aluCore, overflowOf, carryOf, hout, Bool.xor_false]

/-- A shift's word can run: only a rotate through C consumes a flag (R252). -/
theorem plainCore_shift {p : Program} (hreg : usableReg s r w = true)
    (hc : mode = .lc ∨ mode = .rc → usableFlag s .c = true) :
    PlainCore s (recOf s i p) (shiftWord mode w r) where
  ok := rfl
  mem := rfl
  pc := BusLoc.noConfusion
  ops := .append (.nil _) (usable_reg hreg)
  flags := by
    cases mode with
    | lc => exact .append (usable_flag (hc (.inl rfl))) (.nil _)
    | rc => exact .append (usable_flag (hc (.inr rfl))) (.nil _)
    | _ => exact .nil _

/-- An instruction of a shift's word completes with the value and the bit shifted out of its mode. -/
theorem shift_completes {y out : Nat} (hmode : mode ≠ .none) (hat : s.atBoundary = true)
    (hreg : usableReg s r w = true) (hc : mode = .lc ∨ mode = .rc → usableFlag s .c = true)
    (hprog : programOf s.cfg i = some (shiftProgram mode w r))
    (hshift : shifter mode w (s.view r w).toNat (s.f.get s.cfg.flagPos .c).toNat = (y, out)) :
    Completes s i (s.setReg r w (BitVec.ofNat 24 y)).regs
      (s.f.update s.cfg.flagPos .all ⟨y == 0, signBit w y, false, out == 1⟩) s.mar s.mdr := by
  rw [shiftProgram_eq] at hprog
  obtain ⟨t, ht⟩ := plain_core hat (plainCore_shift (i := i) (mode := mode) hreg hc)
  have hword : wordOut (shiftWord mode w r) (recOf s i (coreOnly (shiftWord mode w r))) s =
      alu s.cfg (shiftWord mode w r) 0 (s.view r w) s.f :=
    congrArg₂ (alu s.cfg _ · · s.f) (Width.trunc_w24 0) (read_reg s _ r w)
  rw [← hprog, ← exec_program, core_reg (d := r) (w := w) rfl hword (alu_flags ..)] at ht
  have hvals := aluVals_shift (r := r) hmode s.cfg 0 (s.view r w) s.f (view_toNat_lt s r w)
  simp only [alu, hvals, hshift] at ht
  exact ht.completes

end

/-- Settles O47: each form's mode injects its own bit, where the shift has left 0. -/
theorem shiftsLeft : Obligations.ShiftsLeft := by
  intro s w r i injected hat hreg x out h y
  have hout : msb w x = out := msb_of_lt (view_toNat_lt s r w)
  have hbit : out ≤ 1 := hout ▸ Nat.lt_succ_iff.1 (Nat.mod_lt _ Nat.two_pos)
  obtain ⟨rfl, rfl⟩ | ⟨rfl, hc, rfl⟩ | ⟨rfl, rfl⟩ := h
  · exact shift_completes (mode := .l) Shift.noConfusion hat hreg (by simp) rfl
      (Prod.ext (double_add_bit_mod (b := 0) (Nat.zero_le 1)) hout)
  · exact shift_completes (mode := .lc) Shift.noConfusion hat hreg (fun _ => hc) rfl
      (Prod.ext (double_add_bit_mod (Bool.toNat_le _)) hout)
  · exact shift_completes (mode := .lb) Shift.noConfusion hat hreg (by simp) rfl
      (Prod.ext ((congrArg (fun b => (x * 2 + b) % w.modulus) hout).trans (double_add_bit_mod hbit)) hout)

/-- Settles O48: each form's mode injects its own bit at the top. -/
theorem shiftsRight : Obligations.ShiftsRight := by
  intro s w r i injected hat hreg x h y
  have hmsb : msb w x = x / 2 ^ (w.bits - 1) := msb_of_lt (view_toNat_lt s r w)
  obtain ⟨rfl, rfl⟩ | ⟨rfl, rfl⟩ | ⟨rfl, hc, rfl⟩ | ⟨rfl, rfl⟩ := h
  · have hy : x / 2 = y := by simp only [y, Nat.zero_mul, Nat.add_zero]
    exact shift_completes (mode := .rl) Shift.noConfusion hat hreg (by simp) rfl (congrArg (·, x % 2) hy)
  · exact shift_completes (mode := .ra) Shift.noConfusion hat hreg (by simp) rfl
      (congrArg (fun b => (x / 2 + b * 2 ^ (w.bits - 1), x % 2)) hmsb)
  · exact shift_completes (mode := .rc) Shift.noConfusion hat hreg (fun _ => hc) rfl rfl
  · exact shift_completes (mode := .rb) Shift.noConfusion hat hreg (by simp) rfl rfl

end Sys2Proof.Machine
end

