-- ==== Sys2Proof/Proofs/BitFamily.lean ====
section
/-! PROOFS. The bit operations of spec/48_other.md: BIT, SET and RES on every operand (R373 to R376). -/

namespace Sys2Proof.Machine

/-! ### The constants of a bit number (R373, R375, R376) -/

section
variable {w : Width} {n : BitVec 5}

/-- The bit of a number inside the operand is a value of the operand's width. -/
theorem two_pow_lt_modulus (h : bitInside w n = true) : 2 ^ n.toNat < w.modulus := by
  rw [w.modulus_eq]
  exact Nat.pow_lt_pow_right Nat.one_lt_two (of_decide_eq_true h)

theorem bitConst_toNat (h : bitInside w n = true) : (BitVec.ofNat 24 (2 ^ n.toNat)).toNat = 2 ^ n.toNat :=
  Nat.mod_eq_of_lt (lt_of_lt_of_le (two_pow_lt_modulus h) w.modulus_le)

theorem maskConst_lt_modulus : (BitVec.ofNat 24 (w.modulus - 1 - 2 ^ n.toNat)).toNat < w.modulus :=
  calc (BitVec.ofNat 24 (w.modulus - 1 - 2 ^ n.toNat)).toNat
      ≤ w.modulus - 1 - 2 ^ n.toNat := (BitVec.toNat_ofNat ..).trans_le (Nat.mod_le _ _)
    _ ≤ w.modulus - 1 := Nat.sub_le _ _
    _ < w.modulus := Nat.sub_one_lt w.modulus_pos.ne'

theorem and_bit_beq_zero (a : Data) (n : Nat) : (a.toNat &&& 2 ^ n == 0) = !a.getLsbD n := by
  rw [Nat.and_two_pow, ← BitVec.testBit_toNat]
  cases a.toNat.testBit n <;> simp

/-- On a value of width W the constant of RES is the complement of the bit (R375). -/
theorem and_mask_eq {a : Data} (ha : a.toNat < w.modulus) (h : bitInside w n = true) :
    a &&& BitVec.ofNat 24 (w.modulus - 1 - 2 ^ n.toNat) = a &&& ~~~BitVec.ofNat 24 (2 ^ n.toNat) := by
  have hbit := two_pow_lt_modulus h
  rw [w.modulus_eq] at ha hbit
  apply BitVec.eq_of_getLsbD_eq
  intro j hj
  have hmask : w.modulus - 1 - 2 ^ n.toNat = 2 ^ w.bits - (2 ^ n.toNat + 1) := by
    rw [w.modulus_eq]
    omega
  by_cases hin : j < w.bits
  · simp only [BitVec.getLsbD_and, BitVec.getLsbD_not, BitVec.getLsbD_ofNat, hmask,
      Nat.testBit_two_pow_sub_succ hbit, hin, hj, decide_true, Bool.true_and]
  · have hclear : a.getLsbD j = false := by
      rw [← BitVec.testBit_toNat]
      exact Nat.testBit_lt_two_pow (lt_of_lt_of_le ha (Nat.pow_le_pow_right Nat.two_pos (by omega)))
    simp [hclear]

end

/-! ### The core word of a bit operation (R373 to R375) -/

/-- The bitwise operation on the data path. -/
def LogicOp.onData : LogicOp → Data → Data → Data
  | .and, a, b => a &&& b
  | .or, a, b => a ||| b
  | .xor, a, b => a ^^^ b

theorem LogicOp.onData_toNat (o : LogicOp) (a b : Data) :
    (o.onData a b).toNat = o.apply a.toNat b.toNat := by
  cases o with
  | and => exact BitVec.toNat_and a b
  | or => exact BitVec.toNat_or a b
  | xor => exact BitVec.toNat_xor a b

/-- The operation of an operand and the constant `c`. -/
def bitOpWord (o : LogicOp) (w : Width) (opnd : Source) (c : Data) (dest : BusLoc) (m : FMask) :
    ControlWord :=
  bitWord w opnd ⟨.const c, .w24, false⟩ o.aluOp dest m

section
variable {o : LogicOp} {w : Width} {opnd : Source} {c : Data} {dest : BusLoc} {m : FMask} {s : State}
  {r : Record} {a : Data}

/-- What the ALU computes for a bit operation's word. -/
theorem alu_bitOp (cfg : Config) (f : Flags) (ha : a.toNat < w.modulus) (hc : c.toNat < w.modulus) :
    ∃ v, v.z = (o.apply a.toNat c.toNat == 0) ∧
      alu cfg (bitOpWord o w opnd c dest m) a c f = ⟨o.onData a c, f.update cfg.flagPos m v⟩ := by
  have hraw : (aluRaw cfg (bitOpWord o w opnd c dest m) a c f).result = o.apply a.toNat c.toNat := by
    change aluCore o.aluOp w (a.toNat % w.modulus) (c.toNat % w.modulus) % w.modulus = _
    rw [aluCore_logic, Nat.mod_eq_of_lt ha, Nat.mod_eq_of_lt hc, Nat.mod_eq_of_lt hc,
      Nat.mod_eq_of_lt (o.apply_lt_modulus w ha hc)]
  refine ⟨(aluRaw cfg (bitOpWord o w opnd c dest m) a c f).vals, congrArg (· == 0) hraw, ?_⟩
  simp only [alu, aluVals_of_not_add (cw := bitOpWord o w opnd c dest m) o.aluOp_ne_add, hraw,
    ← o.onData_toNat, BitVec.ofNat_toNat, BitVec.setWidth_eq]
  rfl

theorem wordOut_bitOp (h : readSource s r opnd = a) :
    wordOut (bitOpWord o w opnd c dest m) r s = alu s.cfg (bitOpWord o w opnd c dest m) a c s.f :=
  congrArg₂ (alu s.cfg _ · · s.f) h (Width.trunc_w24 c)

theorem bitOp_flags (cfg : Config) (f : Flags) :
    aluUnwritten cfg (bitOpWord o w opnd c dest m) f = [] := by
  cases o <;> rfl

theorem bitOp_ok (hopnd : opnd.loc.inRange = true) (hrange : dest.inRange = true)
    (hwritable : dest.writable = true) : (bitOpWord o w opnd c dest m).ok = true := by
  have hconst : (BusLoc.const c).inRange = true := rfl
  simp [bitOpWord, bitWord, ControlWord.base, ControlWord.ok, hopnd, hrange, hwritable, hconst]

/-- A bit operation's word whose operand can be read can run as a core word. -/
theorem coreOk_bitOp (hcore : r.prog.core = bitOpWord o w opnd c dest m) (hopnd : opnd.loc.inRange = true)
    (hrange : dest.inRange = true) (hwritable : dest.writable = true) (hpc : dest ≠ .pc)
    (hu : Usable s.cfg (unwrittenLoc s r opnd.loc)) : CoreOk s r where
  ok := hcore ▸ bitOp_ok hopnd hrange hwritable
  mem := hcore ▸ rfl
  pc := .inl (hcore ▸ hpc)
  ops := hcore ▸ .append hu (.nil _)
  flags := hcore ▸ .inr (bitOp_flags s.cfg s.f)

/-- SET and RES bring the changed operand to its location and write no flag (R374, R375). -/
theorem coreResult_modify (h : readSource s r opnd = a) (ha : a.toNat < w.modulus)
    (hc : c.toNat < w.modulus) :
    coreResult (bitOpWord o w opnd c dest .empty) r s = writeLoc s r dest (o.onData a c) := by
  obtain ⟨v, -, hv⟩ := alu_bitOp (o := o) (opnd := opnd) (dest := dest) (m := .empty) s.cfg s.f ha hc
  rw [coreResult, wordOut_bitOp h, hv]
  rfl

/-- BIT writes Z alone (R373). -/
theorem coreResult_test {n : BitVec 5} (h : readSource s r opnd = a) (ha : a.toNat < w.modulus)
    (hn : bitInside w n = true) :
    coreResult (bitOpWord .and w opnd (BitVec.ofNat 24 (2 ^ n.toNat)) .zero .zOnly) r s =
      { s with f := s.f.put s.cfg.flagPos .z (!a.getLsbD n.toNat) } := by
  have hc := bitConst_toNat hn
  obtain ⟨v, hz, hv⟩ := alu_bitOp (o := .and) (opnd := opnd) (dest := .zero) (m := .zOnly) s.cfg s.f ha
    (hc.trans_lt (two_pow_lt_modulus hn))
  rw [LogicOp.apply, hc, and_bit_beq_zero] at hz
  rw [core_zero rfl ((wordOut_bitOp h).trans hv) (commit_update ..), ← hz]
  rfl

end

/-! ### BIT (R373) -/

section
variable {s : State} {i : Instr} {w : Width} {n : BitVec 5} {rm : Rm}

/-- The core word of BIT on an operand. -/
abbrev testWord (w : Width) (n : BitVec 5) (opnd : Source) : ControlWord :=
  bitOpWord .and w opnd (BitVec.ofNat 24 (2 ^ n.toNat)) .zero .zOnly

/-- A BIT whose operand is read by the core word alone. -/
theorem testCore_completes {opnd : Source} {a : Data} (hsrc : ReadsSource s i opnd a)
    (ha : a.toNat < w.modulus) (hn : bitInside w n = true) (hat : s.atBoundary = true)
    (hprog : programOf s.cfg i = some (coreOnly (testWord w n opnd))) :
    Completes s i s.regs (s.f.put s.cfg.flagPos .z (!a.getLsbD n.toNat)) s.mar s.mdr := by
  obtain ⟨hok, hmem, -, hops, hflags⟩ : CoreOk s (recOf s i (coreOnly (testWord w n opnd))) :=
    coreOk_bitOp (dest := .zero) rfl hsrc.inRange rfl rfl BusLoc.noConfusion (hsrc.usable _)
  obtain ⟨t, ht⟩ := plain_core (cw := testWord w n opnd) hat ⟨hok, hmem, BusLoc.noConfusion, hops, hflags⟩
  rw [← hprog, ← exec_program, coreResult_test (hsrc.value _) ha hn] at ht
  exact ht.completes

theorem trunc_toNat_lt (w : Width) (v : Data) : (w.trunc v).toNat < w.modulus := by
  rw [w.trunc_toNat]
  exact Nat.mod_lt _ w.modulus_pos

theorem load_toNat_lt (s : State) (a : Addr) (w : Width) : (s.load a w.bytes).toNat < w.modulus :=
  s.load_trunc a w ▸ trunc_toNat_lt w _

/-- Behind a mode's read chain the core word reads the loaded value from MDR. -/
theorem read_chainPost (s : State) (ia : Addr) (rm : Rm) (w : Width) (r : Record) :
    readSource (chainPost s ia rm .read w .coreOp) r ⟨.mdr, w, false⟩ =
      s.load (rmAddr s ia w rm) w.bytes :=
  (read_mdr _ _ w).trans (s.load_trunc _ w)

/-- Behind a mode's read chain a bit operation's word can run. -/
theorem coreOk_chain {o : LogicOp} {c : Data} {dest : BusLoc} {m : FMask} {r : Record} {u : State} {ia : Addr}
    (hcore : r.prog.core = bitOpWord o w ⟨.mdr, w, false⟩ c dest m) (hrange : dest.inRange = true)
    (hwritable : dest.writable = true) (hpc : dest ≠ .pc)
    (hchain : u.arch = (chainPost s ia rm .read w .coreOp).arch) : CoreOk u r := by
  obtain ⟨-, -, -, -, -, hmdr, -⟩ := arch_all hchain
  have hwritten : u.mdr.written = true := hmdr ▸ rfl
  exact coreOk_bitOp hcore rfl hrange hwritable hpc (.inr (if_pos hwritten))

/-- A BIT whose operand is in memory: the chain brings it to MDR. -/
theorem testMem_completes (hat : s.atBoundary = true) (hn : bitInside w n = true) (hmem : rmIsMem rm = true)
    (hu : usableRm s w rm = true) (hfair : s.fair = true) :
    let a := rmAddr s s.slot.instrAddr w rm
    let v := s.load a w.bytes
    Completes s (.bitM w n rm) (rmStep s w rm).regs (s.f.put s.cfg.flagPos .z (!v.getLsbD n.toNat))
      ⟨a, true⟩ ⟨v, true⟩ := by
  intro a v
  have hprog : programOf s.cfg (.bitM w n rm) =
      some (.plain (firstDesc rm .read w 2) (testWord w n ⟨.mdr, w, false⟩) .none) :=
    (if_pos hn).trans (congrArg (Option.map _) (resolve_of_mem hmem .read w 2))
  obtain ⟨t, ht⟩ := exec_before (i := .bitM w n rm) (cw := testWord w n ⟨.mdr, w, false⟩) hat hfair hmem
    (operandsAt_words s (.bitM w n rm)) hu fun u => coreOk_chain (dest := .zero) rfl rfl rfl
      BusLoc.noConfusion
  rw [← hprog, ← exec_program, coreResult_test (read_chainPost ..) (load_toNat_lt ..) hn] at ht
  refine EndsOn.completes (ht.congr ?_)
  rw [chainPost, rmStep_frame]
  rfl

end

/-- An immediate whose words are in the record's slots from `k` on is a source that can be read. -/
theorem readsSource_immAt {s : State} {i : Instr} {w : Width} {v : Data} {k : Nat} (hk : k = 1 ∨ k = 2)
    (h : RmAt (s.wordsFor i) k w (.imm v)) : ReadsSource s i (immSource w k) (w.trunc v) where
  inRange := imm_inRange hk
  usable p := usable_imm s.cfg (r := recOf s i p) h
  value p := read_imm (r := recOf s i p) h

/-- Settles O44: a register or an immediate by the core word alone, an operand in memory by its chain. -/
theorem testBit : Obligations.TestBit := by
  intro s w n rm hat hn hu hfair ia v
  obtain ⟨b, rfl⟩ | ⟨x, rfl⟩ | hmem := rm_cases rm
  · exact testCore_completes (readsSource_reg hu _) (view_toNat_lt s b w) hn hat (if_pos hn)
  · have hwords : RmAt (s.wordsFor (.bitM w n (.imm x))) 2 w (.imm x) :=
      operandsAt_words s (.bitM w n (.imm x))
    exact testCore_completes (readsSource_immAt (.inr rfl) hwords) (trunc_toNat_lt w x) hn hat (if_pos hn)
  · have hv : v = s.load (rmAddr s ia w rm) w.bytes := rmValue_of_mem hmem s ia w
    rw [if_pos hmem, if_pos hmem, hv]
    exact testMem_completes hat hn hmem hu (hfair hmem)

/-! ### SET and RES (R374, R375) -/

section
variable {o : LogicOp} {s : State} {i : Instr} {w : Width} {c : Data}

/-- An instruction that changes a register by an operation with a constant. -/
theorem modifyReg_completes {b : Reg} (hat : s.atBoundary = true) (hreg : usableReg s b w = true)
    (hc : c.toNat < w.modulus)
    (hprog : programOf s.cfg i = some (coreOnly (bitOpWord o w (regSource b w) c (.reg b w) .empty))) :
    Completes s i (s.setReg b w (o.onData (s.view b w) c)).regs s.f s.mar s.mdr := by
  have hsrc := readsSource_reg hreg i
  obtain ⟨hok, hmem, -, hops, hflags⟩ :
      CoreOk s (recOf s i (coreOnly (bitOpWord o w (regSource b w) c (.reg b w) .empty))) :=
    coreOk_bitOp (dest := .reg b w) rfl rfl rfl rfl BusLoc.noConfusion (hsrc.usable _)
  obtain ⟨t, ht⟩ := plain_core (cw := bitOpWord o w (regSource b w) c (.reg b w) .empty) hat
    ⟨hok, hmem, BusLoc.noConfusion, hops, hflags⟩
  rw [← hprog, ← exec_program, coreResult_modify (hsrc.value _) (view_toNat_lt s b w) hc] at ht
  exact EndsOn.completes ht

/-- What a mode's read chain, the changed operand and the write-back leave. -/
theorem wbPost_chain_arch (s : State) (v : Data) (ia : Addr) (rm : Rm) (w : Width) :
    (wbPost { chainPost s ia rm .read w .coreOp with mdr := ⟨v, true⟩ } w).arch =
      { s with
        regs := (rmStep s w rm).regs, mar := ⟨rmAddr s ia w rm, true⟩, mdr := ⟨v, true⟩
        mem := s.mem.store s.cfg.endian (rmAddr s ia w rm) w.bytes (w.trunc v)
        writes := s.writes ++ [⟨rmAddr s ia w rm, w.bytes, w.trunc v⟩] : State }.arch := by
  cases rm <;> rfl

theorem LogicOp.trunc_onData {a : Data} (ha : a.toNat < w.modulus) (hc : c.toNat < w.modulus) :
    w.trunc (o.onData a c) = o.onData a c := by
  apply BitVec.eq_of_toNat_eq
  rw [w.trunc_toNat, o.onData_toNat, Nat.mod_eq_of_lt (o.apply_lt_modulus w ha hc)]

/-- An instruction that changes an operand in memory by an operation with a constant: the chain brings it to
MDR, the core word changes it there, and it is written back at the address in MAR. -/
theorem modifyMem_stores {rm : Rm} (hat : s.atBoundary = true) (hmem : rmIsMem rm = true)
    (hu : usableRm s w rm = true) (hwf : s.mem.wf = true) (hfair : s.fair = true) (hc : c.toNat < w.modulus)
    (hwords : RmAt (s.wordsFor i) 2 w rm)
    (hprog : programOf s.cfg i = some (.plain (firstDesc rm .read w 2)
      (bitOpWord o w ⟨.mdr, w, false⟩ c .mdr .empty) ⟨.addrWb, 0, w, .write, 2, false⟩)) :
    let a := rmAddr s s.slot.instrAddr w rm
    let v := o.onData (s.load a w.bytes) c
    Stores s i (rmStep s w rm).regs s.f ⟨a, true⟩ ⟨v, true⟩ a w.bytes v := by
  intro a v
  obtain ⟨t, ht⟩ := exec_both (i := i) (cw := bitOpWord o w ⟨.mdr, w, false⟩ c .mdr .empty)
    (v := ⟨v, true⟩) hat hfair hmem hwords hu
    (fun u => coreOk_chain (dest := .mdr) rfl rfl rfl BusLoc.noConfusion)
    (coreResult_modify (dest := .mdr) (read_chainPost ..) (load_toNat_lt s a w) hc) rfl
  rw [← hprog, ← exec_program] at ht
  refine EndsOn.stores hwf (bytes_le_three w) (ht.congr ?_)
  rw [wbPost_chain_arch, o.trunc_onData (load_toNat_lt s a w) hc]

end

/-- Settles O45: the operand is `or`ed with the bit. -/
theorem setBit : Obligations.SetBit := by
  intro s w n rm hat hn hu ia v
  have hc : (BitVec.ofNat 24 (2 ^ n.toNat)).toNat < w.modulus :=
    (bitConst_toNat hn).trans_lt (two_pow_lt_modulus hn)
  refine ⟨?register, fun hmem hwf hfair => ?memory⟩
  case register =>
    rintro b rfl
    exact modifyReg_completes (o := .or) hat hu hc (if_pos hn)
  case memory =>
    have hv : v = s.load (rmAddr s ia w rm) w.bytes ||| BitVec.ofNat 24 (2 ^ n.toNat) :=
      congrArg (· ||| _) (rmValue_of_mem hmem s ia w)
    rw [hv]
    exact modifyMem_stores (o := .or) hat hmem hu hwf hfair hc (operandsAt_words s (.setM w n rm))
      ((if_pos hn).trans (congrArg (Option.map _) (resolve_of_mem hmem .rmw w 2)))

/-- Settles O46: the operand is `and`ed with the complement of the bit within its width. -/
theorem resetBit : Obligations.ResetBit := by
  intro s w n rm hat hn hu ia v
  refine ⟨?register, fun hmem hwf hfair => ?memory⟩
  case register =>
    rintro b rfl
    have hv : s.view b w &&& BitVec.ofNat 24 (w.modulus - 1 - 2 ^ n.toNat) = v :=
      and_mask_eq (view_toNat_lt s b w) hn
    rw [← hv]
    exact modifyReg_completes (o := .and) hat hu maskConst_lt_modulus (if_pos hn)
  case memory =>
    have hv : v = s.load (rmAddr s ia w rm) w.bytes &&& BitVec.ofNat 24 (w.modulus - 1 - 2 ^ n.toNat) :=
      (congrArg (· &&& _) (rmValue_of_mem hmem s ia w)).trans (and_mask_eq (load_toNat_lt ..) hn).symm
    rw [hv]
    exact modifyMem_stores (o := .and) hat hmem hu hwf hfair maskConst_lt_modulus
      (operandsAt_words s (.resM w n rm))
      ((if_pos hn).trans (congrArg (Option.map _) (resolve_of_mem hmem .rmw w 2)))

end Sys2Proof.Machine
end

