-- ==== Sys2Proof/Proofs/ExceptionFamily.lean ====
section
/-! PROOFS. Taking Invalid Opcode under each action, and the abort of an unwritten operand or flag
(spec/60_exceptions.md R401 to R403, R407, R408). -/

namespace Sys2Proof.Machine

/-! ### Taking Invalid Opcode (R401 to R403) -/

/-- A step at a boundary where the slot holds an INVALID record runs the record's exception. -/
theorem step_of_invalid {s : State} (hat : s.atBoundary = true) (hready : s.ready = true)
    (hinvalid : s.slot.isInvalid = true) : step s = .next (runTurns s.fuel s) := by
  obtain ⟨hidle, -⟩ := (boundary_iff s).1 hat
  obtain ⟨hrun, hst, hcw, hpend, -, -⟩ := (idle_iff s).1 hidle
  rw [step_of_waits hrun ⟨hst, hcw, hpend⟩, fillTurns_of_ready hready, running_of hrun, hready]
  cases hcls : s.slot.cls with
  | invalid _ _ => simp only [Bool.and_self, if_true, runSlot, hcls]
  | instr _ | row _ => simp only [Record.isInvalid, hcls, Bool.false_eq_true] at hinvalid

/-- Settles O11: only the run status of the architectural state changes. -/
theorem invalidHalts : Obligations.InvalidHalts := by
  intro s hat hready hinvalid haction
  obtain ⟨t, ht, harch⟩ := ends_halt hat hready hinvalid haction
  obtain ⟨-, hregs, hf, -, hmar, hmdr, hmem, hstatus, hlog, -, hwrites, -⟩ :=
    arch_all (s := { s with status := .haltedInvalid s.slot.instrAddr (s.slot.words.headD 0) }) harch
  rw [step_of_invalid hat hready hinvalid, ht]
  exact ⟨t, rfl, hstatus, hregs, hf, hmar, hmdr, hmem, hwrites, hlog⟩

/-- Settles O12: only the log of the architectural state changes. -/
theorem invalidLogged : Obligations.InvalidLogged := by
  intro s hat hready hinvalid haction
  obtain ⟨t, ht⟩ := ends_log hat hready hinvalid haction
  obtain ⟨-, hregs, hf, -, hmar, hmdr, hmem, -, hlog, -, hwrites, -⟩ := arch_all ht.arch
  exact ⟨t, (step_of_invalid hat hready hinvalid).trans ht.out, ht.order, hlog, hregs, hf, hmar, hmdr, hmem,
    hwrites, ht.goes⟩

/-- Settles O13: the exception is a call of the vector. -/
theorem invalidTraps : Obligations.InvalidTraps := by
  intro s vector hat hready hinvalid haction hu hwf hfair a
  obtain ⟨t, ht, hgoes⟩ := ends_trapped hat hfair hready hinvalid haction hu
  obtain ⟨hcfg, hregs, hf, hshadow, hmar, hmdr, hmem, -, hlog, hfair', hwrites, hfree⟩ := arch_all ht.arch
  obtain ⟨hbytes, hother⟩ := store_reads hwf s.cfg.endian a le_rfl s.slot.nextAddr
  refine ⟨t, (step_of_invalid hat hready hinvalid).trans ht.out,
    ⟨ht.order, hregs, hf, hmar, hmdr, hcfg, hshadow, hlog, hfair', hfree⟩, ?_, hgoes⟩
  rw [Stored, hmem]
  exact ⟨hbytes, hother, hwrites⟩

/-! ### The abort of an unwritten operand or flag (R407, R408) -/

/-- `i` stops at the unwritten location `l`: nothing of the architectural state changes but the run status, and
MDR is `mdr`. -/
def AbortsAt (s : State) (i : Instr) (l : UnwrittenLoc) (mdr : Latch) : Prop :=
  ∃ t, exec i s = .next t ∧
    t.arch = ({ s with mdr := mdr, status := .aborted (.unwrittenRead l) } : State).arch

theorem Usable.eq_nil {c : Config} {locs : List UnwrittenLoc} (h : Usable c locs)
    (habort : c.unwrittenRead = .abort) : locs = [] :=
  h.resolve_left fun hvalue => UnwrittenRead.noConfusion (habort.symm.trans hvalue)

theorem lackReg_congr {s t : State} (h : t.regs = s.regs) (i : Reg) (w : Width) :
    lackReg t i w = lackReg s i w := by
  have hunwritten : t.regUnwritten i w = s.regUnwritten i w := by simp only [State.regUnwritten, h]
  rw [lackReg, lackReg, hunwritten]

theorem lackRm_congr {s t : State} (h : t.regs = s.regs) (w : Width) (rm : Rm) :
    lackRm t w rm = lackRm s w rm := by
  cases rm <;> simp only [lackRm, lackReg_congr h]

/-- The unwritten locations a core word consumes, operands before flags (R408). -/
def wordLacks (s : State) (r : Record) (cw : ControlWord) : List UnwrittenLoc :=
  operandLocs s r cw ++ aluUnwritten s.cfg cw s.f

theorem wordLacks_move (s : State) (r : Record) (w : Width) (src : Source) (dest : BusLoc) :
    wordLacks s r (moveWord w src dest) = unwrittenLoc s r src.loc :=
  List.append_nil _

theorem wordLacks_bitOp (s : State) (r : Record) (o : LogicOp) (w : Width) (opnd : Source) (c : Data)
    (dest : BusLoc) (m : FMask) :
    wordLacks s r (bitOpWord o w opnd c dest m) = unwrittenLoc s r opnd.loc := by
  rw [wordLacks, bitOp_flags, List.append_nil]
  exact List.append_nil _

section
variable {s : State} {i : Instr} {l : UnwrittenLoc} {ls : List UnwrittenLoc} {p : Program}

/-- An instruction without a before chain whose core word consumes an unwritten location. -/
theorem abortsAt_core (hat : s.atBoundary = true) (habort : s.cfg.unwrittenRead = .abort)
    (hprog : programOf s.cfg i = some p) (hoverride : p.override.isNone = true)
    (hbefore : p.before.isNone = true) (hok : p.core.ok = true) (hmem : p.core.mem = .none)
    (hl : wordLacks s (recOf s i p) p.core = l :: ls) : AbortsAt s i l s.mdr := by
  obtain ⟨t, ht, harch⟩ := ends_abort_core (r := recOf s i p) hat rfl hoverride hbefore hok hmem habort hl
  exact ⟨t, by rw [exec_program, hprog, runProgram_some hat, ht], harch⟩

/-- An instruction whose operand is read by a mode's chain that consumes an unwritten register. -/
theorem abortsAt_chain {rm : Rm} {w : Width} {k : Nat} (hat : s.atBoundary = true)
    (habort : s.cfg.unwrittenRead = .abort) (hmem : rmIsMem rm = true) (hprog : programOf s.cfg i = some p)
    (hoverride : p.override.isNone = true) (hbefore : p.before = firstDesc rm .read w k)
    (hwords : RmAt (s.wordsFor i) k w rm) (hl : lackRm s w rm = l :: ls) : AbortsAt s i l s.mdr := by
  obtain ⟨first, next, hgen, hok, hlacks⟩ := chain_lacks (c := s.cfg) (dir := .read)
    (x := recOf s i p) rfl hmem hwords
  obtain ⟨t, ht, harch⟩ := ends_abort_chain (r := recOf s i p) hat rfl hoverride
    (hbefore ▸ firstDesc_some hmem ..) (hbefore ▸ hgen) hok habort ((hlacks s).trans hl)
  exact ⟨t, by rw [exec_program, hprog, runProgram_some hat, ht], harch⟩

/-- An instruction whose core word puts its datum into MDR, and whose chain then consumes an unwritten register
of the address. -/
theorem abortsAt_after {rm : Rm} {w : Width} {k : Nat} {cw : ControlWord} {v : Latch}
    (hat : s.atBoundary = true) (habort : s.cfg.unwrittenRead = .abort) (hmem : rmIsMem rm = true)
    (hprog : programOf s.cfg i = some (.plain .none cw (firstDesc rm .write w k)))
    (hok : CoreOk s (recOf s i (.plain .none cw (firstDesc rm .write w k))))
    (hcore : coreResult cw (recOf s i (.plain .none cw (firstDesc rm .write w k))) s = { s with mdr := v })
    (hwords : RmAt (s.wordsFor i) k w rm) (hl : lackRm s w rm = l :: ls) : AbortsAt s i l v := by
  obtain ⟨first, next, hgen, hfirst, hlacks⟩ := chain_lacks (c := s.cfg) (dir := .write)
    (x := recOf s i (.plain .none cw (firstDesc rm .write w k))) rfl hmem hwords
  have hbehind (u : State)
      (hu : u.arch = (coreResult cw (recOf s i (.plain .none cw (firstDesc rm .write w k))) s).arch) :
      operandLocs u (recOf s i (.plain .none cw (firstDesc rm .write w k))) first = l :: ls := by
    obtain ⟨-, hregs, -⟩ := arch_all (hcore ▸ hu)
    exact (hlacks u).trans ((lackRm_congr hregs w rm).trans hl)
  obtain ⟨t, ht, harch⟩ := ends_abort_after hat rfl rfl rfl (firstDesc_some hmem ..) rfl hok hgen hfirst
    habort hbehind
  refine ⟨t, by rw [exec_program, hprog, runProgram_some hat, ht], harch.trans ?_⟩
  exact congrArg (fun u : State => { u.arch with status := .aborted (.unwrittenRead l) }) hcore

/-- A store's datum goes to MDR unless it is unwritten itself; then the chain reads the register of the
address (R214, R371). -/
theorem abortsAt_store {rm : Rm} {w : Width} {k : Nat} {r : Reg} (hat : s.atBoundary = true)
    (habort : s.cfg.unwrittenRead = .abort) (hmem : rmIsMem rm = true)
    (hprog : programOf s.cfg i =
      some (.plain .none (moveWord w (regSource r w) .mdr) (firstDesc rm .write w k)))
    (hwords : RmAt (s.wordsFor i) k w rm) (hl : lackReg s r w ++ lackRm s w rm = l :: ls) :
    AbortsAt s i l (if !s.regUnwritten r w then ⟨s.view r w, true⟩ else s.mdr) := by
  cases hr : s.regUnwritten r w with
  | true =>
    have hreg : lackReg s r w = [.reg r w] := if_pos hr
    rw [hreg, List.cons_append, List.cons.injEq] at hl
    refine abortsAt_core (ls := []) hat habort hprog rfl rfl rfl rfl ?_
    exact (wordLacks_move s _ w (regSource r w) .mdr).trans (hl.1 ▸ hreg)
  | false =>
    have hreg : lackReg s r w = [] := if_neg (by simp [hr])
    rw [hreg, List.nil_append] at hl
    have hcore := move_mdr (w := w) (read_reg s
      (recOf s i (.plain .none (moveWord w (regSource r w) .mdr) (firstDesc rm .write w k))) r w)
    rw [trunc_view] at hcore
    exact abortsAt_after hat habort hmem hprog
      (coreOk_move (src := regSource r w) (dest := .mdr) rfl rfl rfl rfl BusLoc.noConfusion (.inr hreg))
      hcore hwords hl

/-- A branch that Execute resolves, whose target can be read and whose predicate's flag is unwritten. -/
theorem abortsAt_cond {cc : Cond} {kind : BKind} {core : ControlWord} {a : Addr} (hat : s.atBoundary = true)
    (habort : s.cfg.unwrittenRead = .abort) (hword : BranchWord s i cc kind core a)
    (hdyn : isStatic cc kind = false) (hl : lackCond s cc = l :: ls) : AbortsAt s i l s.mdr := by
  obtain ⟨t, ht, harch⟩ := ends_abort_cond hat rfl rfl rfl hword.runs hdyn habort hl
  exact ⟨t, by rw [exec_program, hword.program, runProgram_some hat, ht], harch⟩

/-- A call whose stack pointer is unwritten: the address to return to is in MDR (R214). -/
theorem abortsAt_call {a : Addr} (hat : s.atBoundary = true) (habort : s.cfg.unwrittenRead = .abort)
    (hl : lackReg s s.cfg.spIndex .w24 = l :: ls) :
    AbortsAt s (.callAbs a) l ⟨seqIter s.cfg.pcWrap 3 s.slot.instrAddr, true⟩ := by
  obtain ⟨hlen, -⟩ : (s.wordsFor (.callAbs a)).length = 3 ∧ slotData _ 1 = a :=
    operandsAt_words s (.callAbs a)
  obtain ⟨t, ht, harch⟩ := ends_abort_push (r := recOf s (.callAbs a) progCall) hat rfl rfl rfl habort hl
  rw [recOf_nextAddr _ hlen] at harch
  exact ⟨t, (runProgram_some hat ..).trans (congrArg _ ht), harch⟩

/-! ### The core words of the groups -/

section
variable {w : Width} {d : Reg} {src : Source}

/-- A core word that moves a source with an unwritten location. -/
theorem abortsAt_move {dest : BusLoc} (hat : s.atBoundary = true) (habort : s.cfg.unwrittenRead = .abort)
    (hprog : programOf s.cfg i = some p) (hcore : p.core = moveWord w src dest)
    (hoverride : p.override.isNone = true) (hbefore : p.before.isNone = true)
    (hrange : src.loc.inRange = true) (hdest : dest.inRange = true) (hwritable : dest.writable = true)
    (hl : unwrittenLoc s (recOf s i p) src.loc = l :: ls) : AbortsAt s i l s.mdr :=
  abortsAt_core hat habort hprog hoverride hbefore (hcore ▸ move_ok hrange hdest hwritable) (hcore ▸ rfl)
    (hcore ▸ (wordLacks_move ..).trans hl)

theorem wordLacks_sum (o : SumOp) (r : Record) :
    wordLacks s r (o.word w d src) = lackReg s d w ++ unwrittenLoc s r src.loc ++
      ((if o.carries then lackFlag s .c else []) ++ lackFlag s .d) := by
  cases o <;> rfl

theorem wordLacks_logic (o : LogicOp) (r : Record) :
    wordLacks s r (o.word w d src) = lackReg s d w ++ unwrittenLoc s r src.loc := by
  cases o <;> exact List.append_nil _

theorem wordLacks_shift (mode : Shift) (r : Record) :
    wordLacks s r (shiftWord mode w d) =
      lackReg s d w ++ if mode = .lc ∨ mode = .rc then lackFlag s .c else [] := by
  cases mode with
  | lc | rc => exact congrArg (lackReg s d w ++ ·) (List.append_nil _)
  | _ => rfl

theorem abortsAt_sumReg (o : SumOp) {r : Reg} (hat : s.atBoundary = true)
    (habort : s.cfg.unwrittenRead = .abort) (hl : lacks s (o.regForm w d r) = l :: ls) :
    AbortsAt s (o.regForm w d r) l s.mdr := by
  refine abortsAt_core (ls := ls) hat habort (programOf_sum_reg o w d s.cfg r) rfl rfl
    (by cases o <;> rfl) rfl ?_
  refine (wordLacks_sum o _).trans (.trans ?_ hl)
  cases o with
  | adc | sbc => exact (List.append_assoc ..).symm
  | _ => rfl

theorem abortsAt_sumImm (o : SumOp) {x : Data} (hat : s.atBoundary = true)
    (habort : s.cfg.unwrittenRead = .abort) (hl : lacks s (o.immForm w d x) = l :: ls) :
    AbortsAt s (o.immForm w d x) l s.mdr := by
  have hsrc := readsSource_imm (operandsAt_sum_imm o w d (operandsAt_words s (o.immForm w d x)))
  refine abortsAt_core (ls := ls) hat habort (programOf_sum_imm o w d s.cfg x) rfl rfl
    (by cases o <;> exact hsrc.inRange) rfl ?_
  refine (wordLacks_sum o _).trans (.trans ?_ hl)
  rw [(hsrc.usable _).eq_nil habort, List.append_nil]
  cases o with
  | adc | sbc => exact (List.append_assoc ..).symm
  | _ => rfl

theorem abortsAt_logicReg (o : LogicOp) {r : Reg} (hat : s.atBoundary = true)
    (habort : s.cfg.unwrittenRead = .abort) (hl : lacks s (o.regForm w d r) = l :: ls) :
    AbortsAt s (o.regForm w d r) l s.mdr := by
  refine abortsAt_core (ls := ls) hat habort (programOf_logic_reg o w d s.cfg r) rfl rfl rfl rfl ?_
  refine (wordLacks_logic o _).trans (.trans ?_ hl)
  cases o <;> rfl

theorem abortsAt_logicImm (o : LogicOp) {x : Data} (hat : s.atBoundary = true)
    (habort : s.cfg.unwrittenRead = .abort) (hl : lacks s (o.immForm w d x) = l :: ls) :
    AbortsAt s (o.immForm w d x) l s.mdr := by
  have hsrc := readsSource_imm (operandsAt_logic_imm o w d (operandsAt_words s (o.immForm w d x)))
  refine abortsAt_core (ls := ls) hat habort (programOf_logic_imm o w d s.cfg x) rfl rfl hsrc.inRange rfl ?_
  refine (wordLacks_logic o _).trans (.trans ?_ hl)
  rw [(hsrc.usable _).eq_nil habort, List.append_nil]
  cases o <;> rfl

/-- A shift consumes its register, and C when it rotates through it (R252, R377). -/
theorem abortsAt_shift {mode : Shift} (hat : s.atBoundary = true) (habort : s.cfg.unwrittenRead = .abort)
    (hprog : programOf s.cfg i = some (shiftProgram mode w d))
    (hl : (lackReg s d w ++ if mode = .lc ∨ mode = .rc then lackFlag s .c else []) = l :: ls) :
    AbortsAt s i l s.mdr :=
  abortsAt_core hat habort hprog rfl rfl rfl rfl ((wordLacks_shift mode _).trans hl)

end

end

/-! ### Every instruction (R408) -/

section
variable {s : State} {l : UnwrittenLoc} {ls : List UnwrittenLoc} {w : Width} {r : Reg} {rm : Rm}

/-- A load reads a register or an immediate by its core word, and memory by a chain. -/
theorem abortsAt_load (hat : s.atBoundary = true) (habort : s.cfg.unwrittenRead = .abort)
    (hl : lackRm s w rm = l :: ls) : AbortsAt s (.ldRM w r rm) l s.mdr := by
  obtain ⟨b, rfl⟩ | ⟨x, rfl⟩ | hmem := rm_cases rm
  · exact abortsAt_move (src := regSource b w) (dest := .reg r w) hat habort rfl rfl rfl rfl rfl rfl rfl hl
  · cases hl
  · exact abortsAt_chain hat habort hmem (congrArg (Option.map _) (resolve_of_mem hmem .read w 1)) rfl rfl
      (operandsAt_words s (.ldRM w r rm)) hl

/-- A store reads its datum by the core word, and the register of its address by a chain. -/
theorem abortsAt_storeOperand (hat : s.atBoundary = true) (habort : s.cfg.unwrittenRead = .abort)
    (hwf : rm.isImm = false) (hl : lacks s (.ldMR w r rm) = l :: ls) :
    AbortsAt s (.ldMR w r rm) l (mdrLeft s (.ldMR w r rm)) := by
  obtain ⟨b, rfl⟩ | ⟨x, rfl⟩ | hmem := rm_cases rm
  · have hreg : lackReg s r w = l :: ls := (List.append_nil _).symm.trans hl
    exact abortsAt_move (src := regSource r w) (dest := .reg b w) hat habort rfl rfl rfl rfl rfl rfl rfl hreg
  · cases hwf
  · simp only [lacks, hmem, if_true] at hl
    simp only [mdrLeft, hmem, Bool.true_and]
    exact abortsAt_store hat habort hmem (congrArg (Option.map _) (resolve_of_mem hmem .write w 1))
      (operandsAt_words s (.ldMR w r rm)) hl

/-- BIT, SET and RES read a register by the core word, and memory by a chain. -/
theorem abortsAt_bitOp {i : Instr} {o : LogicOp} {c : Data} {dest : Reg → BusLoc} {m : FMask}
    {cw : ControlWord} {after : Desc} (hat : s.atBoundary = true) (habort : s.cfg.unwrittenRead = .abort)
    (hwords : RmAt (s.wordsFor i) 2 w rm)
    (hdest : ∀ b, (dest b).inRange = true ∧ (dest b).writable = true)
    (hreg : ∀ b, rm = .reg b →
      programOf s.cfg i = some (coreOnly (bitOpWord o w (regSource b w) c (dest b) m)))
    (hmem : rmIsMem rm = true → programOf s.cfg i = some (.plain (firstDesc rm .read w 2) cw after))
    (hl : lackRm s w rm = l :: ls) : AbortsAt s i l s.mdr := by
  obtain ⟨b, rfl⟩ | ⟨x, rfl⟩ | hm := rm_cases rm
  · obtain ⟨hrange, hwritable⟩ := hdest b
    exact abortsAt_core hat habort (hreg b rfl) rfl rfl (bitOp_ok rfl hrange hwritable) rfl
      ((wordLacks_bitOp ..).trans hl)
  · cases hl
  · exact abortsAt_chain hat habort hm (hmem hm) rfl rfl hwords hl

/-- A jump to a register reads the target before the predicate's flag (R353, R408). -/
theorem abortsAt_jpReg {cc : Cond} (hat : s.atBoundary = true) (habort : s.cfg.unwrittenRead = .abort)
    (hl : lackReg s r .w24 ++ lackCond s cc = l :: ls) : AbortsAt s (.jpReg cc r) l s.mdr := by
  cases hr : s.regUnwritten r .w24 with
  | true =>
    have hreg : lackReg s r .w24 = [.reg r .w24] := if_pos hr
    rw [hreg, List.cons_append, List.cons.injEq] at hl
    exact abortsAt_move (w := .w24) (src := regSource r .w24) (dest := .pc) (ls := []) hat habort rfl rfl rfl
      rfl rfl rfl rfl (hl.1 ▸ hreg)
  | false =>
    have hreg : lackReg s r .w24 = [] := if_neg (by simp [hr])
    have husable : usableReg s r .w24 = true := by simp [usableReg, hr]
    rw [hreg, List.nil_append] at hl
    exact abortsAt_cond hat habort (branchWord_source (readsSource_reg husable (.jpReg cc r)) rfl rfl)
      (isStatic_reg cc) hl

/-- The first unwritten location stops every well-formed instruction. -/
theorem abortsAt_first {i : Instr} (hat : s.atBoundary = true) (habort : s.cfg.unwrittenRead = .abort)
    (hwf : wellFormed i = true) (hl : lacks s i = l :: ls) : AbortsAt s i l (mdrLeft s i) := by
  have hdyn (cc : Cond) (h : lackCond s cc = l :: ls) : cc ≠ .t := by rintro rfl; cases h
  cases i with
  | addR => exact abortsAt_sumReg .add hat habort hl
  | adcR => exact abortsAt_sumReg .adc hat habort hl
  | subR => exact abortsAt_sumReg .sub hat habort hl
  | sbcR => exact abortsAt_sumReg .sbc hat habort hl
  | cmpR => exact abortsAt_sumReg .cmp hat habort hl
  | addI => exact abortsAt_sumImm .add hat habort hl
  | adcI => exact abortsAt_sumImm .adc hat habort hl
  | subI => exact abortsAt_sumImm .sub hat habort hl
  | sbcI => exact abortsAt_sumImm .sbc hat habort hl
  | cmpI => exact abortsAt_sumImm .cmp hat habort hl
  | andR => exact abortsAt_logicReg .and hat habort hl
  | orR => exact abortsAt_logicReg .or hat habort hl
  | xorR => exact abortsAt_logicReg .xor hat habort hl
  | andI => exact abortsAt_logicImm .and hat habort hl
  | orI => exact abortsAt_logicImm .or hat habort hl
  | xorI => exact abortsAt_logicImm .xor hat habort hl
  | ldRI | inR => cases hl
  | ldRR w d r =>
    exact abortsAt_move (src := regSource r w) (dest := .reg d w) hat habort rfl rfl rfl rfl rfl rfl rfl hl
  | ldRM => exact abortsAt_load hat habort hl
  | ldMR => exact abortsAt_storeOperand hat habort (Bool.not_eq_true' _ ▸ hwf) hl
  | ldRF d =>
    exact abortsAt_move (w := .w8) (src := ⟨.flags, .w8, false⟩) (dest := .reg d .w8) hat habort rfl rfl rfl
      rfl rfl rfl rfl hl
  | ldFR r =>
    exact abortsAt_move (w := .w8) (src := regSource r .w8) (dest := .flags) hat habort rfl rfl rfl rfl rfl
      rfl rfl hl
  | outR r n =>
    exact abortsAt_move (w := .w8) (src := regSource r .w8) (dest := .mdr) hat habort rfl rfl rfl rfl rfl
      rfl rfl hl
  | jpAbs cc a =>
    exact abortsAt_cond hat habort (branchWord_source
      (readsSource_imm24 (operandsAt_words s (.jpAbs cc a))) rfl rfl) (isStatic_of_ne (hdyn cc hl) _) hl
  | jrRel cc d =>
    exact abortsAt_cond hat habort (branchWord_relative
      (readsSource_disp8 (operandsAt_words s (.jrRel cc d))) rfl rfl) (isStatic_of_ne (hdyn cc hl) _) hl
  | jpReg => exact abortsAt_jpReg hat habort hl
  | callAbs => exact abortsAt_call hat habort hl
  | retn =>
    exact abortsAt_chain (rm := .postInc s.cfg.spIndex) (k := 0) hat habort rfl rfl rfl rfl
      (rmAt_none _ _ .w24 s.cfg.spIndex _ (Nat.zero_le _) (by simp)) hl
  | popR w r =>
    exact abortsAt_chain (rm := .postInc s.cfg.spIndex) (k := 0) hat habort rfl rfl rfl rfl
      (rmAt_none _ _ w s.cfg.spIndex _ (Nat.zero_le _) (by simp)) hl
  | pushR w r =>
    exact abortsAt_store (rm := .preDec s.cfg.spIndex) (k := 0) hat habort rfl rfl
      (rmAt_none _ _ w s.cfg.spIndex _ (Nat.zero_le _) (by simp)) hl
  | bitM w n rm =>
    obtain ⟨hn, -⟩ := Bool.and_eq_true_iff.1 hwf
    exact abortsAt_bitOp (o := .and) (dest := fun _ => .zero) hat habort (operandsAt_words s (.bitM w n rm))
      (fun _ => ⟨rfl, rfl⟩) (by rintro b rfl; exact if_pos hn)
      (fun hm => (if_pos hn).trans (congrArg (Option.map _) (resolve_of_mem hm .read w 2))) hl
  | setM w n rm =>
    obtain ⟨hn, -⟩ := Bool.and_eq_true_iff.1 hwf
    exact abortsAt_bitOp (o := .or) (dest := fun b => .reg b w) hat habort
      (operandsAt_words s (.setM w n rm)) (fun _ => ⟨rfl, rfl⟩) (by rintro b rfl; exact if_pos hn)
      (fun hm => (if_pos hn).trans (congrArg (Option.map _) (resolve_of_mem hm .rmw w 2))) hl
  | resM w n rm =>
    obtain ⟨hn, -⟩ := Bool.and_eq_true_iff.1 hwf
    exact abortsAt_bitOp (o := .and) (dest := fun b => .reg b w) hat habort
      (operandsAt_words s (.resM w n rm)) (fun _ => ⟨rfl, rfl⟩) (by rintro b rfl; exact if_pos hn)
      (fun hm => (if_pos hn).trans (congrArg (Option.map _) (resolve_of_mem hm .rmw w 2))) hl
  | shlR => exact abortsAt_shift (mode := .l) hat habort rfl ((List.append_nil _).trans hl)
  | rolR => exact abortsAt_shift (mode := .lb) hat habort rfl ((List.append_nil _).trans hl)
  | shrR => exact abortsAt_shift (mode := .rl) hat habort rfl ((List.append_nil _).trans hl)
  | sarR => exact abortsAt_shift (mode := .ra) hat habort rfl ((List.append_nil _).trans hl)
  | rorR => exact abortsAt_shift (mode := .rb) hat habort rfl ((List.append_nil _).trans hl)
  | rlR => exact abortsAt_shift (mode := .lc) hat habort rfl hl
  | rrR => exact abortsAt_shift (mode := .rc) hat habort rfl hl

end

/-- Settles O14: the abort of the first location changes nothing else of the architectural state but MDR. -/
theorem unwrittenAborts : Obligations.UnwrittenAborts := by
  intro s i l ls hat habort hwf hl
  obtain ⟨t, ht, harch⟩ := abortsAt_first hat habort hwf hl
  obtain ⟨-, hregs, hf, -, hmar, hmdr, hmem, hstatus, hlog, -, hwrites, -⟩ := arch_all harch
  exact ⟨t, ht, hstatus, hregs, hf, hmar, hmdr, hmem, hwrites, hlog⟩

end Sys2Proof.Machine
end

