-- ==== Sys2Proof/Proofs/InvalidFamily.lean ====
section
/-! PROOFS. The causes of Invalid Opcode, routine by routine of the decoder (spec/60_exceptions.md R400). -/

namespace Sys2Proof

/-! ### What a routine of the decoder rejects -/

/-- The routine rejects. -/
def Rejects {α : Type} (x : Except DecodeError α) : Prop := ∃ e, x = .error e

section
variable {α β : Type}

@[simp] theorem rejects_ok (a : α) : ¬ Rejects (.ok a) := nofun

@[simp] theorem rejects_pure (a : α) : ¬ Rejects (pure a) := nofun

@[simp] theorem rejects_error (e : DecodeError) : Rejects (α := α) (.error e) := ⟨e, rfl⟩

/-- A test before the rest of a routine. -/
theorem rejects_test {c : Prop} [Decidable c] {e : DecodeError} {y : Except DecodeError α} :
    Rejects (if c then .error e else y) ↔ c ∨ Rejects y := by
  split
  · next h => exact iff_of_true (rejects_error e) (.inl h)
  · next h => exact (or_iff_right h).symm

/-- A part and then the rest, which rejects under `p` whatever the part has answered. -/
theorem rejects_bind {x : Except DecodeError α} {f : α → Except DecodeError β} {p : Prop}
    (h : ∀ a, x = .ok a → (Rejects (f a) ↔ p)) : Rejects (x >>= f) ↔ Rejects x ∨ p := by
  cases x with
  | error e => exact iff_of_true (rejects_error e) (.inl (rejects_error e))
  | ok a => exact (h a rfl).trans (or_iff_right (rejects_ok a)).symm

/-- A part and then a rest that never rejects. -/
theorem rejects_bind_total {x : Except DecodeError α} {f : α → Except DecodeError β}
    (h : ∀ a, ¬ Rejects (f a)) : Rejects (x >>= f) ↔ Rejects x :=
  (rejects_bind fun a _ => iff_false_intro (h a)).trans (or_iff_left id)

end

/-! ### The parts of an instruction (R115, R121, R124 to R126) -/

theorem rejects_widthOf {n : Nat} (h : n < 4) : Rejects (widthOf n) ↔ n = 3 := by
  interval_cases n <;> simp [widthOf]

theorem widthOf_bits {n : Nat} {w : Width} (h : widthOf n = .ok w) : w.bits = 8 * (n + 1) := by
  match n, h with
  | 0, h | 1, h | 2, h => cases h; rfl

theorem rejects_condOf {n : Nat} (h : n < 16) : Rejects (condOf n) ↔ 9 ≤ n := by
  interval_cases n <;> simp [condOf]

theorem rejects_shiftForm {n : Nat} (h : n < 8) (w : Width) (r : Reg) :
    Rejects (shiftForm n w r) ↔ n = 7 := by
  interval_cases n <;> simp [shiftForm]

theorem rejects_bitNumber (w : Width) (x : Word16) : Rejects (bitNumber w x) ↔ w.bits ≤ fld x 0 5 := by
  have hn : (BitVec.ofNat 5 x.toNat).toNat = fld x 0 5 := by simp [fld]
  simp only [bitNumber, bitInside, hn, decide_eq_true_eq]
  split <;> simp <;> omega

section
variable {xs : List Word16}

theorem word1_total (h : 1 ≤ xs.length) : ¬ Rejects (word1 xs) := by
  match xs, h with
  | _ :: _, _ => exact rejects_ok _

theorem bind_word1 {α : Type} (x : Word16) (f : Word16 × List Word16 → Except DecodeError α) :
    (word1 (x :: xs) >>= f) = f (x, xs) := rfl

theorem word24_total (h : 2 ≤ xs.length) : ¬ Rejects (word24 xs) := by
  match xs, h with
  | _ :: _ :: _, _ => exact rejects_ok _

theorem idxOf_total (h : 2 ≤ xs.length) : ¬ Rejects (idxOf xs) := by
  match xs, h with
  | _ :: _ :: _, _ => exact rejects_ok _

theorem immOf_total (w : Width) (h : 2 ≤ xs.length) : ¬ Rejects (immOf w xs) := by
  cases w with
  | w8 | w16 => exact (rejects_bind_total fun _ => rejects_pure _).not.2 (word1_total (by omega))
  | w24 => exact word24_total h

/-- With two words at hand only the reserved patterns of `m = 111` are rejected. -/
theorem rejects_rmSpecial {w : Width} {b : Nat} (hb : b < 8) (h : 2 ≤ xs.length) :
    Rejects (rmSpecial w b xs) ↔ 6 ≤ b := by
  have h1 := word1_total (xs := xs) (by omega)
  have h2 := word24_total h
  have hrest {α : Type} {x : Except DecodeError α} {f : α → Rm × List Word16} (hx : ¬ Rejects x) :
      ¬ Rejects (x >>= fun a => pure (f a)) := (rejects_bind_total fun _ => rejects_pure _).not.2 hx
  interval_cases b
  · exact iff_of_false (hrest h1) (by decide)
  · exact iff_of_false (hrest h1) (by decide)
  · exact iff_of_false (hrest h2) (by decide)
  · exact iff_of_false (hrest h2) (by decide)
  · exact iff_of_false (idxOf_total h) (by decide)
  · exact iff_of_false (hrest (immOf_total w h)) (by decide)
  · exact iff_of_true (rejects_error _) (by decide)
  · exact iff_of_true (rejects_error _) (by decide)

/-- With two words at hand only the two reserved RM patterns are rejected. -/
theorem rejects_rmOf {w : Width} {rm6 : Nat} (hrm : rm6 < 64) (h : 2 ≤ xs.length) :
    Rejects (rmOf w rm6 xs) ↔ 62 ≤ rm6 := by
  have hspecial := rejects_rmSpecial (w := w) (Nat.mod_lt rm6 (by decide : 8 > 0)) h
  have hword := word1_total (xs := xs) (by omega)
  unfold rmOf
  split
  case h_7 => exact iff_of_false ((rejects_bind_total fun _ => rejects_pure _).not.2 hword) (by omega)
  case h_8 =>
    simp only [imp_false] at *
    rw [hspecial]
    omega
  all_goals exact iff_of_false (rejects_ok _) (by omega)

/-- A destination also rejects the immediate. -/
theorem rejects_rmDest {w : Width} {rm6 : Nat} (hrm : rm6 < 64) (h : 2 ≤ xs.length) :
    Rejects (rmDest w rm6 xs) ↔ rm6 = 61 ∨ 62 ≤ rm6 :=
  rejects_test.trans (or_congr_right (rejects_rmOf hrm h))

end

/-! ### The groups (R122 to R127) -/

section
variable {w : Word16} {xs : List Word16}

theorem rejects_decodeAlu (h : 2 ≤ xs.length) : Rejects (decodeAlu w xs) ↔
    fld w 8 2 = 3 ∨ fld w 0 1 ≠ 0 ∨ (fld w 1 1 = 1 ∧ fld w 2 3 ≠ 0) := by
  have hbit : fld w 1 1 < 2 := Machine.fld_lt w 1 1
  refine (rejects_bind fun ww _ => rejects_test.trans (or_congr_right ?_)).trans
    (or_congr_left (rejects_widthOf (Machine.fld_lt w 8 2)))
  split
  · next hreg => exact iff_of_false (rejects_pure _) (by omega)
  · next himm =>
    have himm : fld w 1 1 = 1 := by omega
    refine rejects_test.trans ?_
    rw [rejects_bind_total fun _ => rejects_pure _, or_iff_left (immOf_total ww h), and_iff_right himm]

theorem rejects_decodeLoad (h : 2 ≤ xs.length) : Rejects (decodeLoad w xs) ↔
    fld w 9 2 = 3 ∨ ((fld w 11 2 = 0 ∧ fld w 0 3 ≠ 0) ∨ (fld w 11 2 = 1 ∧ fld w 0 6 ≠ 0)) ∨
      (2 ≤ fld w 11 2 ∧ 62 ≤ fld w 0 6) ∨ (fld w 11 2 = 3 ∧ fld w 0 6 = 61) := by
  have hsub : fld w 11 2 < 4 := Machine.fld_lt w 11 2
  have hrm : fld w 0 6 < 64 := Machine.fld_lt w 0 6
  refine (rejects_bind fun ww _ => ?_).trans (or_congr_left (rejects_widthOf (Machine.fld_lt w 9 2)))
  dsimp only
  split
  case h_1 hform => rw [rejects_test, or_iff_left (rejects_pure _)]; omega
  case h_2 hform =>
    rw [rejects_test, rejects_bind_total fun _ => rejects_pure _, or_iff_left (immOf_total ww h)]; omega
  case h_3 hform => rw [rejects_bind_total fun _ => rejects_pure _, rejects_rmOf hrm h]; omega
  case h_4 =>
    simp only [imp_false] at *
    rw [rejects_bind_total fun _ => rejects_pure _, rejects_rmDest hrm h]
    omega

/-- A condition, then a test of the opcode word, then a part that never rejects. -/
theorem rejects_condition {α : Type} {n : Nat} (hn : n < 16) {c : Prop} [Decidable c] {e : DecodeError}
    {rest : Cond → Except DecodeError α} (h : ∀ cc, ¬ Rejects (rest cc)) :
    (Rejects do
      let cc ← condOf n
      if c then .error e else rest cc) ↔ 9 ≤ n ∨ c :=
  (rejects_bind fun cc _ => rejects_test.trans (or_iff_left (h cc))).trans
    (or_congr_left (rejects_condOf hn))

theorem rejects_decodeBranch (h : 2 ≤ xs.length) : Rejects (decodeBranch w xs) ↔
    ((fld w 9 4 ∈ [0, 1, 3, 4] ∧ fld w 0 5 ≠ 0) ∨ (fld w 9 4 = 2 ∧ fld w 0 2 ≠ 0)) ∨
      (fld w 9 4 ≤ 2 ∧ 9 ≤ fld w 5 4) ∨ 5 ≤ fld w 9 4 ∨
      ((fld w 9 4 = 3 ∨ fld w 9 4 = 4) ∧ fld w 5 4 ≠ 0) := by
  have hcond : fld w 5 4 < 16 := Machine.fld_lt w 5 4
  have hword {α : Type} {f : Word16 × List Word16 → α} : ¬ Rejects (word1 xs >>= fun a => pure (f a)) :=
    (rejects_bind_total fun _ => rejects_pure _).not.2 (word1_total (by omega))
  have htarget {α : Type} {f : Data × List Word16 → α} : ¬ Rejects (word24 xs >>= fun a => pure (f a)) :=
    (rejects_bind_total fun _ => rejects_pure _).not.2 (word24_total h)
  simp only [List.mem_cons, List.not_mem_nil, or_false]
  unfold decodeBranch
  split
  case h_1 => rw [rejects_condition hcond fun _ => htarget]; omega
  case h_2 => rw [rejects_condition hcond fun _ => hword]; omega
  case h_3 => rw [rejects_condition hcond fun _ => rejects_pure _]; omega
  case h_4 => rw [rejects_test, rejects_test, or_iff_left htarget]; omega
  case h_5 => rw [rejects_test, rejects_test, or_iff_left (rejects_pure _)]; omega
  case h_6 =>
    simp only [imp_false] at *
    exact iff_of_true (rejects_error _) (by omega)

/-- Opcode-word checks come before the bit number, which the first extension word `x` holds (R128). -/
theorem rejects_decodeBit {x : Word16} (h : 2 ≤ xs.length) (hsub : 2 ≤ fld w 10 3 ∧ fld w 10 3 ≤ 4) :
    Rejects (decodeBit w (x :: xs)) ↔ fld w 8 2 = 3 ∨ fld w 0 2 ≠ 0 ∨ 62 ≤ fld w 2 6 ∨
      ((fld w 10 3 = 3 ∨ fld w 10 3 = 4) ∧ fld w 2 6 = 61) ∨ 8 * (fld w 8 2 + 1) ≤ fld x 0 5 := by
  have hrm : fld w 2 6 < 64 := Machine.fld_lt w 2 6
  refine (rejects_bind fun ww hww => rejects_test.trans (or_congr_right ?_)).trans
    (or_congr_left (rejects_widthOf (Machine.fld_lt w 8 2)))
  have hbit := rejects_bitNumber ww x
  rw [widthOf_bits hww] at hbit
  have hnumber {f : BitVec 5 → Instr × List Word16} :
      (Rejects do let n ← bitNumber ww x; pure (f n)) ↔ 8 * (fld w 8 2 + 1) ≤ fld x 0 5 :=
    (rejects_bind_total fun _ => rejects_pure _).trans hbit
  rw [bind_word1]
  dsimp only
  split
  case h_1 hform =>
    rw [rejects_bind fun _ _ => hnumber, rejects_rmOf hrm h]
    simp [hform]
  case h_2 hform =>
    rw [rejects_bind fun _ _ => hnumber, rejects_rmDest hrm h]
    simp [hform, or_assoc, or_left_comm]
  case h_3 =>
    simp only [imp_false] at *
    have hform : fld w 10 3 = 4 := by omega
    rw [rejects_bind fun _ _ => hnumber, rejects_rmDest hrm h]
    simp [hform, or_assoc, or_left_comm]

theorem rejects_decodeOther {x : Word16} (h : 2 ≤ xs.length) : Rejects (decodeOther w (x :: xs)) ↔
    (fld w 10 3 ≤ 5 ∧ fld w 8 2 = 3) ∨
      ((fld w 10 3 ≤ 1 ∧ fld w 0 5 ≠ 0) ∨ (2 ≤ fld w 10 3 ∧ fld w 10 3 ≤ 5 ∧ fld w 0 2 ≠ 0) ∨
        (6 ≤ fld w 10 3 ∧ fld w 0 7 ≠ 0)) ∨
      (fld w 10 3 = 5 ∧ fld w 2 3 = 7) ∨
      (2 ≤ fld w 10 3 ∧ fld w 10 3 ≤ 4 ∧ 62 ≤ fld w 2 6) ∨
      ((fld w 10 3 = 3 ∨ fld w 10 3 = 4) ∧ fld w 2 6 = 61) ∨
      (2 ≤ fld w 10 3 ∧ fld w 10 3 ≤ 4 ∧ 8 * (fld w 8 2 + 1) ≤ fld x 0 5) := by
  have hwidth := rejects_widthOf (Machine.fld_lt w 8 2)
  have hsub : fld w 10 3 < 8 := Machine.fld_lt w 10 3
  unfold decodeOther
  split
  case h_1 hform | h_2 hform =>
    rw [rejects_bind fun _ _ => rejects_test.trans (or_iff_left (rejects_pure _)), hwidth]
    simp [hform]
  case h_3 hform =>
    rw [rejects_bind fun ww _ => rejects_test.trans (or_congr_right ((rejects_bind_total fun _ =>
      rejects_pure _).trans (rejects_shiftForm (Machine.fld_lt w 2 3) ww _))), hwidth]
    simp [hform]
  case h_4 hform | h_5 hform =>
    rw [rejects_test, bind_word1, or_iff_left (rejects_pure _)]
    simp [hform]
  case h_6 =>
    simp only [imp_false] at *
    have hform : fld w 10 3 = 2 ∨ fld w 10 3 = 3 ∨ fld w 10 3 = 4 := by omega
    rw [rejects_decodeBit h (by omega)]
    rcases hform with hform | hform | hform <;> simp [hform]

theorem rejects_decodeFlagMove : Rejects (decodeFlagMove w xs) ↔ fld w 3 9 ≠ 0 := by
  refine rejects_test.trans (or_iff_left ?_)
  split <;> exact rejects_ok _

end

/-- Settles O6: each group rejects by its own causes, and the other groups are reserved. -/
theorem invalidCauses : Obligations.InvalidCauses := by
  intro admitted w x ws hlen
  have hgroup : fld w 13 3 < 8 := Machine.fld_lt w 13 3
  have hxs : 2 ≤ (x :: ws).length := by simp only [List.length_cons]; omega
  change Rejects (decodeWords admitted (w :: x :: ws)) ↔ _
  rw [decodeWords]
  split
  case h_1 hg => rw [rejects_decodeAlu hxs]; simp [hg]
  case h_2 hg => rw [rejects_decodeLoad hxs]; simp [hg]
  case h_3 hg => rw [rejects_decodeBranch hxs]; simp [hg]
  case h_4 hg =>
    cases admitted with
    | true => rw [if_pos rfl, rejects_decodeOther (by omega)]; simp [hg]
    | false => simp [hg]
  case h_5 hg => rw [rejects_decodeFlagMove]; simp [hg]
  case h_6 =>
    simp only [imp_false] at *
    have hg : fld w 13 3 = 0 ∨ fld w 13 3 = 6 ∨ fld w 13 3 = 7 := by omega
    exact iff_of_true (rejects_error _) (or_assoc.1 (or_assoc.1 (.inl (or_assoc.2 hg))))

end Sys2Proof
end

