-- ==== Sys2Proof/Proofs/ResetFamily.lean ====
section
/-! PROOFS. The statements of spec/70_reset_and_hazards.md: what reset leaves (R431, R432), and that the
machine's invariant holds there. -/

namespace Sys2Proof.Machine

/-- Settles O1: the registers are eight unwritten ones, and every other item is a field of the reset state. -/
theorem resetState : Obligations.ResetState := by
  intro c m s
  have hregs (i : Reg) : s.regs[i] = ⟨0, 0⟩ := Vector.getElem_replicate _
  refine ⟨fun i => congrArg GReg.lanes (hregs i), ?_⟩
  and_intros <;> rfl

section
variable (c : Config) (m : Memory)

/-- The front end holds no word after reset, so no two words are out of sequence. -/
theorem resetWith_frontOk : (State.resetWith c m).frontOk = true :=
  frontOk_iff.2 ⟨rfl, .inr rfl, iff_of_true rfl (.inl rfl), .inl rfl, nofun⟩

/-- After reset every stage waits and the controller is READY (R431). -/
theorem resetWith_ordered : (State.resetWith c m).Ordered where
  front := resetWith_frontOk c m
  room := decide_eq_true (Nat.zero_le _)
  asked := rfl
  counted := rfl
  port := rfl
  resolved := rfl
  placed := rfl
  word := rfl
  pending := rfl
  hand := nofun
  slot := nofun

/-- The invariant holds at reset under all parameters in order and with all contents of memory in canonical
form. -/
theorem resetWith_inv {c : Config} {m : Memory} (hcfg : c.valid = true) (hmem : m.wf = true) :
    Inv (State.resetWith c m) where
  cfg := hcfg
  mem := wf_reset c hmem
  lawful := nofun
  ordered _ := resetWith_ordered c m

end

/-- Settles O2: the defaults of R8 are in order, and the empty memory is canonical. -/
theorem resetInv : Obligations.ResetInv := resetWith_inv (by decide) rfl

end Sys2Proof.Machine
end
